-- ==== Sys2Proof/Word.lean ====
section
/-! DEFINITION. The word types of Llynham: bytes, 64-bit words, 512-bit vectors, and the names of the places
where a thread can run (R4, R11, R17). -/

namespace Sys2Proof

abbrev Byte := BitVec 8
abbrev Half := BitVec 16
abbrev Word := BitVec 64
/-- A vector register: 64 bytes (R16, R293). -/
abbrev Vec := BitVec 512

/-- Where a slot lies: compute core n (R11: cluster index × 4 + place in the cluster), or the slice core under
cluster position n (R17). -/
inductive Place where
  | core (n : Nat)
  | slice (n : Nat)
  deriving DecidableEq, Repr, Inhabited

/-- One thread slot of one place (R27, R53). -/
structure Sid where
  pl : Place
  k : Nat
  deriving DecidableEq, Repr, Inhabited

end Sys2Proof
end

