-- ==== Sys2Proof/Syntax.lean ====
section
/-! DEFINITION. The steps of the machine: one constructor per row of spec/opcode_table.json. The first 200 and
`unassignedOpcode` are what a slot finds in an instruction word (R200-R216); the others are the events of the device
and of its host, each whole and indivisible (95_what_each_step_holds). Fields are as narrow as the encoding allows;
WellFormed.lean states what the narrow types leave open. -/

namespace Sys2Proof

/-- A register field of the R format with its relative bit (R204, R206). -/
structure Fld where
  code : BitVec 6
  rel : Bool
  deriving DecidableEq, Repr, Inhabited

/-- Fields d, a and b of an R-format instruction. -/
structure DAB where
  d : Fld
  a : Fld
  b : Fld
  deriving DecidableEq, Repr, Inhabited

/-- Fields d and a of an R-format instruction. -/
structure DA where
  d : Fld
  a : Fld
  deriving DecidableEq, Repr, Inhabited

/-- Fields of an I-format instruction with a 32-bit immediate (R207). -/
structure IOp where
  d : BitVec 6
  a : BitVec 6
  imm : BitVec 32
  deriving DecidableEq, Repr, Inhabited

/-- Fields of an I-format shift: only imm[5:0] is used (R248). -/
structure IShift where
  d : BitVec 6
  a : BitVec 6
  sh : BitVec 6
  deriving DecidableEq, Repr, Inhabited

/-- A bit-field instruction (R251): fn[5:0] holds width − 1 and spec[5:0] the position. -/
structure BitField where
  d : Fld
  a : Fld
  width1 : BitVec 6
  pos : BitVec 6
  deriving DecidableEq, Repr, Inhabited

/-- The address fields of the M format (R208). -/
structure MAddr where
  a : BitVec 4
  b : BitVec 4
  scl : BitVec 2
  off : BitVec 20
  deriving DecidableEq, Repr, Inhabited

/-- A scalar load or store: data register, address, size code, sign extension (R208, R267). -/
structure MOp where
  d : BitVec 6
  ad : MAddr
  sz : BitVec 2
  sx : Bool
  deriving DecidableEq, Repr, Inhabited

/-- An atomic of the X format (R277): d names g0 to g9. -/
structure AtomicOp where
  d : BitVec 4
  a : BitVec 6
  b : BitVec 6
  dword : Bool
  sc : BitVec 3
  off : BitVec 20
  deriving DecidableEq, Repr, Inhabited

/-- Scalar floating-point fields (R285): `ty` is the type code less 4. -/
structure FOp where
  d : Fld
  a : Fld
  b : Fld
  ty : BitVec 2
  deriving DecidableEq, Repr, Inhabited

/-- Scalar floating-point fields of a one-source instruction. -/
structure FUn where
  d : Fld
  a : Fld
  ty : BitVec 2
  deriving DecidableEq, Repr, Inhabited

/-- A vector instruction with two vector sources, a mask and a type (R293). `uns` is spec[5]. -/
structure V3 where
  d : Fld
  a : Fld
  b : Fld
  c : BitVec 4
  ty : BitVec 3
  uns : Bool
  deriving DecidableEq, Repr, Inhabited

/-- A vector instruction with one source, a mask and a type (R293). -/
structure V2 where
  d : Fld
  a : Fld
  c : BitVec 4
  ty : BitVec 3
  uns : Bool
  deriving DecidableEq, Repr, Inhabited

/-- A queued tile operation (R325). -/
structure TileOp where
  acc : BitVec 2
  a : BitVec 6
  b : BitVec 6
  c : BitVec 6
  hi : Bool
  trg : BitVec 2
  gt : BitVec 4
  deriving DecidableEq, Repr, Inhabited

/-- An engine command (R333): notification mode and tender. -/
structure EngineOp where
  d : BitVec 6
  a : BitVec 6
  b : BitVec 6
  c : BitVec 6
  ntf : BitVec 2
  tnd : BitVec 4
  deriving DecidableEq, Repr, Inhabited

/-- A carriage instruction (R214, R349): index base a, operand b, word, window index, marks. -/
structure CarOp where
  d : BitVec 4
  a : BitVec 4
  b : BitVec 4
  w : BitVec 3
  idx : BitVec 16
  acq : Bool
  rel : Bool
  deriving DecidableEq, Repr, Inhabited

/-- The DRAM channels and the coupling lanes (coupling × 16 + lane) that fail their test at boot (R469). -/
structure BadLinks where
  channels : List Nat
  lanes : List Nat
  deriving DecidableEq, Repr, Inhabited

/-- What an update writes (R469): its digest, and for a configuration record the units that it does not enable, by their
identifiers (R460). -/
structure FlashContent where
  digest : Nat
  off : List Word
  deriving DecidableEq, Repr, Inhabited

/-- What an uncorrectable soft error strikes (R463, R464). -/
inductive ErrorSite where
  /-- the line of a DRAM address -/
  | line (pa : Nat)
  /-- state that the thread of a slot reads -/
  | thread (pl : Place) (k : Nat)
  /-- a line of host memory, which the host marks bad or mends (R461, R464) -/
  | hostLine (pa : Nat) (bad : Bool)
  /-- an entry of a place's instruction cache, of its micro-TLB, of a cluster's TLB: parity (R463) -/
  | icache (pl : Place) (n : Nat)
  | microTlb (pl : Place) (n : Nat)
  | clusterTlb (cl : Nat) (n : Nat)
  deriving DecidableEq, Repr, Inhabited

inductive Instr where
  -- system (R230-R245)
  | nop
  | exit
  | trap (a : BitVec 6) (cause : BitVec 16)
  | sysc (n : BitVec 32)
  | eret
  | uret
  | mfs (d : BitVec 6) (num : BitVec 9)
  | mts (a : BitVec 6) (num : BitVec 9)
  | slotOwnerWrite (n : BitVec 3) (a : BitVec 6)
  | refillLevelWrite (a : BitVec 6)
  | sleep (n : BitVec 32)
  | wake (a : BitVec 6)
  | cfgbank (m : BitVec 10)
  | tlbinvPage (a : Fld)
  | tlbinvAsid (a : Fld)
  | tlbinvAll
  | ctxsave (o : DA)
  | ctxload (a : Fld) (b : Fld)
  | hevent (a : BitVec 6) (code : BitVec 16)
  | cyc (d : BitVec 6)
  -- integer (R246-R256)
  | add (o : DAB)
  | sub (o : DAB)
  | mul (o : DAB)
  | mulh (o : DAB)
  | mulhu (o : DAB)
  | div (o : DAB)
  | divu (o : DAB)
  | rem (o : DAB)
  | remu (o : DAB)
  | and (o : DAB)
  | or (o : DAB)
  | xor (o : DAB)
  | andn (o : DAB)
  | sll (o : DAB)
  | srl (o : DAB)
  | sra (o : DAB)
  | min (o : DAB)
  | max (o : DAB)
  | minu (o : DAB)
  | maxu (o : DAB)
  | addw (o : DAB)
  | subw (o : DAB)
  | addi (o : IOp)
  | andi (o : IOp)
  | ori (o : IOp)
  | xori (o : IOp)
  | slli (o : IShift)
  | srli (o : IShift)
  | srai (o : IShift)
  | muli (o : IOp)
  | li (d : BitVec 6) (imm : BitVec 32)
  | lih (d : BitVec 6) (imm : BitVec 32)
  | mov (o : DA)
  | clz (o : DA)
  | ctz (o : DA)
  | popc (o : DA)
  | bfx (o : BitField)
  | bfi (o : BitField)
  | sel (o : DAB) (c : BitVec 4)
  | madd (o : DAB) (c : BitVec 6)
  | lea (o : DAB) (s : BitVec 2)
  | widf (d : Fld) (k : BitVec 3)
  | cellh (o : DAB) (c : BitVec 6)
  | geom (d : Fld) (c : BitVec 4)
  -- predicates and control (R257-R263, R292)
  | cmp (p : BitVec 4) (cond : BitVec 3) (a : Fld) (b : Fld)
  | cmpi (p : BitVec 4) (cond : BitVec 3) (a : BitVec 6) (imm : BitVec 32)
  | plog (p : BitVec 4) (pa : BitVec 4) (pb : BitVec 4) (table : BitVec 4)
  | pset (p : BitVec 4) (v : Bool)
  | psetPw (mask : BitVec 16)
  | bra (off : BitVec 41)
  | call (d : BitVec 4) (off : BitVec 41)
  | jmp (d : Fld) (a : Fld)
  | loop (d : BitVec 4) (off : BitVec 41)
  | fcmp (p : BitVec 4) (cond : BitVec 3) (ty : BitVec 2) (a : Fld) (b : Fld)
  -- memory (R264-R283)
  | ld (o : MOp)
  | st (d : BitVec 6) (ad : MAddr) (sz : BitVec 2)
  | lda (o : MOp) (sc : BitVec 3)
  | stl (d : BitVec 6) (ad : MAddr) (sz : BitVec 2) (sc : BitVec 3)
  | stt (d : BitVec 6) (ad : MAddr) (sz : BitVec 2)
  | lsrmw (d : BitVec 6) (a : BitVec 6) (b : BitVec 6) (op : BitVec 4) (dword : Bool) (off : BitVec 20)
  | pref (ad : MAddr)
  | clean (ad : MAddr)
  | inval (ad : MAddr)
  | fenceAcq (sc : BitVec 3)
  | fenceRel (sc : BitVec 3)
  | fenceFull (sc : BitVec 3)
  | fenceAck
  | vld (d : BitVec 6) (ad : MAddr)
  | vst (d : BitVec 6) (ad : MAddr)
  | vgath (d : Fld) (a : Fld) (b : Fld) (c : BitVec 4) (ty : BitVec 3)
  | vscat (d : Fld) (a : Fld) (b : Fld) (c : BitVec 4) (ty : BitVec 3)
  | reside (ad : MAddr)
  | unpin (ad : MAddr)
  | amo (op : BitVec 4) (o : AtomicOp)
  | cas (o : AtomicOp)
  | famo (op : BitVec 2) (o : AtomicOp)
  | red (op : BitVec 3) (a : BitVec 6) (b : BitVec 6) (dword : Bool) (sc : BitVec 3) (off : BitVec 20)
  | goto (a : BitVec 6)
  | gotoHome (a : BitVec 6)
  | home (d : BitVec 6) (a : BitVec 6) (off : BitVec 20)
  -- scalar floating point (R285-R291)
  | fadd (o : FOp)
  | fsub (o : FOp)
  | fmul (o : FOp)
  | ffma (o : FOp) (c : BitVec 6)
  | fdiv (o : FOp)
  | fsqrt (o : FUn)
  | fmin (o : FOp)
  | fmax (o : FOp)
  | fsgn (o : FOp) (mode : BitVec 2)
  | fclass (o : FUn)
  | fcvt (o : FUn) (tgt : BitVec 3) (unsT : Bool)
  -- vectors (R293-R304)
  | vadd (o : V3)
  | vsub (o : V3)
  | vmul (o : V3)
  | vfma (o : V3)
  | vmin (o : V3)
  | vmax (o : V3)
  | vabs (o : V2)
  | vneg (o : V2)
  | vdiv (o : V3)
  | vsel (o : V3)
  | vand (o : V3)
  | vor (o : V3)
  | vxor (o : V3)
  | vshl (o : V3)
  | vshr (o : V3)
  | vrcp (o : V2)
  | vrsq (o : V2)
  | vexp2 (o : V2)
  | vlog2 (o : V2)
  | vsqrt (o : V2)
  | vdot4 (o : V3)
  | vcvt (o : V2) (tgt : BitVec 3) (unsT : Bool)
  | vcvtWiden (o : V2)
  | vcvtNarrow (o : V2)
  | vcmp (o : V3) (cond : BitVec 3)
  | vred (o : V2) (op : BitVec 3)
  | vscan (o : V2) (op : BitVec 3)
  | vbcast (o : V2)
  | vext (o : DAB) (ty : BitVec 3)
  | vperm (o : V3)
  | vcompress (o : V2) (p : BitVec 4)
  | vexpand (o : V2)
  | viota (o : V2)
  | vtopk (o : V2) (k1 : BitVec 3) (norm : Bool) (p : BitVec 4)
  -- streams, sequencer, palettes, shadows (R305-R313)
  | scfg (n : BitVec 2) (wr : Bool) (a : BitVec 6) (off : BitVec 20)
  | sclose (n : BitVec 2)
  | vseq (n : BitVec 5)
  | vseqw
  | palw (pal : Bool) (nan7f : Bool) (a : BitVec 6) (off : BitVec 20)
  | enc8 (o : V2) (alt : Bool)
  | dec8 (o : V2) (alt : Bool)
  | fmtsetFmt (v : BitVec 20)
  | fmtsetScale (v : BitVec 32)
  -- matrix (R316-R332)
  | mclaim (acc : BitVec 2)
  | mclaimRel (acc : BitVec 2)
  | mgeo (a : BitVec 6)
  | mma (acc : BitVec 2) (a : BitVec 6) (b : BitVec 6) (c : BitVec 6)
  | mmq (o : TileOp)
  | mmag (o : TileOp)
  | mmpop (hi : Bool) (d : BitVec 6)
  | mzero (acc : BitVec 2) (i32 : Bool)
  | mload (acc : BitVec 2) (a : BitVec 6) (c : BitVec 6)
  | mstore (acc : BitVec 2) (a : BitVec 6) (c : BitVec 6)
  -- engines, tenders, channels (R333-R347)
  | xcpy (o : EngineOp)
  | xgath (o : EngineOp)
  | xcoll (o : EngineOp) (kind : BitVec 3)
  | xpop (d : BitVec 6)
  | tcfg (t : BitVec 4) (a : BitVec 6)
  | tadvFill (t : BitVec 4) (n : BitVec 8)
  | tadvFree (t : BitVec 4) (n : BitVec 8)
  | twaitFill (t : BitVec 4) (n : BitVec 8)
  | twaitFree (t : BitVec 4) (n : BitVec 8)
  | chopen (n : BitVec 3) (a : BitVec 6)
  | chgrant (n : BitVec 3) (cnt : BitVec 16)
  | chalt (d : BitVec 6) (a : BitVec 6)
  | chclose (n : BitVec 3)
  -- carriages (R349-R357)
  | cload (o : CarOp)
  | cop (o : CarOp) (op : BitVec 4)
  | ccas (o : CarOp)
  | cstore (o : CarOp)
  | cstoreSeat (o : CarOp)
  | cwait (o : CarOp) (cond : BitVec 3)
  | board (a : BitVec 4) (b : BitVec 4) (idx : BitVec 16)
  | alight (a : BitVec 4) (b : BitVec 4) (idx : BitVec 16)
  | carriveJoin (o : CarOp)
  | carriveArrive (o : CarOp)
  | carriveDepart (o : CarOp)
  | cphase (o : CarOp)
  -- Yard (R358-R365)
  | ypush (a : BitVec 4)
  | ycont (d : BitVec 4) (a : BitVec 4)
  | ydone (a : BitVec 4)
  | ypop (d : BitVec 4) (a : BitVec 4)
  | yfloor (d : BitVec 4)
  | yreach (d : BitVec 4) (a : BitVec 4)
  | yopen (d : BitVec 4) (a : BitVec 4)
  -- Mordant (R366-R368)
  | spec (d : BitVec 4) (a : BitVec 4)
  | scall (a : BitVec 4)
  | skeep (a : BitVec 4)
  | sfree (a : BitVec 4)
  /-- a word whose opcode R214 leaves unassigned (R438) -/
  | unassignedOpcode (w : Word)
  -- device events
  | residualUnitsFreed (launch : Nat) (unit : Nat)
  | taskPop (core : Nat) (slot : Nat)
  | runQueueTake (pl : Place) (slot : Nat)
  | gatherStartRelease (launch : Nat) (cluster : Nat)
  | migrationDeparture (pl : Place) (slot : Nat)
  | sleeperSwapOut (pl : Place) (slot : Nat)
  | sleepTimeout (pl : Place) (slot : Nat)
  | ownerChangeEffect (core : Nat) (slot : Nat)
  | footprintFill (core : Nat) (entry : Nat)
  | footprintFillFault (core : Nat) (entry : Nat)
  | sequencerIssue (core : Nat) (slot : Nat)
  | streamPrefetch (core : Nat) (slot : Nat) (n : BitVec 2)
  | userInterruptEntry (core : Nat) (slot : Nat)
  | sidingRefill (core : Nat) (launch : Nat)
  | stealRequest (thief : Nat) (launch : Nat) (k : Nat)
  /-- `words` is empty when a record is sent and holds the eight words of the record when one arrives. -/
  | coupledYardTransfer (launch : Nat) (words : List Word)
  | lateFaultDelivery (core : Nat) (slot : Nat)
  | sliceCoreTrapReturn (slice : Nat) (slot : Nat)
  -- Umber, the queues and the host
  /-- Umber's choices at an opening: the launch number, the core of the root task, the region rectangle. -/
  | launch (queue : Nat) (number : Nat) (rootCore : Nat) (rect : BitVec 20)
  | queueEnableWrite (queue : Nat) (words : List Word)
  | eventRingConfigure (base : Word) (size : BitVec 32)
  | eventPost (code : BitVec 16) (location : BitVec 32) (detail : Word) (launchId : Word)
  | eventHeadAdvance (head : Word)
  | couplingTableWrite (deviceId : BitVec 8) (group : BitVec 8) (bytes : List Byte)
  /-- A write when `bytes` is given, a read of `n` bytes otherwise. -/
  | hostCxlMemAccess (pa : Nat) (n : Nat) (bytes : Option (List Byte))
  | correctableError (unit : Word)
  | uncorrectableError (site : ErrorSite) (unit : Word)
  | thermalTrip (temp : Word)
  | thermalTripClear (temp : Word)
  /-- What boot finds: whether the secure flash can be read, and the clusters, slices, DRAM channels and coupling lanes that
  fail their test. -/
  | boot (flash : Bool) (badClusters : List Nat) (badSlices : List Nat) (badLinks : BadLinks)
  /-- `target` 0 image A, 1 image B, 2 configuration record; `verifies` the outcome of the signature check. -/
  | firmwareUpdate (target : Nat) (content : FlashContent) (verifies : Bool)
  | attestationRequest (valid : Bool)
  | hostLinkTraining (lanes : Nat) (gts : Nat)
  | ideKmKeySet (protocol : Nat)
  | errorCountWindowEnd (unit : Word)
  -- events of one numbered thing (a thing in transit, a launch, a carriage, a queue, a core, a line, a coupling):
  -- the step puts its number into State.subj before it runs the event
  | migrationArrival
  | variableResultArrival
  | writePerformedAtHome
  | remoteUpdateApply
  | remoteRequest
  | tlbWalkComplete
  | wakeArrival
  | channelWordArrival
  | channelGrantArrival
  | cfgbankComplete
  | tileOpIssue
  | tileOpComplete
  | engineCompletion
  | combiningHoldExpiry
  | revolutionStart
  | captureApply
  | captureCompletion
  | barrierAdvance
  | boardDataSeat
  | alightLanded
  | floorCarriagePass
  | depotPass
  | farTaskAgent
  | floorRelief
  | ydoneDecrement
  | exitPacketArrival
  | allAsleepTrap
  | tailMonitorWake
  | queueTableRead
  | shareRecompute
  | wait
  | phase
  | copy
  | signal
  | packetError
  | launchCompletion
  | overflowCountClear
  | couplingStart
  | ringBeatError
  | patrolScrub
  | couplingLost
  | thermalZeroRefill
  | hostSnoopResponse
  | hostCxlCacheSnoop
  deriving DecidableEq, Repr, Inhabited

end Sys2Proof
end

