-- ==== Sys2Proof/WellFormed.lean ====
section
/-! DEFINITION. What the narrow types of Syntax.lean leave open: the register codes of R211 and R212, the types of
R205, the reserved variant values of R215, and the ranges of an event's operands. -/

namespace Sys2Proof

/-- A general code readable as a source: all but 0x1B to 0x1F (R211). -/
def srcOk (c : BitVec 6) : Bool := decide (c.toNat ≤ 0x1A) || decide (0x20 ≤ c.toNat)

/-- A general code writable as a destination: a source code other than wid (R211). -/
def dstOk (c : BitVec 6) : Bool := decide (c.toNat ≤ 0x19) || decide (0x20 ≤ c.toNat)

/-- A general source field: a relative bit stands on a private register only (R206). -/
def Fld.src (f : Fld) : Bool := srcOk f.code && (!f.rel || decide (f.code.toNat < 16))

/-- A general destination field (R206, R211). -/
def Fld.dst (f : Fld) : Bool := dstOk f.code && (!f.rel || decide (f.code.toNat < 16))

/-- A vector field: every code names f0 to f31 or c0 to c31; a relative bit needs an f code (R206, R212). -/
def Fld.vec (f : Fld) : Bool := !f.rel || decide (f.code.toNat < 32)

def DAB.gen (o : DAB) : Bool := o.d.dst && o.a.src && o.b.src

def FOp.gen (o : FOp) : Bool := o.d.dst && o.a.src && o.b.src

def V3.vecs (o : V3) : Bool := o.d.vec && o.a.vec && o.b.vec

def V2.vecs (o : V2) : Bool := o.d.vec && o.a.vec

/-- Types 0 to 3 are the integer types (R205). -/
def isInt (ty : BitVec 3) : Bool := decide (ty.toNat < 4)

def tyIn (ty : BitVec 3) (l : List Nat) : Bool := l.contains ty.toNat

/-- Scopes 0 to 5; 6 and 7 are reserved (R208). -/
def scOk (sc : BitVec 3) : Bool := decide (sc.toNat ≤ 5)

/-- The numbers of the special registers (R218). -/
def specialNumbers : List Nat :=
  [0x000, 0x001, 0x002, 0x003, 0x004, 0x005, 0x006, 0x007, 0x008, 0x009, 0x010, 0x011, 0x012, 0x013, 0x014, 0x015,
   0x020, 0x030, 0x031, 0x040, 0x050, 0x100, 0x101, 0x102, 0x103, 0x104, 0x105, 0x106, 0x107, 0x110, 0x120, 0x130,
   0x140, 0x141, 0x142, 0x150, 0x160]

/-- A number MFS may read (R218, R219). -/
def mfsDefined (num : BitVec 9) : Bool := specialNumbers.contains num.toNat

/-- A number MTS may write and that no constructor of its own covers (R218, R219). -/
def mtsPlain (num : BitVec 9) : Bool :=
  mfsDefined num && !(decide (0x100 ≤ num.toNat) && decide (num.toNat ≤ 0x107)) && num.toNat != 0x110

/-- Core numbers 0 to 4,095, slice numbers 0 to 1,023 (R11, R17). -/
def Place.ok : Place → Bool
  | .core n => decide (n < 4096)
  | .slice n => decide (n < 1024)

/-- The unassigned opcodes (R214, R438). -/
def unassigned (op : Nat) : Bool :=
  (decide (0x3C ≤ op) && decide (op ≤ 0x3F)) || (decide (0x49 ≤ op) && decide (op ≤ 0x4F)) ||
  (decide (0x66 ≤ op) && decide (op ≤ 0x6F)) || (decide (0x7B ≤ op) && decide (op ≤ 0x7F)) ||
  (decide (0xA8 ≤ op) && decide (op ≤ 0xAF)) || (decide (0xB9 ≤ op) && decide (op ≤ 0xBF)) ||
  (decide (0xCB ≤ op) && decide (op ≤ 0xCF)) || (decide (0xD9 ≤ op) && decide (op ≤ 0xDF)) ||
  (decide (0xE7 ≤ op) && decide (op ≤ 0xEF)) || decide (0xF4 ≤ op)

/-- The instruction's fields hold no value that R203 makes illegal, and an event's operands are in range (DEDUCED, log 66). -/
def Instr.wf : Instr → Bool
  | .nop => true
  | .exit => true
  | .trap a _ => srcOk a
  | .sysc _ => true
  | .eret => true
  | .uret => true
  | .mfs d num => dstOk d && mfsDefined num
  | .mts a num => srcOk a && mtsPlain num
  | .slotOwnerWrite _ a => srcOk a
  | .refillLevelWrite a => srcOk a
  | .sleep _ => true
  | .wake a => srcOk a
  | .cfgbank _ => true
  | .tlbinvPage a => a.src
  | .tlbinvAsid a => a.src
  | .tlbinvAll => true
  | .ctxsave o => o.d.dst && o.a.src
  | .ctxload a b => a.src && b.src
  | .hevent a _ => srcOk a
  | .cyc d => dstOk d
  | .add o => o.gen
  | .sub o => o.gen
  | .mul o => o.gen
  | .mulh o => o.gen
  | .mulhu o => o.gen
  | .div o => o.gen
  | .divu o => o.gen
  | .rem o => o.gen
  | .remu o => o.gen
  | .and o => o.gen
  | .or o => o.gen
  | .xor o => o.gen
  | .andn o => o.gen
  | .sll o => o.gen
  | .srl o => o.gen
  | .sra o => o.gen
  | .min o => o.gen
  | .max o => o.gen
  | .minu o => o.gen
  | .maxu o => o.gen
  | .addw o => o.gen
  | .subw o => o.gen
  | .addi o => dstOk o.d && srcOk o.a
  | .andi o => dstOk o.d && srcOk o.a
  | .ori o => dstOk o.d && srcOk o.a
  | .xori o => dstOk o.d && srcOk o.a
  | .muli o => dstOk o.d && srcOk o.a
  | .slli o => dstOk o.d && srcOk o.a
  | .srli o => dstOk o.d && srcOk o.a
  | .srai o => dstOk o.d && srcOk o.a
  | .li d _ => dstOk d
  | .lih d _ => dstOk d
  | .clz o => o.d.dst && o.a.src
  | .ctz o => o.d.dst && o.a.src
  | .popc o => o.d.dst && o.a.src
  | .mov o => o.d.dst && o.a.src
  | .bfx o => o.d.dst && o.a.src && decide (o.pos.toNat + o.width1.toNat + 1 ≤ 64)
  | .bfi o => o.d.dst && o.a.src && decide (o.pos.toNat + o.width1.toNat + 1 ≤ 64)
  | .sel o _ => o.gen
  | .madd o c => o.gen && srcOk c
  | .lea o _ => o.gen
  | .cellh o c => o.gen && srcOk c
  | .widf d k => d.dst && decide (k.toNat ≤ 5)
  | .geom d _ => d.dst
  | .cmp _ _ a b => a.src && b.src
  | .cmpi _ _ a _ => srcOk a
  | .plog _ _ _ _ => true
  | .pset _ _ => true
  | .psetPw _ => true
  | .bra _ => true
  | .call d _ => d != 0
  | .jmp d a => decide (d.code.toNat < 16) && decide (a.code.toNat < 16)
  | .loop d _ => d != 0
  | .fcmp _ cond _ a b => a.src && b.src && cond != 7
  | .ld o => dstOk o.d && (!o.sx || o.sz != 3)
  | .st d _ _ => srcOk d
  | .lda o sc => dstOk o.d && (!o.sx || o.sz != 3) && scOk sc
  | .stl d _ _ sc => srcOk d && scOk sc
  | .stt d _ _ => dstOk d
  | .lsrmw d a b op _ _ => dstOk d && srcOk a && srcOk b && decide (op.toNat ≤ 8)
  | .pref _ => true
  | .clean _ => true
  | .inval _ => true
  | .reside _ => true
  | .unpin _ => true
  | .fenceAcq sc => scOk sc
  | .fenceRel sc => scOk sc
  | .fenceFull sc => scOk sc
  | .fenceAck => true
  | .vld _ _ => true
  | .vst _ _ => true
  | .vgath d a b _ ty => d.vec && a.src && b.vec && tyIn ty [0, 1, 4, 5]
  | .vscat d a b _ ty => d.vec && a.src && b.vec && tyIn ty [0, 1, 4, 5]
  | .amo op o => decide (o.d.toNat ≤ 9) && srcOk o.a && srcOk o.b && scOk o.sc && decide (op.toNat ≤ 8)
  | .cas o => decide (o.d.toNat ≤ 9) && srcOk o.a && srcOk o.b && scOk o.sc
  | .famo op o => decide (o.d.toNat ≤ 9) && srcOk o.a && srcOk o.b && scOk o.sc && decide (op.toNat ≤ 2)
  | .red _ a b _ sc _ => srcOk a && srcOk b && scOk sc
  | .goto a => srcOk a
  | .gotoHome a => srcOk a
  | .home d a _ => dstOk d && srcOk a
  | .fadd o => o.gen
  | .fsub o => o.gen
  | .fmul o => o.gen
  | .fdiv o => o.gen
  | .fmin o => o.gen
  | .fmax o => o.gen
  | .ffma o c => o.gen && srcOk c
  | .fsgn o mode => o.gen && mode != 3
  | .fsqrt o => o.d.dst && o.a.src
  | .fclass o => o.d.dst && o.a.src
  | .fcvt o tgt unsT => o.d.dst && o.a.src && (!unsT || decide (tgt.toNat ≤ 3))
  | .vadd o => o.vecs && true && !o.uns
  | .vsub o => o.vecs && true && !o.uns
  | .vmul o => o.vecs && true && !o.uns
  | .vfma o => o.vecs && true && !o.uns
  | .vmin o => o.vecs && true && (!o.uns || isInt o.ty)
  | .vmax o => o.vecs && true && (!o.uns || isInt o.ty)
  | .vdiv o => o.vecs && !isInt o.ty && !o.uns
  | .vsel o => o.vecs && true && !o.uns
  | .vand o => o.vecs && isInt o.ty && !o.uns
  | .vor o => o.vecs && isInt o.ty && !o.uns
  | .vxor o => o.vecs && isInt o.ty && !o.uns
  | .vshl o => o.vecs && isInt o.ty && !o.uns
  | .vshr o => o.vecs && isInt o.ty && (!o.uns || isInt o.ty)
  | .vdot4 o => o.vecs && tyIn o.ty [3] && (!o.uns || isInt o.ty)
  | .vperm o => o.vecs && true && !o.uns
  | .vabs o => o.vecs && true && !o.uns
  | .vneg o => o.vecs && true && !o.uns
  | .vrcp o => o.vecs && !isInt o.ty && !o.uns
  | .vrsq o => o.vecs && !isInt o.ty && !o.uns
  | .vexp2 o => o.vecs && !isInt o.ty && !o.uns
  | .vlog2 o => o.vecs && !isInt o.ty && !o.uns
  | .vsqrt o => o.vecs && !isInt o.ty && !o.uns
  | .vexpand o => o.vecs && tyIn o.ty [0, 1, 4, 5] && !o.uns
  | .viota o => o.vecs && isInt o.ty && !o.uns
  | .vcvt o tgt unsT => o.vecs && (!o.uns || isInt o.ty) && (!unsT || decide (tgt.toNat ≤ 3))
  | .vcvtWiden o => o.vecs && tyIn o.ty [5] && !o.uns
  | .vcvtNarrow o => o.vecs && tyIn o.ty [5] && !o.uns
  | .vcmp o cond => o.d.dst && o.a.vec && o.b.vec && tyIn o.ty [0, 1, 4, 5] && (!o.uns || isInt o.ty) && (isInt o.ty || cond != 7)
  | .vred o op => o.vecs && (!o.uns || isInt o.ty) && decide (op.toNat ≤ 5) && (isInt o.ty || decide (op.toNat ≤ 2))
  | .vscan o op => o.vecs && (!o.uns || isInt o.ty) && decide (op.toNat ≤ 5) && (isInt o.ty || decide (op.toNat ≤ 2))
  | .vbcast o => o.d.vec && o.a.src && !o.uns
  | .vext o _ => o.d.dst && o.a.vec && o.b.src
  | .vcompress o _ => o.vecs && tyIn o.ty [0, 1, 4, 5] && !o.uns
  | .vtopk o _ _ _ => o.vecs && tyIn o.ty [5] && !o.uns
  | .scfg _ _ a _ => srcOk a
  | .sclose _ => true
  | .vseq n => decide (1 ≤ n.toNat) && decide (n.toNat ≤ 16)
  | .vseqw => true
  | .palw _ _ a _ => srcOk a
  | .enc8 o _ => o.vecs && tyIn o.ty [0] && !o.uns
  | .dec8 o _ => o.vecs && tyIn o.ty [0] && !o.uns
  | .fmtsetFmt _ => true
  | .fmtsetScale _ => true
  | .mma _ a b c => srcOk a && srcOk b && srcOk c
  | .mmq o => srcOk o.a && srcOk o.b && srcOk o.c && o.trg != 3 && (o.trg != 0 || o.gt == 0)
  | .mmag o => srcOk o.a && srcOk o.b && srcOk o.c && o.trg != 3 && (o.trg != 0 || o.gt == 0)
  | .mmpop _ d => dstOk d
  | .mzero _ _ => true
  | .mclaim _ => true
  | .mclaimRel _ => true
  | .mstore _ a c => srcOk a && srcOk c
  | .mload _ a c => srcOk a && srcOk c
  | .mgeo a => srcOk a
  | .xcpy o => dstOk o.d && srcOk o.a && srcOk o.b && srcOk o.c && o.ntf != 3 && (o.ntf == 1 || o.tnd == 0)
  | .xgath o => dstOk o.d && srcOk o.a && srcOk o.b && srcOk o.c && o.ntf != 3 && (o.ntf == 1 || o.tnd == 0)
  | .xcoll o kind => dstOk o.d && srcOk o.a && srcOk o.b && srcOk o.c && o.ntf != 3 && (o.ntf == 1 || o.tnd == 0) && decide (kind.toNat ≤ 4)
  | .xpop d => dstOk d
  | .tcfg _ a => srcOk a
  | .tadvFill _ n => n != 0
  | .tadvFree _ n => n != 0
  | .twaitFill _ n => n != 0
  | .twaitFree _ n => n != 0
  | .chopen _ a => srcOk a
  | .chgrant _ cnt => cnt != 0
  | .chalt d a => dstOk d && srcOk a
  | .chclose _ => true
  | .cload o => decide (o.d.toNat ≤ 9) && o.b == 0
  | .cop o op => decide (o.d.toNat ≤ 9) && decide (op.toNat ≤ 8)
  | .ccas o => decide (o.d.toNat ≤ 9)
  | .cwait o _ => decide (o.d.toNat ≤ 9) && !o.rel
  | .cstore o => decide (o.d.toNat ≤ 9) && !o.acq
  | .cstoreSeat o => decide (o.d.toNat ≤ 9) && !o.acq
  | .board _ _ _ => true
  | .alight _ _ _ => true
  | .carriveJoin o => decide (o.d.toNat ≤ 9) && o.b == 0 && o.w == 0
  | .carriveArrive o => decide (o.d.toNat ≤ 9) && o.b == 0 && o.w == 0
  | .carriveDepart o => decide (o.d.toNat ≤ 9) && o.b == 0 && o.w == 0
  | .cphase o => decide (o.d.toNat ≤ 9) && o.w == 0
  | .ypush _ => true
  | .ydone _ => true
  | .ypop _ _ => true
  | .ycont _ _ => true
  | .yreach _ _ => true
  | .yopen _ _ => true
  | .yfloor _ => true
  | .spec _ _ => true
  | .scall _ => true
  | .sfree _ => true
  | .skeep _ => true
  | .residualUnitsFreed _ _ => true
  | .taskPop core slot => decide (core < 4096) && decide (slot < 8)
  | .runQueueTake pl slot => pl.ok && decide (slot < 8)
  | .gatherStartRelease _ cluster => decide (cluster < 1024)
  | .migrationArrival => true
  | .migrationDeparture pl slot => pl.ok && decide (slot < 8)
  | .sleeperSwapOut pl slot => pl.ok && decide (slot < 8)
  | .sleepTimeout pl slot => pl.ok && decide (slot < 8)
  | .ownerChangeEffect core slot => decide (core < 4096) && decide (slot < 8)
  | .variableResultArrival => true
  | .writePerformedAtHome => true
  | .remoteUpdateApply => true
  | .remoteRequest => true
  | .tlbWalkComplete => true
  | .footprintFill core entry => decide (core < 4096) && decide (entry < 256)
  | .footprintFillFault core entry => decide (core < 4096) && decide (entry < 256)
  | .wakeArrival => true
  | .channelWordArrival => true
  | .channelGrantArrival => true
  | .sequencerIssue core slot => decide (core < 4096) && decide (slot < 8)
  | .streamPrefetch core slot _ => decide (core < 4096) && decide (slot < 8)
  | .cfgbankComplete => true
  | .tileOpIssue => true
  | .tileOpComplete => true
  | .engineCompletion => true
  | .userInterruptEntry core slot => decide (core < 4096) && decide (slot < 8)
  | .combiningHoldExpiry => true
  | .revolutionStart => true
  | .captureApply => true
  | .captureCompletion => true
  | .barrierAdvance => true
  | .boardDataSeat => true
  | .alightLanded => true
  | .floorCarriagePass => true
  | .depotPass => true
  | .farTaskAgent => true
  | .floorRelief => true
  | .sidingRefill core _ => decide (core < 4096)
  | .stealRequest thief _ k => decide (thief < 4096) && decide (k < 4100)
  | .ydoneDecrement => true
  | .exitPacketArrival => true
  | .coupledYardTransfer _ words => decide (words.length = 0) || decide (words.length = 8)
  | .lateFaultDelivery core slot => decide (core < 4096) && decide (slot < 8)
  | .sliceCoreTrapReturn slice slot => decide (slice < 1024) && decide (slot < 8)
  | .allAsleepTrap => true
  | .tailMonitorWake => true
  | .queueTableRead => true
  | .shareRecompute => true
  | .launch queue number rootCore _ => decide (queue < 256) && decide (number < 65536) && decide (0 < number) && decide (rootCore < 4096)
  | .wait => true
  | .phase => true
  | .copy => true
  | .signal => true
  | .packetError => true
  | .launchCompletion => true
  | .queueEnableWrite queue words => decide (queue < 256) && decide (words.length = 8)
  | .eventRingConfigure _ _ => true
  | .eventPost _ _ _ _ => true
  | .eventHeadAdvance _ => true
  | .overflowCountClear => true
  | .couplingTableWrite _ _ bytes => decide (bytes.length = 64)
  | .couplingStart => true
  | .hostCxlMemAccess _ _ _ => true
  | .correctableError _ => true
  | .uncorrectableError _ _ => true
  | .ringBeatError => true
  | .patrolScrub => true
  | .couplingLost => true
  | .thermalTrip _ => true
  | .thermalZeroRefill => true
  | .thermalTripClear _ => true
  | .boot _ _ _ _ => true
  | .firmwareUpdate target _ _ => decide (target < 3)
  | .attestationRequest _ => true
  | .unassignedOpcode w => unassigned (w.extractLsb' 56 8).toNat
  | .hostLinkTraining _ _ => true
  | .hostSnoopResponse => true
  | .hostCxlCacheSnoop => true
  | .ideKmKeySet protocol => decide (protocol < 3)
  | .errorCountWindowEnd _ => true

end Sys2Proof
end

