-- ==== Sys2Proof/Decode.lean ====
section
/-! DEFINITION. The instruction word (R200-R217): its fields, the decoder (total, answering none for every illegal
word of R203 whose opcode is assigned) and the encoder. -/

namespace Sys2Proof

-- the header (R200)

def fOp (w : Word) : BitVec 8 := w.extractLsb' 56 8
def fG (w : Word) : BitVec 4 := w.extractLsb' 52 4
def fGn (w : Word) : Bool := w.getLsbD 51
def fEb (w : Word) : BitVec 4 := w.extractLsb' 47 4

-- the fields of the body (R204, R207-R210)

def fD (w : Word) : BitVec 6 := w.extractLsb' 41 6
def fA (w : Word) : BitVec 6 := w.extractLsb' 35 6
def fB (w : Word) : BitVec 6 := w.extractLsb' 29 6
def fC (w : Word) : BitVec 6 := w.extractLsb' 23 6
def fFn (w : Word) : BitVec 11 := w.extractLsb' 12 11
def fTy (w : Word) : BitVec 3 := w.extractLsb' 6 3
def fSpec (w : Word) : BitVec 6 := w.extractLsb' 0 6
def rA (w : Word) : Fld := ⟨fA w, w.getLsbD 11⟩
def rB (w : Word) : Fld := ⟨fB w, w.getLsbD 10⟩
def rD (w : Word) : Fld := ⟨fD w, w.getLsbD 9⟩
def rDAB (w : Word) : DAB := ⟨rD w, rA w, rB w⟩
def fFnI (w : Word) : BitVec 3 := w.extractLsb' 32 3
def immI (w : Word) : BitVec 32 := w.extractLsb' 0 32
def fSz (w : Word) : BitVec 3 := w.extractLsb' 26 3
def fSx (w : Word) : Bool := w.getLsbD 25
def fSc (w : Word) : BitVec 3 := w.extractLsb' 22 3
def mAddr (w : Word) : MAddr :=
  ⟨(fA w).setWidth 4, (fB w).setWidth 4, w.extractLsb' 20 2, w.extractLsb' 0 20⟩
def offB (w : Word) : BitVec 41 := w.extractLsb' 0 41
def fSub (w : Word) : BitVec 9 := w.extractLsb' 20 9
def immX (w : Word) : BitVec 20 := w.extractLsb' 0 20

/-- The fields of a carriage instruction: imm[15:0] index, imm[18:16] word, sub[4] .acq, sub[5] .rel (R214, R215). -/
def carOp (w : Word) : CarOp :=
  ⟨(fD w).setWidth 4, (fA w).setWidth 4, (fB w).setWidth 4, w.extractLsb' 16 3, w.extractLsb' 0 16,
   (fSub w).getLsbD 4, (fSub w).getLsbD 5⟩

/-- MTS by register: the slot owner words (R59) and the refill level (R62) are rows of their own in the table. -/
def candMts (w : Word) : Instr :=
  if (immI w).extractLsb' 3 6 = 0x20#6 then .slotOwnerWrite ((immI w).setWidth 3) (fA w)
  else if (immI w).setWidth 9 = 0x110#9 then .refillLevelWrite (fA w)
  else .mts (fA w) ((immI w).setWidth 9)

-- packers: a word with a zero guard and zero early-binding bits

def packR (op : BitVec 8) (d a b : Fld) (c : BitVec 6) (fn : BitVec 11) (ty : BitVec 3) (spec : BitVec 6) : Word :=
  op ++ 0#9 ++ d.code ++ a.code ++ b.code ++ c ++ fn ++ BitVec.ofBool a.rel ++ BitVec.ofBool b.rel ++
    BitVec.ofBool d.rel ++ ty ++ spec

def packI (op : BitVec 8) (d a : BitVec 6) (fn : BitVec 3) (imm : BitVec 32) : Word :=
  op ++ 0#9 ++ d ++ a ++ fn ++ imm

def packM (op : BitVec 8) (d : BitVec 6) (ad : MAddr) (sz : BitVec 3) (sx : Bool) (sc : BitVec 3) : Word :=
  op ++ 0#9 ++ d ++ (0#2 ++ ad.a) ++ (0#2 ++ ad.b) ++ sz ++ BitVec.ofBool sx ++ sc ++ ad.scl ++ ad.off

def packB (op : BitVec 8) (d : BitVec 6) (off : BitVec 41) : Word := op ++ 0#9 ++ d ++ off

def packX (op : BitVec 8) (d a b : BitVec 6) (sub : BitVec 9) (imm : BitVec 20) : Word :=
  op ++ 0#9 ++ d ++ a ++ b ++ sub ++ imm

/-- The sub-function of an atomic: scope, size, operation (R215). -/
def packSub (sc : BitVec 3) (dword : Bool) (op : BitVec 4) : BitVec 9 := sc ++ 0#1 ++ BitVec.ofBool dword ++ op

/-- The type code of a scalar floating-point instruction (R205). -/
def fpTy (ty : BitVec 2) : BitVec 3 := 1#1 ++ ty

/-- spec[5] selects unsigned lanes (R205). -/
def unsSpec (uns : Bool) : BitVec 6 := BitVec.ofBool uns ++ 0#5

/-- The word of an instruction with guard p0 (R204-R216); an event of the device has none. -/
def encode : Instr → Option Word
  | .nop => some (packR 0x00 ⟨0, false⟩ ⟨0, false⟩ ⟨0, false⟩ 0#6 0#11 0#3 0#6)
  | .exit => some (packR 0x01 ⟨0, false⟩ ⟨0, false⟩ ⟨0, false⟩ 0#6 0#11 0#3 0#6)
  | .trap a cause => some (packI 0x02 0#6 a 0#3 (cause.setWidth 32))
  | .sysc n => some (packI 0x03 0#6 0#6 0#3 n)
  | .eret => some (packR 0x04 ⟨0, false⟩ ⟨0, false⟩ ⟨0, false⟩ 0#6 0#11 0#3 0#6)
  | .uret => some (packR 0x05 ⟨0, false⟩ ⟨0, false⟩ ⟨0, false⟩ 0#6 0#11 0#3 0#6)
  | .mfs d num => some (packI 0x06 d 0#6 0#3 (num.setWidth 32))
  | .mts a num => some (packI 0x07 0#6 a 0#3 (num.setWidth 32))
  | .slotOwnerWrite n a => some (packI 0x07 0#6 a 0#3 (0x100#32 + n.setWidth 32))
  | .refillLevelWrite a => some (packI 0x07 0#6 a 0#3 0x110#32)
  | .sleep n => some (packI 0x08 0#6 0#6 0#3 n)
  | .wake a => some (packR 0x09 ⟨0, false⟩ ⟨a, false⟩ ⟨0, false⟩ 0#6 0#11 0#3 0#6)
  | .cfgbank m => some (packI 0x0A 0#6 0#6 0#3 (m.setWidth 32))
  | .tlbinvPage a => some (packR 0x0B ⟨0, false⟩ a ⟨0, false⟩ 0#6 0#11 0#3 0#6)
  | .tlbinvAsid a => some (packR 0x0B ⟨0, false⟩ a ⟨0, false⟩ 0#6 1#11 0#3 0#6)
  | .tlbinvAll => some (packR 0x0B ⟨0, false⟩ ⟨0, false⟩ ⟨0, false⟩ 0#6 2#11 0#3 0#6)
  | .ctxsave o => some (packR 0x0C o.d o.a ⟨0, false⟩ 0#6 0#11 0#3 0#6)
  | .ctxload a b => some (packR 0x0D ⟨0, false⟩ a b 0#6 0#11 0#3 0#6)
  | .hevent a code => some (packI 0x0E 0#6 a 0#3 (code.setWidth 32))
  | .cyc d => some (packR 0x0F ⟨d, false⟩ ⟨0, false⟩ ⟨0, false⟩ 0#6 0#11 0#3 0#6)
  | .add o => some (packR 0x10 o.d o.a o.b 0#6 0#11 0#3 0#6)
  | .sub o => some (packR 0x11 o.d o.a o.b 0#6 0#11 0#3 0#6)
  | .mul o => some (packR 0x12 o.d o.a o.b 0#6 0#11 0#3 0#6)
  | .mulh o => some (packR 0x13 o.d o.a o.b 0#6 0#11 0#3 0#6)
  | .mulhu o => some (packR 0x14 o.d o.a o.b 0#6 0#11 0#3 0#6)
  | .div o => some (packR 0x15 o.d o.a o.b 0#6 0#11 0#3 0#6)
  | .divu o => some (packR 0x16 o.d o.a o.b 0#6 0#11 0#3 0#6)
  | .rem o => some (packR 0x17 o.d o.a o.b 0#6 0#11 0#3 0#6)
  | .remu o => some (packR 0x18 o.d o.a o.b 0#6 0#11 0#3 0#6)
  | .and o => some (packR 0x19 o.d o.a o.b 0#6 0#11 0#3 0#6)
  | .or o => some (packR 0x1A o.d o.a o.b 0#6 0#11 0#3 0#6)
  | .xor o => some (packR 0x1B o.d o.a o.b 0#6 0#11 0#3 0#6)
  | .andn o => some (packR 0x1C o.d o.a o.b 0#6 0#11 0#3 0#6)
  | .sll o => some (packR 0x1D o.d o.a o.b 0#6 0#11 0#3 0#6)
  | .srl o => some (packR 0x1E o.d o.a o.b 0#6 0#11 0#3 0#6)
  | .sra o => some (packR 0x1F o.d o.a o.b 0#6 0#11 0#3 0#6)
  | .min o => some (packR 0x20 o.d o.a o.b 0#6 0#11 0#3 0#6)
  | .max o => some (packR 0x21 o.d o.a o.b 0#6 0#11 0#3 0#6)
  | .minu o => some (packR 0x22 o.d o.a o.b 0#6 0#11 0#3 0#6)
  | .maxu o => some (packR 0x23 o.d o.a o.b 0#6 0#11 0#3 0#6)
  | .addw o => some (packR 0x2B o.d o.a o.b 0#6 0#11 0#3 0#6)
  | .subw o => some (packR 0x2C o.d o.a o.b 0#6 0#11 0#3 0#6)
  | .addi o => some (packI 0x30 o.d o.a 0#3 o.imm)
  | .andi o => some (packI 0x31 o.d o.a 0#3 o.imm)
  | .ori o => some (packI 0x32 o.d o.a 0#3 o.imm)
  | .xori o => some (packI 0x33 o.d o.a 0#3 o.imm)
  | .muli o => some (packI 0x37 o.d o.a 0#3 o.imm)
  | .slli o => some (packI 0x34 o.d o.a 0#3 (o.sh.setWidth 32))
  | .srli o => some (packI 0x35 o.d o.a 0#3 (o.sh.setWidth 32))
  | .srai o => some (packI 0x36 o.d o.a 0#3 (o.sh.setWidth 32))
  | .li d imm => some (packI 0x38 d 0#6 0#3 imm)
  | .lih d imm => some (packI 0x39 d 0#6 0#3 imm)
  | .clz o => some (packR 0x24 o.d o.a ⟨0, false⟩ 0#6 0#11 0#3 0#6)
  | .ctz o => some (packR 0x25 o.d o.a ⟨0, false⟩ 0#6 0#11 0#3 0#6)
  | .popc o => some (packR 0x26 o.d o.a ⟨0, false⟩ 0#6 0#11 0#3 0#6)
  | .mov o => some (packR 0x3A o.d o.a ⟨0, false⟩ 0#6 0#11 0#3 0#6)
  | .bfx o => some (packR 0x27 o.d o.a ⟨0, false⟩ 0#6 (o.width1.setWidth 11) 0#3 o.pos)
  | .bfi o => some (packR 0x28 o.d o.a ⟨0, false⟩ 0#6 (o.width1.setWidth 11) 0#3 o.pos)
  | .sel o c => some (packR 0x29 o.d o.a o.b (c.setWidth 6) 0#11 0#3 0#6)
  | .madd o c => some (packR 0x2A o.d o.a o.b c 0#11 0#3 0#6)
  | .lea o s => some (packR 0x2D o.d o.a o.b 0#6 0#11 0#3 (s.setWidth 6))
  | .cellh o c => some (packR 0x2E o.d o.a o.b c 0#11 0#3 0#6)
  | .widf d k => some (packR 0x2F d ⟨0, false⟩ ⟨0, false⟩ 0#6 0#11 0#3 (k.setWidth 6))
  | .geom d c => some (packR 0x3B d ⟨0, false⟩ ⟨0, false⟩ (c.setWidth 6) 0#11 0#3 0#6)
  | .cmp p cond a b => some (packR 0x40 ⟨p.setWidth 6, false⟩ a b 0#6 (cond.setWidth 11) 0#3 0#6)
  | .cmpi p cond a imm => some (packI 0x41 (p.setWidth 6) a cond imm)
  | .plog p pa pb table => some (packR 0x42 ⟨p.setWidth 6, false⟩ ⟨pa.setWidth 6, false⟩ ⟨pb.setWidth 6, false⟩ 0#6 (table.setWidth 11) 0#3 0#6)
  | .pset p v => some (packI 0x43 (p.setWidth 6) 0#6 0#3 ((BitVec.ofBool v).setWidth 32))
  | .psetPw mask => some (packI 0x43 0#6 0#6 1#3 (mask.setWidth 32))
  | .bra off => some (packB 0x44 0#6 off)
  | .call d off => some (packB 0x45 (d.setWidth 6) off)
  | .jmp d a => some (packR 0x46 d a ⟨0, false⟩ 0#6 0#11 0#3 0#6)
  | .loop d off => some (packB 0x47 (d.setWidth 6) off)
  | .fcmp p cond ty a b => some (packR 0x48 ⟨p.setWidth 6, false⟩ a b 0#6 (cond.setWidth 11) (fpTy ty) 0#6)
  | .ld o => some (packM 0x50 o.d o.ad (o.sz.setWidth 3) o.sx 0#3)
  | .st d ad sz => some (packM 0x51 d ad (sz.setWidth 3) false 0#3)
  | .lda o sc => some (packM 0x52 o.d o.ad (o.sz.setWidth 3) o.sx sc)
  | .stl d ad sz sc => some (packM 0x53 d ad (sz.setWidth 3) false sc)
  | .stt d ad sz => some (packM 0x54 d ad (sz.setWidth 3) false 0#3)
  | .lsrmw d a b op dword off => some (packX 0x55 d a b ((BitVec.ofBool dword ++ op).setWidth 9) off)
  | .pref ad => some (packM 0x56 0#6 ad 0#3 false 0#3)
  | .clean ad => some (packM 0x57 0#6 ad 0#3 false 0#3)
  | .inval ad => some (packM 0x58 0#6 ad 0#3 false 0#3)
  | .reside ad => some (packM 0x5E 0#6 ad 0#3 false 0#3)
  | .unpin ad => some (packM 0x5F 0#6 ad 0#3 false 0#3)
  | .fenceAcq sc => some (packM 0x59 0#6 ⟨0, 0, 0, 0⟩ 0#3 false sc)
  | .fenceRel sc => some (packM 0x59 0#6 ⟨0, 0, 0, 0⟩ 1#3 false sc)
  | .fenceFull sc => some (packM 0x59 0#6 ⟨0, 0, 0, 0⟩ 2#3 false sc)
  | .fenceAck => some (packM 0x59 0#6 ⟨0, 0, 0, 0⟩ 3#3 false 0#3)
  | .vld d ad => some (packM 0x5A d ad 4#3 false 0#3)
  | .vst d ad => some (packM 0x5B d ad 4#3 false 0#3)
  | .vgath d a b c ty => some (packR 0x5C d a b (c.setWidth 6) 0#11 ty 0#6)
  | .vscat d a b c ty => some (packR 0x5D d a b (c.setWidth 6) 0#11 ty 0#6)
  | .amo op o => some (packX 0x60 (o.d.setWidth 6) o.a o.b (packSub o.sc o.dword op) o.off)
  | .cas o => some (packX 0x61 (o.d.setWidth 6) o.a o.b (packSub o.sc o.dword 0#4) o.off)
  | .famo op o => some (packX 0x65 (o.d.setWidth 6) o.a o.b (packSub o.sc o.dword (op.setWidth 4)) o.off)
  | .red op a b dword sc off => some (packX 0x62 0#6 a b (packSub sc dword (op.setWidth 4)) off)
  | .goto a => some (packX 0x63 0#6 a 0#6 0#9 0#20)
  | .gotoHome a => some (packX 0x63 0#6 a 0#6 1#9 0#20)
  | .home d a off => some (packX 0x64 d a 0#6 0#9 off)
  | .fadd o => some (packR 0x70 o.d o.a o.b 0#6 0#11 (fpTy o.ty) 0#6)
  | .fsub o => some (packR 0x71 o.d o.a o.b 0#6 0#11 (fpTy o.ty) 0#6)
  | .fmul o => some (packR 0x72 o.d o.a o.b 0#6 0#11 (fpTy o.ty) 0#6)
  | .fdiv o => some (packR 0x74 o.d o.a o.b 0#6 0#11 (fpTy o.ty) 0#6)
  | .fmin o => some (packR 0x76 o.d o.a o.b 0#6 0#11 (fpTy o.ty) 0#6)
  | .fmax o => some (packR 0x77 o.d o.a o.b 0#6 0#11 (fpTy o.ty) 0#6)
  | .ffma o c => some (packR 0x73 o.d o.a o.b c 0#11 (fpTy o.ty) 0#6)
  | .fsgn o mode => some (packR 0x79 o.d o.a o.b 0#6 (mode.setWidth 11) (fpTy o.ty) 0#6)
  | .fsqrt o => some (packR 0x75 o.d o.a ⟨0, false⟩ 0#6 0#11 (fpTy o.ty) 0#6)
  | .fclass o => some (packR 0x7A o.d o.a ⟨0, false⟩ 0#6 0#11 (fpTy o.ty) 0#6)
  | .fcvt o tgt unsT => some (packR 0x78 o.d o.a ⟨0, false⟩ 0#6 ((BitVec.ofBool unsT ++ tgt).setWidth 11) (fpTy o.ty) 0#6)
  | .vadd o => some (packR 0x80 o.d o.a o.b (o.c.setWidth 6) 0#11 o.ty (unsSpec o.uns))
  | .vsub o => some (packR 0x81 o.d o.a o.b (o.c.setWidth 6) 0#11 o.ty (unsSpec o.uns))
  | .vmul o => some (packR 0x82 o.d o.a o.b (o.c.setWidth 6) 0#11 o.ty (unsSpec o.uns))
  | .vfma o => some (packR 0x83 o.d o.a o.b (o.c.setWidth 6) 0#11 o.ty (unsSpec o.uns))
  | .vmin o => some (packR 0x84 o.d o.a o.b (o.c.setWidth 6) 0#11 o.ty (unsSpec o.uns))
  | .vmax o => some (packR 0x85 o.d o.a o.b (o.c.setWidth 6) 0#11 o.ty (unsSpec o.uns))
  | .vdiv o => some (packR 0x8C o.d o.a o.b (o.c.setWidth 6) 0#11 o.ty (unsSpec o.uns))
  | .vsel o => some (packR 0x90 o.d o.a o.b (o.c.setWidth 6) 0#11 o.ty (unsSpec o.uns))
  | .vand o => some (packR 0x91 o.d o.a o.b (o.c.setWidth 6) 0#11 o.ty (unsSpec o.uns))
  | .vor o => some (packR 0x92 o.d o.a o.b (o.c.setWidth 6) 0#11 o.ty (unsSpec o.uns))
  | .vxor o => some (packR 0x93 o.d o.a o.b (o.c.setWidth 6) 0#11 o.ty (unsSpec o.uns))
  | .vshl o => some (packR 0x94 o.d o.a o.b (o.c.setWidth 6) 0#11 o.ty (unsSpec o.uns))
  | .vshr o => some (packR 0x95 o.d o.a o.b (o.c.setWidth 6) 0#11 o.ty (unsSpec o.uns))
  | .vdot4 o => some (packR 0x96 o.d o.a o.b (o.c.setWidth 6) 0#11 o.ty (unsSpec o.uns))
  | .vperm o => some (packR 0x9B o.d o.a o.b (o.c.setWidth 6) 0#11 o.ty (unsSpec o.uns))
  | .vabs o => some (packR 0x86 o.d o.a ⟨0, false⟩ (o.c.setWidth 6) 0#11 o.ty (unsSpec o.uns))
  | .vneg o => some (packR 0x87 o.d o.a ⟨0, false⟩ (o.c.setWidth 6) 0#11 o.ty (unsSpec o.uns))
  | .vrcp o => some (packR 0x88 o.d o.a ⟨0, false⟩ (o.c.setWidth 6) 0#11 o.ty (unsSpec o.uns))
  | .vrsq o => some (packR 0x89 o.d o.a ⟨0, false⟩ (o.c.setWidth 6) 0#11 o.ty (unsSpec o.uns))
  | .vexp2 o => some (packR 0x8A o.d o.a ⟨0, false⟩ (o.c.setWidth 6) 0#11 o.ty (unsSpec o.uns))
  | .vlog2 o => some (packR 0x8B o.d o.a ⟨0, false⟩ (o.c.setWidth 6) 0#11 o.ty (unsSpec o.uns))
  | .vsqrt o => some (packR 0x8D o.d o.a ⟨0, false⟩ (o.c.setWidth 6) 0#11 o.ty (unsSpec o.uns))
  | .vexpand o => some (packR 0x9D o.d o.a ⟨0, false⟩ (o.c.setWidth 6) 0#11 o.ty (unsSpec o.uns))
  | .viota o => some (packR 0x9F o.d o.a ⟨0, false⟩ (o.c.setWidth 6) 0#11 o.ty (unsSpec o.uns))
  | .vcvt o tgt unsT => some (packR 0x8E o.d o.a ⟨0, false⟩ (o.c.setWidth 6) ((BitVec.ofBool unsT ++ tgt).setWidth 11) o.ty (unsSpec o.uns))
  | .vcvtWiden o => some (packR 0x8E o.d o.a ⟨0, false⟩ (o.c.setWidth 6) 0xC#11 o.ty (unsSpec o.uns))
  | .vcvtNarrow o => some (packR 0x8E o.d o.a ⟨0, false⟩ (o.c.setWidth 6) 0xD#11 o.ty (unsSpec o.uns))
  | .vcmp o cond => some (packR 0x8F o.d o.a o.b (o.c.setWidth 6) (cond.setWidth 11) o.ty (unsSpec o.uns))
  | .vred o op => some (packR 0x97 o.d o.a ⟨0, false⟩ (o.c.setWidth 6) (op.setWidth 11) o.ty (unsSpec o.uns))
  | .vscan o op => some (packR 0x98 o.d o.a ⟨0, false⟩ (o.c.setWidth 6) (op.setWidth 11) o.ty (unsSpec o.uns))
  | .vbcast o => some (packR 0x99 o.d o.a ⟨0, false⟩ (o.c.setWidth 6) 0#11 o.ty (unsSpec o.uns))
  | .vext o ty => some (packR 0x9A o.d o.a o.b 0#6 0#11 ty 0#6)
  | .vcompress o p => some (packR 0x9C o.d o.a ⟨0, false⟩ (o.c.setWidth 6) (p.setWidth 11) o.ty (unsSpec o.uns))
  | .vtopk o k1 norm p => some (packR 0x9E o.d o.a ⟨0, false⟩ (o.c.setWidth 6) ((p ++ BitVec.ofBool norm ++ k1).setWidth 11) o.ty (unsSpec o.uns))
  | .scfg n wr a off => some (packX 0xA0 0#6 a 0#6 ((BitVec.ofBool wr ++ n).setWidth 9) off)
  | .sclose n => some (packX 0xA1 0#6 0#6 0#6 (n.setWidth 9) 0#20)
  | .vseq n => some (packX 0xA2 0#6 0#6 0#6 0#9 (n.setWidth 20))
  | .vseqw => some (packR 0xA3 ⟨0, false⟩ ⟨0, false⟩ ⟨0, false⟩ 0#6 0#11 0#3 0#6)
  | .palw pal nan7f a off => some (packX 0xA4 0#6 a 0#6 ((BitVec.ofBool nan7f ++ BitVec.ofBool pal).setWidth 9) off)
  | .enc8 o alt => some (packR 0xA5 o.d o.a ⟨0, false⟩ (o.c.setWidth 6) ((BitVec.ofBool alt).setWidth 11) o.ty (unsSpec o.uns))
  | .dec8 o alt => some (packR 0xA6 o.d o.a ⟨0, false⟩ (o.c.setWidth 6) ((BitVec.ofBool alt).setWidth 11) o.ty (unsSpec o.uns))
  | .fmtsetFmt v => some (packI 0xA7 0#6 0#6 0#3 (v.setWidth 32))
  | .fmtsetScale v => some (packI 0xA7 0#6 0#6 1#3 v)
  | .mma acc a b c => some (packR 0xB0 ⟨acc.setWidth 6, false⟩ ⟨a, false⟩ ⟨b, false⟩ c 0#11 0#3 0#6)
  | .mmq o => some (packR 0xB1 ⟨o.acc.setWidth 6, false⟩ ⟨o.a, false⟩ ⟨o.b, false⟩ o.c ((o.trg ++ BitVec.ofBool o.hi).setWidth 11) 0#3 (o.gt.setWidth 6))
  | .mmag o => some (packR 0xB2 ⟨o.acc.setWidth 6, false⟩ ⟨o.a, false⟩ ⟨o.b, false⟩ o.c ((o.trg ++ BitVec.ofBool o.hi).setWidth 11) 0#3 (o.gt.setWidth 6))
  | .mmpop hi d => some (packR 0xB3 ⟨d, false⟩ ⟨0, false⟩ ⟨0, false⟩ 0#6 ((BitVec.ofBool hi).setWidth 11) 0#3 0#6)
  | .mzero acc i32 => some (packR 0xB4 ⟨acc.setWidth 6, false⟩ ⟨0, false⟩ ⟨0, false⟩ 0#6 ((BitVec.ofBool i32).setWidth 11) 0#3 0#6)
  | .mclaim acc => some (packR 0xB8 ⟨acc.setWidth 6, false⟩ ⟨0, false⟩ ⟨0, false⟩ 0#6 0#11 0#3 0#6)
  | .mclaimRel acc => some (packR 0xB8 ⟨acc.setWidth 6, false⟩ ⟨0, false⟩ ⟨0, false⟩ 0#6 1#11 0#3 0#6)
  | .mstore acc a c => some (packR 0xB5 ⟨acc.setWidth 6, false⟩ ⟨a, false⟩ ⟨0, false⟩ c 0#11 0#3 0#6)
  | .mload acc a c => some (packR 0xB6 ⟨acc.setWidth 6, false⟩ ⟨a, false⟩ ⟨0, false⟩ c 0#11 0#3 0#6)
  | .mgeo a => some (packR 0xB7 ⟨0, false⟩ ⟨a, false⟩ ⟨0, false⟩ 0#6 0#11 0#3 0#6)
  | .xcpy o => some (packR 0xC0 ⟨o.d, false⟩ ⟨o.a, false⟩ ⟨o.b, false⟩ o.c ((o.tnd ++ o.ntf).setWidth 11) 0#3 0#6)
  | .xgath o => some (packR 0xC1 ⟨o.d, false⟩ ⟨o.a, false⟩ ⟨o.b, false⟩ o.c ((o.tnd ++ o.ntf).setWidth 11) 0#3 0#6)
  | .xcoll o kind => some (packR 0xC2 ⟨o.d, false⟩ ⟨o.a, false⟩ ⟨o.b, false⟩ o.c ((kind ++ 0#2 ++ o.tnd ++ o.ntf).setWidth 11) 0#3 0#6)
  | .xpop d => some (packR 0xC3 ⟨d, false⟩ ⟨0, false⟩ ⟨0, false⟩ 0#6 0#11 0#3 0#6)
  | .tcfg t a => some (packX 0xC4 0#6 a 0#6 (t.setWidth 9) 0#20)
  | .tadvFill t n => some (packX 0xC5 0#6 0#6 0#6 ((0#1 ++ t).setWidth 9) (n.setWidth 20))
  | .tadvFree t n => some (packX 0xC5 0#6 0#6 0#6 ((1#1 ++ t).setWidth 9) (n.setWidth 20))
  | .twaitFill t n => some (packX 0xC6 0#6 0#6 0#6 ((0#1 ++ t).setWidth 9) (n.setWidth 20))
  | .twaitFree t n => some (packX 0xC6 0#6 0#6 0#6 ((1#1 ++ t).setWidth 9) (n.setWidth 20))
  | .chopen n a => some (packX 0xC7 ((2#3 ++ n).setWidth 6) a 0#6 0#9 0#20)
  | .chgrant n cnt => some (packX 0xC8 ((2#3 ++ n).setWidth 6) 0#6 0#6 0#9 (cnt.setWidth 20))
  | .chalt d a => some (packR 0xC9 ⟨d, false⟩ ⟨a, false⟩ ⟨0, false⟩ 0#6 0#11 0#3 0#6)
  | .chclose n => some (packX 0xCA ((2#3 ++ n).setWidth 6) 0#6 0#6 0#9 0#20)
  | .cload o => some (packX 0xD0 (o.d.setWidth 6) (o.a.setWidth 6) (o.b.setWidth 6) (0#3 ++ BitVec.ofBool o.rel ++ BitVec.ofBool o.acq ++ 0#4) ((0#1 ++ o.w ++ o.idx)))
  | .cop o op => some (packX 0xD1 (o.d.setWidth 6) (o.a.setWidth 6) (o.b.setWidth 6) (0#3 ++ BitVec.ofBool o.rel ++ BitVec.ofBool o.acq ++ op) ((0#1 ++ o.w ++ o.idx)))
  | .ccas o => some (packX 0xD2 (o.d.setWidth 6) (o.a.setWidth 6) (o.b.setWidth 6) (0#3 ++ BitVec.ofBool o.rel ++ BitVec.ofBool o.acq ++ 0#4) ((0#1 ++ o.w ++ o.idx)))
  | .cwait o cond => some (packX 0xD3 (o.d.setWidth 6) (o.a.setWidth 6) (o.b.setWidth 6) (0#3 ++ BitVec.ofBool o.rel ++ BitVec.ofBool o.acq ++ (cond.setWidth 4)) ((0#1 ++ o.w ++ o.idx)))
  | .cstore o => some (packX 0xD8 (o.d.setWidth 6) (o.a.setWidth 6) (o.b.setWidth 6) (0#3 ++ BitVec.ofBool o.rel ++ BitVec.ofBool o.acq ++ 0#4) ((0#1 ++ o.w ++ o.idx)))
  | .cstoreSeat o => some (packX 0xD8 (o.d.setWidth 6) (o.a.setWidth 6) (o.b.setWidth 6) (1#3 ++ BitVec.ofBool o.rel ++ BitVec.ofBool o.acq ++ 0#4) ((0#1 ++ o.w ++ o.idx)))
  | .board a b idx => some (packX 0xD4 0#6 (a.setWidth 6) (b.setWidth 6) 0#9 (idx.setWidth 20))
  | .alight a b idx => some (packX 0xD5 0#6 (a.setWidth 6) (b.setWidth 6) 0#9 (idx.setWidth 20))
  | .carriveJoin o => some (packX 0xD6 (o.d.setWidth 6) (o.a.setWidth 6) (o.b.setWidth 6) (0#3 ++ BitVec.ofBool o.rel ++ BitVec.ofBool o.acq ++ 0#4) ((0#1 ++ o.w ++ o.idx)))
  | .carriveArrive o => some (packX 0xD6 (o.d.setWidth 6) (o.a.setWidth 6) (o.b.setWidth 6) (0#3 ++ BitVec.ofBool o.rel ++ BitVec.ofBool o.acq ++ 1#4) ((0#1 ++ o.w ++ o.idx)))
  | .carriveDepart o => some (packX 0xD6 (o.d.setWidth 6) (o.a.setWidth 6) (o.b.setWidth 6) (0#3 ++ BitVec.ofBool o.rel ++ BitVec.ofBool o.acq ++ 2#4) ((0#1 ++ o.w ++ o.idx)))
  | .cphase o => some (packX 0xD7 (o.d.setWidth 6) (o.a.setWidth 6) (o.b.setWidth 6) (0#3 ++ BitVec.ofBool o.rel ++ BitVec.ofBool o.acq ++ 0#4) ((0#1 ++ o.w ++ o.idx)))
  | .ypush a => some (packX 0xE0 0#6 (a.setWidth 6) 0#6 0#9 0#20)
  | .ydone a => some (packX 0xE3 0#6 (a.setWidth 6) 0#6 0#9 0#20)
  | .ypop d a => some (packX 0xE1 (d.setWidth 6) (a.setWidth 6) 0#6 0#9 0#20)
  | .ycont d a => some (packX 0xE2 (d.setWidth 6) (a.setWidth 6) 0#6 0#9 0#20)
  | .yreach d a => some (packX 0xE5 (d.setWidth 6) (a.setWidth 6) 0#6 0#9 0#20)
  | .yopen d a => some (packX 0xE6 (d.setWidth 6) (a.setWidth 6) 0#6 0#9 0#20)
  | .yfloor d => some (packX 0xE4 (d.setWidth 6) 0#6 0#6 0#9 0#20)
  | .spec d a => some (packR 0xF0 ⟨d.setWidth 6, false⟩ ⟨a.setWidth 6, false⟩ ⟨0, false⟩ 0#6 0#11 0#3 0#6)
  | .scall a => some (packR 0xF1 ⟨0, false⟩ ⟨a.setWidth 6, false⟩ ⟨0, false⟩ 0#6 0#11 0#3 0#6)
  | .sfree a => some (packR 0xF2 ⟨0, false⟩ ⟨a.setWidth 6, false⟩ ⟨0, false⟩ 0#6 0#11 0#3 0#6)
  | .skeep a => some (packR 0xF3 ⟨0, false⟩ ⟨a.setWidth 6, false⟩ ⟨0, false⟩ 0#6 0#11 0#3 0#6)
  | .residualUnitsFreed _ _ => none
  | .taskPop _ _ => none
  | .runQueueTake _ _ => none
  | .gatherStartRelease _ _ => none
  | .migrationArrival => none
  | .migrationDeparture _ _ => none
  | .sleeperSwapOut _ _ => none
  | .sleepTimeout _ _ => none
  | .ownerChangeEffect _ _ => none
  | .variableResultArrival => none
  | .writePerformedAtHome => none
  | .remoteUpdateApply => none
  | .remoteRequest => none
  | .tlbWalkComplete => none
  | .footprintFill _ _ => none
  | .footprintFillFault _ _ => none
  | .wakeArrival => none
  | .channelWordArrival => none
  | .channelGrantArrival => none
  | .sequencerIssue _ _ => none
  | .streamPrefetch _ _ _ => none
  | .cfgbankComplete => none
  | .tileOpIssue => none
  | .tileOpComplete => none
  | .engineCompletion => none
  | .userInterruptEntry _ _ => none
  | .combiningHoldExpiry => none
  | .revolutionStart => none
  | .captureApply => none
  | .captureCompletion => none
  | .barrierAdvance => none
  | .boardDataSeat => none
  | .alightLanded => none
  | .floorCarriagePass => none
  | .depotPass => none
  | .farTaskAgent => none
  | .floorRelief => none
  | .sidingRefill _ _ => none
  | .stealRequest _ _ _ => none
  | .ydoneDecrement => none
  | .exitPacketArrival => none
  | .coupledYardTransfer _ _ => none
  | .lateFaultDelivery _ _ => none
  | .sliceCoreTrapReturn _ _ => none
  | .allAsleepTrap => none
  | .tailMonitorWake => none
  | .queueTableRead => none
  | .shareRecompute => none
  | .launch _ _ _ _ => none
  | .wait => none
  | .phase => none
  | .copy => none
  | .signal => none
  | .packetError => none
  | .launchCompletion => none
  | .queueEnableWrite _ _ => none
  | .eventRingConfigure _ _ => none
  | .eventPost _ _ _ _ => none
  | .eventHeadAdvance _ => none
  | .overflowCountClear => none
  | .couplingTableWrite _ _ _ => none
  | .couplingStart => none
  | .hostCxlMemAccess _ _ _ => none
  | .correctableError _ => none
  | .uncorrectableError _ _ => none
  | .ringBeatError => none
  | .patrolScrub => none
  | .couplingLost => none
  | .thermalTrip _ => none
  | .thermalZeroRefill => none
  | .thermalTripClear _ => none
  | .boot _ _ _ _ => none
  | .firmwareUpdate _ _ _ => none
  | .attestationRequest _ => none
  | .unassignedOpcode w => some w
  | .hostLinkTraining _ _ => none
  | .hostSnoopResponse => none
  | .hostCxlCacheSnoop => none
  | .ideKmKeySet _ => none
  | .errorCountWindowEnd _ => none

/-- The instruction an opcode and the fields of a word name, before the word is checked (R214, R215). -/
def candidate (w : Word) : Instr :=
  match (fOp w).toNat with
  | 0x00 => .nop
  | 0x01 => .exit
  | 0x02 => .trap (fA w) (immI w |>.setWidth 16)
  | 0x03 => .sysc (immI w)
  | 0x04 => .eret
  | 0x05 => .uret
  | 0x06 => .mfs (fD w) (immI w |>.setWidth 9)
  | 0x07 => candMts w
  | 0x08 => .sleep (immI w)
  | 0x09 => .wake (fA w)
  | 0x0A => .cfgbank (immI w |>.setWidth 10)
  | 0x0B => if fFn w = 0 then .tlbinvPage (rA w) else if fFn w = 1 then .tlbinvAsid (rA w) else .tlbinvAll
  | 0x0C => .ctxsave ⟨rD w, rA w⟩
  | 0x0D => .ctxload (rA w) (rB w)
  | 0x0E => .hevent (fA w) (immI w |>.setWidth 16)
  | 0x0F => .cyc (fD w)
  | 0x10 => .add (rDAB w)
  | 0x11 => .sub (rDAB w)
  | 0x12 => .mul (rDAB w)
  | 0x13 => .mulh (rDAB w)
  | 0x14 => .mulhu (rDAB w)
  | 0x15 => .div (rDAB w)
  | 0x16 => .divu (rDAB w)
  | 0x17 => .rem (rDAB w)
  | 0x18 => .remu (rDAB w)
  | 0x19 => .and (rDAB w)
  | 0x1A => .or (rDAB w)
  | 0x1B => .xor (rDAB w)
  | 0x1C => .andn (rDAB w)
  | 0x1D => .sll (rDAB w)
  | 0x1E => .srl (rDAB w)
  | 0x1F => .sra (rDAB w)
  | 0x20 => .min (rDAB w)
  | 0x21 => .max (rDAB w)
  | 0x22 => .minu (rDAB w)
  | 0x23 => .maxu (rDAB w)
  | 0x24 => .clz ⟨rD w, rA w⟩
  | 0x25 => .ctz ⟨rD w, rA w⟩
  | 0x26 => .popc ⟨rD w, rA w⟩
  | 0x27 => .bfx ⟨rD w, rA w, (fFn w).setWidth 6, fSpec w⟩
  | 0x28 => .bfi ⟨rD w, rA w, (fFn w).setWidth 6, fSpec w⟩
  | 0x29 => .sel (rDAB w) ((fC w).setWidth 4)
  | 0x2A => .madd (rDAB w) (fC w)
  | 0x2B => .addw (rDAB w)
  | 0x2C => .subw (rDAB w)
  | 0x2D => .lea (rDAB w) ((fSpec w).setWidth 2)
  | 0x2E => .cellh (rDAB w) (fC w)
  | 0x2F => .widf (rD w) ((fSpec w).setWidth 3)
  | 0x30 => .addi ⟨fD w, fA w, immI w⟩
  | 0x31 => .andi ⟨fD w, fA w, immI w⟩
  | 0x32 => .ori ⟨fD w, fA w, immI w⟩
  | 0x33 => .xori ⟨fD w, fA w, immI w⟩
  | 0x34 => .slli ⟨fD w, fA w, (immI w).setWidth 6⟩
  | 0x35 => .srli ⟨fD w, fA w, (immI w).setWidth 6⟩
  | 0x36 => .srai ⟨fD w, fA w, (immI w).setWidth 6⟩
  | 0x37 => .muli ⟨fD w, fA w, immI w⟩
  | 0x38 => .li (fD w) (immI w)
  | 0x39 => .lih (fD w) (immI w)
  | 0x3A => .mov ⟨rD w, rA w⟩
  | 0x3B => .geom (rD w) ((fC w).setWidth 4)
  | 0x40 => .cmp ((fD w).setWidth 4) ((fFn w).setWidth 3) (rA w) (rB w)
  | 0x41 => .cmpi ((fD w).setWidth 4) (fFnI w) (fA w) (immI w)
  | 0x42 => .plog ((fD w).setWidth 4) ((fA w).setWidth 4) ((fB w).setWidth 4) ((fFn w).setWidth 4)
  | 0x43 => if fFnI w = 0 then .pset ((fD w).setWidth 4) ((immI w).getLsbD 0) else .psetPw ((immI w).setWidth 16)
  | 0x44 => .bra (offB w)
  | 0x45 => .call ((fD w).setWidth 4) (offB w)
  | 0x46 => .jmp (rD w) (rA w)
  | 0x47 => .loop ((fD w).setWidth 4) (offB w)
  | 0x48 => .fcmp ((fD w).setWidth 4) ((fFn w).setWidth 3) ((fTy w).setWidth 2) (rA w) (rB w)
  | 0x50 => .ld ⟨fD w, mAddr w, (fSz w).setWidth 2, fSx w⟩
  | 0x51 => .st (fD w) (mAddr w) ((fSz w).setWidth 2)
  | 0x52 => .lda ⟨fD w, mAddr w, (fSz w).setWidth 2, fSx w⟩ (fSc w)
  | 0x53 => .stl (fD w) (mAddr w) ((fSz w).setWidth 2) (fSc w)
  | 0x54 => .stt (fD w) (mAddr w) ((fSz w).setWidth 2)
  | 0x55 => .lsrmw (fD w) (fA w) (fB w) ((fSub w).setWidth 4) ((fSub w).getLsbD 4) (immX w)
  | 0x56 => .pref (mAddr w)
  | 0x57 => .clean (mAddr w)
  | 0x58 => .inval (mAddr w)
  | 0x59 => if fSz w = 0 then .fenceAcq (fSc w) else if fSz w = 1 then .fenceRel (fSc w) else if fSz w = 2 then .fenceFull (fSc w) else .fenceAck
  | 0x5A => .vld (fD w) (mAddr w)
  | 0x5B => .vst (fD w) (mAddr w)
  | 0x5C => .vgath (rD w) (rA w) (rB w) ((fC w).setWidth 4) (fTy w)
  | 0x5D => .vscat (rD w) (rA w) (rB w) ((fC w).setWidth 4) (fTy w)
  | 0x5E => .reside (mAddr w)
  | 0x5F => .unpin (mAddr w)
  | 0x60 => .amo ((fSub w).setWidth 4) ⟨(fD w).setWidth 4, fA w, fB w, (fSub w).getLsbD 4, (fSub w).extractLsb' 6 3, immX w⟩
  | 0x61 => .cas ⟨(fD w).setWidth 4, fA w, fB w, (fSub w).getLsbD 4, (fSub w).extractLsb' 6 3, immX w⟩
  | 0x62 => .red ((fSub w).setWidth 3) (fA w) (fB w) ((fSub w).getLsbD 4) ((fSub w).extractLsb' 6 3) (immX w)
  | 0x63 => if fSub w = 0 then .goto (fA w) else .gotoHome (fA w)
  | 0x64 => .home (fD w) (fA w) (immX w)
  | 0x65 => .famo ((fSub w).setWidth 2) ⟨(fD w).setWidth 4, fA w, fB w, (fSub w).getLsbD 4, (fSub w).extractLsb' 6 3, immX w⟩
  | 0x70 => .fadd ⟨rD w, rA w, rB w, (fTy w).setWidth 2⟩
  | 0x71 => .fsub ⟨rD w, rA w, rB w, (fTy w).setWidth 2⟩
  | 0x72 => .fmul ⟨rD w, rA w, rB w, (fTy w).setWidth 2⟩
  | 0x73 => .ffma ⟨rD w, rA w, rB w, (fTy w).setWidth 2⟩ (fC w)
  | 0x74 => .fdiv ⟨rD w, rA w, rB w, (fTy w).setWidth 2⟩
  | 0x75 => .fsqrt ⟨rD w, rA w, (fTy w).setWidth 2⟩
  | 0x76 => .fmin ⟨rD w, rA w, rB w, (fTy w).setWidth 2⟩
  | 0x77 => .fmax ⟨rD w, rA w, rB w, (fTy w).setWidth 2⟩
  | 0x78 => .fcvt ⟨rD w, rA w, (fTy w).setWidth 2⟩ ((fFn w).setWidth 3) ((fFn w).getLsbD 3)
  | 0x79 => .fsgn ⟨rD w, rA w, rB w, (fTy w).setWidth 2⟩ ((fFn w).setWidth 2)
  | 0x7A => .fclass ⟨rD w, rA w, (fTy w).setWidth 2⟩
  | 0x80 => .vadd ⟨rD w, rA w, rB w, (fC w).setWidth 4, fTy w, (fSpec w).getLsbD 5⟩
  | 0x81 => .vsub ⟨rD w, rA w, rB w, (fC w).setWidth 4, fTy w, (fSpec w).getLsbD 5⟩
  | 0x82 => .vmul ⟨rD w, rA w, rB w, (fC w).setWidth 4, fTy w, (fSpec w).getLsbD 5⟩
  | 0x83 => .vfma ⟨rD w, rA w, rB w, (fC w).setWidth 4, fTy w, (fSpec w).getLsbD 5⟩
  | 0x84 => .vmin ⟨rD w, rA w, rB w, (fC w).setWidth 4, fTy w, (fSpec w).getLsbD 5⟩
  | 0x85 => .vmax ⟨rD w, rA w, rB w, (fC w).setWidth 4, fTy w, (fSpec w).getLsbD 5⟩
  | 0x86 => .vabs ⟨rD w, rA w, (fC w).setWidth 4, fTy w, (fSpec w).getLsbD 5⟩
  | 0x87 => .vneg ⟨rD w, rA w, (fC w).setWidth 4, fTy w, (fSpec w).getLsbD 5⟩
  | 0x88 => .vrcp ⟨rD w, rA w, (fC w).setWidth 4, fTy w, (fSpec w).getLsbD 5⟩
  | 0x89 => .vrsq ⟨rD w, rA w, (fC w).setWidth 4, fTy w, (fSpec w).getLsbD 5⟩
  | 0x8A => .vexp2 ⟨rD w, rA w, (fC w).setWidth 4, fTy w, (fSpec w).getLsbD 5⟩
  | 0x8B => .vlog2 ⟨rD w, rA w, (fC w).setWidth 4, fTy w, (fSpec w).getLsbD 5⟩
  | 0x8C => .vdiv ⟨rD w, rA w, rB w, (fC w).setWidth 4, fTy w, (fSpec w).getLsbD 5⟩
  | 0x8D => .vsqrt ⟨rD w, rA w, (fC w).setWidth 4, fTy w, (fSpec w).getLsbD 5⟩
  | 0x8E => if (fFn w).setWidth 4 = 0xC#4 then .vcvtWiden ⟨rD w, rA w, (fC w).setWidth 4, fTy w, (fSpec w).getLsbD 5⟩ else if (fFn w).setWidth 4 = 0xD#4 then .vcvtNarrow ⟨rD w, rA w, (fC w).setWidth 4, fTy w, (fSpec w).getLsbD 5⟩ else .vcvt ⟨rD w, rA w, (fC w).setWidth 4, fTy w, (fSpec w).getLsbD 5⟩ ((fFn w).setWidth 3) ((fFn w).getLsbD 3)
  | 0x8F => .vcmp ⟨rD w, rA w, rB w, (fC w).setWidth 4, fTy w, (fSpec w).getLsbD 5⟩ ((fFn w).setWidth 3)
  | 0x90 => .vsel ⟨rD w, rA w, rB w, (fC w).setWidth 4, fTy w, (fSpec w).getLsbD 5⟩
  | 0x91 => .vand ⟨rD w, rA w, rB w, (fC w).setWidth 4, fTy w, (fSpec w).getLsbD 5⟩
  | 0x92 => .vor ⟨rD w, rA w, rB w, (fC w).setWidth 4, fTy w, (fSpec w).getLsbD 5⟩
  | 0x93 => .vxor ⟨rD w, rA w, rB w, (fC w).setWidth 4, fTy w, (fSpec w).getLsbD 5⟩
  | 0x94 => .vshl ⟨rD w, rA w, rB w, (fC w).setWidth 4, fTy w, (fSpec w).getLsbD 5⟩
  | 0x95 => .vshr ⟨rD w, rA w, rB w, (fC w).setWidth 4, fTy w, (fSpec w).getLsbD 5⟩
  | 0x96 => .vdot4 ⟨rD w, rA w, rB w, (fC w).setWidth 4, fTy w, (fSpec w).getLsbD 5⟩
  | 0x97 => .vred ⟨rD w, rA w, (fC w).setWidth 4, fTy w, (fSpec w).getLsbD 5⟩ ((fFn w).setWidth 3)
  | 0x98 => .vscan ⟨rD w, rA w, (fC w).setWidth 4, fTy w, (fSpec w).getLsbD 5⟩ ((fFn w).setWidth 3)
  | 0x99 => .vbcast ⟨rD w, rA w, (fC w).setWidth 4, fTy w, (fSpec w).getLsbD 5⟩
  | 0x9A => .vext (rDAB w) (fTy w)
  | 0x9B => .vperm ⟨rD w, rA w, rB w, (fC w).setWidth 4, fTy w, (fSpec w).getLsbD 5⟩
  | 0x9C => .vcompress ⟨rD w, rA w, (fC w).setWidth 4, fTy w, (fSpec w).getLsbD 5⟩ ((fFn w).setWidth 4)
  | 0x9D => .vexpand ⟨rD w, rA w, (fC w).setWidth 4, fTy w, (fSpec w).getLsbD 5⟩
  | 0x9E => .vtopk ⟨rD w, rA w, (fC w).setWidth 4, fTy w, (fSpec w).getLsbD 5⟩ ((fFn w).setWidth 3) ((fFn w).getLsbD 3) ((fFn w).extractLsb' 4 4)
  | 0x9F => .viota ⟨rD w, rA w, (fC w).setWidth 4, fTy w, (fSpec w).getLsbD 5⟩
  | 0xA0 => .scfg ((fSub w).setWidth 2) ((fSub w).getLsbD 2) (fA w) (immX w)
  | 0xA1 => .sclose ((fSub w).setWidth 2)
  | 0xA2 => .vseq ((immX w).setWidth 5)
  | 0xA3 => .vseqw
  | 0xA4 => .palw ((fSub w).getLsbD 0) ((fSub w).getLsbD 1) (fA w) (immX w)
  | 0xA5 => .enc8 ⟨rD w, rA w, (fC w).setWidth 4, fTy w, (fSpec w).getLsbD 5⟩ ((fFn w).getLsbD 0)
  | 0xA6 => .dec8 ⟨rD w, rA w, (fC w).setWidth 4, fTy w, (fSpec w).getLsbD 5⟩ ((fFn w).getLsbD 0)
  | 0xA7 => if fFnI w = 0 then .fmtsetFmt ((immI w).setWidth 20) else .fmtsetScale (immI w)
  | 0xB0 => .mma ((fD w).setWidth 2) (fA w) (fB w) (fC w)
  | 0xB1 => .mmq ⟨(fD w).setWidth 2, fA w, fB w, fC w, (fFn w).getLsbD 0, (fFn w).extractLsb' 1 2, (fSpec w).setWidth 4⟩
  | 0xB2 => .mmag ⟨(fD w).setWidth 2, fA w, fB w, fC w, (fFn w).getLsbD 0, (fFn w).extractLsb' 1 2, (fSpec w).setWidth 4⟩
  | 0xB3 => .mmpop ((fFn w).getLsbD 0) (fD w)
  | 0xB4 => .mzero ((fD w).setWidth 2) ((fFn w).getLsbD 0)
  | 0xB5 => .mstore ((fD w).setWidth 2) (fA w) (fC w)
  | 0xB6 => .mload ((fD w).setWidth 2) (fA w) (fC w)
  | 0xB7 => .mgeo (fA w)
  | 0xB8 => if fFn w = 0 then .mclaim ((fD w).setWidth 2) else .mclaimRel ((fD w).setWidth 2)
  | 0xC0 => .xcpy ⟨fD w, fA w, fB w, fC w, (fFn w).setWidth 2, (fFn w).extractLsb' 2 4⟩
  | 0xC1 => .xgath ⟨fD w, fA w, fB w, fC w, (fFn w).setWidth 2, (fFn w).extractLsb' 2 4⟩
  | 0xC2 => .xcoll ⟨fD w, fA w, fB w, fC w, (fFn w).setWidth 2, (fFn w).extractLsb' 2 4⟩ ((fFn w).extractLsb' 8 3)
  | 0xC3 => .xpop (fD w)
  | 0xC4 => .tcfg ((fSub w).setWidth 4) (fA w)
  | 0xC5 => if (fSub w).getLsbD 4 then .tadvFree ((fSub w).setWidth 4) ((immX w).setWidth 8) else .tadvFill ((fSub w).setWidth 4) ((immX w).setWidth 8)
  | 0xC6 => if (fSub w).getLsbD 4 then .twaitFree ((fSub w).setWidth 4) ((immX w).setWidth 8) else .twaitFill ((fSub w).setWidth 4) ((immX w).setWidth 8)
  | 0xC7 => .chopen ((fD w).setWidth 3) (fA w)
  | 0xC8 => .chgrant ((fD w).setWidth 3) ((immX w).setWidth 16)
  | 0xC9 => .chalt (fD w) (fA w)
  | 0xCA => .chclose ((fD w).setWidth 3)
  | 0xD0 => .cload (carOp w)
  | 0xD1 => .cop (carOp w) ((fSub w).setWidth 4)
  | 0xD2 => .ccas (carOp w)
  | 0xD3 => .cwait (carOp w) ((fSub w).setWidth 3)
  | 0xD4 => .board ((fA w).setWidth 4) ((fB w).setWidth 4) ((immX w).setWidth 16)
  | 0xD5 => .alight ((fA w).setWidth 4) ((fB w).setWidth 4) ((immX w).setWidth 16)
  | 0xD6 => if (fSub w).setWidth 2 = 0#2 then .carriveJoin (carOp w) else if (fSub w).setWidth 2 = 1#2 then .carriveArrive (carOp w) else .carriveDepart (carOp w)
  | 0xD7 => .cphase (carOp w)
  | 0xD8 => if (fSub w).getLsbD 6 then .cstoreSeat (carOp w) else .cstore (carOp w)
  | 0xE0 => .ypush ((fA w).setWidth 4)
  | 0xE1 => .ypop ((fD w).setWidth 4) ((fA w).setWidth 4)
  | 0xE2 => .ycont ((fD w).setWidth 4) ((fA w).setWidth 4)
  | 0xE3 => .ydone ((fA w).setWidth 4)
  | 0xE4 => .yfloor ((fD w).setWidth 4)
  | 0xE5 => .yreach ((fD w).setWidth 4) ((fA w).setWidth 4)
  | 0xE6 => .yopen ((fD w).setWidth 4) ((fA w).setWidth 4)
  | 0xF0 => .spec ((fD w).setWidth 4) ((fA w).setWidth 4)
  | 0xF1 => .scall ((fA w).setWidth 4)
  | 0xF2 => .sfree ((fA w).setWidth 4)
  | 0xF3 => .skeep ((fA w).setWidth 4)
  | _ => .unassignedOpcode w

/-- A decoded word: guard predicate, its inversion, the early-binding bits, the instruction. -/
structure Decoded where
  g : BitVec 4
  gn : Bool
  eb : BitVec 4
  ins : Instr
  deriving DecidableEq, Repr

/-- The word with its header's guard and early-binding bits cleared. -/
def bodyOf (w : Word) : Word := w &&& 0xFF007FFFFFFFFFFF#64

/-- The word is legal: an unassigned opcode (a step of its own, R438), or an assigned one with every unused field zero
and no reserved value (R203), and not the reserved guard pair (R201). -/
def legal (w : Word) : Bool :=
  !(fG w == 0 && fGn w) && (candidate (bodyOf w)).wf && encode (candidate (bodyOf w)) == some (bodyOf w)

/-- The decoder: none for an illegal word of an assigned opcode. A word with an unassigned opcode is the step
`unassignedOpcode`, whatever its header (R202, R438). -/
def decode (w : Word) : Option Decoded :=
  if unassigned (fOp w).toNat then some ⟨0, false, 0, .unassignedOpcode w⟩
  else if legal w then some ⟨fG w, fGn w, fEb w, candidate (bodyOf w)⟩
  else none

/-- The bytes of a word, little-endian (R4, R200). -/
def wordBytes (w : Word) : List Byte := (List.range 8).map fun i => w.extractLsb' (8 * i) 8

/-- A word from its bytes, little-endian. -/
def ofBytes (l : List Byte) : Nat := l.foldr (fun b n => b.toNat + 256 * n) 0

/-- The instruction at the head of a list of bytes. -/
def decodeBytes (l : List Byte) : Option Decoded :=
  if l.length < 8 then none else decode (BitVec.ofNat 64 (ofBytes (l.take 8)))

/-- The instruction read from a word laid out in memory with every bit above `nbits` zero. -/
def decodeTableWord (nbits w : Nat) : Option Instr :=
  (decodeBytes (wordBytes (BitVec.ofNat 64 (w % 2 ^ nbits)))).map (·.ins)

end Sys2Proof
end

