-- ==== Sys2Proof/Config.lean ====
section
/-! DEFINITION. What an implementation fixes and the spec leaves open: constants without a body, so that no proof can
use a value of theirs (DESIGN CHOICE, log 3, 4). -/

namespace Sys2Proof

/-- One action of the machine in the current cycle: a turn of a slot, Umber's work for a slot (DESIGN CHOICE, log 6), an event
that happens to the thing numbered `subj`; or the end of the cycle. -/
inductive Act where
  | turn (pl : Place) (k : Nat)
  | umber (pl : Place) (k : Nat)
  | ev (subj : Nat) (i : Instr)
  | cycle
  deriving DecidableEq, Repr, Inhabited

/-- Which action comes next, by the count of actions already chosen: arrival times and the interleaving of agents are
not bound (R14; DESIGN CHOICE, log 3). -/
opaque Config.schedule : Nat → Act

/-- How many cycles a thing in transit takes at most, by its identity: results come in finite time, and no rule says in how
much (R14, R65; DESIGN CHOICE, log 3). -/
opaque Config.latency : Nat → Nat

/-- Undefined and unstated values, one for each count of State.fresh (DESIGN CHOICE, log 4). It is given a count and no
state, so nothing of another launch, another queue or Umber flows into it, as R2 binds. -/
opaque Config.free : Nat → Word

/-- Undefined vectors, one for each count of State.fresh (R2, R307; DESIGN CHOICE, log 4). -/
opaque Config.freeVec : Nat → Vec

/-- The L1 set of a line; R71 gives the number of sets and no index (DESIGN CHOICE, log 41). -/
opaque Config.l1Set : Nat → Nat

/-- Which CACHE bank an L1 line lies in when a bank leaves CACHE mode, by a count of State.fresh and the line: R71 gives
one way per bank and does not say which way a line takes. -/
opaque Config.l1Bank : Nat → Nat → Nat

/-- The set a line takes in its slice: "chosen from its line index by a mapping internal to the slice" (R75). -/
opaque Config.l2Set : Nat → Nat → Nat

/-- The check bits of a beat, which protect its word and control byte by SECDED: R134 gives their number and no code (DESIGN
CHOICE, log 77). -/
opaque Config.checkBits : Word → BitVec 8 → BitVec 8

/-- The SHAKE256 digest of the retirement log as the flash holds it, whose layout no rule gives (R466, R470; DESIGN CHOICE, log 56). -/
opaque Config.logDigest : List (Word × Nat) → Nat

/-- The signature of a report by the device identity key (R470; DESIGN CHOICE, log 56). -/
opaque Config.signature : List Nat → Nat

end Sys2Proof
end

