-- ==== Sys2Proof/Machine/State.lean ====
section
/-! DEFINITION. The state of the module as plain data: every register, memory and queue that spec/ names
(INVENTORY.md, State, lists each with its rule), the model's own bookkeeping, the reasons a step can stop, and the
state after reset. -/

namespace Sys2Proof.Machine

/-- A table with numbered entries, in rising order of the number; a number not listed holds the table's default. -/
abbrev Tab (α : Type) := List (Nat × α)

/-- A byte memory: addresses strictly rising, no entry equal to 0, which is what an unlisted address reads (DESIGN CHOICE, log 2). -/
abbrev Memory := List Host.Cell

/-- Why the machine stops altogether. -/
inductive Fault where
  /-- Raised by HOST_CXL_MEM_ACCESS for an address beyond the live DRAM, which no memory range of the device covers (R10, R385). Safe. -/
  | noSuchAddress
  deriving DecidableEq, Repr

/-- Why an instruction has no meaning. -/
inductive Refusal where
  /-- Raised by an arm of exec whose instruction is not modelled. Safe: nothing is proved of it. -/
  | notModelled (mnemonic : String)
  deriving DecidableEq, Repr

/-- User or supervisor (R413, 0x141 bit 0). -/
inductive Mode where
  | user
  | supervisor
  deriving DecidableEq, Repr, Inhabited

/-- Which user-level handler runs (R235). -/
inductive Handler where
  | none
  | trap
  | interrupt
  deriving DecidableEq, Repr, Inhabited

/-- A register that can be pending (R29). `status` stands for no register: a tag or result that is discarded. -/
inductive PReg where
  | g (n : Nat)
  | s (n : Nat)
  | f (n : Nat)
  | c (n : Nat)
  | ch (n : Nat)
  | pw
  | ix
  | discard
  deriving DecidableEq, Repr, Inhabited

/-- One byte's place: device memory, host memory, or a core's aperture offset (R66, R67, R88). -/
inductive Loc where
  | dev (pa : Nat)
  | host (pa : Nat)
  | ls (core : Nat) (off : Nat)
  deriving DecidableEq, Repr, Inhabited

/-- What a load's byte will hold: a byte fixed at issue, or the byte at a place when the result arrives (R93), with the
home that serves it and whether that home is a slice that caches the line (R75, R88). -/
inductive BSrc where
  | val (b : Byte)
  | at (l : Loc) (home : Place) (cached : Bool)
  deriving DecidableEq, Repr, Inhabited

/-- Record of the dispatch ring (R406): state 0 free, 1 dispatched, 2 completed, 3 faulted. -/
structure DispRec where
  op : BitVec 8
  st : BitVec 3
  pc : BitVec 53
  deriving DecidableEq, Repr, Inhabited

/-- A late fault awaiting delivery (R407): cause, tval, lane, dispatch number (none for a data error that a scalar
access met), fault detail when one is due (R425). -/
structure LateFault where
  cause : BitVec 16
  tval : Word
  lane : BitVec 8
  seq : Option (BitVec 16)
  detail : Option Word
  deriving DecidableEq, Repr, Inhabited

/-- An engine completion (R336): the XPOP word's parts, the notification mode, the destination its pop acquires. -/
structure Completion where
  tag : BitVec 16
  status : BitVec 8
  bytes : BitVec 40
  ntf : BitVec 2
  dst : Word
  span : Nat
  deriving DecidableEq, Repr, Inhabited

/-- A vector of a read stream on its way (R306): its index, how many of its eight 8-byte parts have been read, or the
fault of its access. -/
structure Prefetched where
  idx : Nat
  got : Nat
  val : Vec
  fault : Option (BitVec 16 × Word × Word)
  deriving DecidableEq, Repr, Inhabited

/-- A stream (R305, R306). -/
structure Stream where
  desc : Word
  wr : Bool
  base : Word
  s0 : Word
  s1 : Word
  s2 : Word
  b0 : Nat
  b1 : Nat
  b2 : Nat
  next : Nat
  ahead : List Prefetched
  deriving DecidableEq, Repr, Inhabited

/-- A body in the sequencer (R308, R309): words with their addresses and the values of their VBCAST sources, snapshots,
iterations, position. -/
structure SeqBody where
  words : List (Word × Word × Word)
  ix : Word
  pw : BitVec 16
  gs : Vector Word 16
  n : Nat
  iter : Nat
  pos : Nat
  deriving DecidableEq, Repr, Inhabited

/-- A channel endpoint (R343-R347). `outst` is the allowance a receiver has granted and not yet seen used, `kept` grants that arrived while it was closed, `saved` the tie to a saved context (R418). -/
structure Endpoint where
  opened : Bool
  peer : BitVec 19
  allow : Nat
  buf : List Word
  outst : Nat
  kept : List (BitVec 18 × Nat)
  saved : Bool
  deriving DecidableEq, Repr, Inhabited

/-- What a sleeper waits in (R57). -/
inductive SleepIn where
  | sleep
  | cwait
  | cphase
  | twait
  | chalt
  | chanRead
  | chanWrite
  deriving DecidableEq, Repr, Inhabited

/-- A thread asleep: since when, in what, and for SLEEP the cycle it ends at when it has an interval (R237). -/
structure Sleep where
  since : Nat
  kind : SleepIn
  till : Option Nat
  deriving DecidableEq, Repr, Inhabited

/-- A trap that a thread carries to its origin core, to be taken there (R414). -/
structure CarriedTrap where
  cause : BitVec 16
  tval : Word
  detail : Word
  late : Bool
  deriving DecidableEq, Repr, Inhabited

/-- Out of the rotation (R31): not; held by the instruction at pc, which is tried again; held until a cycle; leaving
for a place, the packet going with the instruction at pc (R50), or after GOTO past it. -/
inductive Hold where
  | none
  | held
  | untilCyc (c : Nat)
  | depart (dst : Place) (pastPc : Bool) (trap : Option CarriedTrap)
  deriving DecidableEq, Repr, Inhabited

/-- What Umber has to do for a slot whose trap reached it (R395, R415). -/
inductive UmberWork where
  | service (n : BitVec 32)
  | page (va : Word)
  | kill
  deriving DecidableEq, Repr, Inhabited

/-- The walk that the instruction at pc waits for (R85): address space and page, and once it has failed the level and kind of
its report (R425, R426). -/
structure WalkWait where
  asid : BitVec 8
  page : Nat
  failed : Option (BitVec 4 × BitVec 4)
  deriving DecidableEq, Repr, Inhabited

/-- What a walk has come to, before its code has a place in the arena (R192, R195, R196): the routine, the bound mask and values, the
emitted words, the emitted CALLs with their targets, its cycles. -/
structure Residual where
  routine : Word
  bound : BitVec 16
  vals : List Word
  out : List Word
  relocs : List (Nat × Word)
  cycles : Nat
  deriving DecidableEq, Repr, Inhabited

/-- A SPEC at its cluster's Mordant (R192): the cycle of the request, the cycle in which its walk began, the search of the
arena waits for pending releases (R453), what its walk came to, and the trap that a failed walk ends in: cause, tval, fault
detail. -/
structure SpecRun where
  asked : Nat
  began : Option Nat
  waits : Bool
  walk : Option Residual
  stop : Option (BitVec 16 × Word × Word)
  deriving DecidableEq, Repr, Inhabited

/-- One thread slot (R32, R37). -/
structure Slot where
  busy : Bool
  launch : Nat
  mode : Mode
  g : Vector Word 16
  pw : BitVec 16
  pc : Word
  wid : Word
  status : BitVec 32
  fshadow : Word
  sshadow : Word
  utvec : Word
  uivec : Word
  member : Vector Word 2
  origin : BitVec 12
  placement : BitVec 12
  bucket : BitVec 32
  ix : Word
  mgeo : Word
  tcause : Word
  tval : Word
  tpc : Word
  tseq : Word
  handler : Handler
  savedG : Vector Word 5
  savedPw : BitVec 16
  savedPc : Word
  nalloc : Nat
  f : Vector Vec 32
  streams : Vector (Option Stream) 4
  seqr : Option SeqBody
  dseq : BitVec 16
  ring : Vector DispRec 64
  late : Option LateFault
  /-- a late fault has been delivered and its handler has not ended (R409) -/
  lateRun : Bool
  eps : Vector Endpoint 8
  chLast : Nat
  budget : BitVec 32
  wake : Bool
  asleep : Option Sleep
  /-- the cycle in which a timeout ended the thread's last SLEEP (R237) -/
  timedOut : Option Nat
  pend : List PReg
  hold : Hold
  /-- step 1 of the release of the instruction at pc is done (R98) -/
  relDone : Bool
  /-- how far the instruction at pc has come -/
  stage : Nat
  spec : Option SpecRun
  tags : BitVec 16
  fifo : List Completion
  ints : List Completion
  heldC : List Completion
  xpopWait : List (BitVec 6)
  mmpopWait : List (Bool × BitVec 6)
  reside : List Nat
  foot : Option Nat
  sepc : Word
  smode : Mode
  fdetail : Word
  umber : Option UmberWork
  walkWait : Option WalkWait
  /-- a trap raised on a slice core, to be taken here (R414) -/
  sliceTrap : Option CarriedTrap
  /-- the thread's task named a residual handle: its return through the zero link ends it (R39) -/
  residual : Bool
  /-- the gather-start group has not been released (R47) -/
  gatherWait : Bool
  lastIssue : Option Nat
  lastSeq : Option Nat
  /-- stores that the thread made in a slot it was vacated from, by flight (R98, R416) -/
  prior : List Nat
  /-- a vacate has stopped the thread's issue (R416 step 1) -/
  stopped : Bool
  /-- an owner change with preempt has: it waits for the vacate (R59) -/
  preempted : Bool
  /-- the slot expands a grid generator: its record, and how many identifiers of this batch remain (R44, R441) -/
  gen : Option (List Word × Nat)
  deriving DecidableEq, Repr, Inhabited

/-- An L1 line (R71, R91): line index of the physical address, home slice, bytes present, bytes dirty, data, and the loads
in flight when its dirty bytes were stored, which its write-back leaves after (R103 d). -/
structure L1Line where
  line : Nat
  home : Nat
  have' : BitVec 128
  dirty : BitVec 128
  data : BitVec 1024
  after : List Nat
  deriving DecidableEq, Repr, Inhabited

/-- A cached translation (R85): address space, page of 2^shift bytes, its leaf entry. -/
structure TlbEntry where
  asid : BitVec 8
  page : Nat
  shift : Nat
  pte : Word
  deriving DecidableEq, Repr, Inhabited

/-- A pending walk (R85): address space, 64 KiB page, root table, waiting slots in arrival order; `by'` is the cycle by which it
has come to its end unless something holds it. -/
structure Walk where
  id : Nat
  asid : BitVec 8
  page : Nat
  root : Word
  waiters : List Sid
  by' : Nat
  deriving DecidableEq, Repr, Inhabited

inductive BankMode where
  | cache
  | scratch
  | fifo
  deriving DecidableEq, Repr, Inhabited

/-- An accumulator (R316): elements (i, j) at 32 i + j, kind, flags, owner slot, scale sources. -/
structure Acc where
  elems : Vector (BitVec 32) 1024
  i32 : Bool
  flags : BitVec 5
  owner : Option Nat
  srcs : Option (Word × Word)
  deriving DecidableEq, Repr, Inhabited

/-- A palette (R125): entry i as the FP32 container of an E8M10 value. -/
structure Palette where
  p : Vector (BitVec 32) 128
  nan7f : Bool
  deriving DecidableEq, Repr, Inhabited

/-- A tender (R340-R342). `owed` counts engine advances held back until C advances (R435). -/
structure Tender where
  conf : Bool
  broken : Bool
  base : Word
  size : Nat
  stages : Nat
  quota : Nat
  t : BitVec 32
  e : BitVec 32
  c : BitVec 32
  owed : Nat
  deriving DecidableEq, Repr, Inhabited

/-- A tile queue entry (R325): slot, accumulator, operands, trigger word and kind, MMAG, MMA, dispatch number, the
carriage trigger's last test, and the MMPOP word once it is done (R328). -/
structure TEntry where
  id : Nat
  slot : Nat
  acc : Nat
  a : Word
  b : Word
  c : Word
  trg : Word
  kind : BitVec 2
  mmag : Bool
  mma : Bool
  seq : BitVec 16
  seen : BitVec 32
  running : Bool
  done : Option Word
  deriving DecidableEq, Repr, Inhabited

/-- The running tile operation (R322, R323): its queue and entry, the cycle it may end at, its outcome, elements,
flags, pinned lines, palettes read, and the late fault it ends in. -/
structure Running where
  hi : Bool
  id : Nat
  endAt : Nat
  outcome : BitVec 3
  rows : BitVec 32
  elems : List (BitVec 32)
  flags : BitVec 5
  srcs : Option (Word × Word)
  pins : List Nat
  pals : List Nat
  late : Option LateFault
  deriving DecidableEq, Repr, Inhabited

/-- A siding entry (R169): the record's eight words, its launch, arrival order, the residency slot that fills or holds its
footprint, whether it waits on no fill, the cycle of the last decrement applied to it (R177), and the cycle before which a fill
that met the release of its residency slot is not tried again (R69). -/
structure SidEnt where
  words : List Word
  launch : Nat
  order : Nat
  fill : Option Nat
  ready : Bool
  dec : Option Nat
  retry : Nat
  deriving DecidableEq, Repr, Inhabited

/-- A residency slot (R69): free, or holding (or being filled with) a block for a siding entry or a thread; `rel` is the
cycle in which it was last released. -/
structure ResSlot where
  used : Bool
  full : Bool
  va : Nat
  len : Nat
  data : Memory
  rel : Option Nat
  /-- the lines that were poisoned when they were copied: the slot does not serve them (R464) -/
  bad : List Nat
  deriving DecidableEq, Repr, Inhabited

/-- A core's delta buffer for one launch (R162): bucket deltas, far pushes and their lowest bucket, tasks pushed and
executed since the last pass (R365). -/
structure Deltas where
  bks : List (Nat × Int)
  farN : Nat
  farMin : Nat
  pushed : Nat
  executed : Nat
  deriving DecidableEq, Repr, Inhabited

/-- What a core's station last saw of a launch's floor carriage (R162, R166). -/
structure Seen where
  floor : Nat
  w : Nat
  relief : Nat
  deriving DecidableEq, Repr, Inhabited

/-- The carry set in a migration packet (R51), with the trap it carries to its origin core (R414). R51 does not list the thread's
mode: a supervisor thread that migrates is taken to stay one (DESIGN CHOICE, log 82). -/
structure Packet where
  launch : Nat
  src : Place
  g : Vector Word 16
  pw : BitVec 16
  pc : Word
  wid : Word
  fshadow : Word
  sshadow : Word
  status : BitVec 32
  utvec : Word
  member : Vector Word 2
  origin : BitVec 12
  placement : BitVec 12
  bucket : BitVec 32
  mode : Mode
  residual : Bool
  foot : Option Nat
  trap : Option CarriedTrap
  deriving DecidableEq, Repr, Inhabited

/-- An engine command saved with a context (R420). -/
structure EngEnt where
  op : Nat
  dst : Word
  src : Word
  cw : Word
  tag : BitVec 16
  ntf : BitVec 2
  tnd : BitVec 4
  resume : Nat
  deriving DecidableEq, Repr, Inhabited

/-- A saved context (R417): the slot's image, the slot it left, its accumulator, matrix entries (with their queue) and
checkpointed engine entries, and the number by which commands that run on know it (R420). -/
structure Saved where
  sl : Slot
  from' : Nat
  acc : Option (Nat × Acc)
  mat : List (Bool × TEntry)
  eng : List EngEnt
  rec' : Nat
  deriving DecidableEq, Repr, Inhabited

/-- An entry of a run queue (R52, R56). -/
inductive Ctx where
  | arrived (p : Packet)
  | saved (c : Saved)
  deriving DecidableEq, Repr, Inhabited

/-- A write to a shared register that has issued: other slots see it from cycle `from'` on (R227, R34). -/
structure SharedWr where
  from' : Nat
  slot : Nat
  vec : Bool
  idx : Nat
  val : Vec
  deriving DecidableEq, Repr, Inhabited

/-- A CFGBANK in progress (R239): its slot, the new mode of each bank that changes. -/
structure Cfg where
  slot : Nat
  modes : Vector (Option BankMode) 5
  deriving DecidableEq, Repr, Inhabited

/-- One compute core (R16), or one slice core (R53), which uses only the slots, run queue and micro-TLB. -/
structure CoreSt where
  s : Vector Word 32
  c : Vector Vec 32
  sharedQ : List SharedWr
  bankLaunch : Option Nat
  acc : Vector Acc 4
  pal : Vector Palette 2
  ls : Memory
  banks : Vector BankMode 5
  cfg : Option Cfg
  l1 : List L1Line
  utlb : List TlbEntry
  tenders : Vector Tender 16
  qlo : List TEntry
  qhi : List TEntry
  running : Option Running
  hiRun : Nat
  siding : Tab SidEnt
  sgen : Tab (BitVec 16)
  sorder : Nat
  res : Tab ResSlot
  seen : Tab Seen
  deltas : Tab Deltas
  chains : Tab Nat
  farOpen : Tab Nat
  rq : List Ctx
  owners : Vector Word 8
  refill : BitVec 32
  /-- the refill period in whose first cycle the shares were last given (R62, R393) -/
  shareAt : Nat
  /-- special register 0x120 by queue: it belongs to "Queue, per core" (R218); 256 is no queue -/
  roots : Tab Word
  steal : Word
  /-- by launch, the next entry of the steal list to ask (R174) -/
  stealNext : Tab Nat
  svec : Word
  ctxArea : Word
  /-- what the core keeps of the context records that CTXSAVE wrote and that have not been reinstated (R35), by address -/
  recs : Tab Saved
  slots : Tab Slot
  deriving DecidableEq, Repr, Inhabited

/-- What a capture does (R142, R214). -/
inductive CapOp where
  | load
  | cop (op : BitVec 4) (v : Word)
  | ccas (cmp : Word) (v : Word)
  | store (seat : Bool) (v : Word)
  | cwait (cond : BitVec 3) (v : Word)
  | board (l : Loc) (home : Place)
  | alight (l : Loc) (home : Place)
  | join
  | arrive
  | depart
  | poison
  | phase (tok : Word)
  deriving DecidableEq, Repr, Inhabited

/-- Progress of a capture: queued (`tested` once a CWAIT or CPHASE test failed), BOARD fetching and holding its data,
ALIGHT landing and acknowledged, or applied with its result, indication and revolution, due at a cycle (R144). -/
inductive CapSt where
  | queued
  | tested
  | fetching
  | fetched (words : List Word) (at' : Nat)
  | landing (words : List Word)
  | landed (at' : Nat)
  | done (v : Word) (ind : Nat) (rev : BitVec 16) (at' : Nat)
  deriving DecidableEq, Repr, Inhabited

/-- A capture at its station (R142): the slot that issued it and its destination field, or none for one whose results
nobody takes; `key` is its core × 8 + its slot, which order the requests of one cycle; absolute carriage, word, membership
index, the cycle it reached the station. -/
structure Cap where
  id : Nat
  key : Nat
  sid : Option Sid
  launch : Nat
  d : BitVec 6
  car : Nat
  w : Nat
  op : CapOp
  mem : Nat
  mword : Word
  acq : Bool
  arrive : Nat
  st : CapSt
  deriving DecidableEq, Repr, Inhabited

/-- One cluster's shared parts (R15): instruction cache lines, TLB, pending walks in arrival order, misses that wait for
room among them, station queue, Mordant. -/
structure ClusterSt where
  icache : List (Nat × BitVec 1024)
  tlb : List TlbEntry
  walks : List Walk
  walkQ : List Walk
  caps : List Cap
  heldCaps : List (Nat × Cap)
  mordantFree : Nat
  deriving DecidableEq, Repr, Inhabited

inductive CarState where
  | empty
  | reserved
  | seated
  | landing
  deriving DecidableEq, Repr, Inhabited

/-- A carriage (R134-R138): its control state, words and revolution count; `adv` an Advance scheduled by a station at a cycle
(R151); `lastRev` the cycle in which the count last rose; `passed` what has been applied in a pass, by station. -/
structure Carriage where
  st : CarState
  words : Vector Word 8
  rev : BitVec 16
  adv : List (Nat × Nat)
  lastRev : Option Nat
  passed : Tab Nat
  deriving DecidableEq, Repr, Inhabited

/-- An allocated L2 line (R75, R76) with its host state (R88, R386). -/
structure L2Line where
  line : Nat
  hostMem : Bool
  seq : BitVec 16
  pins : Nat
  deriving DecidableEq, Repr, Inhabited

/-- A remote request's operation (R54). -/
inductive ReqOp where
  | amo (op : BitVec 4) (dword : Bool) (v : Word)
  | cas (dword : Bool) (cmp : Word) (v : Word)
  | famo (op : BitVec 2) (dword : Bool) (v : Word) (status : BitVec 32)
  deriving DecidableEq, Repr, Inhabited

/-- Something in transit (R14). -/
inductive FBody where
  /-- a load (R267): destination, size in bytes, sign extension, byte sources, lines to fill, scope of the acquire it
  carries (0 for none) -/
  | load (d : BitVec 6) (n : Nat) (sx : Bool) (src : List BSrc) (fill : List (Nat × Nat)) (acq : Nat)
  /-- a vector load: destination, byte sources, dispatch number, and for a gather the fault that stopped it -/
  | vload (d : BitVec 6) (src : List BSrc) (seq : BitVec 16) (flt : Option LateFault) (fill : List (Nat × Nat))
  /-- a prefetch of a line, of device or of coherent host memory, with its home (R272) -/
  | fill (line home : Nat) (host : Bool)
  /-- a posted write (R91): bytes with a bit mask, tagged destination, the stream push it belongs to (one identity for the
  writes of one push), whether its home caches the line (R88) -/
  | write (bytes : List (Loc × Byte × Byte)) (tag : Option (BitVec 6)) (stream : Option Nat) (cached : Bool)
  /-- a value on its way to a general register: acknowledgement tags, results of remote requests, atomics; with the
  scope of the acquire it completes, the flags of a floating-point atomic, and whether it acknowledges a store (R270) -/
  | result (d : BitVec 6) (v : Word) (sc : Nat) (fl : BitVec 5) (ack : Bool)
  /-- a remote load from another core's local store -/
  | reqLoad (d : BitVec 6) (n : Nat) (sx : Bool) (src : List BSrc) (acq : Nat)
  | reqAtomic (d : BitVec 4) (loc : Loc) (op : ReqOp) (sc : BitVec 3)
  | red (loc : Loc) (op : BitVec 4) (dword : Bool) (v : Word)
  | migrate (p : Packet)
  | wake (core : Nat) (slot : Nat)
  | chWord (core : Nat) (ep : Nat) (src : BitVec 18) (v : Word)
  | chGrant (core : Nat) (ep : Nat) (src : BitVec 18) (n : Nat)
  | ydone (core : Nat) (ent : Nat) (gen : BitVec 16) (num : BitVec 16) (bucketFault : Sid)
  | exit (core : Nat) (bucket : BitVec 32) (placement : BitVec 12) (member : Vector Word 2) (foot : Option Nat)
  deriving DecidableEq, Repr, Inhabited

/-- `after` names the loads that must have returned before a write is performed (R103 d); `by'` is the cycle by which it
has come to its end unless something holds it (R65). -/
structure Flight where
  id : Nat
  launch : Nat
  src : Place
  dst : Place
  sid : Option Sid
  body : FBody
  after : List Nat
  by' : Nat
  deriving DecidableEq, Repr, Inhabited

/-- An engine command in progress (R333): operation 1 XCPY, 2 XGATH, 3 XCOLL with its kind. `mark` counts the bytes
(XGATH: elements) already written (R420), `merge` the commands the combining node has merged with it (R339). -/
structure Cmd where
  id : Nat
  launch : Nat
  core : Nat
  slot : Option Nat
  op : Nat
  kind : BitVec 3
  dst : Word
  src : Word
  cw : Word
  tag : BitVec 16
  ntf : BitVec 2
  tnd : BitVec 4
  pushed : Nat
  mark : Nat
  merge : List Nat
  started : Bool
  cutBank : Bool
  rank : Nat
  /-- the saved context that waits for its completion (R420), by the address or number of its record -/
  owner : Option Nat
  /-- its thread was killed or ended: the completion is discarded (R415) -/
  disc : Bool
  deriving DecidableEq, Repr, Inhabited

/-- A launch's Yard state at the depot (R164, R165, R172, R178); `inUse` counts the spill blocks allocated (R171),
`transit` holds the far records sent to the peer and not acknowledged (R180, R467). -/
structure YardSt where
  copy : List Word
  qPrev : Bool
  done : Bool
  signalled : Bool
  reliefDue : Bool
  withhold : Option Nat
  agent : Nat
  lastDepot : Nat
  coupled : Bool
  peerQ : Bool
  transit : List (List Word)
  /-- far records that the peer has announced and that have not arrived (R180) -/
  inbound : Nat
  inUse : Nat
  deriving DecidableEq, Repr, Inhabited

/-- A launch (R41, R154, R392, R396). -/
structure Launch where
  num : Nat
  lid : Word
  queue : Nat
  hdr : List Word
  rect : BitVec 20
  root : Word
  recAddr : Word
  pkt : Nat
  pairId : Word
  peer : BitVec 8
  faults : Nat
  cause : BitVec 32
  loc : BitVec 32
  /-- the detail of the last fault counted with one (R442) -/
  detail : Option Word
  start : Option Nat
  yard : YardSt
  abort : Option (BitVec 32)
  /-- the cluster groups of a gather-start launch that have started (R47) -/
  gathered : List Nat
  /-- arena blocks whose generation has been retired and that wait for release (R199) -/
  pendFree : List Nat
  cores : List Nat
  /-- the write-back of its completion has been started (R396) -/
  wb : Bool
  finished : Bool
  deriving DecidableEq, Repr, Inhabited

/-- A fetched packet of a queue (R389, R390); `dropped` lists the cores that gave up their lines for the phase change it
began (R110). -/
structure Pkt where
  n : Nat
  words : List Word
  started : Bool
  complete : Bool
  launch : Option Nat
  dropped : List Nat
  deriving DecidableEq, Repr, Inhabited

/-- A queue (R387, R388): its entry as the host wrote it, whether Umber serves it, packets fetched and not complete, the
cores its launches have been placed on or have run on (R110), whether it is stopped and for what (R461, R462, R468). -/
structure QueueSt where
  ent : List Word
  served : Bool
  ringHead : Nat
  pkts : List Pkt
  lastPhase : BitVec 32
  cores : List Nat
  stopErr : Bool
  stopRing : Bool
  stopHeat : Bool
  deriving DecidableEq, Repr, Inhabited

/-- The event ring (R398, R399, R462): its header, the store of events held while it is not configured, the events of this
cycle, each with the queue it belongs to, and whether a summary of lost events is due. -/
structure EvRing where
  base : Word
  size : BitVec 32
  head : Word
  tail : Word
  overflow : BitVec 32
  firstLost : BitVec 16
  lastLost : BitVec 16
  store : List (List Word × Option Nat)
  due : List (List Word × Option Nat)
  lossDue : Bool
  deriving DecidableEq, Repr, Inhabited

/-- Error history of a unit (R463, R466): errors of this window, full windows running, the cycle in which a window of its
last ended. -/
structure ErrHist where
  inWindow : Nat
  windows : Nat
  ended : Nat
  uncorr : Nat
  retired : Bool
  deriving DecidableEq, Repr, Inhabited

/-- How the last CXL.mem request of the host ended (R386, R464, R469): there was none; with an error; with the bytes read, each
with the poison indication of its line (none for a write). -/
inductive CxlReply where
  | idle
  | error
  | data (bytes : List (Byte × Bool))
  deriving DecidableEq, Repr, Inhabited

/-- The configuration record in the secure flash (R469): whether its signature verifies, its digest, and the units that it
does not enable. -/
structure ConfRec where
  ok : Bool
  digest : Nat
  off : List Word
  deriving DecidableEq, Repr, Inhabited

/-- The module, its memory, and what is in transit. -/
structure State where
  cyc : Nat
  cur : Sid
  /-- the word of the instruction being executed, for the traps whose tval is "the word" -/
  word : Word
  subj : Nat
  agenda : List Act
  tick : Nat
  fresh : Nat
  nextId : Nat
  mem : Memory
  hostMem : Memory
  l2 : Tab (List L2Line)
  poison : List Nat
  /-- host lines whose reads over CXL.cache the host answers with an error (R461) -/
  hostBad : List Nat
  /-- where in device memory Umber keeps the frame class table (R77; DESIGN CHOICE, log 9) -/
  frameTable : Nat
  /-- device lines of pages with host_coherent = 1 that writes of the device have named (R386) -/
  hostLines : List Nat
  /-- those of them whose snoop the host has answered, with no write of the device and no read of the host since (R386) -/
  snooped : List Nat
  snoops : List Nat
  booted : Bool
  deadClusters : List Nat
  deadSlices : List Nat
  deadChannels : List Nat
  deadLanes : Tab (BitVec 16)
  cores : Tab CoreSt
  slices : Tab CoreSt
  sliceIcache : Tab (List (Nat × BitVec 1024))
  clusters : Tab ClusterSt
  cars : Tab Carriage
  flights : List Flight
  cmds : List Cmd
  launches : List Launch
  queues : Tab QueueSt
  ring : EvRing
  msix : List Nat
  devId : BitVec 8
  groups : Tab (List Byte)
  matches' : Tab Nat
  /-- the devices across a lost coupling -/
  lostCouplings : List Nat
  /-- the couplings that are lost (R467) -/
  downCouplings : List Nat
  errs : Tab ErrHist
  retireLog : List (Word × Nat)
  imageA : Bool × Nat
  imageB : Bool × Nat
  confRec : ConfRec
  bootImage : Nat
  bootStatus : Word
  linkLanes : Nat
  linkGts : Nat
  ideKeys : List Nat
  attest : List Nat
  cxl : CxlReply
  /-- the package temperature in tenths of a degree, as last reported (R468) -/
  temp : Nat
  tripped : Bool
  zeroRefill : Bool
  /-- Umber's paging policy (R415; DESIGN CHOICE, log 11): by address space and 64 KiB page, the addresses and entries it writes to map it -/
  paging : Tab (List (Nat × Word))
  umberVersion : Word
  deriving DecidableEq, Repr, Inhabited


/-- A free slot as reset leaves it (R32, R58; DESIGN CHOICE, log 1). -/
def slotReset : Slot where
  busy := false
  launch := 0
  mode := .user
  g := Vector.replicate 16 0
  pw := 1
  pc := 0
  wid := 0
  status := 0
  fshadow := 0
  sshadow := 0
  utvec := 0
  uivec := 0
  member := Vector.replicate 2 0
  origin := 0
  placement := 0
  bucket := 0
  ix := 0
  mgeo := 0
  tcause := 0x000000FF00000000
  tval := 0
  tpc := 0
  tseq := 0
  handler := .none
  savedG := Vector.replicate 5 0
  savedPw := 0
  savedPc := 0
  nalloc := 8
  f := Vector.replicate 32 0
  streams := Vector.replicate 4 none
  seqr := none
  dseq := 0
  ring := Vector.replicate 64 ⟨0, 0, 0⟩
  late := none
  lateRun := false
  eps := Vector.replicate 8 ⟨false, 0, 0, [], 0, [], false⟩
  chLast := 7
  budget := 0
  wake := false
  asleep := none
  timedOut := none
  pend := []
  hold := .none
  relDone := false
  stage := 0
  spec := none
  tags := 0
  fifo := []
  ints := []
  heldC := []
  xpopWait := []
  mmpopWait := []
  reside := []
  foot := none
  sepc := 0
  smode := .user
  fdetail := 0
  umber := none
  walkWait := none
  sliceTrap := none
  residual := false
  gatherWait := false
  lastIssue := none
  lastSeq := none
  prior := []
  stopped := false
  preempted := false
  gen := none

def accReset : Acc := ⟨Vector.replicate 1024 0, false, 0, none, none⟩

def palReset : Palette := ⟨Vector.replicate 128 0, false⟩

def tenderReset : Tender := ⟨false, false, 0, 0, 0, 0, 0, 0, 0, 0⟩

/-- A core as reset leaves it (R35, R58, R70; DESIGN CHOICE, log 1). -/
def coreReset : CoreSt where
  s := Vector.replicate 32 0
  c := Vector.replicate 32 0
  sharedQ := []
  bankLaunch := none
  acc := Vector.replicate 4 accReset
  pal := Vector.replicate 2 palReset
  ls := []
  banks := Vector.replicate 5 .cache
  cfg := none
  l1 := []
  utlb := []
  tenders := Vector.replicate 16 tenderReset
  qlo := []
  qhi := []
  running := none
  hiRun := 0
  siding := []
  sgen := []
  sorder := 0
  res := []
  seen := []
  deltas := []
  chains := []
  farOpen := []
  rq := []
  owners := Vector.replicate 8 0
  refill := 0
  shareAt := 0
  roots := []
  steal := 0
  stealNext := []
  svec := 0
  ctxArea := 0
  recs := []
  slots := []

def clusterReset : ClusterSt := ⟨[], [], [], [], [], [], 0⟩

/-- A carriage after reset: EMPTY, revolution 0 (R137, R138). -/
def carReset : Carriage := ⟨.empty, Vector.replicate 8 0, 0, [], none, []⟩

def queueReset : QueueSt := ⟨List.replicate 8 0, false, 0, [], 0, [], false, false, false⟩

def resReset : ResSlot := ⟨false, false, 0, 0, [], none, []⟩

def seenReset : Seen := ⟨0, 0, 0⟩

def deltasReset : Deltas := ⟨[], 0, 0, 0, 0⟩

def errReset : ErrHist := ⟨0, 0, 0, 0, false⟩

/-- The module right after reset: cycle 0, nothing booted, memory empty, every carriage EMPTY, every bank CACHE, every
slot free and unowned, every register at the value its rule or log entry 1 gives (DESIGN CHOICE, log 1, 10). -/
def State.reset : State where
  cyc := 0
  cur := ⟨.core 0, 0⟩
  word := 0
  subj := 0
  agenda := []
  tick := 0
  fresh := 0
  nextId := 0
  mem := []
  hostMem := []
  l2 := []
  poison := []
  hostBad := []
  frameTable := 0x2FFF400000
  hostLines := []
  snooped := []
  snoops := []
  booted := false
  deadClusters := []
  deadSlices := []
  deadChannels := []
  deadLanes := []
  cores := []
  slices := []
  sliceIcache := []
  clusters := []
  cars := []
  flights := []
  cmds := []
  launches := []
  queues := []
  ring := ⟨0, 0, 0, 0, 0, 0, 0, [], [], false⟩
  msix := []
  devId := 0
  groups := []
  matches' := []
  lostCouplings := []
  downCouplings := []
  errs := []
  retireLog := []
  imageA := (true, 0)
  imageB := (true, 0)
  confRec := ⟨true, 0, []⟩
  bootImage := 0
  bootStatus := 0
  linkLanes := 0
  linkGts := 0
  ideKeys := []
  attest := []
  cxl := .idle
  temp := 0
  tripped := false
  zeroRefill := false
  paging := []
  umberVersion := 0

end Sys2Proof.Machine
end

