-- ==== Sys2Proof/Machine/Ops.lean ====
section
/-! DEFINITION. The shared operations: the outcome of an instruction in progress, tables, byte memory, places and
slots, free values, and taking an exception (R403-R415) with the return from one (R234, R235). -/

namespace Sys2Proof.Machine

/-- The outcome of a step of this machine. -/
abbrev Out := Host.Outcome State Fault Refusal

/-- An instruction in progress: it goes on with a state, or it has ended in an outcome. -/
abbrev M := StateT State (Except Out)

/-- The outcome of a whole instruction. -/
def run (m : M Unit) (s : State) : Out :=
  match m s with
  | .ok (_, t) => .next t
  | .error o => o

/-- End the instruction here, in the state reached. -/
def stop {α : Type} : M α := fun s => .error (.next s)

-- tables

/-- Entry n of a table, `d` where it lists none. -/
def tabGet {α : Type} (d : α) : Tab α → Nat → α
  | [], _ => d
  | (k, v) :: t, n => if k = n then v else tabGet d t n

/-- Entry n of a table, if it lists one. -/
def tabFind {α : Type} : Tab α → Nat → Option α
  | [], _ => none
  | (k, v) :: t, n => if k = n then some v else tabFind t n

/-- The table with entry n set. -/
def tabSet {α : Type} : Tab α → Nat → α → Tab α
  | [], n, v => [(n, v)]
  | (k, w) :: t, n, v =>
    if k = n then (n, v) :: t
    else if n < k then (n, v) :: (k, w) :: t
    else (k, w) :: tabSet t n v

/-- The table without entry n. -/
def tabDel {α : Type} (t : Tab α) (n : Nat) : Tab α := t.filter (fun e => e.1 != n)

-- byte memory (MEMORY: canonical form; an unlisted byte reads 0; DESIGN CHOICE, log 2)

/-- The byte at an address. -/
def Memory.read : Memory → Nat → Byte
  | [], _ => 0
  | (k, b) :: t, a => if k = a then b else Memory.read t a

/-- The memory with one byte written, in canonical form. -/
def Memory.write : Memory → Nat → Byte → Memory
  | [], a, b => if b = 0 then [] else [(a, b)]
  | (k, c) :: t, a, b =>
    if k = a then (if b = 0 then t else (a, b) :: t)
    else if a < k then (if b = 0 then (k, c) :: t else (a, b) :: (k, c) :: t)
    else (k, c) :: Memory.write t a b

/-- Canonical form: addresses strictly rising and no entry equal to what an unlisted address reads. -/
def Memory.wf : Memory → Bool
  | [] => true
  | (k, b) :: t => decide (b ≠ 0) && t.all (fun e => decide (k < e.1)) && Memory.wf t

/-- n bytes from address a on, lowest address first. -/
def Memory.readBytes (m : Memory) (a n : Nat) : List Byte := (List.range n).map (fun i => Memory.read m (a + i))

/-- Bytes written from address a on. -/
def Memory.writeBytes (m : Memory) (a : Nat) : List Byte → Memory
  | [] => m
  | b :: l => Memory.writeBytes (Memory.write m a b) (a + 1) l

/-- n bytes from address a on as a little-endian number (R4). -/
def Memory.readNat (m : Memory) (a n : Nat) : Nat := ofBytes (Memory.readBytes m a n)

/-- The low n bytes of a number, little-endian. -/
def natBytes : Nat → Nat → List Byte
  | 0, _ => []
  | n + 1, v => BitVec.ofNat 8 v :: natBytes n (v / 256)

def Memory.writeNat (m : Memory) (a n v : Nat) : Memory := Memory.writeBytes m a (natBytes n v)

/-- 64-byte vector as bytes, and back. -/
def vecBytes (v : Vec) : List Byte := natBytes 64 v.toNat

def bytesVec (l : List Byte) : Vec := BitVec.ofNat 512 (ofBytes l)

-- places

/-- The state of a place: of a compute core or of a slice core. -/
def State.at' (s : State) : Place → CoreSt
  | .core n => tabGet coreReset s.cores n
  | .slice n => tabGet coreReset s.slices n

def State.setAt (s : State) (p : Place) (c : CoreSt) : State :=
  match p with
  | .core n => { s with cores := tabSet s.cores n c }
  | .slice n => { s with slices := tabSet s.slices n c }

/-- The slot of a name. -/
def State.slotAt (s : State) (i : Sid) : Slot := tabGet slotReset (s.at' i.pl).slots i.k

def State.setSlot (s : State) (i : Sid) (x : Slot) : State :=
  s.setAt i.pl { s.at' i.pl with slots := tabSet (s.at' i.pl).slots i.k x }

def State.cluster (s : State) (n : Nat) : ClusterSt := tabGet clusterReset s.clusters n

def State.setCluster (s : State) (n : Nat) (c : ClusterSt) : State := { s with clusters := tabSet s.clusters n c }

def State.car (s : State) (n : Nat) : Carriage := tabGet carReset s.cars n

def State.setCar (s : State) (n : Nat) (c : Carriage) : State := { s with cars := tabSet s.cars n c }

/-- The open launch of a number. -/
def State.launch? (s : State) (n : Nat) : Option Launch := s.launches.find? (fun l => l.num == n && !l.finished)

def State.setLaunch (s : State) (l : Launch) : State :=
  { s with launches := s.launches.map (fun k => if k.num = l.num && !k.finished then l else k) }

/-- The live compute cores and slices (R18, R21). -/
def State.coreLive (s : State) (n : Nat) : Bool := decide (n < 4096) && !(s.deadClusters.contains (n / 4))

def State.sliceLive (s : State) (n : Nat) : Bool := decide (n < 1024) && !(s.deadSlices.contains n)

/-- The core number of a place: a slice's thread reports its slice position. -/
def placeNum : Place → Nat
  | .core n => n
  | .slice n => n

/-- The cluster of a place: of a core, or the one above a slice. -/
def clusterOf : Place → Nat
  | .core n => n / 4
  | .slice n => n

-- the slot whose instruction is executing

def getS : M State := fun s => .ok (s, s)

def setS (t : State) : M Unit := fun _ => .ok ((), t)

def slot : M Slot := fun s => .ok (s.slotAt s.cur, s)

def modSlot (f : Slot → Slot) : M Unit := fun s => .ok ((), s.setSlot s.cur (f (s.slotAt s.cur)))

def place : M Place := fun s => .ok (s.cur.pl, s)

def core : M CoreSt := fun s => .ok (s.at' s.cur.pl, s)

def modCore (f : CoreSt → CoreSt) : M Unit := fun s => .ok ((), s.setAt s.cur.pl (f (s.at' s.cur.pl)))

def modS (f : State → State) : M Unit := fun s => .ok ((), f s)

/-- A free value (R2; DESIGN CHOICE, log 4). -/
def freeWord : M Word := fun s => .ok (Config.free s.fresh, { s with fresh := s.fresh + 1 })

def freeVec : M Vec := fun s => .ok (Config.freeVec s.fresh, { s with fresh := s.fresh + 1 })

/-- A fresh identity for a thing in transit. -/
def newId : M Nat := fun s => .ok (s.nextId, { s with nextId := s.nextId + 1 })

/-- The turn is lost (R27, R29): nothing has happened, and the instruction at pc is tried again. -/
def loseTurn {α : Type} : M α := stop

/-- The turn is lost and the thread is out of the rotation until the instruction at pc completes (R31). -/
def holdTurn {α : Type} : M α := do
  modSlot (fun x => { x with hold := .held })
  stop

/-- The thread sleeps in the instruction at pc (R57). -/
def sleepTurn {α : Type} (k : SleepIn) : M α := do
  let s ← getS
  modSlot (fun x => { x with asleep := some (x.asleep.getD ⟨s.cyc, k, none⟩) })
  stop

/-- The instruction at pc is over; the thread goes on at `pc'`. -/
def Slot.goTo (x : Slot) (pc' : Word) : Slot :=
  { x with pc := pc', asleep := none, hold := .none, relDone := false, stage := 0, spec := none, walkWait := none }

/-- The instruction at pc is over; the pc advances by 8 (R200). -/
def Slot.advance (x : Slot) : Slot := x.goTo (x.pc + 8)

/-- End of an instruction that neither branches nor ends its thread. -/
def done : M Unit := modSlot Slot.advance

/-- End of a branch. -/
def jump (pc' : Word) : M Unit := modSlot (fun x => x.goTo pc')

/-- Leave for another place (R49, R50): out of the rotation until the packet leaves. -/
def depart {α : Type} (dst : Place) (pastPc : Bool) : M α := do
  modSlot (fun x => { x with hold := .depart dst pastPc none, asleep := none, relDone := false, stage := 0, walkWait := none })
  stop

/-- A thread on a slice core goes back to its origin core, where the instruction is executed (R53, R229). -/
def needCore : M Unit := do
  match ← place with
  | .core _ => pure ()
  | .slice _ => depart (.core (← slot).origin.toNat) false

-- causes (R403)

def cIllegal : BitVec 16 := 0x0001
def cPrivilege : BitVec 16 := 0x0002
def cRegIndex : BitVec 16 := 0x0003
def cAccess : BitVec 16 := 0x0004
def cAlign : BitVec 16 := 0x0005
def cPage : BitVec 16 := 0x0006
def cDivide : BitVec 16 := 0x0007
def cShared : BitVec 16 := 0x0008
def cPinned : BitVec 16 := 0x0009
def cAcc : BitVec 16 := 0x000A
def cFormat : BitVec 16 := 0x000B
def cWindow : BitVec 16 := 0x000C
def cBarrier : BitVec 16 := 0x000D
def cTender : BitVec 16 := 0x000E
def cChannel : BitVec 16 := 0x000F
def cStale : BitVec 16 := 0x0010
def cSpec : BitVec 16 := 0x0011
def cArena : BitVec 16 := 0x0012
def cCont : BitVec 16 := 0x0013
def cBucket : BitVec 16 := 0x0014
def cRecord : BitVec 16 := 0x0015
def cSiding : BitVec 16 := 0x0016
def cSysc : BitVec 16 := 0x0017
def cAsleep : BitVec 16 := 0x0018
def cData : BitVec 16 := 0x0020

/-- A cause that may go to utvec: all but a system call, the all-asleep trap and a data error (R403). -/
def deliverable (c : BitVec 16) : Bool := c != cSysc && c != cAsleep && c != cData

/-- What Umber will do about a trap that reaches it: service a system call, consider a page fault under the paging
policy, or kill (R415). This holds inside a user handler too (DEDUCED, log 87). -/
def umberWork (cause : BitVec 16) (tval : Word) : UmberWork :=
  if cause = cSysc then .service (tval.setWidth 32) else if cause = cPage then .page tval else .kill

/-- The bits of the format shadow, the scale shadow and tcause that are not reserved (R124, R404). -/
def fshadowMask : Word := 0xBFFFF
def sshadowMask : Word := 0xFFFFFFFF
def tcauseMask : Word := 0x0000FFFF8000FFFF

/-- Bits [2:0] cleared. -/
def clear3 (v : Word) : Word := v &&& 0xFFFFFFFFFFFFFFF8

/-- A trap as its rule raises it: cause, tval, lane (0xFF none), dispatch number of a late fault, fault detail. -/
structure Trap where
  cause : BitVec 16
  tval : Word
  lane : BitVec 8
  seq : Option (BitVec 16)
  detail : Option Word
  deriving DecidableEq, Repr, Inhabited

/-- tcause as a delivery writes it: lost keeps its count (R404, R409). -/
def Trap.tcause (t : Trap) (old : Word) : Word :=
  (0#16 ++ old.extractLsb' 40 8 ++ t.lane ++ BitVec.ofBool t.seq.isSome ++ 0#15 ++ t.cause : BitVec 64)

/-- tseq as a delivery writes it (R404). -/
def Trap.tseq (t : Trap) : Word :=
  match t.seq with
  | none => 0
  | some q => (0#47 ++ 1#1 ++ q : BitVec 64)

/-- The trap is delivered to the user handler (R410). -/
def Trap.toUser (t : Trap) (x : Slot) : Bool :=
  x.status.getLsbD 8 && x.utvec != 0 && deliverable t.cause && x.handler == .none && x.mode == .user

/-- The fault detail of a trap whose rule gives none: no walk took place, no kind, agent 0 (R425; DEDUCED, log 86). -/
def noDetail : Word := 0xF0

/-- Taking an exception in a slot of a compute core, `svec` being the core's (R410-R413, R425): the trap registers and
the fault detail are written and tpc is the pc; then either the user handler starts, or sepc, smode and the mode are
written (bits [2:0] of sepc read zero) and the pc becomes svec (DEDUCED, log 14). -/
def Slot.takeTrap (x : Slot) (t : Trap) (svec : Word) : Slot :=
  let y := { x with
    tcause := t.tcause x.tcause, tval := t.tval, tpc := x.pc, tseq := t.tseq,
    fdetail := if t.cause = cAccess ∨ t.cause = cAlign ∨ t.cause = cPage then t.detail.getD noDetail else x.fdetail,
    asleep := none, hold := .none, relDone := false, stage := 0, spec := none, walkWait := none }
  if t.toUser x then { y with handler := .trap, pc := x.utvec }
  else { y with
    sepc := (if t.cause = cSysc then x.pc + 8 else x.pc) &&& 0xFFFFFFFFFFFFFFF8,
    smode := x.mode, mode := .supervisor, pc := svec, umber := some (umberWork t.cause t.tval) }

/-- A trap in a slot: taken there on a compute core; on a slice core the thread leaves for its origin core and takes it
there (R414). -/
def State.raise (s : State) (i : Sid) (t : Trap) : State :=
  match i.pl with
  | .core _ => s.setSlot i ((s.slotAt i).takeTrap t (s.at' i.pl).svec)
  | .slice _ =>
    s.setSlot i { s.slotAt i with
      hold := .depart (.core (s.slotAt i).origin.toNat) false (some ⟨t.cause, t.tval, t.detail.getD noDetail, false⟩),
      asleep := none, relDone := false, stage := 0, walkWait := none }

/-- The trap just raised in a slot is a late one (R404, R407): in tcause, or in what the thread carries to its origin core. -/
def Slot.markLate (x : Slot) : Slot :=
  match x.hold with
  | .depart dst past (some t) => { x with hold := .depart dst past (some { t with late := true }) }
  | _ => { x with tcause := x.tcause ||| 0x80000000 }

/-- Raise a late fault in a slot (R407); until its handler ends, a further one is only counted (R409). -/
def State.raiseLate (s : State) (i : Sid) (t : Trap) : State :=
  let u := s.raise i t
  u.setSlot i { (u.slotAt i).markLate with lateRun := true }

/-- One more late fault lost, saturating (R409). -/
def addLost (tcause : Word) : Word :=
  if tcause.extractLsb' 40 8 = 0xFF then tcause else tcause + (1#64 <<< 40)

/-- A late fault comes to a slot: it is recorded, or counted as lost while another waits or its handler runs (R409). -/
def Slot.noteLate (x : Slot) (lf : LateFault) : Slot :=
  if x.late.isSome || x.lateRun then { x with tcause := addLost x.tcause } else { x with late := some lf }

/-- Raise an exact trap (R405). -/
def trapWith {α : Type} (t : Trap) : M α := fun s => .error (.next (s.raise s.cur t))

/-- A TRAP that names the cause of a system call calls no service: Umber kills its thread (R415, R437). -/
def State.raiseKill (s : State) (i : Sid) (t : Trap) : State :=
  let u := s.raise i t
  u.setSlot i { u.slotAt i with sepc := clear3 (s.slotAt i).pc, umber := some .kill }

/-- Raise an exact trap without a fault detail. -/
def trap {α : Type} (cause : BitVec 16) (tval : Word) : M α := trapWith ⟨cause, tval, 0xFF, none, none⟩

/-- The illegal-instruction trap with the word in tval (R203). -/
def illegal {α : Type} : M α := fun s => trap cIllegal s.word s

/-- The fault detail word (R425): agent, write, level, kind. -/
def detail (agent : BitVec 3) (wr : Bool) (level kind : BitVec 4) : Word :=
  (0#52 ++ agent ++ BitVec.ofBool wr ++ level ++ kind : BitVec 64)

/-- An access-violation trap outside translation (R66, R67): level 0xF, kind 4. -/
def violation {α : Type} (agent : BitVec 3) (wr : Bool) (va : Word) : M α :=
  trapWith ⟨cAccess, va, 0xFF, none, some (detail agent wr 0xF 4)⟩

/-- An alignment trap: level 0xF, kind 5. -/
def misaligned {α : Type} (agent : BitVec 3) (wr : Bool) (va : Word) : M α :=
  trapWith ⟨cAlign, va, 0xFF, none, some (detail agent wr 0xF 5)⟩

/-- Return from Umber (R234, R413): pc := sepc, mode := smode. Outside a user handler it ends the handling of a late fault. -/
def Slot.eret (x : Slot) : Slot :=
  { x.goTo x.sepc with mode := x.smode, umber := none, lateRun := x.lateRun && x.handler == .trap }

/-- Return from a user handler (R235), none when no handler runs. -/
def Slot.uret (x : Slot) : Option Slot :=
  match x.handler with
  | .interrupt =>
    some { x.goTo x.savedPc with
      g := ((((x.g.set 11 x.savedG[0]).set 12 x.savedG[1]).set 13 x.savedG[2]).set 14 x.savedG[3]).set 15 x.savedG[4],
      pw := x.savedPw, handler := .none }
  | .trap => some { x.goTo x.tpc with handler := .none, lateRun := false }
  | .none => none

end Sys2Proof.Machine
end

