-- ==== Sys2Proof/Machine/Trans.lean ====
section
/-! DEFINITION. Homes, page tables, TLBs and the checks of an access (R66-R88, R264, R425-R429). -/

namespace Sys2Proof.Machine

-- live slices and homes (R78-R81)

/-- Index n of the list of the numbers not in `dead`, which rises (R78). -/
def liveNth (dead : List Nat) (n : Nat) : Nat := dead.foldl (fun m d => if d ≤ m then m + 1 else m) n

/-- The modulo divisor: the live slice count (R21, R78). -/
def State.divisor (s : State) : Nat := 1024 - s.deadSlices.length

/-- The links a packet crosses from one mesh position to another (R12); `up` 1 for the compute layer. -/
def meshLinks (x0 y0 up0 x1 y1 up1 : Nat) : Nat :=
  (x0 - x1) + (x1 - x0) + ((y0 - y1) + (y1 - y0)) + (if up0 = up1 then 0 else 1)

/-- The remap table (R80): a dead slice's lines go to a live neighbour, else to the nearest live slice, lowest index on
a tie. -/
def State.remap (s : State) (i : Nat) : Nat :=
  let x := i % 32
  let y := i / 32
  if s.sliceLive i then i
  else if x < 31 && s.sliceLive (i + 1) then i + 1
  else if 0 < x && s.sliceLive (i - 1) then i - 1
  else if y < 31 && s.sliceLive (i + 32) then i + 32
  else if 0 < y && s.sliceLive (i - 32) then i - 32
  else
    ((List.range 1024).foldl (fun (b : Nat × Nat) j =>
      let d := meshLinks x y 0 (j % 32) (j / 32) 0
      if s.sliceLive j && decide (d < b.1) then (d, j) else b) (1000, i)).2

/-- The live slices beneath the rectangle of a region-local argument, in row-major order (R79). -/
def State.rectSlices (s : State) (arg : BitVec 20) : List Nat :=
  let x0 := (arg.extractLsb' 0 5).toNat
  let y0 := (arg.extractLsb' 5 5).toNat
  let w := (arg.extractLsb' 10 5).toNat + 1
  let h := (arg.extractLsb' 15 5).toNat + 1
  (List.range h).flatMap (fun j => ((List.range w).map (fun i => (y0 + j) * 32 + x0 + i)).filter s.sliceLive)

/-- The rectangle does not run past column 31 or row 31 (R79). -/
def rectOk (arg : BitVec 20) : Bool :=
  decide ((arg.extractLsb' 0 5).toNat + (arg.extractLsb' 10 5).toNat ≤ 31) &&
  decide ((arg.extractLsb' 5 5).toNat + (arg.extractLsb' 15 5).toNat ≤ 31)

/-- The modulo map (R78). -/
def State.modHome (s : State) (line : Nat) : Nat := liveNth s.deadSlices (line % s.divisor)

/-- The home slice of a physical address under a class and argument; none when no slice is live under a region-local
rectangle (R78-R80). `pofs` is the address's offset in its page. -/
def State.homeBy (s : State) (cls : Nat) (arg : BitVec 20) (pa pofs : Nat) : Option Nat :=
  match cls with
  | 1 =>
    let l := s.rectSlices arg
    if l.length = 0 then none else l[(pa / 128) % l.length]?
  | 2 =>
    let sh := 9 + (arg.extractLsb' 10 2).toNat
    let x := ((arg.extractLsb' 0 5).toNat + (pofs / 2 ^ sh) % 32) % 32
    let y := ((arg.extractLsb' 5 5).toNat + (pofs / 2 ^ (sh + 5)) % 32) % 32
    some (s.remap (y * 32 + x))
  | _ => some (s.modHome (pa / 128))

-- page-table entries (R84)

def pteValid (p : Word) : Bool := p.getLsbD 0
def pteLeaf (p : Word) : Bool := p.getLsbD 1
def pteRo (p : Word) : Bool := p.getLsbD 2
def pteConst (p : Word) : Bool := p.getLsbD 3
def pteHost (p : Word) : Bool := p.getLsbD 4
def pteHostCoh (p : Word) : Bool := p.getLsbD 5
def pteClass (p : Word) : Nat := (p.extractLsb' 6 2).toNat
def pteArg (p : Word) : BitVec 20 := p.extractLsb' 52 12 ++ p.extractLsb' 8 8
def pteFrame (p : Word) : Nat := (p.extractLsb' 16 36).toNat * 65536

/-- A class and argument that a leaf may hold (R84); `host` for a host-system page. -/
def mapOk (cls : Nat) (arg : BitVec 20) (host : Bool) : Bool :=
  match cls with
  | 0 => arg == 0
  | 1 => !host && rectOk arg
  | 2 => !host && (arg.extractLsb' 12 8 == 0)
  | _ => false

/-- A leaf of a page of 2^shift bytes is well formed (R84). -/
def leafOk (shift : Nat) (p : Word) : Bool :=
  mapOk (pteClass p) (pteArg p) (pteHost p) && decide (pteFrame p % 2 ^ shift = 0) && (!pteConst p || pteRo p)

/-- A table entry has zero in every bit but 0 and [51:8] (R84). -/
def tableOk (p : Word) : Bool := (p &&& 0xFFF00000000000FE#64) == 0

-- the frame class table (R77)

/-- Where the frame class entry of a device frame lies: one 4-byte entry per 64 KiB frame (R77). -/
def State.frameEntry (s : State) (pa : Nat) : Nat := s.frameTable + 4 * (pa / 65536)

/-- The class and argument that the frame class table records for a device frame (R77), the modulo class when the entry is
malformed (R84) (DESIGN CHOICE, log 9). -/
def State.frameMap (s : State) (pa : Nat) : Nat × BitVec 20 :=
  let e : BitVec 32 := BitVec.ofNat 32 (Memory.readNat s.mem (s.frameEntry pa) 4)
  let cls := (e.extractLsb' 20 2).toNat
  let arg := e.setWidth 20
  if mapOk cls arg false && (cls != 1 || !(s.rectSlices arg).isEmpty) then (cls, arg) else (0, 0)

/-- The home of a device line for an agent that uses the frame class table (R77) (DEDUCED, log 34). -/
def State.frameHome (s : State) (pa : Nat) : Nat :=
  (s.homeBy (s.frameMap pa).1 (s.frameMap pa).2 pa (pa % 65536)).getD (s.modHome (pa / 128))

-- channels (R75)

/-- The DRAM channels still live, and the capacity they hold: 768 MiB each (R10, R21). -/
def State.liveChannels (s : State) : Nat := 256 - s.deadChannels.length

def State.dramBytes (s : State) : Nat := s.liveChannels * 0x30000000

/-- The channel that holds a device address: blocks of 256 B over the live channels in increasing order (R75); channel n
belongs to stack n div 64 (R10). R21 speaks of the live channels of the stack, R75 of the package's: R75 is taken (DEDUCED, log 93). -/
def State.channelOf (s : State) (pa : Nat) : Nat := liveNth s.deadChannels ((pa / 256) % s.liveChannels)

/-- What a walk finds: the leaf and its page's shift, or the level and kind of the failure (R425). -/
inductive WalkRes where
  | leaf (pte : Word) (shift : Nat)
  | fail (level kind : BitVec 4)
  deriving DecidableEq, Repr, Inhabited

/-- The rest of a walk from a table at `base`: levels still to come with their lowest index bit, index width, and whether
a leaf may stand there (R83, R84). Entries are read at home (R427); an uncorrectable error reads as kind 6 (R425). -/
def walkFrom (s : State) (va : Word) (base : Nat) : List (BitVec 4 × Nat × Nat × Bool) → WalkRes
  | [] => .fail 3 3
  | (lvl, sh, w, leafHere) :: rest =>
    let ea := base + 8 * ((va.toNat / 2 ^ sh) % 2 ^ w)
    let p : Word := BitVec.ofNat 64 (Memory.readNat s.mem ea 8)
    if s.poison.contains (ea / 128) then .fail lvl 6
    else if !pteValid p then .fail lvl 1
    else if pteLeaf p then
      if leafHere && leafOk sh p then .leaf p sh else .fail lvl 3
    else if rest.isEmpty || !tableOk p then .fail lvl 3
    else walkFrom s va ((p.extractLsb' 8 44).toNat * 256) rest

/-- A walk of the four levels (R83). -/
def walk (s : State) (root va : Word) : WalkRes :=
  walkFrom s va ((root.extractLsb' 16 36).toNat * 65536) [(0, 43, 13, false), (1, 30, 13, true), (2, 21, 9, true), (3, 16, 5, true)]

/-- The device lines that a walk reads, in its order. -/
def walkLinesFrom (s : State) (va : Word) (base : Nat) : List (BitVec 4 × Nat × Nat × Bool) → List Nat
  | [] => []
  | (_, sh, w, _) :: rest =>
    let ea := base + 8 * ((va.toNat / 2 ^ sh) % 2 ^ w)
    let p : Word := BitVec.ofNat 64 (Memory.readNat s.mem ea 8)
    if s.poison.contains (ea / 128) || !pteValid p || pteLeaf p || !tableOk p then [ea / 128]
    else ea / 128 :: walkLinesFrom s va ((p.extractLsb' 8 44).toNat * 256) rest

def walkLines (s : State) (root va : Word) : List Nat :=
  walkLinesFrom s va ((root.extractLsb' 16 36).toNat * 65536) [(0, 43, 13, false), (1, 30, 13, true), (2, 21, 9, true), (3, 16, 5, true)]

def asidOf (root : Word) : BitVec 8 := root.setWidth 8

/-- The level a page of 2^shift bytes is mapped at. -/
def levelOf (shift : Nat) : BitVec 4 := if shift = 30 then 1 else if shift = 21 then 2 else 3

/-- A cached translation that covers an address. -/
def tlbFind (l : List TlbEntry) (asid : BitVec 8) (va : Word) : Option TlbEntry :=
  l.find? (fun e => e.asid == asid && e.page == va.toNat / 2 ^ e.shift)

/-- The root table value a slot translates by: its queue's (R83, R87), 0x120 of its core; a slice core holds none, and
the launch's own value serves there (DEDUCED, log 65). -/
def State.rootOf (s : State) (i : Sid) : Word :=
  match s.launch? (s.slotAt i).launch, i.pl with
  | some l, .core n => (tabFind (tabGet coreReset s.cores n).roots l.queue).getD l.root
  | some l, .slice _ => l.root
  | none, p => tabGet 0 (s.at' p).roots 256

/-- A translation for an agent other than a thread's own access: the cluster TLB, else a walk (R85). The agent has the page
walked before it acts (State.warm). -/
def State.xlate (s : State) (cl : Nat) (root va : Word) : WalkRes :=
  match tlbFind (s.cluster cl).tlb (asidOf root) va with
  | some e => .leaf e.pte e.shift
  | none => walk s root va

/-- The physical address in the page of a leaf. -/
def pteAddr (pte : Word) (shift : Nat) (va : Word) : Nat := pteFrame pte + va.toNat % 2 ^ shift

/-- A slot waits on the walk of a page that a list holds. -/
def joinWalk (l : List Walk) (asid : BitVec 8) (page : Nat) (i : Sid) : List Walk :=
  l.map (fun w => if w.asid == asid && w.page == page && !(w.waiters.contains i) then { w with waiters := w.waiters ++ [i] } else w)

/-- Start a walk for the slot, or join the one pending for the page; a miss that would be the 65th waits in arrival order
(R85). -/
def State.startWalk (s : State) (i : Sid) (root va : Word) : State :=
  let cl := clusterOf i.pl
  let c := s.cluster cl
  let page := va.toNat / 65536
  let same (w : Walk) : Bool := w.asid == asidOf root && w.page == page
  if c.walks.any same then s.setCluster cl { c with walks := joinWalk c.walks (asidOf root) page i }
  else if c.walkQ.any same then s.setCluster cl { c with walkQ := joinWalk c.walkQ (asidOf root) page i }
  else
    let w : Walk := ⟨s.nextId, asidOf root, page, root, [i], s.cyc + Config.latency s.nextId⟩
    let s := { s with nextId := s.nextId + 1 }
    if c.walks.length < 64 then s.setCluster cl { c with walks := c.walks ++ [w] }
    else s.setCluster cl { c with walkQ := c.walkQ ++ [w] }

/-- A walk is over: the first miss that waited becomes pending (R85). -/
def ClusterSt.endWalk (c : ClusterSt) (id : Nat) : ClusterSt :=
  let l := c.walks.filter (fun w => w.id != id)
  match c.walkQ with
  | [] => { c with walks := l }
  | w :: q => if l.length < 64 then { c with walks := l ++ [w], walkQ := q } else { c with walks := l }

/-- A micro-TLB holds 64 entries (R85); the newest stands first and the oldest leaves (DESIGN CHOICE, log 12). -/
def utlbAdd (l : List TlbEntry) (e : TlbEntry) : List TlbEntry := (e :: l).take 64

def tlbAdd (l : List TlbEntry) (e : TlbEntry) : List TlbEntry := (e :: l).take 4096

/-- The failure of the walk that the instruction at pc has waited for, if it was of an address's page (R426). -/
def Slot.walkFailed (x : Slot) (asid : BitVec 8) (va : Word) : Option (BitVec 4 × BitVec 4) :=
  match x.walkWait with
  | some w => if w.asid == asid && w.page == va.toNat / 65536 then w.failed else none
  | none => none

/-- Neither TLB holds the page: the instruction waits for its walk, which costs turns (R85). -/
def walkMiss {α : Type} (va : Word) : M α := do
  let root := (← getS).rootOf (← getS).cur
  modSlot (fun x => { x with walkWait := some ⟨asidOf root, va.toNat / 65536, none⟩ })
  modS (fun s => s.startWalk s.cur root va)
  loseTurn

/-- The cached translation of an address for the thread: micro-TLB, cluster TLB, else a walk (R85). -/
def findPage (va : Word) : M TlbEntry := do
  let s ← getS
  let asid := asidOf (s.rootOf s.cur)
  match tlbFind (s.at' s.cur.pl).utlb asid va with
  | some e => pure e
  | none =>
    match tlbFind (s.cluster (clusterOf s.cur.pl)).tlb asid va with
    | some e => do
      modCore (fun c => { c with utlb := utlbAdd c.utlb e })
      pure e
    | none => walkMiss va

/-- Translate an address for the thread (R83-R87). The failure of the walk it waited for ends in its own page-fault trap,
whatever the TLBs hold by then (R426), and so does a write to a read_only page (R264 step 3). -/
def translate (agent : BitVec 3) (wr : Bool) (va : Word) : M TlbEntry := do
  let s ← getS
  match (s.slotAt s.cur).walkFailed (asidOf (s.rootOf s.cur)) va with
  | some f => trapWith ⟨cPage, va, 0xFF, none, some (detail agent wr f.1 f.2)⟩
  | none => do
    let e ← findPage va
    if wr && pteRo e.pte then trapWith ⟨cPage, va, 0xFF, none, some (detail agent wr (levelOf e.shift) 2)⟩
    else pure e

/-- The translation that an access which never traps its thread finds (R272, R275): what `translate` would, with the failure
as its answer. -/
def State.xlateCur (s : State) (va : Word) : WalkRes :=
  match (s.slotAt s.cur).walkFailed (asidOf (s.rootOf s.cur)) va with
  | some f => .fail f.1 f.2
  | none => s.xlate (clusterOf s.cur.pl) (s.rootOf s.cur) va

/-- The translation of an instruction fetch: a compute core fetches through its cluster's TLB, a slice core with the
translation of its loads (R82). -/
def fetchTranslate (va : Word) : M TlbEntry := do
  let s ← getS
  match s.cur.pl with
  | .slice _ => translate 1 false va
  | .core n =>
    match (s.slotAt s.cur).walkFailed (asidOf (s.rootOf s.cur)) va with
    | some f => trapWith ⟨cPage, va, 0xFF, none, some (detail 1 false f.1 f.2)⟩
    | none =>
      match tlbFind (s.cluster (n / 4)).tlb (asidOf (s.rootOf s.cur)) va with
      | some e => pure e
      | none => walkMiss va

-- the address space (R66-R68)

def apertureOwn : Nat := 0x00E0000000000000
def apertureCore : Nat := 0x00F0000000000000

/-- An address is translated (R66). -/
def isVirt (va : Nat) : Bool := decide (va < apertureOwn)

/-- Have the page of a translated address in reach before an access that never traps its thread: a miss costs turns, a failed
walk does not (R85, R272, R275). -/
def lookPage (va : Word) : M Unit := do
  let s ← getS
  if isVirt va.toNat && ((s.slotAt s.cur).walkFailed (asidOf (s.rootOf s.cur)) va).isNone then do
    let _ ← findPage va
    pure ()
  else pure ()

/-- What an address names: a translated address, the own aperture, a core's aperture, or nothing. -/
inductive Region where
  | virt
  | own (off : Nat)
  | core (n off : Nat)
  | none
  deriving DecidableEq, Repr, Inhabited

def regionOf (va : Nat) : Region :=
  if va < apertureOwn then .virt
  else if va < apertureOwn + 0x70000 then .own (va - apertureOwn)
  else if apertureCore ≤ va ∧ va < apertureCore + 0x100000000 ∧ (va - apertureCore) % 0x100000 < 0x70000 then
    .core ((va - apertureCore) / 0x100000) ((va - apertureCore) % 0x100000)
  else .none

/-- An offset a thread may access: program use, or a bank in SCRATCH mode (R68, R70). -/
def offsetOk (c : CoreSt) (off : Nat) : Bool :=
  if off < 0x14000 then true
  else if off < 0x20000 then false
  else decide ((c.banks.toList)[(off - 0x20000) / 0x10000]? = some .scratch)

/-- A byte of an access: its place and, for a translated one, its leaf entry. -/
structure PByte where
  va : Nat
  loc : Loc
  pte : Word
  shift : Nat
  deriving DecidableEq, Repr, Inhabited

/-- The core whose own aperture a thread means: the one it runs on; a slice core has none (R53). -/
def ownCore (p : Place) : Option Nat :=
  match p with
  | .core n => some n
  | .slice _ => none

/-- The aperture check of one byte (R66-R68): none when it fails. -/
def apertureByte (s : State) (va : Nat) : Option Loc :=
  match regionOf va with
  | .virt => some (.dev 0)
  | .own off =>
    match ownCore s.cur.pl with
    | some n => if offsetOk (tabGet coreReset s.cores n) off then some (.ls n off) else none
    | none => some (.ls 0 0)
  | .core n off => if s.coreLive n && offsetOk (tabGet coreReset s.cores n) off then some (.ls n off) else none
  | .none => none

/-- An address in the own alias. -/
def isOwn (va : Nat) : Bool :=
  match regionOf va with
  | .own _ => true
  | _ => false

/-- The bytes of an access after the checks of R264, in its order: address range, alignment, translation. An access any
byte of which lies in the own alias sends a thread on a slice core back first (R53). `n` is at least 1. -/
def checkAccess (agent : BitVec 3) (wr : Bool) (ea : Word) (n align : Nat) : M (List PByte) := do
  let s ← getS
  let vas := (List.range n).map (fun i => ea.toNat + i)
  if (ownCore s.cur.pl).isNone && vas.any isOwn then needCore
  if vas.any (fun a => (apertureByte s a).isNone) then violation agent wr ea
  else if ea.toNat % align ≠ 0 then misaligned agent wr ea
  else
    vas.foldlM (fun (acc : List PByte) a => do
      match regionOf a with
      | .virt =>
        match acc.getLast? with
        | some b =>
          if regionOf b.va = .virt ∧ b.va / 65536 = a / 65536 then
            pure (acc ++ [⟨a, (match b.loc with
              | .dev p => .dev (p + 1)
              | .host p => .host (p + 1)
              | l => l), b.pte, b.shift⟩])
          else do
            let e ← translate agent wr (BitVec.ofNat 64 a)
            let p := pteAddr e.pte e.shift (BitVec.ofNat 64 a)
            pure (acc ++ [⟨a, if pteHost e.pte then .host p else .dev p, e.pte, e.shift⟩])
        | none => do
          let e ← translate agent wr (BitVec.ofNat 64 a)
          let p := pteAddr e.pte e.shift (BitVec.ofNat 64 a)
          pure [⟨a, if pteHost e.pte then .host p else .dev p, e.pte, e.shift⟩]
      | _ =>
        match apertureByte s a with
        | some l => pure (acc ++ [⟨a, l, 0, 0⟩])
        | none => violation agent wr ea) []

/-- The home of a byte: its slice, or the core whose local store holds it (R75, R91). -/
def State.homeOf (s : State) (b : PByte) : Option Place :=
  match b.loc with
  | .ls n _ => some (.core n)
  | .host p => some (.slice (s.modHome (p / 128)))
  | .dev p => (s.homeBy (pteClass b.pte) (pteArg b.pte) p (b.va % 2 ^ b.shift)).map .slice

/-- An access to a line without a home: no live slice beneath its rectangle (R79). -/
def needHomes (agent : BitVec 3) (wr : Bool) (ea : Word) (bs : List PByte) : M Unit := do
  let s ← getS
  if bs.any (fun b => (s.homeOf b).isNone) then violation agent wr ea else pure ()

end Sys2Proof.Machine
end

