-- ==== Sys2Proof/Machine/Cache.lean ====
section
/-! DEFINITION. L1, L2, posted writes and results in transit, releases and acquires (R71-R76, R91-R101, R264-R268). -/

namespace Sys2Proof.Machine

-- bytes of a line

/-- Byte i of a line. -/
def lineByte (d : BitVec 1024) (i : Nat) : Byte := d.extractLsb' (8 * i) 8

def lineSet (d : BitVec 1024) (i : Nat) (b : Byte) : BitVec 1024 :=
  (d &&& ~~~(0xFF#1024 <<< (8 * i))) ||| (b.setWidth 1024 <<< (8 * i))

def bit128 (i : Nat) : BitVec 128 := 1#128 <<< i

-- L1 (R71)

/-- The ways of L1: the banks in CACHE mode. -/
def CoreSt.ways (c : CoreSt) : Nat := (c.banks.toList.filter (· == .cache)).length

/-- L1 serves a place: a compute core with a bank in CACHE mode; slice cores have none (R17, R71). -/
def State.usesL1 (s : State) (p : Place) : Bool :=
  match p with
  | .core _ => decide (0 < (s.at' p).ways)
  | .slice _ => false

def l1Find (c : CoreSt) (line : Nat) : Option L1Line := c.l1.find? (fun l => l.line == line)

/-- A line put at the head of the recency order (least recently used is last), and the line its set gives up. -/
def l1Put (c : CoreSt) (ln : L1Line) : CoreSt × Option L1Line :=
  let rest := c.l1.filter (fun l => l.line != ln.line)
  if rest.length < c.ways then ({ c with l1 := ln :: rest }, none)
  else
    let same := rest.filter (fun l => Config.l1Set l.line % 512 == Config.l1Set ln.line % 512)
    if same.length < c.ways then ({ c with l1 := ln :: rest }, none)
    else
      match same.getLast? with
      | some v => ({ c with l1 := ln :: rest.filter (fun l => l.line != v.line) }, some v)
      | none => ({ c with l1 := ln :: rest }, none)

-- things in transit

def FBody.isLoad : FBody → Bool
  | .load .. => true
  | .vload .. => true
  | .reqLoad .. => true
  | _ => false

/-- The loads of a thread that have not returned. -/
def State.loadsOut (s : State) (i : Sid) : List Nat :=
  (s.flights.filter (fun f => f.sid == some i && f.body.isLoad)).map (·.id)

/-- Send something that leaves after some loads; things from one source to one destination keep their order of identity
(R91). -/
def State.sendAfter (s : State) (launch : Nat) (src dst : Place) (sid : Option Sid) (b : FBody) (after : List Nat) : State :=
  { s with flights := s.flights ++ [⟨s.nextId, launch, src, dst, sid, b, after, s.cyc + Config.latency s.nextId⟩],
           nextId := s.nextId + 1 }

/-- Send something; what a thread sends, a load excepted, takes effect only after its loads in flight have returned (R103 d;
DEDUCED, log 67). -/
def State.send (s : State) (launch : Nat) (src dst : Place) (sid : Option Sid) (b : FBody) : State :=
  s.sendAfter launch src dst sid b (if b.isLoad then [] else
    match sid with
    | some i => s.loadsOut i
    | none => [])

def State.flight? (s : State) (id : Nat) : Option Flight := s.flights.find? (fun f => f.id == id)

def State.dropFlight (s : State) (id : Nat) : State := { s with flights := s.flights.filter (fun f => f.id != id) }

/-- The homes that serve a load's bytes. -/
def srcHomes (l : List BSrc) : List Place :=
  l.filterMap (fun x => match x with
    | .at _ h _ => some h
    | .val _ => none)

/-- The places from which a load takes bytes. -/
def srcLocs (l : List BSrc) : List Loc :=
  l.filterMap (fun x => match x with
    | .at p _ _ => some p
    | .val _ => none)

/-- Where the bytes of a load come from. -/
def FBody.srcs : FBody → List BSrc
  | .load _ _ _ src _ _ => src
  | .vload _ src _ _ _ => src
  | .reqLoad _ _ _ src _ => src
  | _ => []

/-- Where a packet is delivered: a load at the homes of its bytes. -/
def Flight.homes (f : Flight) : List Place := if f.body.isLoad then srcHomes f.body.srcs else [f.dst]

/-- A byte that a load in transit takes from its home. -/
def FBody.readsLoc (b : FBody) (l : Loc) : Bool := (srcLocs b.srcs).contains l

/-- A read in transit: a load, or the prefetch of a line. -/
def FBody.isRead : FBody → Bool
  | .fill .. => true
  | b => b.isLoad

/-- Two reads that a home may serve in either order: they share no byte (R94, R102, note c of R103; DEDUCED, log 68). -/
def FBody.apart (a b : FBody) : Bool := a.isRead && b.isRead && !((srcLocs b.srcs).any a.readsLoc)

/-- A reply to a request, which travels back from the request's home. -/
def FBody.isReply : FBody → Bool
  | .result .. => true
  | _ => false

/-- Packets from one source to one destination arrive in the order they were sent (R91): nothing sent earlier from the same
place to a home of this one is still on its way, and no earlier reply from a home of a load is. Requests and replies keep
their order among themselves, and a home serves reads of different bytes in any order (DEDUCED, log 68). -/
def State.first (s : State) (f : Flight) : Bool :=
  !(s.flights.any (fun g =>
    (g.src == f.src && decide (g.id < f.id) && g.body.isReply == f.body.isReply && g.homes.any f.homes.contains &&
      !(f.body.apart g.body)) ||
    (f.body.isLoad && g.body.isReply && g.dst == f.src && f.homes.contains g.src)))

/-- The loads that something leaves after have returned (R103 d). -/
def State.cleared (s : State) (f : Flight) : Bool := f.after.all (fun n => (s.flight? n).isNone)

/-- What an arrival in cycle c writes is written at the end of c: the turn that the slot has in c comes before it (R27, R29,
R227). -/
def State.turnPast (s : State) (i : Sid) : Bool :=
  let x := s.slotAt i
  s.cyc % 8 != i.k || !x.busy || x.lastIssue == some s.cyc

/-- The same for the thread, if any, that something comes to. -/
def State.turnPast? (s : State) (i : Option Sid) : Bool :=
  match i with
  | some i => s.turnPast i
  | none => true

/-- The dirty bytes of a line as a masked write (R91). -/
def dirtyBytes (ln : L1Line) : List (Loc × Byte × Byte) :=
  ((List.range 128).filter (fun i => ln.dirty.getLsbD i)).map
    (fun i => (.dev (ln.line * 128 + i), lineByte ln.data i, 0xFF))

/-- Write a line of a core back, if it holds dirty bytes (R91); it leaves after the loads that its stores leave after
(R103 d). -/
def State.writeBack (s : State) (p : Place) (ln : L1Line) : State :=
  if ln.dirty = 0 then s else s.sendAfter 0 p (.slice ln.home) none (.write (dirtyBytes ln) none none true) ln.after

/-- Write back the lines of a core that `sel` selects; they stay, clean. -/
def State.cleanL1 (s : State) (p : Place) (sel : L1Line → Bool) : State :=
  let t := ((s.at' p).l1.filter (fun l => sel l && l.dirty != 0)).foldl (fun s l => s.writeBack p l) s
  t.setAt p { t.at' p with l1 := (t.at' p).l1.map (fun l => if sel l then { l with dirty := 0, after := [] } else l) }

/-- Drop the clean lines of a core that `sel` selects; a partly dirty line keeps its dirty bytes (R99). -/
def State.dropL1 (s : State) (p : Place) (sel : L1Line → Bool) : State :=
  s.setAt p { s.at' p with
    l1 := ((s.at' p).l1.filter (fun l => !(sel l) || l.dirty != 0)).map
      (fun l => if sel l then { l with have' := l.dirty } else l) }

/-- Put a line into a core's L1, writing back the line that leaves. -/
def State.l1Insert (s : State) (p : Place) (ln : L1Line) : State :=
  let r := l1Put (s.at' p) ln
  let t := s.setAt p r.1
  match r.2 with
  | some v => t.writeBack p v
  | none => t

-- L2 (R75, R76)

/-- Use a line of a slice: found or allocated at the head of its recency order, its sequence number raised when the
request writes. None while every way of its set is pinned. -/
def State.l2Use (s : State) (slice line : Nat) (host wr : Bool) : Option State :=
  let l := tabGet [] s.l2 slice
  let up (n : BitVec 16) : BitVec 16 := if wr then n + 1 else n
  match l.find? (fun e => e.line == line && e.hostMem == host) with
  | some e =>
    some { s with l2 := tabSet s.l2 slice ({ e with seq := up e.seq } :: l.filter (fun k => !(k.line == line && k.hostMem == host))) }
  | none =>
    let new : L2Line := ⟨line, host, up 0, 0⟩
    if l.length < 16 then some { s with l2 := tabSet s.l2 slice (new :: l) }
    else
      let same := l.filter (fun e => Config.l2Set slice e.line % 1024 == Config.l2Set slice line % 1024)
      if same.length < 16 then some { s with l2 := tabSet s.l2 slice (new :: l) }
      else
        match (same.filter (fun e => e.pins == 0)).getLast? with
        | some v => some { s with l2 := tabSet s.l2 slice (new :: l.filter (fun k => !(k.line == v.line && k.hostMem == v.hostMem))) }
        | none => none

/-- The sequence number of a line in a slice. -/
def State.seqOf (s : State) (slice line : Nat) (host : Bool) : BitVec 16 :=
  match (tabGet [] s.l2 slice).find? (fun e => e.line == line && e.hostMem == host) with
  | some e => e.seq
  | none => 0

/-- The byte at a place as its home has it. -/
def State.byteAt (s : State) : Loc → Byte
  | .dev p => Memory.read s.mem p
  | .host p => Memory.read s.hostMem p
  | .ls n o => Memory.read (tabGet coreReset s.cores n).ls o

/-- Write a byte at its home. Device memory takes any physical address, also beyond the live DRAM (DESIGN CHOICE, log 90). -/
def State.setByte (s : State) (l : Loc) (b : Byte) : State :=
  match l with
  | .dev p => { s with mem := Memory.write s.mem p b }
  | .host p => { s with hostMem := Memory.write s.hostMem p b }
  | .ls n o => s.setAt (.core n) { tabGet coreReset s.cores n with ls := Memory.write (tabGet coreReset s.cores n).ls o b }

/-- The device lines among some places. -/
def devLines (l : List Loc) : List Nat :=
  (l.filterMap (fun x => match x with
    | .dev p => some (p / 128)
    | _ => none)).dedup

/-- A line of a page with host_coherent = 1, which the host may cache (R88, R386). -/
def PByte.hostMay (b : PByte) : Bool :=
  match b.loc with
  | .dev _ => pteHostCoh b.pte
  | _ => false

/-- A write of the device names some bytes: their lines are noted where the host may cache them (R386). -/
def State.noteHost (s : State) (l : List PByte) : State :=
  { s with hostLines := s.hostLines ++ (devLines ((l.filter PByte.hostMay).map (·.loc))).filter (fun x => !(s.hostLines.contains x)) }

/-- The lines among some places that the host may hold: a write of the device waits for the host's answer to a snoop (R386). -/
def State.hostHeld (s : State) (l : List Loc) : List Nat :=
  (devLines l).filter (fun x => s.hostLines.contains x && !(s.snooped.contains x))

/-- A write of the device to some places is applied: a later one sends a snoop again (R386). -/
def State.unsnoop (s : State) (l : List Loc) : State := { s with snooped := s.snooped.filter (fun x => !((devLines l).contains x)) }

/-- Masked bytes written at their places (R91, R332). -/
def State.applyBytes (s : State) (l : List (Loc × Byte × Byte)) : State :=
  l.foldl (fun s e => s.setByte e.1 ((s.byteAt e.1 &&& ~~~e.2.2) ||| (e.2.1 &&& e.2.2))) s

def locLine : Loc → Option (Nat × Bool)
  | .dev p => some (p / 128, false)
  | .host p => some (p / 128, true)
  | .ls _ _ => none

/-- A line that a slice caches: of device memory, or of a host-system page with host_coherent = 1 (R88). -/
def PByte.cached (b : PByte) : Bool :=
  match b.loc with
  | .dev _ => true
  | .host _ => pteHostCoh b.pte
  | .ls _ _ => false

/-- A write request reaches its home: the line's number rises and the bytes are written (R76); a line that no slice caches
has no number (R88). None while the line cannot be allocated. -/
def State.writeHome (s : State) (dst : Place) (l : List (Loc × Byte × Byte)) (cached : Bool) : Option State :=
  match dst, (if cached then l.head? else none) with
  | .slice k, some (loc, _) =>
    match locLine loc with
    | some (line, host) => (s.l2Use k line host true).map (fun s => (s.applyBytes l).unsnoop (l.map (·.1)))
    | none => some (s.applyBytes l)
  | _, _ => some (s.applyBytes l)

-- scopes (R95, R96)

/-- The launch's region rectangle is used: a grid launch; in a root launch the region scope is the device scope. -/
def Launch.isRoot (l : Launch) : Bool := ((l.hdr[3]?).getD 0).extractLsb' 46 2 == 1#2

def inRect (rect : BitVec 20) (cl : Nat) : Bool :=
  let x0 := (rect.extractLsb' 0 5).toNat
  let y0 := (rect.extractLsb' 5 5).toNat
  let w := (rect.extractLsb' 10 5).toNat
  let h := (rect.extractLsb' 15 5).toNat
  decide (x0 ≤ cl % 32) && decide (cl % 32 ≤ x0 + w) && decide (y0 ≤ cl / 32) && decide (cl / 32 ≤ y0 + h)

/-- The cluster a thread counts in: its core's, or its origin core's when it runs on a slice core (R96). -/
def State.scopeCluster (s : State) (i : Sid) : Nat :=
  match i.pl with
  | .core n => n / 4
  | .slice _ => (s.slotAt i).origin.toNat / 4

/-- A home is in the covered set of a thread's scope (R96). -/
def State.covers (s : State) (i : Sid) (sc : Nat) (home : Place) : Bool :=
  let cl := clusterOf home
  if sc ≥ 4 then true
  else if sc = 2 then cl == s.scopeCluster i
  else if sc = 3 then
    match s.launch? (s.slotAt i).launch with
    | some l => l.isRoot || inRect l.rect cl
    | none => true
  else true

-- outstanding work of a thread

/-- A store of the thread in a slot, its acknowledgement, or a write-back of its place, which belongs to no launch (R98, R270). -/
def Flight.isStoreOf (f : Flight) (i : Sid) : Bool :=
  match f.body with
  | .write .. => f.sid == some i || (f.sid.isNone && f.launch == 0 && f.src == i.pl)
  | .reqAtomic .. => f.sid == some i
  | .result _ _ _ _ ack => ack && f.sid == some i
  | _ => false

/-- The home that something was sent to, or that a reply comes from. -/
def Flight.home (f : Flight) : Place := if f.body.isReply then f.src else f.dst

/-- A store of a thread to a home that `sel` selects has not been acknowledged, be it one that the thread made in a slot it
was vacated from (R98, R416). -/
def State.storesOut (s : State) (i : Sid) (sel : Place → Bool) : Bool :=
  s.flights.any (fun f => (f.isStoreOf i || (s.slotAt i).prior.contains f.id) && sel f.home)

/-- Something of the thread's that writes into its slot when it comes back: an atomic, or a reply (R122, R277). -/
def State.repliesOut (s : State) (i : Sid) : Bool :=
  s.flights.any (fun f => f.sid == some i &&
    (match f.body with
     | .reqAtomic .. => true
     | b => b.isReply))

/-- A thread leaves its slot with stores not acknowledged: they are known by their flights from then on (R416). -/
def State.ownStores (s : State) (i : Sid) : State × List Nat :=
  let mine := (s.flights.filter (fun f => f.sid == some i && f.isStoreOf i)).map (·.id)
  ({ s with flights := s.flights.map (fun f => if mine.contains f.id then { f with sid := none } else f) },
   mine ++ (s.slotAt i).prior.filter (fun n => (s.flight? n).isSome))

/-- An acquire's read of the thread is in flight, or its pop of a completion waits: no later access begins (R99, R105). -/
def State.acqOut (s : State) (i : Sid) : Bool :=
  !(s.slotAt i).xpopWait.isEmpty ||
  s.flights.any (fun f => f.sid == some i &&
    (match f.body with
     | .load _ _ _ _ _ acq => decide (1 ≤ acq)
     | .reqLoad _ _ _ _ acq => decide (1 ≤ acq)
     | .reqAtomic _ _ _ sc => decide (1 ≤ sc.toNat)
     | .result _ _ sc _ _ => decide (1 ≤ sc)
     | _ => false)) ||
  (s.cluster (clusterOf i.pl)).caps.any (fun c => c.sid == some i && c.acq) ||
  (s.cluster (clusterOf i.pl)).heldCaps.any (fun c => c.2.sid == some i && c.2.acq)

/-- An access waits for the thread's acquire in flight (R99). -/
def accessGate : M Unit := do
  let s ← getS
  if s.acqOut s.cur then loseTurn else pure ()

/-- While a CFGBANK is in progress, accesses that would use L1 lose their turns (R240). -/
def CoreSt.l1Busy (c : CoreSt) : Bool := c.cfg.isSome && decide (0 < c.ways)

/-- A bank whose mode a CFGBANK is changing (R240). -/
def CoreSt.bankBusy (c : CoreSt) (b : Nat) : Bool :=
  match c.cfg with
  | none => false
  | some g => ((g.modes.toList)[b]?.join).isSome

/-- A release at a scope (R98): first the dirty lines with a covered home go out, once; then the thread waits until its
stores to covered homes are acknowledged and its earlier loads have returned (R103 d; DEDUCED, log 67). At slot and core
scope it waits for nothing. -/
def release (sc : Nat) : M Unit := do
  if sc < 2 then pure ()
  else do
    let s ← getS
    if !(s.slotAt s.cur).relDone then do
      if (s.at' s.cur.pl).l1Busy && (s.at' s.cur.pl).l1.any (fun l => l.dirty != 0 && s.covers s.cur sc (.slice l.home)) then loseTurn
      modS (fun s => s.cleanL1 s.cur.pl (fun l => s.covers s.cur sc (.slice l.home)))
      modSlot (fun x => { x with relDone := true })
    let s ← getS
    if s.storesOut s.cur (s.covers s.cur sc) || !(s.loadsOut s.cur).isEmpty then holdTurn else pure ()

/-- The drop an acquire makes (R99). -/
def acquire (sc : Nat) : M Unit :=
  if sc < 2 then pure ()
  else modS (fun s => s.dropL1 s.cur.pl (fun l => s.covers s.cur sc (.slice l.home)))

-- pinned threads (R54, R338)

def State.pinned (s : State) (i : Sid) : Bool :=
  let x := s.slotAt i
  x.eps.toList.any (·.opened) || (s.at' i.pl).acc.toList.any (fun a => a.owner == some i.k && (match i.pl with | .core _ => true | .slice _ => false)) ||
  s.cmds.any (fun c => .core c.core == i.pl && c.slot == some i.k && !c.disc) || !x.fifo.isEmpty || !x.ints.isEmpty || !x.heldC.isEmpty

-- residency (R69, R276)

/-- The byte of a thread's resident footprint or RESIDE block at an address, while it runs on the core that holds it; a line that
was poisoned when it was copied is read at its home (R464). -/
def State.resByte (s : State) (i : Sid) (va : Nat) : Option Byte :=
  match i.pl with
  | .slice _ => none
  | .core n =>
    let x := s.slotAt i
    let c := tabGet coreReset s.cores n
    let own := (if x.placement.toNat = n then x.foot.toList else []) ++ x.reside
    (own.find? (fun r =>
      let e := tabGet resReset c.res r
      e.full && decide (e.va ≤ va) && decide (va < e.va + e.len) && !(e.bad.contains (va / 128)))).map
      (fun r => Memory.read (tabGet resReset c.res r).data (va - (tabGet resReset c.res r).va))

/-- A store's byte also goes into the thread's residency copies (R69). -/
def State.resStore (s : State) (i : Sid) (va : Nat) (b : Byte) : State :=
  match i.pl with
  | .slice _ => s
  | .core n =>
    let x := s.slotAt i
    let own := (if x.placement.toNat = n then x.foot.toList else []) ++ x.reside
    own.foldl (fun s r =>
      let c := tabGet coreReset s.cores n
      let e := tabGet resReset c.res r
      if e.full && decide (e.va ≤ va) && decide (va < e.va + e.len) then
        s.setAt (.core n) { c with res := tabSet c.res r { e with data := Memory.write e.data (va - e.va) b } }
      else s) s

/-- A byte whose access would use L1 or a bank in change while a CFGBANK is in progress (R240). `resid` lets a residency slot
serve it, which uses neither. -/
def State.cfgHeld (s : State) (resid : Bool) (b : PByte) : Bool :=
  let c := s.at' s.cur.pl
  match b.loc with
  | .dev _ => s.usesL1 s.cur.pl && c.l1Busy && !(resid && (s.resByte s.cur b.va).isSome)
  | .ls n o => decide (s.cur.pl = .core n) && decide (0x20000 ≤ o) && c.bankBusy ((o - 0x20000) / 0x10000)
  | .host _ => false

/-- The gate of R240 for the bytes of an access. -/
def cfgGate (resid : Bool) (bs : List PByte) : M Unit := do
  let s ← getS
  if bs.any (s.cfgHeld resid) then loseTurn else pure ()

-- loads

/-- A read of a place takes a byte from its home and has not returned: a later read of the byte by that place follows it
there (R94, R102). -/
def State.readPending (s : State) (p : Place) (l : Loc) : Bool := s.flights.any (fun g => g.src == p && g.body.readsLoc l)

/-- A byte is present in the L1 of a core. -/
def CoreSt.l1Has (c : CoreSt) (b : PByte) : Bool :=
  match b.loc with
  | .dev p => ((l1Find c (p / 128)).map (fun ln => ln.have'.getLsbD (p % 128))).getD false
  | _ => false

/-- Where a byte is read when L1 and residency do not serve it. -/
def State.srcHome (s : State) (b : PByte) : BSrc := .at b.loc ((s.homeOf b).getD (.slice 0)) b.cached

/-- Where a byte of the access `bs` comes from (R265): the own port, a resident block, L1, else its home when the result
arrives. `resid` lets residency serve; `clean` lets clean L1 bytes serve (R269), which they do only where L1 holds every
byte of the access in the aligned 8 bytes, so that no 8-byte write of another core is read in part (R89), and no earlier
read of one of them is still on its way to take it from its home (R94). -/
def State.srcByte (s : State) (resid clean : Bool) (bs : List PByte) (b : PByte) : BSrc :=
  match b.loc with
  | .ls n o => if s.cur.pl = .core n then .val (Memory.read (tabGet coreReset s.cores n).ls o) else s.srcHome b
  | loc =>
    match if resid then s.resByte s.cur b.va else none, loc with
    | some v, _ => .val v
    | none, .dev p =>
      if s.usesL1 s.cur.pl then
        match l1Find (s.at' s.cur.pl) (p / 128) with
        | some ln =>
          if ln.dirty.getLsbD (p % 128) ||
             (clean && ln.have'.getLsbD (p % 128) && (bs.filter (fun k => k.va / 8 == b.va / 8)).all (fun k =>
               (s.at' s.cur.pl).l1Has k && !(s.readPending s.cur.pl k.loc)))
          then .val (lineByte ln.data (p % 128)) else s.srcHome b
        | none => s.srcHome b
      else s.srcHome b
    | none, _ => s.srcHome b

/-- The sources of the bytes of an access. -/
def State.srcs (s : State) (resid clean : Bool) (bs : List PByte) : List BSrc := bs.map (s.srcByte resid clean bs)

/-- A load served by the own port or a residency slot alone has fixed latency (R267). -/
def State.fixedLoad (s : State) (resid : Bool) (bs : List PByte) : Bool :=
  bs.all (fun b =>
    match b.loc with
    | .ls n _ => decide (s.cur.pl = .core n)
    | _ => resid && (s.resByte s.cur b.va).isSome)

def BSrc.fixed? : BSrc → Option Byte
  | .val b => some b
  | .at _ _ _ => none

/-- All bytes of a load are fixed at issue. -/
def allFixed : List BSrc → Option (List Byte)
  | [] => some []
  | x :: l =>
    match x.fixed?, allFixed l with
    | some b, some t => some (b :: t)
    | _, _ => none

def State.sample (s : State) : BSrc → Byte
  | .val b => b
  | .at l _ _ => s.byteAt l

/-- The lines a load will bring into L1, with their homes. -/
def State.fillsOf (s : State) (src : List BSrc) : List (Nat × Nat) :=
  if !(s.usesL1 s.cur.pl) then []
  else
    (src.filterMap (fun e => match e with
      | .at (.dev p) (.slice h) _ => some (p / 128, h)
      | _ => none)).dedup

/-- The lines that the homes of a load use in their slices: slice, line, host line or not (R75, R88). -/
def srcLines (src : List BSrc) : List (Nat × Nat × Bool) :=
  (src.filterMap (fun e => match e with
    | .at (.dev p) (.slice h) true => some (h, p / 128, false)
    | .at (.host p) (.slice h) true => some (h, p / 128, true)
    | _ => none)).dedup

/-- Lines used at their slices by reads (R75); none while one of them finds every way of its set pinned. -/
def State.useLines (s : State) (lines : List (Nat × Nat × Bool)) : Option State :=
  lines.foldlM (fun s e => s.l2Use e.1 e.2.1 e.2.2 false) s

/-- A read of device memory by an agent that homes lines by the frame class table: the lines of n bytes, used (R75, R77). -/
def State.useDev (s : State) (pa n : Nat) : Option State :=
  s.useLines ((List.range (if n = 0 then 0 else (pa + n - 1) / 128 + 1 - pa / 128)).map
    (fun k => (s.frameHome ((pa / 128 + k) * 128), pa / 128 + k, false)))

/-- Touching L1 lines moves them to the head of the recency order (R71). -/
def touchL1 (bs : List PByte) : M Unit := modCore (fun c =>
  bs.foldl (fun c b =>
    match b.loc with
    | .dev p =>
      match l1Find c (p / 128) with
      | some ln => { c with l1 := ln :: c.l1.filter (fun l => l.line != p / 128) }
      | none => c
    | _ => c) c)

/-- The destination of a load's request: the home of its first byte. -/
def State.homeFirst (s : State) (bs : List PByte) : Place :=
  match bs.head? with
  | some b => (s.homeOf b).getD (.slice 0)
  | none => .slice 0

-- stores

/-- Store a byte into L1, allocating its line on a miss (R71); its write-back leaves after some loads (R103 d). -/
def State.l1Store (s : State) (p : Place) (home pa : Nat) (b : Byte) (after : List Nat) : State :=
  let i := pa % 128
  let ln := (l1Find (s.at' p) (pa / 128)).getD ⟨pa / 128, home, 0, 0, 0, []⟩
  s.l1Insert p { ln with have' := ln.have' ||| bit128 i, dirty := ln.dirty ||| bit128 i, data := lineSet ln.data i b,
                         after := (ln.after.filter (fun n => (s.flight? n).isSome) ++ after).dedup }

/-- A posted store's bytes in a line that L1 holds: they take the value and become clean (R91). -/
def State.l1Clean (s : State) (p : Place) (pa : Nat) (b : Byte) : State :=
  match l1Find (s.at' p) (pa / 128) with
  | none => s
  | some ln =>
    let i := pa % 128
    s.setAt p { s.at' p with l1 := (s.at' p).l1.map (fun l => if l.line = pa / 128 then
      { ln with have' := ln.have' ||| bit128 i, dirty := ln.dirty &&& ~~~(bit128 i), data := lineSet ln.data i b } else l) }

/-- Bytes to be posted, grouped so that each group goes to one home and one line: its home, whether a slice caches the
line, its bytes. -/
def groupPosts (s : State) : List (PByte × Byte × Byte) → List (Place × Bool × List (Loc × Byte × Byte))
  | [] => []
  | (b, v, m) :: rest =>
    let home := (s.homeOf b).getD (.slice 0)
    match groupPosts s rest with
    | (h, c, g) :: gs =>
      if h = home ∧ c = b.cached ∧ (g.head?.map (fun e => locLine e.1)) = some (locLine b.loc) then
        (h, c, (b.loc, v, m) :: g) :: gs
      else (home, b.cached, [(b.loc, v, m)]) :: (h, c, g) :: gs
    | [] => [(home, b.cached, [(b.loc, v, m)])]

/-- Post masked bytes to their homes as writes of the thread. -/
def State.post (s : State) (i : Sid) (l : List (PByte × Byte × Byte)) (tag : Option (BitVec 6)) (stream : Option Nat) : State :=
  (groupPosts s l).foldl (fun s g => s.send (s.slotAt i).launch i.pl g.1 (some i) (.write g.2.2 tag stream g.2.1))
    (s.noteHost (l.map (·.1)))

/-- A byte of a store that the own port takes at once. -/
def ownByte (i : Sid) (b : PByte) : Bool :=
  match b.loc with
  | .ls n _ => decide (i.pl = .core n)
  | _ => false

/-- A store (R268, R91): the own port's bytes at once; translated bytes into L1, or posted; everything else posted.
Residency copies take the bytes too (R69). -/
def State.store (s : State) (i : Sid) (l : List (PByte × Byte)) (posted : Bool) (tag : Option (BitVec 6))
    (stream : Option Nat) : State :=
  let loads := s.loadsOut i
  let s1 := l.foldl (fun s e =>
    match e.1.loc with
    | .ls n o => if i.pl = .core n then s.setByte (.ls n o) e.2 else s
    | .host _ => s.resStore i e.1.va e.2
    | .dev p =>
      let s := s.resStore i e.1.va e.2
      if s.usesL1 i.pl then
        if posted then s.l1Clean i.pl p e.2
        else
          match s.homeOf e.1 with
          | some (.slice h) => s.l1Store i.pl h p e.2 loads
          | _ => s
      else s) (s.noteHost (l.map (·.1)))
  s1.post i ((l.filter (fun e =>
    match e.1.loc with
    | .ls _ _ => !(ownByte i e.1)
    | .host _ => true
    | .dev _ => posted || !(s.usesL1 i.pl))).map (fun e => (e.1, e.2, 0xFF#8))) tag stream

-- writes of a place on their way

/-- Bytes of an atomic. -/
def atomSize (dword : Bool) : Nat := if dword then 8 else 4

/-- Place i bytes on. -/
def Loc.off (l : Loc) (i : Nat) : Loc :=
  match l with
  | .dev p => .dev (p + i)
  | .host p => .host (p + i)
  | .ls n o => .ls n (o + i)

def ReqOp.size : ReqOp → Nat
  | .amo _ d _ => atomSize d
  | .cas d _ _ => atomSize d
  | .famo _ d _ _ => atomSize d

/-- The bytes that a thing in transit writes. -/
def FBody.writesLoc (b : FBody) (l : Loc) : Bool :=
  match b with
  | .write bytes _ _ _ => bytes.any (fun e => e.1 == l)
  | .reqAtomic _ loc op _ => (List.range op.size).any (fun k => loc.off k == l)
  | .red loc _ dword _ => (List.range (atomSize dword)).any (fun k => loc.off k == l)
  | _ => false

/-- A write of a place to a byte is on its way: a later read of the byte by that place may not pass it (R93, R102). -/
def State.writePending (s : State) (p : Place) (l : Loc) : Bool := s.flights.any (fun g => g.src == p && g.body.writesLoc l)

/-- A byte that a place may read at once: it has no write on its way to it (R93), and no read (R94). -/
def State.quietAt (s : State) (p : Place) (l : Loc) : Bool := !(s.writePending p l) && !(s.readPending p l)

/-- A line with an uncorrectable error is among the bytes a load reads at their homes (R464). -/
def State.srcPoison (s : State) (src : List BSrc) : Bool :=
  (srcLocs src).any (fun l => match l with
    | .dev p => s.poison.contains (p / 128)
    | _ => false)

/-- The lines with an uncorrectable error among some bytes, by virtual line. -/
def State.badLines (s : State) (bs : List PByte) : List Nat :=
  ((bs.filter (fun b => s.srcPoison [.at b.loc (.slice 0) true])).map (fun b => b.va / 128)).dedup

/-- A read of the executing instruction meets a line with an uncorrectable error: a data error, late, at Umber (R464). No rule
names its tval: a free value (log 4). -/
def dataErrorHere (src : List BSrc) : M Unit := do
  if (← getS).srcPoison src then do
    let v ← freeWord
    modSlot (fun x => x.noteLate ⟨cData, v, 0xFF, none, none⟩)
  else pure ()

/-- Bytes that an instruction reads at once from their homes: it waits for what the place has on its way to them. A data
error among them is raised as of a load (R464). -/
def readNow (bs : List PByte) : M (List Byte) := do
  let s ← getS
  let src := s.srcs true true bs
  if !(bs.all (fun b => s.quietAt s.cur.pl b.loc)) then loseTurn
  match s.useLines (srcLines src) with
  | none => loseTurn
  | some t => do
    setS t
    dataErrorHere src
    pure (src.map s.sample)

-- translations of agents (R85, R427)

/-- The page of an address is in reach of an agent: its cluster's TLB holds it, or a free walker walks now and what it finds
enters the TLB (DESIGN CHOICE, log 34). None while a walk of the page is pending, all eight walkers work, or a line of a
table has no room at its home. -/
def State.warm1 (s : State) (cl : Nat) (root : Word) (va : Nat) : Option State :=
  let c := s.cluster cl
  let v : Word := BitVec.ofNat 64 va
  if !(isVirt va) || (tlbFind c.tlb (asidOf root) v).isSome then some s
  else if (c.walks ++ c.walkQ).any (fun w => w.asid == asidOf root && w.page == va / 65536) || decide (8 ≤ c.walks.length) then none
  else
    (s.useLines ((walkLines s root v).map (fun l => (s.frameHome (l * 128), l, false)))).map (fun t =>
      match walk s root v with
      | .leaf pte sh => t.setCluster cl { t.cluster cl with tlb := tlbAdd (t.cluster cl).tlb ⟨asidOf root, va / 2 ^ sh, sh, pte⟩ }
      | .fail _ _ => t)

/-- The pages of n bytes from an address on, lowest first. -/
def pagesOf (va n : Nat) : List Nat :=
  (List.range (if n = 0 then 0 else (va + n - 1) / 65536 + 1 - va / 65536)).map (fun k => max va ((va / 65536 + k) * 65536))

/-- The pages of some addresses are in reach of an agent. -/
def State.warm (s : State) (cl : Nat) (root : Word) (vas : List Nat) : Option State := vas.foldlM (fun s va => s.warm1 cl root va) s

-- agents of the device: the Yard's ports, the Mordant, Umber (R75-R77, R88, R386)

/-- A byte some way on from another in its page. -/
def PByte.off (b : PByte) (i : Nat) : PByte := { b with va := b.va + i, loc := b.loc.off i }

/-- A leaf entry's class and argument fields (R84). -/
def mapFields (cls : Nat) (arg : BitVec 20) : Word :=
  (arg.extractLsb' 8 12 ++ 0#36 ++ arg.extractLsb' 0 8 ++ BitVec.ofNat 2 cls ++ 0#6 : BitVec 64)

/-- n bytes of device memory for an agent that homes them by the frame class table (R77). -/
def State.devBytes (s : State) (pa n : Nat) : List PByte :=
  (List.range n).map (fun i => ⟨pa + i, .dev (pa + i), mapFields (s.frameMap (pa + i)).1 (s.frameMap (pa + i)).2, 16⟩)

/-- A device line can be allocated in every set: no set has all its ways pinned (R75). An agent that is about to write waits
until it can. -/
def State.l2Free (s : State) : Bool :=
  s.l2.all (fun e => e.2.all (fun x => decide ((e.2.filter (fun y =>
    y.pins != 0 && Config.l2Set e.1 y.line % 1024 == Config.l2Set e.1 x.line % 1024)).length < 16)))

/-- Send the back-invalidation snoops of lines (R386). -/
def State.snoop (s : State) (l : List Nat) : State := { s with snoops := s.snoops ++ l.filter (fun x => !(s.snoops.contains x)) }

/-- The host gives lines up: the snoop and its answer in one (R386; DESIGN CHOICE, log 75). -/
def State.backInvalidate (s : State) (l : List Nat) : State := { s with snooped := s.snooped ++ l }

/-- A write that covers a whole line clears its poison (R464). -/
def State.clearPoison (s : State) (bytes : List (Loc × Byte × Byte)) : State :=
  let ls := (bytes.filterMap (fun e => match e.1 with
    | .dev p => some (p / 128)
    | _ => none)).dedup
  { s with poison := s.poison.filter (fun l =>
      !(ls.contains l && (List.range 128).all (fun k => bytes.any (fun e => e.1 == .dev (l * 128 + k) && e.2.2 == 0xFF)))) }

/-- Masked bytes written at their homes, one write a line: each line's number rises (R76, R109). -/
def State.homePut (s : State) (l : List (PByte × Byte × Byte)) : State :=
  (groupPosts s l).foldl (fun s g => ((s.writeHome g.1 g.2.2 g.2.1).getD (s.applyBytes g.2.2)).clearPoison g.2.2) s

/-- Masked bytes that an agent of the device writes: host copies go first (R386). -/
def State.agentPut (s : State) (l : List (PByte × Byte × Byte)) : State :=
  let s := s.noteHost (l.map (·.1))
  (s.backInvalidate (s.hostHeld (l.map (fun e => e.1.loc)))).homePut l

/-- A number that an agent writes into the n bytes from one on. -/
def State.agentNat (s : State) (b : PByte) (n v : Nat) : State :=
  s.agentPut ((natBytes n v).zipIdx.map (fun e => (b.off e.2, e.1, 0xFF#8)))

/-- Lines that an agent's read of n bytes from one on uses at their homes (R75). -/
def State.agentUse (s : State) (b : PByte) (n : Nat) : State :=
  (s.useLines (srcLines ((List.range n).map (fun i => s.srcHome (b.off i))))).getD s

end Sys2Proof.Machine
end

