-- ==== Sys2Proof/Machine/Operands.lean ====
section
/-! DEFINITION. Every operand form: private, special, shared, vector and channel registers as sources and destinations
(R27-R36, R202, R206, R211, R212, R220, R227-R229, R345), and late writes of results (R29). -/

namespace Sys2Proof.Machine

/-- How an instruction names a register (R202, R213). -/
inductive Use where
  /-- a general field read -/
  | src (f : Fld)
  /-- a general field written when the instruction issues -/
  | dst (f : Fld)
  /-- a vector field read or written -/
  | vec (f : Fld)
  /-- a vector field that names a register without reading it (R303) -/
  | name (f : Fld)
  /-- predicates read or written -/
  | pw
  deriving DecidableEq, Repr, Inhabited

/-- A field without a relative bit. -/
def plain (c : BitVec 6) : Fld := ⟨c, false⟩

/-- g register of a 4-bit field. -/
def gf (n : BitVec 4) : Fld := ⟨n.setWidth 6, false⟩

/-- The number a field names before the limit check (R206). -/
def fldNum (f : Fld) (x : Slot) : Nat := if f.rel then f.code.toNat + x.ix.toNat else f.code.toNat

/-- The code a field names once R206 has passed it. -/
def fldEff (f : Fld) (x : Slot) : BitVec 6 := BitVec.ofNat 6 (fldNum f x)

/-- The register of a general code that can be pending. -/
def pregOf (c : BitVec 6) : PReg :=
  if c.toNat < 16 then .g c.toNat
  else if c.toNat < 0x18 then .ch (c.toNat - 16)
  else if c = 0x18 then .pw
  else if c = 0x19 then .ix
  else if 0x20 ≤ c.toNat then .s (c.toNat - 32)
  else .discard

def vregOf (c : BitVec 6) : PReg := if c.toNat < 32 then .f c.toNat else .c (c.toNat - 32)

def Use.preg (u : Use) (x : Slot) : PReg :=
  match u with
  | .src f => pregOf (fldEff f x)
  | .dst f => pregOf (fldEff f x)
  | .vec f => vregOf (fldEff f x)
  | .name _ => .discard
  | .pw => .pw

/-- It names a register of the shared banks (R35). -/
def Use.shared (u : Use) (x : Slot) : Bool :=
  match u with
  | .name f => decide (32 ≤ (fldEff f x).toNat)
  | u =>
    match u.preg x with
    | .s _ => true
    | .c _ => true
    | _ => false

/-- A relative field, which reads ix (R206). -/
def Use.rel (u : Use) : Bool :=
  match u with
  | .src f => f.rel
  | .dst f => f.rel
  | .vec f => f.rel
  | .name f => f.rel
  | .pw => false

/-- A register that is pending; g0 never is. -/
def Slot.isPend (x : Slot) (r : PReg) : Bool := r != .g 0 && r != .discard && x.pend.contains r

def chanOf : PReg → Option Nat
  | .ch n => some n
  | _ => none

/-- The relative check of a field (R206): none when it fails. -/
def Use.relOk (u : Use) (x : Slot) : Bool :=
  match u with
  | .src f => !f.rel || decide (fldNum f x < 16)
  | .dst f => !f.rel || decide (fldNum f x < 16)
  | .vec f => !f.rel || decide (fldNum f x < x.nalloc)
  | .name f => !f.rel || decide (fldNum f x < x.nalloc)
  | .pw => true

/-- A private vector code is below the slot's allocation (R212). -/
def Use.vecOk (u : Use) (x : Slot) : Bool :=
  match u with
  | .vec f => f.rel || decide (32 ≤ f.code.toNat) || decide (f.code.toNat < x.nalloc)
  | .name f => f.rel || decide (32 ≤ f.code.toNat) || decide (f.code.toNat < x.nalloc)
  | _ => true

/-- The endpoint number the channel fault reports (R455): slot × 8 + n, with a reason in [11:8]. -/
def chanTval (k n reason : Nat) : Word := BitVec.ofNat 64 (k * 8 + n + reason * 256)

def Slot.ep (x : Slot) (n : Nat) : Endpoint := (x.eps.toList[n]?).getD ⟨false, 0, 0, [], 0, [], false⟩

def Slot.setEp (x : Slot) (n : Nat) (e : Endpoint) : Slot := { x with eps := x.eps.setIfInBounds n e }

def Endpoint.recv (e : Endpoint) : Bool := e.peer.getLsbD 18

/-- The channels an instruction reads and writes. -/
def srcChans (us : List Use) (x : Slot) : List Nat :=
  us.filterMap (fun u => match u with
    | .src f => chanOf (pregOf (fldEff f x))
    | _ => none)

def dstChans (us : List Use) (x : Slot) : List Nat :=
  us.filterMap (fun u => match u with
    | .dst f => chanOf (pregOf (fldEff f x))
    | _ => none)

/-- First trap of the relative and allocation checks, in field order (R202, R206, R212). -/
def fieldTrap (us : List Use) (x : Slot) : Option Word :=
  us.findSome? (fun u =>
    if !(u.relOk x) then some x.ix
    else if !(u.vecOk x) then
      (match u with
       | .vec f => some (f.code.setWidth 64)
       | .name f => some (f.code.setWidth 64)
       | _ => none)
    else none)

/-- Room for n more pending destinations (R30). -/
def pendRoom (n : Nat) : M Unit := do
  if 8 < (← slot).pend.length + n then loseTurn else pure ()

/-- A CFGBANK in progress that brings a bank into FIFO mode holds channel receives; one that takes a bank out of it waits
for them instead (R74, R240) (DEDUCED, log 70). -/
def CoreSt.recvBusy (c : CoreSt) : Bool :=
  match c.cfg with
  | none => false
  | some g => g.modes.toList.any (· == some .fifo) &&
      !((List.range 5).any (fun b => c.bankBusy b && (c.banks.toList)[b]? == some .fifo))

/-- Channel rules at issue (R345, R455): wrong direction or closed is a fault; a read is a variable-latency result, which
needs room among the pending ones (R29, R30); a write waits while its allowance is 0, then releases; a read waits for a
word. -/
def chanPrep (us : List Use) : M Unit := do
  let x ← slot
  let ss := srcChans us x
  let ds := dstChans us x
  if ss.isEmpty && ds.isEmpty then pure ()
  else do
    let k := (← getS).cur.k
    match (ss.find? (fun n => !(x.ep n).opened || !(x.ep n).recv)).orElse
          (fun _ => ds.find? (fun n => !(x.ep n).opened || (x.ep n).recv)) with
    | some n => trap cChannel (chanTval k n 4)
    | none =>
      accessGate
      if !ss.isEmpty then do
        pendRoom 1
        if ((← getS).at' (← getS).cur.pl).recvBusy then loseTurn
      if ds.any (fun n => (x.ep n).allow == 0) then sleepTurn .chanWrite
      if !ds.isEmpty then do
        modSlot (fun x => { x with asleep := none })
        release 4
      if ss.any (fun n => decide ((x.ep n).buf.length < (ss.filter (· == n)).length)) then sleepTurn .chanRead

/-- The checks of R202 that follow the guard, and those of R35, R229 and R345, for the registers an instruction names. A
relative field reads ix, so it is checked once ix is not pending (R29, R206). -/
def prep (us : List Use) : M Unit := do
  let s ← getS
  let x := s.slotAt s.cur
  if us.any Use.rel && x.isPend .ix then loseTurn
  match fieldTrap us x with
  | some v => trap cRegIndex v
  | none =>
    if us.any (fun u => x.isPend (u.preg x)) then loseTurn
    else do
      if us.any (fun u => u.shared x) then do
        needCore
        if (s.at' s.cur.pl).bankLaunch ≠ some x.launch then trap cShared s.word
      chanPrep us

/-- Mark a register pending (R29). -/
def markPend (r : PReg) : M Unit := modSlot (fun x => { x with pend := x.pend ++ [r] })

/-- One mark of a register cleared. -/
def Slot.clearPend (x : Slot) (r : PReg) : Slot := { x with pend := x.pend.erase r }

-- shared registers (R34, R227)

/-- The writes visible at a cycle, in the order in which they take effect: by landing cycle, the lower-numbered slot
last within one cycle (R34). -/
def sharedDue (l : List SharedWr) (cyc : Nat) : List SharedWr :=
  (l.filter (fun w => decide (w.from' ≤ cyc))).insertionSort
    (fun a b => a.from' < b.from' ∨ (a.from' = b.from' ∧ b.slot ≤ a.slot))

/-- The shared banks of a core as an instruction that issues in cycle `cyc` finds them (R227). -/
def CoreSt.settle (c : CoreSt) (cyc : Nat) : CoreSt :=
  (sharedDue c.sharedQ cyc).foldl (fun c w =>
    if w.vec then { c with c := c.c.setIfInBounds w.idx w.val }
    else { c with s := c.s.setIfInBounds w.idx (w.val.setWidth 64) })
    { c with sharedQ := c.sharedQ.filter (fun w => decide (cyc < w.from')) }

/-- Issue a write of a shared register that other instructions see from cycle issue + k on (R227). -/
def sharedWrite (k : Nat) (vec : Bool) (idx : Nat) (v : Vec) : M Unit := do
  let s ← getS
  modCore (fun c => { c.settle s.cyc with
    sharedQ := (c.settle s.cyc).sharedQ ++ [⟨s.cyc + k, s.cur.k, vec, idx, v⟩] })

-- reading

/-- The value of a g register; g0 reads 0 (R33). -/
def Slot.gr (x : Slot) (n : BitVec 4) : Word := if n = 0 then 0 else x.g[n.toNat]'n.isLt

def Slot.setGr (x : Slot) (n : BitVec 4) (v : Word) : Slot :=
  if n = 0 then x else { x with g := x.g.set n.toNat v n.isLt }

/-- pw with p0 kept at 1 (R33). -/
def pwFix (v : BitVec 16) : BitVec 16 := v ||| 1

/-- Pred(n) and SetPred (R220). -/
def Slot.pred (x : Slot) (n : BitVec 4) : Bool := n == 0 || x.pw.getLsbD n.toNat

def Slot.setPred (x : Slot) (n : BitVec 4) (v : Bool) : Slot :=
  if n = 0 then x
  else { x with pw := (x.pw &&& ~~~(1#16 <<< n.toNat)) ||| ((BitVec.ofBool v).setWidth 16 <<< n.toNat) }

/-- Take a word from a channel that holds one, and acquire at device scope (R345). -/
def chanTake (n : Nat) : M Word := do
  let x ← slot
  let e := x.ep n
  modSlot (fun x => x.setEp n { e with buf := e.buf.tail, outst := e.outst - 1 })
  acquire 4
  pure (e.buf.headD 0)

/-- Gpr (R220), after `prep`. -/
def rg (f : Fld) : M Word := do
  let s ← getS
  let x := s.slotAt s.cur
  let c := fldEff f x
  if c.toNat < 16 then pure (x.gr (c.setWidth 4))
  else if c.toNat < 0x18 then chanTake (c.toNat - 16)
  else if c = 0x18 then pure ((pwFix x.pw).setWidth 64)
  else if c = 0x19 then pure x.ix
  else if c = 0x1A then pure x.wid
  else pure ((((s.at' s.cur.pl).settle s.cyc).s.toList[c.toNat - 32]?).getD 0)

/-- The value of a vector register that is no stream (R212), after `prep`. -/
def rv (f : Fld) : M Vec := do
  let s ← getS
  let x := s.slotAt s.cur
  let c := fldEff f x
  if c.toNat < 32 then pure ((x.f.toList[c.toNat]?).getD 0)
  else pure ((((s.at' s.cur.pl).settle s.cyc).c.toList[c.toNat - 32]?).getD 0)

-- writing

/-- Send a word over an open channel (R345). -/
def State.chanSend (s : State) (i : Sid) (n : Nat) (v : Word) : State :=
  let x := s.slotAt i
  let e := x.ep n
  let core := (e.peer.setWidth 12).toNat
  let pk := (e.peer.extractLsb' 12 3).toNat
  let pe := (e.peer.extractLsb' 15 3).toNat
  let me : Nat := match i.pl with
    | .core c => c
    | .slice c => c
  s.send x.launch i.pl (.core core) (some i)
    (.chWord core (pk * 8 + pe) (BitVec.ofNat 18 (me + i.k * 4096 + n * 32768)) v)

/-- SetGpr (R220) of an instruction of latency k (R227). -/
def wg (k : Nat) (f : Fld) (v : Word) : M Unit := do
  let s ← getS
  let x := s.slotAt s.cur
  let c := fldEff f x
  if c.toNat < 16 then modSlot (fun x => x.setGr (c.setWidth 4) v)
  else if c.toNat < 0x18 then do
    modSlot (fun x => x.setEp (c.toNat - 16) { x.ep (c.toNat - 16) with allow := (x.ep (c.toNat - 16)).allow - 1 })
    modS (fun s => s.chanSend s.cur (c.toNat - 16) v)
  else if c = 0x18 then modSlot (fun x => { x with pw := pwFix (v.setWidth 16) })
  else if c = 0x19 then modSlot (fun x => { x with ix := v })
  else if 0x20 ≤ c.toNat then sharedWrite k false (c.toNat - 32) (v.setWidth 512)
  else pure ()

/-- SetVreg (R220) of an instruction of latency k. -/
def wv (k : Nat) (f : Fld) (v : Vec) : M Unit := do
  let s ← getS
  let c := fldEff f (s.slotAt s.cur)
  if c.toNat < 32 then modSlot (fun x => { x with f := x.f.setIfInBounds c.toNat v })
  else sharedWrite k true (c.toNat - 32) v

/-- A destination whose result comes later: the unit of a channel's allowance is taken at issue (R267), and the
register is marked pending. -/
def claimDst (f : Fld) : M Unit := do
  let x ← slot
  let c := fldEff f x
  if 16 ≤ c.toNat ∧ c.toNat < 0x18 then
    modSlot (fun x => x.setEp (c.toNat - 16) { x.ep (c.toNat - 16) with allow := (x.ep (c.toNat - 16)).allow - 1 })
  markPend (pregOf c)

/-- A late result reaches the register of a code: the mark clears and the value is written; to a channel it is sent
(R29, R34, R267). -/
def State.deliver (s : State) (i : Sid) (c : BitVec 6) (v : Word) : State :=
  let s := s.setSlot i ((s.slotAt i).clearPend (pregOf c))
  if c.toNat < 16 then s.setSlot i ((s.slotAt i).setGr (c.setWidth 4) v)
  else if c.toNat < 0x18 then s.chanSend i (c.toNat - 16) v
  else if c = 0x18 then s.setSlot i { s.slotAt i with pw := pwFix (v.setWidth 16) }
  else if c = 0x19 then s.setSlot i { s.slotAt i with ix := v }
  else if 0x20 ≤ c.toNat then
    s.setAt i.pl { (s.at' i.pl).settle s.cyc with
      sharedQ := ((s.at' i.pl).settle s.cyc).sharedQ ++ [⟨s.cyc + 1, i.k, false, c.toNat - 32, v.setWidth 512⟩] }
  else s

/-- A late vector result (R29, R34). -/
def State.deliverVec (s : State) (i : Sid) (c : BitVec 6) (v : Vec) : State :=
  let s := s.setSlot i ((s.slotAt i).clearPend (vregOf c))
  if c.toNat < 32 then s.setSlot i { s.slotAt i with f := (s.slotAt i).f.setIfInBounds c.toNat v }
  else
    s.setAt i.pl { (s.at' i.pl).settle s.cyc with
      sharedQ := ((s.at' i.pl).settle s.cyc).sharedQ ++ [⟨s.cyc + 1, i.k, true, c.toNat - 32, v⟩] }

/-- The address of the M format (R208). -/
def eaM (ad : MAddr) : M Word := do
  let x ← slot
  pure (x.gr ad.a + (x.gr ad.b <<< ad.scl.toNat) + ad.off.signExtend 64)

/-- The address of the X format (R210). -/
def eaX (a : BitVec 6) (off : BitVec 20) : M Word := do
  pure ((← rg (plain a)) + off.signExtend 64)

/-- The registers an M-format address names. -/
def adUses (ad : MAddr) : List Use := [.src (gf ad.a), .src (gf ad.b)]

/-- Sign or zero extension of the low n bytes of a value (R267). -/
def extend (sx : Bool) (n : Nat) (v : Nat) : Word :=
  if sx && decide (2 ^ (8 * n - 1) ≤ v) then BitVec.ofNat 64 (v + (2 ^ 64 - 2 ^ (8 * n))) else BitVec.ofNat 64 v

end Sys2Proof.Machine
end

