-- ==== Sys2Proof/Machine/Memory.lean ====
section
/-! DEFINITION. Scalar loads and stores, cache control, fences and residency (R264-R273, R276). -/

namespace Sys2Proof.Machine

/-- What an action would give, leaving the state alone. -/
def peek {α : Type} (m : M α) : M α := fun s =>
  match m s with
  | .ok (a, _) => .ok (a, s)
  | .error o => .error o

/-- A byte of another compute core's local store or scratch banks (R49). -/
def otherCore (p : Place) (bs : List PByte) : Option Nat :=
  bs.findSome? (fun b => match b.loc with
    | .ls n _ => if p = .core n then none else some n
    | _ => none)

/-- An access to another core's local store: an unpinned thread migrates there, the access unperformed (R49, R265). -/
def migrateFor (bs : List PByte) : M Unit := do
  let s ← getS
  match otherCore s.cur.pl bs with
  | some n => if s.pinned s.cur then pure () else depart (.core n) false
  | none => pure ()

/-- The checks and the departure every scalar load and store makes before it is performed (R264, R265, R240); `resid` when a
residency slot may serve it. -/
def reach (resid wr : Bool) (ea : Word) (n align : Nat) : M (List PByte) := do
  let bs ← checkAccess 0 wr ea n align
  needHomes 0 wr ea bs
  migrateFor bs
  cfgGate resid bs
  pure bs

/-- The aperture or a host-system page that is not coherent (R270, R277). -/
def noSequence (b : PByte) : Bool :=
  match b.loc with
  | .ls _ _ => true
  | .host _ => !pteHostCoh b.pte
  | .dev _ => false

/-- Perform a load of n bytes whose sources are fixed at issue or at its return (R265, R267) (DEDUCED, log 42). -/
def finishLoad (d : BitVec 6) (sx : Bool) (resid clean : Bool) (acq : Nat) (bs : List PByte) : M Unit := do
  let s ← getS
  let src := s.srcs resid clean bs
  let f := plain d
  if s.fixedLoad resid bs then
    match allFixed src with
    | some l => do
      wg 4 f (extend sx bs.length (ofBytes l))
      done
    | none => loseTurn
  else do
    pendRoom 1
    match allFixed src with
    | some l => do
      touchL1 bs
      wg 6 f (extend sx bs.length (ofBytes l))
      done
    | none => do
      touchL1 bs
      claimDst f
      let s ← getS
      let x := s.slotAt s.cur
      let body := if (otherCore s.cur.pl bs).isSome then FBody.reqLoad d bs.length sx src acq
        else FBody.load d bs.length sx src (s.fillsOf src) acq
      modS (fun s => s.send x.launch s.cur.pl (s.homeFirst bs) (some s.cur) body)
      done

/-- LD (R267). -/
def execLd (o : MOp) (s : State) : Out := run (do
  prep (.dst (plain o.d) :: adUses o.ad)
  accessGate
  let bs ← reach true false (← eaM o.ad) (2 ^ o.sz.toNat) 1
  finishLoad o.d o.sx true true 0 bs) s

/-- LDA: an acquire at its scope, then the read; no residency, and at cluster scope and above no clean L1 byte (R269). What
other threads of the core bring into L1 before the read returns is dropped again then (DEDUCED, log 69). -/
def execLda (o : MOp) (sc : BitVec 3) (s : State) : Out := run (do
  prep (.dst (plain o.d) :: adUses o.ad)
  accessGate
  let bs ← reach false false (← eaM o.ad) (2 ^ o.sz.toNat) (2 ^ o.sz.toNat)
  acquire sc.toNat
  finishLoad o.d o.sx false (decide (sc.toNat < 2)) (if 2 ≤ sc.toNat then sc.toNat else 0) bs) s

/-- The low n bytes of a value. -/
def lowBytes (v : Word) (n : Nat) : List Byte := natBytes n v.toNat

/-- ST (R268). -/
def execSt (d : BitVec 6) (ad : MAddr) (sz : BitVec 2) (s : State) : Out := run (do
  prep (.src (plain d) :: adUses ad)
  accessGate
  let bs ← reach false true (← eaM ad) (2 ^ sz.toNat) 1
  let v ← rg (plain d)
  modS (fun s => s.store s.cur (bs.zip (lowBytes v bs.length)) false none none)
  done) s

/-- STL: a release at its scope, then its own posted store (R98, R269). -/
def execStl (d : BitVec 6) (ad : MAddr) (sz : BitVec 2) (sc : BitVec 3) (s : State) : Out := run (do
  prep (.src (plain d) :: adUses ad)
  accessGate
  let bs ← reach false true (← eaM ad) (2 ^ sz.toNat) (2 ^ sz.toNat)
  release sc.toNat
  let v ← rg (plain d)
  modS (fun s => s.store s.cur (bs.zip (lowBytes v bs.length)) true none none)
  done) s

/-- STT: a posted store whose line's number comes back into d (R270). -/
def execStt (d : BitVec 6) (ad : MAddr) (sz : BitVec 2) (s : State) : Out := run (do
  prep (.src (plain d) :: .dst (plain d) :: adUses ad)
  accessGate
  let ea ← eaM ad
  let bs ← checkAccess 0 true ea (2 ^ sz.toNat) (2 ^ sz.toNat)
  needHomes 0 true ea bs
  if bs.any noSequence then violation 0 true ea
  cfgGate false bs
  pendRoom 1
  let v ← rg (plain d)
  claimDst (plain d)
  modS (fun s => s.store s.cur (bs.zip (lowBytes v bs.length)) true (some d) none)
  done) s

/-- The physical place of an address, whose page has been looked up, for an instruction that never faults on it (R272): none
when it fails R264. -/
def State.quietByte (s : State) (va : Word) : Option PByte :=
  match regionOf va.toNat with
  | .virt =>
    match s.xlateCur va with
    | .leaf pte sh => some ⟨va.toNat, if pteHost pte then .host (pteAddr pte sh va) else .dev (pteAddr pte sh va), pte, sh⟩
    | .fail _ _ => none
  | _ => none

/-- PREF: a fill of the line into L1, or into its home slice without one, where a coherent host line goes always; a failing
address, or a line that nothing caches, makes it a NOP (R88, R272). -/
def execPref (ad : MAddr) (s : State) : Out := run (do
  prep (adUses ad)
  let ea ← eaM ad
  lookPage ea
  let s ← getS
  let fill (line h : Nat) (host : Bool) : M Unit := do
    modS (fun s => s.send (s.slotAt s.cur).launch s.cur.pl (.slice h) (some s.cur) (.fill line h host))
    done
  match s.quietByte ea with
  | some b =>
    match b.loc, s.homeOf b with
    | .dev p, some (.slice h) => do
      if s.usesL1 s.cur.pl && (s.at' s.cur.pl).l1Busy then loseTurn
      fill (p / 128) h false
    | .host p, some (.slice h) => if b.cached then fill (p / 128) h true else done
    | _, _ => done
  | none => done) s

/-- CLEAN and INVAL act on the L1 line of an address that passes step 1 of R264 and translates (R272). -/
def lineOp (ad : MAddr) (f : State → Place → Nat → State) (s : State) : Out := run (do
  prep (adUses ad)
  let ea ← eaM ad
  let s ← getS
  if (ownCore s.cur.pl).isNone && isOwn ea.toNat then needCore
  if (apertureByte s ea.toNat).isNone then violation 0 false ea
  lookPage ea
  let s ← getS
  match s.quietByte ea with
  | some b =>
    match b.loc with
    | .dev p => do
      if (s.at' s.cur.pl).l1Busy && (l1Find (s.at' s.cur.pl) (p / 128)).isSome then loseTurn
      modS (fun s => f s s.cur.pl (p / 128))
      done
    | _ => done
  | none => done) s

def execClean (ad : MAddr) (s : State) : Out :=
  lineOp ad (fun s p line => s.cleanL1 p (fun l => l.line == line)) s

def execInval (ad : MAddr) (s : State) : Out :=
  lineOp ad (fun s p line => (s.cleanL1 p (fun l => l.line == line)).dropL1 p (fun l => l.line == line)) s

/-- FENCE.ACQ pairs with a release that an earlier load of the thread observes (R100): at a scope that drops lines it holds
its thread until those loads have returned (R273; DEDUCED, log 67). -/
def execFenceAcq (sc : BitVec 3) (s : State) : Out := run (do
  let s ← getS
  if 2 ≤ sc.toNat ∧ !(s.loadsOut s.cur).isEmpty then holdTurn
  acquire sc.toNat
  done) s

def execFenceRel (sc : BitVec 3) (s : State) : Out := run (do
  release sc.toNat
  done) s

/-- FENCE.FULL: FENCE.REL, then FENCE.ACQ (R100). -/
def execFenceFull (sc : BitVec 3) (s : State) : Out := run (do
  release sc.toNat
  acquire sc.toNat
  done) s

/-- FENCE.ACK waits for every posted and tagged store of the thread (R100). -/
def execFenceAck (s : State) : Out := run (do
  let s ← getS
  if s.storesOut s.cur (fun _ => true) then holdTurn
  done) s

-- residency (R69, R276)

/-- A residency slot of a core that a fill can take in a cycle: free, and not released in that very cycle (R69). -/
def CoreSt.freeRes (c : CoreSt) (cyc : Nat) : Option Nat :=
  (List.range 8).find? (fun r => !(tabGet resReset c.res r).used && (tabGet resReset c.res r).rel != some cyc)

/-- A residency slot was released in a cycle and is free: a fill that meets the release retries at the next rotation (R69). -/
def CoreSt.relRes (c : CoreSt) (cyc : Nat) : Bool :=
  (List.range 8).any (fun r => !(tabGet resReset c.res r).used && (tabGet resReset c.res r).rel == some cyc)

/-- Release residency slots of a core. -/
def State.freeRes (s : State) (n : Nat) (l : List Nat) : State :=
  s.setAt (.core n) { tabGet coreReset s.cores n with
    res := l.foldl (fun t r => tabSet t r { resReset with rel := some s.cyc }) (tabGet coreReset s.cores n).res }

/-- The bytes of the 4 KiB block of a byte. -/
def PByte.block (b : PByte) : List PByte :=
  (List.range 4096).map (fun k => { b with
    va := b.va / 4096 * 4096 + k,
    loc := (match b.loc with
      | .dev p => .dev (p / 4096 * 4096 + k)
      | l => l) })

/-- RESIDE: the 4 KiB block of an address copied from its homes, with what the core's L1 holds dirty, into a free residency
slot (R276) (DESIGN CHOICE, log 38). It holds its thread until what the core has on its way to the block is over (R93, R94).
The slot does not serve a line with an uncorrectable
error (R464). -/
def execReside (ad : MAddr) (s : State) : Out := run (do
  needCore
  prep (adUses ad)
  accessGate
  let ea ← eaM ad
  let bs ← checkAccess 0 false ea 1 1
  needHomes 0 false ea bs
  let s ← getS
  let x := s.slotAt s.cur
  let c := s.at' s.cur.pl
  match bs with
  | b :: _ =>
    match b.loc with
    | .dev _ =>
      let va := ea.toNat / 4096 * 4096
      if 4 ≤ x.reside.length ∨ x.reside.any (fun r => (tabGet resReset c.res r).va == va) then done
      else
        match c.freeRes s.cyc with
        | none => if c.relRes s.cyc then holdTurn else done
        | some r => do
          let blk := b.block
          let bad := s.badLines blk
          let src := s.srcs false false blk
          if !(blk.all (fun k => s.quietAt s.cur.pl k.loc)) then holdTurn
          match s.useLines (srcLines src) with
          | none => holdTurn
          | some t => do
            setS t
            let data := Memory.writeBytes [] 0 (src.map s.sample)
            modCore (fun c => { c with res := tabSet c.res r ⟨true, true, va, 4096, data, none, bad⟩ })
            modSlot (fun x => { x with reside := x.reside ++ [r] })
            done
    | _ => violation 0 false ea
  | [] => done) s

/-- UNPIN releases the thread's RESIDE block that holds an address, which passes the checks of R264 (R276). -/
def execUnpin (ad : MAddr) (s : State) : Out := run (do
  needCore
  prep (adUses ad)
  let ea ← eaM ad
  let _ ← checkAccess 0 false ea 1 1
  let s ← getS
  let x := s.slotAt s.cur
  let c := s.at' s.cur.pl
  match x.reside.find? (fun r => (tabGet resReset c.res r).va == ea.toNat / 4096 * 4096) with
  | some r => do
    modS (fun s => s.freeRes (placeNum s.cur.pl) [r])
    modSlot (fun x => { x with reside := x.reside.erase r })
    done
  | none => done) s

end Sys2Proof.Machine
end

