-- ==== Sys2Proof/Machine/Report.lean ====
section
/-! DEFINITION. What is reported to the host: time, fault counts of a launch (R396, R415), the host event ring
(R398, R399, R462). -/

namespace Sys2Proof.Machine

/-- Nanoseconds since reset at 3.3 GHz (R395, R397: 825 cycles are 250 ns). -/
def State.ns (s : State) : Word := BitVec.ofNat 64 (s.cyc * 10 / 33)

/-- A location word: core [11:0], slot [14:12] (R396). -/
def locWord (i : Sid) : BitVec 32 := BitVec.ofNat 32 (placeNum i.pl % 4096 + i.k % 8 * 4096)

/-- The location of an event: core, slot, and the queue it belongs to in [23:16] (R398). -/
def eventLoc (i : Sid) (q : Option Nat) : BitVec 32 := locWord i ||| BitVec.ofNat 32 (q.getD 0 % 256 * 65536)

/-- Count n faults of a launch; the first one names cause and location (R396, R415). -/
def State.countFault (s : State) (launch n : Nat) (cause : BitVec 16) (loc : BitVec 32) : State :=
  match s.launch? launch with
  | none => s
  | some l =>
    if n = 0 then s
    else s.setLaunch { l with
      faults := l.faults + n,
      cause := if l.faults = 0 then cause.setWidth 32 else l.cause,
      loc := if l.faults = 0 then loc else l.loc }

/-- The detail of a fault that has one (R442). -/
def State.faultDetail (s : State) (launch : Nat) (d : Word) : State :=
  match s.launch? launch with
  | none => s
  | some l => s.setLaunch { l with detail := some d }

-- the host event ring

/-- The ring holds as many records as it has room for (R462). -/
def EvRing.full (r : EvRing) : Bool := decide (r.size.toNat ≤ (r.tail - r.head).toNat)

/-- The ring is configured (R399). -/
def EvRing.configured (r : EvRing) : Bool :=
  r.base != 0 && r.base.toNat % 32 == 0 && (List.range 11).any (fun k => r.size.toNat == 2 ^ (k + 6))

/-- The four words of an event (R398). -/
def eventWords (code flags : BitVec 16) (loc : BitVec 32) (detail id time : Word) : List Word :=
  [(loc ++ flags ++ code : BitVec 64), detail, id, time]

/-- Write an event at the tail; the ring lies in host memory (DEDUCED, log 15). -/
def State.ringWrite (s : State) (ws : List Word) : State :=
  let a := s.ring.base.toNat + 32 * (s.ring.tail.toNat % s.ring.size.toNat)
  let m := (ws.zipIdx).foldl (fun m e => Memory.writeNat m (a + 8 * e.2) 8 e.1.toNat) s.hostMem
  { s with hostMem := m, ring := { s.ring with tail := s.ring.tail + 1 } }

def State.queueOf (s : State) (q : Nat) : QueueSt := tabGet queueReset s.queues q

def State.setQueue (s : State) (q : Nat) (x : QueueSt) : State := { s with queues := tabSet s.queues q x }

/-- An event is lost: counted, its code kept, its queue stops fetching (R462). -/
def State.eventLost (s : State) (code : BitVec 16) (queue : Option Nat) : State :=
  let r := s.ring
  let s := { s with ring := { r with
    overflow := r.overflow + 1, lastLost := code, firstLost := if r.overflow = 0 then code else r.firstLost, lossDue := true } }
  match queue with
  | some q => s.setQueue q { s.queueOf q with stopRing := true }
  | none => s

/-- Post an event: it arrives at the ring in this cycle (R398, R462). -/
def State.postEvent (s : State) (code : BitVec 16) (loc : BitVec 32) (detail id : Word) (queue : Option Nat) : State :=
  { s with ring := { s.ring with due := s.ring.due ++ [(eventWords code 0 loc detail id s.ns, queue)] } }

/-- The code, and the core number, of an event (R398). -/
def eventCode (ws : List Word) : BitVec 16 := (ws.headD 0).setWidth 16
def eventCore (ws : List Word) : Nat := ((ws.headD 0).extractLsb' 32 12).toNat

/-- An event is written, held while the ring is not configured, or lost where it finds no room (R398, R399, R462). -/
def State.enterEvent (s : State) (e : List Word × Option Nat) : State :=
  if s.ring.configured then
    if s.ring.full then s.eventLost (eventCode e.1) e.2 else s.ringWrite e.1
  else if s.ring.store.length < 64 then { s with ring := { s.ring with store := s.ring.store ++ [e] } }
  else s.eventLost (eventCode e.1) e.2

/-- The events of a cycle enter at its end, by core number, and in the order of arrival where that is equal (R462). -/
def State.enterEvents (s : State) : State :=
  (s.ring.due.insertionSort (fun a b => eventCore a.1 ≤ eventCore b.1)).foldl State.enterEvent { s with ring := { s.ring with due := [] } }

/-- The queues stopped by a loss of events. -/
def State.ringStopped (s : State) : List Nat := (List.range 256).filter (fun q => (s.queueOf q).stopRing)

/-- The summary event 0x0100, then every stopped queue starts again (R399, R462). -/
def State.ringSummary (s : State) : State :=
  let st := s.ringStopped
  let det : Word := (0#16 ++ BitVec.ofNat 16 st.length ++ s.ring.overflow : BitVec 64)
  let loc : BitVec 32 := BitVec.ofNat 32 (st.headD 0 * 65536)
  let s := s.ringWrite (eventWords 0x0100 (if st.isEmpty then 0 else 1) loc det 0 s.ns)
  let s := st.foldl (fun s q => s.setQueue q { s.queueOf q with stopRing := false }) s
  { s with ring := { s.ring with lossDue := false } }

end Sys2Proof.Machine
end

