-- ==== Sys2Proof/Machine/Yard.lean ====
section
/-! DEFINITION. The Yard: task records, sidings, spill areas, deltas, pops, steals, and the instructions YPUSH to YOPEN
(R154-R179, R358-R365, R439-R443). -/

namespace Sys2Proof.Machine

-- accesses of a port to virtual memory (R173, R365, R429)

/-- The byte of an address for an agent of a cluster in an address space; none when it does not translate. -/
def State.portByte (s : State) (cl : Nat) (root : Word) (va : Nat) : Option PByte :=
  match regionOf va with
  | .virt =>
    match s.xlate cl root (BitVec.ofNat 64 va) with
    | .leaf pte sh =>
      let p := pteAddr pte sh (BitVec.ofNat 64 va)
      some ⟨va, if pteHost pte then .host p else .dev p, pte, sh⟩
    | .fail _ _ => none
  | _ => none

/-- Its place. -/
def State.portLoc (s : State) (cl : Nat) (root : Word) (va : Nat) : Option Loc := (s.portByte cl root va).map (fun b => b.loc)

abbrev locOff (l : Loc) (i : Nat) : Loc := l.off i

/-- n bytes of a place as a number. -/
def State.locNat (s : State) (l : Loc) (n : Nat) : Nat := ofBytes ((List.range n).map (fun i => s.byteAt (locOff l i)))

/-- A naturally aligned read of n ≤ 8 bytes in a launch's address space; 0 where it does not translate (DESIGN CHOICE, log 16). -/
def State.vRead (s : State) (l : Launch) (va n : Nat) : Nat :=
  match s.portLoc 0 l.root va with
  | some x => s.locNat x n
  | none => 0

/-- A naturally aligned write of n ≤ 8 bytes, performed at its home (R76); discarded where it does not translate (DESIGN
CHOICE, log 16). -/
def State.vWrite (s : State) (l : Launch) (va n v : Nat) : State :=
  match s.portByte 0 l.root va with
  | some b => s.agentNat b n v
  | none => s

/-- The lines of n naturally aligned bytes are used by a read (R75). -/
def State.vUse (s : State) (l : Launch) (va n : Nat) : State :=
  match s.portByte 0 l.root va with
  | some b => s.agentUse b n
  | none => s

-- task records (R155, R156)

/-- Word k of a record. -/
def recW (r : List Word) (k : Nat) : Word := (r[k]?).getD 0

def recBucket (r : List Word) : Nat := ((recW r 7).extractLsb' 0 32).toNat
def recFlags (r : List Word) : BitVec 16 := (recW r 7).extractLsb' 32 16
def recJoin (r : List Word) : Nat := ((recW r 7).extractLsb' 48 16).toNat
def recFootLen (r : List Word) : Nat := ((recW r 5).extractLsb' 56 8).toNat
def recFoot (r : List Word) : Nat := ((recW r 5).extractLsb' 0 56).toNat
def recHeld (r : List Word) : Bool := (recFlags r).getLsbD 1
def recGen (r : List Word) : Bool := (recFlags r).getLsbD 2

/-- Word 7 of a record from its fields. -/
def recTail (bucket : Nat) (flags : BitVec 16) (join : Nat) : Word :=
  (BitVec.ofNat 16 join ++ flags ++ BitVec.ofNat 32 bucket : BitVec 64)

def recSet7 (r : List Word) (w : Word) : List Word := (r ++ List.replicate 8 0).take 7 ++ [w]

/-- What makes any record malformed (R156). -/
def recBad (r : List Word) : Bool :=
  decide (64 < recFootLen r) || decide (recFoot r % 64 ≠ 0) || decide ((recW r 6).toNat % 16 ≠ 0) || (recFlags r &&& 0xFFF8) != 0

-- a launch's header (R392)

def Launch.h (l : Launch) (k : Nat) : Word := (l.hdr[k]?).getD 0
def Launch.vecs (l : Launch) : Nat := ((l.h 4).extractLsb' 0 8).toNat
def Launch.accNeed (l : Launch) : Nat := ((l.h 4).extractLsb' 8 8).toNat
def Launch.reach (l : Launch) : Nat := ((l.h 4).extractLsb' 32 8).toNat
def Launch.winBase (l : Launch) : Nat := ((l.h 9).extractLsb' 0 16).toNat
def Launch.winCount (l : Launch) : Nat := ((l.h 9).extractLsb' 16 16).toNat

-- the spill area (R173)

def spillL (nb : Nat) : Nat := 1024 * ((256 + 8 * nb + 1023) / 1024)

/-- The block count: the largest that fits, at most S / 1032 and at most two below it. -/
def spillNb (size : Nat) : Nat :=
  let fits (n : Nat) : Bool := decide (spillL n + 1024 * n ≤ size)
  let n := size / 1032
  if fits n then n else if fits (n - 1) then n - 1 else if fits (n - 2) then n - 2 else n - 3

def Launch.spill (l : Launch) : Nat := (l.h 7).toNat
def Launch.nb (l : Launch) : Nat := spillNb (l.h 8).toNat

def noBlock : Nat := 0xFFFFFFFF

def State.inst (s : State) (l : Launch) (off n : Nat) : Nat := s.vRead l (l.spill + off) n
def State.setInst (s : State) (l : Launch) (off n v : Nat) : State := s.vWrite l (l.spill + off) n v

/-- Add to a field of the instance block. -/
def State.addInst (s : State) (l : Launch) (off n k : Nat) : State := s.setInst l off n (s.inst l off n + k)

def linkAddr (l : Launch) (b : Nat) : Nat := l.spill + 256 + 8 * b
def blockAddr (l : Launch) (b : Nat) : Nat := l.spill + spillL l.nb + 1024 * b

def linkWord (far : Bool) (records owner next : Nat) : Word :=
  (0#14 ++ BitVec.ofBool far ++ BitVec.ofNat 5 records ++ BitVec.ofNat 12 owner ++ BitVec.ofNat 32 next : BitVec 64)

def State.link (s : State) (l : Launch) (b : Nat) : Word := BitVec.ofNat 64 (s.vRead l (linkAddr l b) 8)
def State.setLink (s : State) (l : Launch) (b : Nat) (w : Word) : State := s.vWrite l (linkAddr l b) 8 w.toNat

def linkNext (w : Word) : Nat := (w.extractLsb' 0 32).toNat
def linkOwner (w : Word) : Nat := (w.extractLsb' 32 12).toNat
def linkRecords (w : Word) : Nat := (w.extractLsb' 44 5).toNat

/-- Take a block from the free list, counting the blocks in use and their highest number; none when it is empty. -/
def State.allocBlock (s : State) (l : Launch) : Option (State × Nat) :=
  let b := s.inst l 0 4
  if b = noBlock then none
  else
    let s := s.setInst l 0 4 (linkNext (s.link l b))
    let k := (s.launch? l.num).getD l
    let n := k.yard.inUse + 1
    let s := s.setLaunch { k with yard := { k.yard with inUse := n } }
    some (if s.inst l 12 4 < n then s.setInst l 12 4 n else s, b)

/-- Return a block to the free list. -/
def State.freeBlock (s : State) (l : Launch) (b : Nat) : State :=
  let s := s.setLink l b (linkWord false 0 0 (s.inst l 0 4))
  let s := s.setInst l 0 4 b
  match s.launch? l.num with
  | some l => s.setLaunch { l with yard := { l.yard with inUse := l.yard.inUse - 1 } }
  | none => s

/-- A record of a launch's spill area. -/
def State.readRec (s : State) (l : Launch) (va : Nat) : List Word :=
  (List.range 8).map (fun k => BitVec.ofNat 64 (s.vRead l (va + 8 * k) 8))

def State.writeRec (s : State) (l : Launch) (va : Nat) (r : List Word) : State :=
  (List.range 8).foldl (fun s k => s.vWrite l (va + 8 * k) 8 (recW r k).toNat) s

-- deltas (R161, R162)

def State.core' (s : State) (n : Nat) : CoreSt := tabGet coreReset s.cores n
def State.setCore (s : State) (n : Nat) (c : CoreSt) : State := { s with cores := tabSet s.cores n c }

def Deltas.add (d : Deltas) (b : Nat) (k : Int) : Option Deltas :=
  if d.bks.any (fun e => e.1 == b) then some { d with bks := d.bks.map (fun e => if e.1 = b then (b, e.2 + k) else e) }
  else if d.bks.length < 16 then some { d with bks := d.bks ++ [(b, k)] }
  else none

/-- Buffer a delta at a core; none when it would need a seventeenth entry. A core has such a buffer for each launch (R162; DESIGN
CHOICE, log 96). -/
def State.addDelta (s : State) (core launch b : Nat) (k : Int) : Option State :=
  ((tabGet deltasReset (s.core' core).deltas launch).add b k).map
    (fun d => s.setCore core { s.core' core with deltas := tabSet (s.core' core).deltas launch d })

/-- Change the event counts that the station collects (R365). -/
def State.countTasks (s : State) (core launch pushed executed : Nat) : State :=
  let d := tabGet deltasReset (s.core' core).deltas launch
  let e : Deltas := { d with pushed := d.pushed + pushed, executed := d.executed + executed }
  s.setCore core { s.core' core with deltas := tabSet (s.core' core).deltas launch e }

/-- Buffer a far push (R162). -/
def State.addFar (s : State) (core launch b : Nat) : State :=
  let d := tabGet deltasReset (s.core' core).deltas launch
  let e : Deltas := { d with farN := d.farN + 1, farMin := if d.farN = 0 then b else Nat.min d.farMin b }
  s.setCore core { s.core' core with deltas := tabSet (s.core' core).deltas launch e }

-- sidings (R166, R167, R169)

def CoreSt.seenOf (c : CoreSt) (launch : Nat) : Seen := tabGet seenReset c.seen launch

/-- The effective reach at a core (R166). -/
def State.reachAt (s : State) (core : Nat) (l : Launch) : Nat :=
  Nat.min (l.reach + ((s.core' core).seenOf l.num).relief) 11

/-- A bucket lies within F_seen + E. -/
def State.inReach (s : State) (core : Nat) (l : Launch) (b : Nat) : Bool :=
  decide (b ≤ ((s.core' core).seenOf l.num).floor + s.reachAt core l)

/-- A siding record may be popped (R166). -/
def State.eligible (s : State) (core : Nat) (e : SidEnt) : Bool :=
  match s.launch? e.launch with
  | some l => !(recHeld e.words) && e.ready && s.inReach core l (recBucket e.words)
  | none => false

/-- The entry of lowest bucket, first to enter, among those that `sel` allows (R167). -/
def bestEntry (t : Tab SidEnt) (sel : SidEnt → Bool) : Option (Nat × SidEnt) :=
  t.foldl (fun b e =>
    if sel e.2 then
      match b with
      | none => some e
      | some x =>
        if recBucket e.2.words < recBucket x.2.words ∨ (recBucket e.2.words = recBucket x.2.words ∧ e.2.order < x.2.order)
        then some e else b
    else b) none

def CoreSt.freeEntry (c : CoreSt) : Option Nat := (List.range 256).find? (fun k => (tabFind c.siding k).isNone)

/-- Free a siding entry; its generation rises (R176). -/
def State.freeEntry (s : State) (core k : Nat) : State :=
  let c := s.core' core
  s.setCore core { c with siding := tabDel c.siding k, sgen := tabSet c.sgen k (tabGet 0 c.sgen k + 1) }

/-- A record may be spilled, stolen or moved: not held, not being filled, not resident (R169, R174, R179). -/
def SidEnt.movable (e : SidEnt) : Bool := !(recHeld e.words) && e.fill.isNone

/-- Sort records for a spill: highest bucket first, the latest arrival first in one bucket. -/
def spillOrder (l : List (Option Nat × SidEnt)) : List (Option Nat × SidEnt) :=
  l.insertionSort (fun a b =>
    recBucket b.2.words < recBucket a.2.words ∨
    (recBucket a.2.words = recBucket b.2.words ∧ b.2.order ≤ a.2.order))

/-- Place a record in a siding, spilling one block of its launch when the siding is full (R169): the entry it takes, or
none where it went with the block. No state when the spill finds no block, or nothing to spill. The records lie in the block, and
come back, in the order in which they are chosen (DESIGN CHOICE, log 97). -/
def State.place (s : State) (core : Nat) (l : Launch) (r : List Word) (canSpill : Bool) : Option (State × Option Nat) :=
  let c := s.core' core
  let e : SidEnt := ⟨r, l.num, c.sorder, none, recFootLen r == 0, none, 0⟩
  match c.freeEntry with
  | some k => some (s.setCore core { c with siding := tabSet c.siding k e, sorder := c.sorder + 1 }, some k)
  | none =>
    if !canSpill then none
    else
      let cand := spillOrder (((c.siding.filter (fun x => x.2.launch == l.num && x.2.movable)).map (fun x => (some x.1, x.2))) ++
        (if e.movable then [(none, e)] else []))
      let out := cand.take 16
      if out.isEmpty then none
      else
        match s.allocBlock l with
        | none => none
        | some (s, b) =>
          let head := tabGet noBlock c.chains l.num
          let s := s.setLink l b (linkWord false out.length core head)
          let s := out.zipIdx.foldl (fun s x => s.writeRec l (blockAddr l b + 64 * x.2) x.1.2.words) s
          let s := out.foldl (fun s x => match x.1 with
            | some k => s.freeEntry core k
            | none => s) s
          let c := s.core' core
          let s := s.setCore core { c with chains := tabSet c.chains l.num b }
          if out.any (fun x => x.1.isNone) then some (s, none)
          else
            let c := s.core' core
            match c.freeEntry with
            | some k => some (s.setCore core { c with siding := tabSet c.siding k e, sorder := c.sorder + 1 }, some k)
            | none => none

/-- Append a far record to the core's open far block, opening one when needed (R171); none when no block is free. -/
def State.pushFar (s : State) (core : Nat) (l : Launch) (r : List Word) : Option State :=
  let c := s.core' core
  let put (s : State) (b : Nat) : State :=
    let w := s.link l b
    -- the block's written count is kept in the open block's table entry, beside its index
    let n := (tabGet 0 (s.core' core).farOpen (65536 + l.num))
    let s := s.writeRec l (blockAddr l b + 64 * n) r
    let s := s.setLink l b (linkWord true (linkRecords w + 1) core (linkNext w))
    let c := s.core' core
    let t := if n + 1 < 16 then tabSet (tabSet c.farOpen l.num b) (65536 + l.num) (n + 1)
      else tabDel (tabDel c.farOpen l.num) (65536 + l.num)
    s.setCore core { c with farOpen := t }
  match tabFind c.farOpen l.num with
  | some b => some (put s b)
  | none =>
    (s.allocBlock l).map (fun (s, b) =>
      let s := s.setLink l b (linkWord true 0 core (s.inst l 4 4))
      put (s.setInst l 4 4 b) b)

-- records read by an instruction (R358)

/-- The stage number of an instruction that has read its record once: a data error of it has been raised. -/
def recordStage : Nat := 9

/-- The record of an address: 64-aligned, checked under R264, read from its homes after the release. It waits while a home
cannot take the line, or the launch's port a write (R75). A line with an uncorrectable error is a data error (R464). -/
def readRecord (ea : Word) : M (List Word) := do
  let bs ← checkAccess 4 false ea 64 64
  needHomes 4 false ea bs
  let s ← getS
  if !s.l2Free then holdTurn
  match s.useLines (srcLines (bs.map s.srcHome)) with
  | none => holdTurn
  | some t => setS t
  if (← slot).stage ≠ recordStage then do
    dataErrorHere (bs.map s.srcHome)
    modSlot (fun x => { x with stage := recordStage })
  let s ← getS
  pure ((List.range 8).map (fun k => BitVec.ofNat 64 (ofBytes (((bs.drop (8 * k)).take 8).map (fun b => s.byteAt b.loc)))))

/-- The thread's open launch; every thread of a slot has one. -/
def myLaunch : M Launch := do
  let s ← getS
  match s.launch? (s.slotAt s.cur).launch with
  | some l => pure l
  | none => loseTurn

def coreNum (p : Place) : Nat := placeNum p

/-- YPUSH (R359, R163, R171, R440). -/
def execYpush (a : BitVec 4) (s : State) : Out := run (do
  needCore
  prep [.src (gf a)]
  accessGate
  release 4
  let ea ← rg (gf a)
  let r ← readRecord ea
  let l ← myLaunch
  let n := coreNum (← place)
  let s ← getS
  let b := recBucket r
  let w := ((s.core' n).seenOf l.num).w
  if recBad r || (recFlags r) != 0 || recJoin r != 0 then trap cRecord ea
  if w + 0x3FFFFFFE < b then trap cBucket (BitVec.ofNat 64 b)
  if w + 11 < b then
    match s.pushFar n l r with
    | none => trap cSiding 3
    | some t => do
      setS (((t.addFar n l.num b).countTasks n l.num 1 0).addInst l 16 4 1)
      modS (fun s => if b < s.inst l 40 4 then s.setInst l 40 4 b else s)
      done
  else
    match s.addDelta n l.num b 1 with
    | none => holdTurn
    | some t =>
      match t.place n l r true with
      | none => fun _ => trap cSiding 2 s
      | some (t, _) => do
        setS (t.countTasks n l.num 1 0)
        done) s

/-- The handle of a continuation (R176). -/
def contHandle (launch : Nat) (gen : BitVec 16) (entry core : Nat) : Word :=
  (0#12 ++ BitVec.ofNat 16 launch ++ gen ++ BitVec.ofNat 8 entry ++ BitVec.ofNat 12 core : BitVec 64)

/-- The registers that a result in d marks pending: none for g0 (R30, R33). -/
def dstCount (d : BitVec 4) : Nat := if d = 0 then 0 else 1

/-- A result of variable latency on its way to d of a Yard instruction, which marks it (R29, R360, R362). -/
def yardResult (d : BitVec 4) (v : Word) : M Unit := do
  if d ≠ 0 then do
    claimDst (gf d)
    modS (fun s => s.send (s.slotAt s.cur).launch s.cur.pl s.cur.pl (some s.cur) (.result (d.setWidth 6) v 0 0 false))
  else pure ()

/-- YCONT (R360): held continuations are placed, never spilled; d is pending until the handle reaches it. -/
def execYcont (d a : BitVec 4) (s : State) : Out := run (do
  needCore
  prep [.dst (gf d), .src (gf a)]
  accessGate
  pendRoom (dstCount d)
  release 4
  let ea ← rg (gf a)
  let r ← readRecord ea
  let l ← myLaunch
  let n := coreNum (← place)
  if recBad r || (recFlags r &&& 7) != 0 || recJoin r == 0 then trap cRecord ea
  let s ← getS
  match s.place n l (recSet7 r (recTail (recBucket r) (recFlags r ||| 3) (recJoin r))) true with
  | some (t, some k) => do
    setS t
    yardResult d (contHandle l.num (tabGet 0 (t.core' n).sgen k) k n)
    done
  | _ => fun _ => trap cSiding 1 s) s

/-- YDONE (R361): checked, then one decrement is sent. -/
def execYdone (a : BitVec 4) (s : State) : Out := run (do
  needCore
  prep [.src (gf a)]
  accessGate
  let v ← rg (gf a)
  let l ← myLaunch
  let s ← getS
  if v.extractLsb' 52 12 ≠ 0 ∨ (v.extractLsb' 36 16).toNat ≠ l.num % 65536 ∨ !(s.coreLive (v.extractLsb' 0 12).toNat) then
    trap cCont v
  release 4
  modS (fun s => s.send l.num s.cur.pl (.core (v.extractLsb' 0 12).toNat) (some s.cur)
    (.ydone (v.extractLsb' 0 12).toNat (v.extractLsb' 12 8).toNat (v.extractLsb' 20 16) (v.extractLsb' 36 16) s.cur))
  done) s

/-- YPOP (R362). Its accesses are checked only when there is a record to store. -/
def execYpop (d a : BitVec 4) (s : State) : Out := run (do
  needCore
  prep [.dst (gf d), .src (gf a)]
  accessGate
  pendRoom (dstCount d)
  let ea ← rg (gf a)
  let l ← myLaunch
  let n := coreNum (← place)
  let s ← getS
  let x := s.slotAt s.cur
  match bestEntry (s.core' n).siding (fun e => e.launch == l.num && s.eligible n e && !(recGen e.words) && recFootLen e.words == 0) with
  | none => do
    yardResult d 0xFFFFFFFFFFFFFFFF
    done
  | some (k, e) => do
    let bs ← checkAccess 0 true ea 64 64
    needHomes 0 true ea bs
    cfgGate false bs
    let s ← getS
    match s.addDelta n l.num x.bucket.toNat (-1) with
    | none => holdTurn
    | some t => do
      let t := match x.foot with
        | some r => t.freeRes x.placement.toNat [r]
        | none => t
      setS ((t.countTasks n l.num 0 1).freeEntry n k)
      modS (fun s => s.store s.cur (bs.zip ((List.range 8).flatMap (fun i => natBytes 8 (recW e.words i).toNat))) false none none)
      modSlot (fun x => { x with bucket := BitVec.ofNat 32 (recBucket e.words), placement := BitVec.ofNat 12 n, foot := none })
      yardResult d (BitVec.ofNat 64 (recBucket e.words))
      done) s

/-- YFLOOR (R363). -/
def execYfloor (d : BitVec 4) (s : State) : Out := run (do
  needCore
  prep [.dst (gf d)]
  let l ← myLaunch
  let n := coreNum (← place)
  let s ← getS
  let z := (s.core' n).seenOf l.num
  wg 4 (gf d) (0#24 ++ BitVec.ofNat 4 z.relief ++ BitVec.ofNat 4 (s.reachAt n l) ++ BitVec.ofNat 32 z.floor : BitVec 64)
  done) s

/-- YREACH (R364). -/
def execYreach (d a : BitVec 4) (s : State) : Out := run (do
  needCore
  prep [.dst (gf d), .src (gf a)]
  let v ← rg (gf a)
  let l ← myLaunch
  let n := coreNum (← place)
  let s ← getS
  wg 4 (gf d) (BitVec.ofInt 64 ((v.toNat % 2 ^ 32 : Nat) - (((s.core' n).seenOf l.num).floor + s.reachAt n l : Nat) : Int))
  done) s

/-- Read a field of the instance block from its home: a variable-latency result (R365), 0 where the block does not translate
(DESIGN CHOICE, log 16). -/
def readInst (l : Launch) (d : Fld) (off n : Nat) : M Unit := do
  pendRoom 1
  let s ← getS
  match s.portByte 0 l.root (l.spill + off) with
  | none => do
    wg 6 d 0
    done
  | some b => do
    let src := (List.range n).map (fun i => s.srcHome (b.off i))
    claimDst d
    modS (fun s => s.send l.num s.cur.pl (s.homeFirst [b]) (some s.cur) (.load d.code n false src [] 0))
    done

/-- YOPEN (R365). -/
def execYopen (d a : BitVec 4) (s : State) : Out := run (do
  needCore
  prep [.dst (gf d), .src (gf a)]
  let v ← rg (gf a)
  let l ← myLaunch
  let n := coreNum (← place)
  let s ← getS
  let mine := (s.core' n).siding.filter (fun e => e.2.launch == l.num)
  let fixed (k : Nat) : M Unit := do
    wg 4 (gf d) (BitVec.ofNat 64 k)
    done
  match (v.extractLsb' 0 4).toNat with
  | 0 => readInst l (gf d) 32 8
  | 1 => readInst l (gf d) 24 8
  | 2 => readInst l (gf d) 16 4
  | 3 => readInst l (gf d) 20 4
  | 4 => readInst l (gf d) 12 4
  | 5 => fixed mine.length
  | 6 => fixed (mine.filter (fun e => recHeld e.2.words)).length
  | _ => fixed 0) s

end Sys2Proof.Machine
end

