-- ==== Sys2Proof/Machine/Banks.lean ====
section
/-! DEFINITION. The bank launch of a core, and CFGBANK (R35, R70-R74, R239, R240, R430, R431). -/

namespace Sys2Proof.Machine

def Ctx.launch : Ctx → Nat
  | .arrived p => p.launch
  | .saved c => c.sl.launch

/-- A context can take slot k of a core now (R56, R418, R421). -/
def Ctx.fits (x : Ctx) (c : CoreSt) (k : Nat) : Bool :=
  match x with
  | .arrived _ => true
  | .saved r =>
    (match r.acc with
     | some (n, _) => (((c.acc.toList)[n]?).getD accReset).owner.isNone
     | none => true) &&
    (!(r.sl.eps.toList.any (·.opened)) || r.from' == k)

/-- A flight that keeps the bank launch at a core: a migration or exit packet, a channel word or a channel grant. -/
def FBody.holdsBank : FBody → Bool
  | .migrate _ => true
  | .exit .. => true
  | .chWord .. => true
  | .chGrant .. => true
  | _ => false

/-- An address lies in the local store or scratch banks of core n, for a command issued on core k. -/
def addrOnCore (k n : Nat) (va : Word) : Bool :=
  match regionOf va.toNat with
  | .own _ => k == n
  | .core m _ => m == n
  | _ => false

/-- A launch holds a core (R35). -/
def State.bankHeld (s : State) (n l : Nat) : Bool :=
  let c := s.core' n
  c.slots.any (fun e => (e.2.busy || e.2.gen.isSome) && e.2.launch == l) || c.rq.any (fun x => x.launch == l) || c.recs.any (fun e => e.2.sl.launch == l) ||
  s.flights.any (fun f => f.dst == .core n && f.launch == l && f.body.holdsBank) ||
  c.siding.any (fun e => e.2.launch == l) || tabGet noBlock c.chains l != noBlock ||
  s.cmds.any (fun k => k.launch == l && (addrOnCore k.core n k.dst || addrOnCore k.core n k.src))

/-- The offsets of bank b, and the local store without its contents. -/
def bankLo (b : Nat) : Nat := 0x20000 + b * 0x10000

def clearBank (m : Memory) (b : Nat) : Memory := m.filter (fun e => !(decide (bankLo b ≤ e.1) && decide (e.1 < bankLo (b + 1))))

def bankModeOf (c : CoreSt) (b : Nat) : BankMode := (c.banks.toList[b]?).getD .cache

/-- End of the bank launch: dirty lines go out, both shared banks are zeroed, every bank is in CACHE mode, scratch
contents are gone, no tender is configured, and both palettes are empty (R35, R70, R311, R435). -/
def State.bankClear (s : State) (n : Nat) : State :=
  let s := s.cleanL1 (.core n) (fun _ => true)
  let c := s.core' n
  s.setCore n { c with
    s := Vector.replicate 32 0, c := Vector.replicate 32 0, sharedQ := [], bankLaunch := none,
    banks := Vector.replicate 5 .cache, ls := (List.range 5).foldl clearBank c.ls, tenders := Vector.replicate 16 tenderReset,
    pal := Vector.replicate 2 palReset }

/-- Something of a launch has left a core: the bank launch ends with the last of it. -/
def State.bankCheck (s : State) (n : Nat) : State :=
  match (s.core' n).bankLaunch with
  | some l => if s.bankHeld n l then s else s.bankClear n
  | none => s

/-- The same for a place; a slice core has no banks. -/
def State.bankCheckAt (s : State) (p : Place) : State :=
  match p with
  | .core n => s.bankCheck n
  | .slice _ => s

/-- Cores join those of a launch's queue (R110; DEDUCED, log 50). -/
def State.joinCores (s : State) (q : Nat) (l : List Nat) : State :=
  let x := s.queueOf q
  if l.all x.cores.contains then s else s.setQueue q { x with cores := (x.cores ++ l).dedup }

/-- A thread becomes resident in a slot: the first after a clearing brings the bank launch (R35). -/
def State.enter (s : State) (i : Sid) (x : Slot) : State :=
  let s := s.setSlot i x
  match i.pl with
  | .core n =>
    let s := match s.launch? x.launch with
      | some l => s.joinCores l.queue [n]
      | none => s
    let c := s.core' n
    if c.bankLaunch.isNone then s.setCore n { c with bankLaunch := some x.launch } else s
  | .slice _ => s

-- CFGBANK

/-- The mode of a field of CFGBANK's immediate (R239). -/
def modeOf (m : BitVec 10) (b : Nat) : Option BankMode :=
  match (m.toNat / 4 ^ b) % 4 with
  | 0 => some .cache
  | 1 => some .scratch
  | 2 => some .fifo
  | _ => none

/-- The changes a CFGBANK makes: none for a bank that keeps its mode. -/
def bankChanges (c : CoreSt) (m : BitVec 10) : Vector (Option BankMode) 5 :=
  Vector.ofFn (fun (b : Fin 5) => match modeOf m b.val with
    | some x => if bankModeOf c b.val = x then none else some x
    | none => none)

def Cfg.new (g : Cfg) (b : Nat) : Option BankMode := (g.modes.toList[b]?).join

/-- A bank is leaving a mode. -/
def leaving (c : CoreSt) (g : Cfg) (m : BankMode) (b : Nat) : Bool := (g.new b).isSome && bankModeOf c b == m

/-- How many bytes an engine command writes, and how many of them a checkpoint has behind it (R333, R334, R420). -/
def State.cmdLen (s : State) (k : Cmd) : Nat :=
  let len := (k.cw.extractLsb' 0 32).toNat
  let m := (((tabGet [] s.groups (k.cw.extractLsb' 32 8).toNat)[0]?).getD 0).toNat
  match k.op with
  | 1 => (k.cw.extractLsb' 0 40).toNat
  | 2 => len * 2 ^ (k.cw.extractLsb' 32 3).toNat
  | _ => if k.kind = 1 then m * len else if k.kind = 3 then len / m else len

def Cmd.behind (k : Cmd) : Nat := if k.op = 2 then k.mark * 2 ^ (k.cw.extractLsb' 32 3).toNat else k.mark

/-- Some of the bytes of an engine command still to be written lie in a bank of core n (R430). -/
def State.intoBank (s : State) (n b : Nat) (k : Cmd) : Bool :=
  let off (o : Nat) : Bool := decide (o + k.behind < bankLo (b + 1)) && decide (bankLo b < o + s.cmdLen k) && decide (k.behind < s.cmdLen k)
  match regionOf k.dst.toNat with
  | .own o => k.core == n && off o
  | .core m o => m == n && off o
  | _ => false

/-- A tender's stages lie in a bank (R340, R431). -/
def Tender.inBank (t : Tender) (b : Nat) : Bool :=
  let o := t.base.toNat - apertureOwn
  t.conf && decide (o < bankLo (b + 1)) && decide (bankLo b < o + t.size * t.stages)

def CoreSt.tender (c : CoreSt) (t : Nat) : Tender := (c.tenders.toList[t]?).getD tenderReset
def CoreSt.setTender (c : CoreSt) (t : Nat) (x : Tender) : CoreSt := { c with tenders := c.tenders.setIfInBounds t x }

/-- The tender fault's tval (R435). -/
def tenderTval (t : Nat) (reason : Nat) : Word := BitVec.ofNat 64 (t + reason * 256)

/-- The stage number of a sleeping TWAIT: it names its tender. -/
def twaitStage (t : Nat) : Nat := 16 + t

/-- The thread sleeps in a TWAIT on a tender. -/
def Slot.waitsOn (x : Slot) (t : Nat) : Bool := x.stage == twaitStage t && x.asleep.any (fun z => z.kind == .twait)

/-- A TWAIT on a tender that breaks wakes, and its thread's next turn takes the tender fault with reason 5 (R435). -/
def Slot.tenderBreaks (t : Nat) (x : Slot) : Slot :=
  if x.waitsOn t then { x with asleep := none, stage := 0, sliceTrap := some ⟨cTender, tenderTval t 5, 0, false⟩ } else x

def Saved.tenderBreaks (t : Nat) (r : Saved) : Saved := { r with sl := r.sl.tenderBreaks t }

def Ctx.tenderBreaks (t : Nat) : Ctx → Ctx
  | .saved r => .saved (r.tenderBreaks t)
  | .arrived p => .arrived p

/-- A tender of a core breaks (R435). -/
def CoreSt.breakTender (t : Nat) (c : CoreSt) : CoreSt :=
  { c.setTender t { c.tender t with broken := true } with
    slots := c.slots.map (fun e => (e.1, e.2.tenderBreaks t)),
    rq := c.rq.map (Ctx.tenderBreaks t),
    recs := c.recs.map (fun e => (e.1, e.2.tenderBreaks t)) }

/-- An address of a bank of core n, or of the core it names, that is leaving SCRATCH or is in another mode (R430, R431). -/
def State.bankGone (s : State) (n va : Nat) : Bool :=
  let gone (m o : Nat) : Bool :=
    let b := (o - 0x20000) / 0x10000
    decide (0x20000 ≤ o) && (bankModeOf (s.core' m) b != .scratch || (s.core' m).bankBusy b)
  match regionOf va with
  | .own o => gone n o
  | .core m o => gone m o
  | _ => false

/-- Banks begin to leave SCRATCH: commands into them write no more, and tenders in them break (R430, R431). -/
def State.leaveScratch (s : State) (n : Nat) (g : Cfg) : State :=
  let c := s.core' n
  let bs := (List.range 5).filter (leaving c g .scratch)
  let cut (k : Cmd) : Cmd := if bs.any (fun b => s.intoBank n b k) then { k with cutBank := true } else k
  let s := { s with cmds := s.cmds.map cut }
  s.setCore n (((List.range 16).filter (fun t => bs.any (c.tender t).inBank)).foldl (fun c t => c.breakTender t) c)

/-- CFGBANK (R239): it waits for earlier ones of the core, starts, and holds its thread until CFGBANK_COMPLETE. -/
def execCfgbank (m : BitVec 10) (s : State) : Out := run (do
  needCore
  let s0 ← getS
  let c := s0.at' s0.cur.pl
  if c.bankLaunch ≠ some (s0.slotAt s0.cur).launch then trap cShared s0.word
  if c.cfg.isSome then loseTurn
  let g : Cfg := ⟨s0.cur.k, bankChanges c m⟩
  modCore (fun c => { c with cfg := some g })
  modS (fun s => s.leaveScratch (placeNum s.cur.pl) g)
  holdTurn) s

/-- The receive buffer of each endpoint of a core (R73), with the banks that stay in FIFO mode. -/
def CoreSt.recvBuf (c : CoreSt) : Nat := 16 + 128 * (c.banks.toList.filter (· == .fifo)).length

def CoreSt.recvBufAfter (c : CoreSt) (g : Cfg) : Nat :=
  16 + 128 * ((List.range 5).filter (fun b => bankModeOf c b == .fifo && (g.new b).isNone)).length

/-- The leaving rules allow the change (R74, R239): channel words and allowances fit what remains. R74 does not say which unread
words lie in the bank that leaves: words that fit the remaining buffer lie there (DESIGN CHOICE, log 83). -/
def CoreSt.cfgReady (c : CoreSt) (g : Cfg) : Bool :=
  !((List.range 5).any (leaving c g .fifo)) ||
  c.slots.all (fun x => x.2.eps.toList.all (fun e => decide (e.outst ≤ c.recvBufAfter g)))

/-- The lines that a core's L1 gives up when banks leave CACHE mode: those of these ways, and what no longer fits. -/
def State.shrinkL1 (s : State) (n : Nat) (g : Cfg) : State :=
  let c := s.core' n
  let ways := (List.range 5).filter (fun b => bankModeOf c b == .cache)
  let out := ways.filter (fun b => (g.new b).isSome)
  if out.isEmpty then s
  else
    let gone (l : L1Line) : Bool := out.contains ((ways[Config.l1Bank s.fresh l.line % ways.length]?).getD 0)
    let k := ways.length - out.length
    let keep := (c.l1.filter (fun l => !(gone l))).foldl (fun (acc : List L1Line) l =>
      if (acc.filter (fun x => Config.l1Set x.line % 512 == Config.l1Set l.line % 512)).length < k then acc ++ [l] else acc) []
    let lost := c.l1.filter (fun l => !(keep.any (fun x => x.line == l.line)))
    let s := { s with fresh := s.fresh + 1 }
    let s := lost.foldl (fun s l => s.writeBack (.core n) l) s
    s.setCore n { s.core' n with l1 := keep }

/-- CFGBANK_COMPLETE of core State.subj: the leaving and entering rules have been applied, all changed banks take their
modes at once, and the issuing thread goes on (R74, R239). -/
def execCfgbankComplete (s : State) : Out :=
  let n := s.subj
  let c := s.core' n
  match c.cfg with
  | none => .next s
  | some g =>
    if !(c.cfgReady g) then .next s
    else
      let s := s.shrinkL1 n g
      let c := s.core' n
      let ch := (List.range 5).filter (fun b => (g.new b).isSome)
      let s := s.setCore n { c with
        cfg := none,
        ls := ch.foldl clearBank c.ls,
        banks := Vector.ofFn (fun (b : Fin 5) => (g.new b.val).getD (bankModeOf c b.val)) }
      let i : Sid := ⟨.core n, g.slot⟩
      .next (s.setSlot i (s.slotAt i).advance)

end Sys2Proof.Machine
end

