-- ==== Sys2Proof/Machine/Flags.lean ====
section
/-! DEFINITION. The floating-point state of a thread: sticky flags, rounding mode, flush-to-zero and the format shadow's
fields (R121-R124). Integer instructions compute no flag; compares write predicates (R257). -/

namespace Sys2Proof.Machine

/-- The sticky flags in the layout of status [4:0] (R121). -/
abbrev Flags := BitVec 5

def fNv : Flags := 1
def fDz : Flags := 2
def fOf : Flags := 4
def fUf : Flags := 8
def fNx : Flags := 16

/-- Flags are only ever set here; MTS clears them (R122). -/
def Slot.raiseFlags (x : Slot) (fl : Flags) : Slot := { x with status := x.status ||| fl.setWidth 32 }

/-- status.round: 0 nearest even, 1 toward zero, 2 toward +∞, 3 toward −∞ (R121). -/
def Slot.round (x : Slot) : Nat := (x.status.extractLsb' 5 2).toNat

def Slot.ftz (x : Slot) : Bool := x.status.getLsbD 7

/-- Format shadow fields (R124). -/
def Slot.ovfInf (x : Slot) : Bool := x.fshadow.getLsbD 19

def Slot.palSel (x : Slot) : Nat := (x.fshadow.extractLsb' 16 2).toNat

def Slot.outFmt (x : Slot) : Nat := (x.fshadow.extractLsb' 8 8).toNat

def Slot.inFmt (x : Slot) : Nat := (x.fshadow.extractLsb' 0 8).toNat

end Sys2Proof.Machine
end

