-- ==== Sys2Proof/Machine/Formats.lean ====
section
/-! DEFINITION. Floating-point encodings, exact values, the one rounding of every result, conversions, palettes, and the
correctly rounded transcendental functions (R111-R120, R123, R125-R127, R287, R288, R296). -/

namespace Sys2Proof.Machine

/-- The floating-point encodings (R112) and FP64. -/
inductive Fmt where
  | fp64
  | fp32
  | e8m10
  | bf16
  | fp16
  | e4m3
  | e5m2
  | e3m2
  | e2m3
  | e2m1
  deriving DecidableEq, Repr, Inhabited

/-- Exponent bits. -/
def Fmt.ew : Fmt → Nat
  | .fp64 => 11
  | .fp32 => 8
  | .e8m10 => 8
  | .bf16 => 8
  | .fp16 => 5
  | .e4m3 => 4
  | .e5m2 => 5
  | .e3m2 => 3
  | .e2m3 => 2
  | .e2m1 => 2

/-- Fraction bits. -/
def Fmt.fw : Fmt → Nat
  | .fp64 => 52
  | .fp32 => 23
  | .e8m10 => 10
  | .bf16 => 7
  | .fp16 => 10
  | .e4m3 => 3
  | .e5m2 => 2
  | .e3m2 => 2
  | .e2m3 => 3
  | .e2m1 => 1

def Fmt.bias : Fmt → Int
  | .fp64 => 1023
  | .fp32 => 127
  | .e8m10 => 127
  | .bf16 => 127
  | .fp16 => 15
  | .e4m3 => 7
  | .e5m2 => 15
  | .e3m2 => 3
  | .e2m3 => 1
  | .e2m1 => 1

/-- Unused bits below the fraction: 13 in the E8M10 container (R111). -/
def Fmt.low : Fmt → Nat
  | .e8m10 => 13
  | _ => 0

def Fmt.hasInf : Fmt → Bool
  | .e4m3 => false
  | .e3m2 => false
  | .e2m3 => false
  | .e2m1 => false
  | _ => true

def Fmt.hasNan : Fmt → Bool
  | .e3m2 => false
  | .e2m3 => false
  | .e2m1 => false
  | _ => true

/-- The canonical NaN of R119, above the unused low bits. -/
def Fmt.canonNan : Fmt → Nat
  | .fp64 => 0x7FF8000000000000
  | .fp32 => 0x7FC00000
  | .e8m10 => 0x7FC00000
  | .bf16 => 0x7FC0
  | .fp16 => 0x7E00
  | .e4m3 => 0x7F
  | .e5m2 => 0x7F
  | _ => 0

/-- Bits of an element. -/
def Fmt.bits (f : Fmt) : Nat := 1 + f.ew + f.fw + f.low

/-- The sign bit of a code. -/
def Fmt.signBit (f : Fmt) : Nat := 2 ^ (f.bits - 1)

/-- The magnitude code of infinity, above the unused low bits. -/
def Fmt.infMag (f : Fmt) : Nat := (2 ^ f.ew - 1) * 2 ^ f.fw

/-- The magnitude code of the largest finite value, above the unused low bits (R112). -/
def Fmt.maxMag (f : Fmt) : Nat :=
  if f.hasInf then f.infMag - 1
  else if f.hasNan then f.infMag + 2 ^ f.fw - 2
  else f.infMag + 2 ^ f.fw - 1

/-- The exponent of the last place of a subnormal. -/
def Fmt.lsb (f : Fmt) : Int := 1 - f.bias - f.fw

/-- An exact value: NaN, an infinity, or ±m × 2^e; `neg` keeps the sign of a zero. -/
inductive Fl where
  | nan
  | inf (neg : Bool)
  | fin (neg : Bool) (m : Nat) (e : Int)
  deriving DecidableEq, Repr, Inhabited

def Fmt.sign (f : Fmt) (c : Nat) : Bool := c / f.signBit % 2 == 1

/-- The magnitude code, above the unused low bits. -/
def Fmt.mag (f : Fmt) (c : Nat) : Nat := c % f.signBit / 2 ^ f.low

def Fmt.expo (f : Fmt) (c : Nat) : Nat := f.mag c / 2 ^ f.fw

def Fmt.frac (f : Fmt) (c : Nat) : Nat := f.mag c % 2 ^ f.fw

/-- The value of a code (R111, R112). -/
def Fmt.val (f : Fmt) (c : Nat) : Fl :=
  if f.hasInf && f.expo c == 2 ^ f.ew - 1 then
    (if f.frac c = 0 then .inf (f.sign c) else .nan)
  else if f.hasNan && !f.hasInf && f.mag c == f.maxMag + 1 then .nan
  else if f.expo c = 0 then .fin (f.sign c) (f.frac c) f.lsb
  else .fin (f.sign c) (2 ^ f.fw + f.frac c) (f.expo c - f.bias - f.fw)

/-- The value as an input under ftz: a subnormal reads as zero of its sign (R123) (DEDUCED, log 27). -/
def Fmt.input (f : Fmt) (ftz : Bool) (c : Nat) : Fl :=
  if ftz && f.expo c == 0 then .fin (f.sign c) 0 f.lsb else f.val c

/-- A code with a sign. -/
def Fmt.code (f : Fmt) (neg : Bool) (mag : Nat) : Nat := (if neg then f.signBit else 0) + mag * 2 ^ f.low

def Fmt.nan (f : Fmt) : Nat := f.canonNan

def Fmt.inf (f : Fmt) (neg : Bool) : Nat := f.code neg f.infMag

def Fmt.zero (f : Fmt) (neg : Bool) : Nat := f.code neg 0

/-- m / 2^k rounded by a mode, and whether it was inexact (R117). -/
def roundShift (mode : Nat) (neg : Bool) (m k : Nat) : Nat × Bool :=
  let q := m / 2 ^ k
  let r := m % 2 ^ k
  let up := match mode with
    | 0 => decide (2 ^ k < 2 * r) || (2 * r == 2 ^ k && q % 2 == 1)
    | 1 => false
    | 2 => r != 0 && !neg
    | _ => r != 0 && neg
  (if up then q + 1 else q, r != 0)

/-- m × 2^e as a multiple of 2^q, rounded. -/
def roundAt (mode : Nat) (neg : Bool) (m : Nat) (e q : Int) : Nat × Bool :=
  if q ≤ e then (m * 2 ^ (e - q).toNat, false) else roundShift mode neg m (q - e).toNat

/-- What overflow gives: as IEEE 754, or the narrow rule with ovf_inf (R118). -/
inductive Ovf where
  | ieee
  | narrow (ovfInf : Bool)
  deriving DecidableEq, Repr, Inhabited

/-- Overflow gives an infinity (R118). -/
def Ovf.toInf (o : Ovf) (f : Fmt) (mode : Nat) (neg : Bool) : Bool :=
  match o with
  | .ieee => f.hasInf && (mode == 0 || (mode == 2 && !neg) || (mode == 3 && neg))
  | .narrow b => b && f.hasInf

/-- The one rounding of an exact finite value into a format, with its flags (R117, R118, R123). -/
def Fmt.pack (f : Fmt) (mode : Nat) (ftz : Bool) (o : Ovf) (neg : Bool) (m : Nat) (e : Int) : Nat × Flags :=
  if m = 0 then (f.zero neg, 0)
  else
    let q0 : Int := e + (Nat.log2 m + 1 : Nat) - (f.fw + 1 : Nat)
    let q : Int := if q0 < f.lsb then f.lsb else q0
    let (r, ix) := roundAt mode neg m e q
    let mag := (q - f.lsb).toNat * 2 ^ f.fw + r
    let tiny := decide (q0 < f.lsb) && !(q0 == f.lsb - 1 && (roundAt mode neg m e q0).1 == 2 ^ (f.fw + 1))
    if f.maxMag < mag then
      (f.code neg (if o.toInf f mode neg then f.infMag else f.maxMag), fOf ||| fNx)
    else if ftz && decide (0 < mag) && decide (mag < 2 ^ f.fw) then (f.zero neg, fUf ||| fNx)
    else (f.code neg mag, (if ix then fNx else 0) ||| (if ix && tiny then fUf else 0))

/-- A value into a format (R117-R119). -/
def Fmt.conv (f : Fmt) (mode : Nat) (ftz : Bool) (o : Ovf) (v : Fl) : Nat × Flags :=
  match v with
  | .nan => if f.hasNan then (f.nan, 0) else (0, fNv)
  | .inf s => if f.hasInf then (f.inf s, 0) else (f.code s f.maxMag, fNv)
  | .fin s m e => f.pack mode ftz o s m e

/-- Convert into a float target: IEEE overflow into FP32 and FP64, the narrow rule elsewhere (R118). -/
def Fmt.convert (f : Fmt) (mode : Nat) (ftz ovfInf : Bool) (v : Fl) : Nat × Flags :=
  f.conv mode ftz (if f = .fp32 ∨ f = .fp64 then .ieee else .narrow ovfInf) v

/-- Convert into an integer range, rounded then saturated (R119, R120). -/
def toInt (mode : Nat) (lo hi : Int) (v : Fl) : Int × Flags :=
  match v with
  | .nan => (0, fNv)
  | .inf s => (if s then lo else hi, fNv)
  | .fin s m e =>
    let (r, ix) := roundAt mode s m e 0
    let n : Int := if s then -(r : Int) else r
    if n < lo then (lo, fNv) else if hi < n then (hi, fNv) else (n, if ix then fNx else 0)

-- exact arithmetic

/-- The signed mantissa of a finite value at exponent `e0`, which is at most its own. -/
def Fl.atExp (v : Fl) (e0 : Int) : Int :=
  match v with
  | .fin s m e => (if s then -1 else 1) * ((m * 2 ^ (e - e0).toNat : Nat) : Int)
  | _ => 0

def Fl.expo (v : Fl) : Int :=
  match v with
  | .fin _ _ e => e
  | _ => 0

def Fl.isNan (v : Fl) : Bool :=
  match v with
  | .nan => true
  | _ => false

def Fl.isInf (v : Fl) (s : Bool) : Bool :=
  match v with
  | .inf t => t == s
  | _ => false

def Fl.isZero (v : Fl) : Bool :=
  match v with
  | .fin _ 0 _ => true
  | _ => false

def Fl.neg (v : Fl) : Bool :=
  match v with
  | .nan => false
  | .inf s => s
  | .fin s _ _ => s

def Fl.negate (v : Fl) : Fl :=
  match v with
  | .nan => .nan
  | .inf s => .inf (!s)
  | .fin s m e => .fin (!s) m e

/-- An integer as an exact value. -/
def Fl.ofInt (n : Int) : Fl := .fin (decide (n < 0)) n.natAbs 0

/-- The exact sum of terms (R287, R301, R131): both infinities raise invalid, beside a NaN too; an exact zero is +0, −0
toward −∞, and keeps the sign that terms all zero share (DEDUCED, log 26). -/
def sumFl (mode : Nat) (l : List Fl) : Fl × Flags :=
  if l.any (fun v => v.isInf true) && l.any (fun v => v.isInf false) then (.nan, fNv)
  else if l.any Fl.isNan then (.nan, 0)
  else if l.any (fun v => v.isInf true) then (.inf true, 0)
  else if l.any (fun v => v.isInf false) then (.inf false, 0)
  else
    let e0 : Int := l.foldl (fun (a : Int) v => if v.expo < a then v.expo else a) 0
    let t : Int := l.foldl (fun (a : Int) v => a + v.atExp e0) 0
    if t = 0 then
      if l.all (fun v => v.isZero && v.neg) && !l.isEmpty then (.fin true 0 0, 0)
      else if l.all (fun v => v.isZero && !v.neg) then (.fin false 0 0, 0)
      else (.fin (mode == 3) 0 0, 0)
    else (.fin (decide (t < 0)) t.natAbs e0, 0)

/-- The exact product (R287). -/
def mulFl (x y : Fl) : Fl × Flags :=
  match x, y with
  | .nan, _ => (.nan, 0)
  | _, .nan => (.nan, 0)
  | .inf s, .inf t => (.inf (s != t), 0)
  | .inf s, .fin t m _ => if m = 0 then (.nan, fNv) else (.inf (s != t), 0)
  | .fin s m _, .inf t => if m = 0 then (.nan, fNv) else (.inf (s != t), 0)
  | .fin s m e, .fin t n f => (.fin (s != t) (m * n) (e + f), 0)

/-- A value strictly between m × 2^e and (m + 1) × 2^e, where `sticky`: it rounds as the middle does. -/
def jam (neg sticky : Bool) (m : Nat) (e : Int) : Fl :=
  if sticky then .fin neg (2 * m + 1) (e - 1) else .fin neg m e

/-- The quotient (R287), kept to more bits than any format holds. -/
def divFl (x y : Fl) : Fl × Flags :=
  match x, y with
  | .nan, _ => (.nan, 0)
  | _, .nan => (.nan, 0)
  | .inf _, .inf _ => (.nan, fNv)
  | .inf s, .fin t _ _ => (.inf (s != t), 0)
  | .fin s _ _, .inf t => (.fin (s != t) 0 0, 0)
  | .fin s m e, .fin t n f =>
    if n = 0 then (if m = 0 then (.nan, fNv) else (.inf (s != t), fDz))
    else
      let k := 64 + Nat.log2 n
      (jam (s != t) (m * 2 ^ k % n != 0) (m * 2 ^ k / n) (e - f - k), 0)

/-- Integer square root of a number below 4^n, by binary digits. -/
def isqrt (x : Nat) : Nat → Nat → Nat
  | r, 0 => r
  | r, n + 1 => isqrt x (if (r + 2 ^ n) * (r + 2 ^ n) ≤ x then r + 2 ^ n else r) n

/-- The square root (R287, R296). -/
def sqrtFl (x : Fl) : Fl × Flags :=
  match x with
  | .nan => (.nan, 0)
  | .inf s => if s then (.nan, fNv) else (.inf false, 0)
  | .fin s m e =>
    if m = 0 then (.fin s 0 0, 0)
    else if s then (.nan, fNv)
    else
      let k := 128 + (e % 2).toNat
      let big := m * 2 ^ k
      let r := isqrt big 0 (Nat.log2 big / 2 + 1)
      (jam false (r * r != big) r ((e - k) / 2), 0)

/-- 1/a (R296). -/
def rcpFl (x : Fl) : Fl × Flags := divFl (.fin false 1 0) x

/-- 1/√a (R296). -/
def rsqFl (x : Fl) : Fl × Flags :=
  match x with
  | .nan => (.nan, 0)
  | .inf s => if s then (.nan, fNv) else (.fin false 0 0, 0)
  | .fin s m e =>
    if m = 0 then (.inf s, fDz)
    else if s then (.nan, fNv)
    else
      let m' := m * 2 ^ (e % 2).toNat
      let e' := e - e % 2
      let k := Nat.log2 m' + 70
      let n := 2 ^ (2 * k) / m'
      let r := isqrt n 0 (Nat.log2 n / 2 + 1)
      (jam false (2 ^ (2 * k) % m' != 0 || r * r != n) r (-(k : Int) - e' / 2), 0)

/-- Order of two values that are not NaN, with −0 below +0 (R288). -/
def ltFl (x y : Fl) : Bool :=
  match x, y with
  | .inf s, .inf t => s && !t
  | .inf s, .fin _ _ _ => s
  | .fin _ _ _, .inf t => !t
  | .fin s m e, .fin t n f =>
    let e0 := if e < f then e else f
    let a := Fl.atExp (.fin s m e) e0
    let b := Fl.atExp (.fin t n f) e0
    decide (a < b) || (a == b && m == 0 && s && !t)
  | _, _ => false

/-- Equality of two values that are not NaN; −0 equals +0 (R292). -/
def eqFl (x y : Fl) : Bool := !(ltFl x y) && !(ltFl y x) || (x.isZero && y.isZero)

/-- FMIN and FMAX on values (R288). -/
def minFl (x y : Fl) : Fl := if x.isNan then y else if y.isNan then x else if ltFl y x then y else x

def maxFl (x y : Fl) : Fl := if x.isNan then y else if y.isNan then x else if ltFl x y then y else x

/-- The comparisons of FCMP (R292): the result and its flags. -/
def fltCond (c : BitVec 3) (x y : Fl) : Bool × Flags :=
  if x.isNan || y.isNan then
    (c == 1 || c == 6, if c == 2 || c == 3 || c == 4 || c == 5 then fNv else 0)
  else
    (match c.toNat with
     | 0 => eqFl x y
     | 1 => !(eqFl x y)
     | 2 => ltFl x y && !(eqFl x y)
     | 3 => ltFl x y || eqFl x y
     | 4 => ltFl y x && !(eqFl x y)
     | 5 => ltFl y x || eqFl x y
     | _ => false, 0)

-- transcendental functions (R296): bounds at scale 2^n, until both bounds round alike

/-- The sum over k of ⌊2^n / (k 2^k)⌋, k from 1: below ln 2. -/
def ln2Lo (n : Nat) : Nat → Nat
  | 0 => 0
  | k + 1 => ln2Lo n k + 2 ^ n / ((k + 1) * 2 ^ (k + 1))

/-- Bounds of ln 2 at scale 2^n. -/
def ln2 (n : Nat) : Nat × Nat := (ln2Lo n n, ln2Lo n n + n + 2)

/-- Taylor terms of exp, rounded down: `t` is the last term, k its number. -/
def expLo (n y : Nat) : Nat → Nat → Nat → Nat
  | 0, _, _ => 0
  | fuel + 1, k, t => t + expLo n y fuel (k + 1) (t * y / (2 ^ n * (k + 1)))

/-- Taylor terms of exp, rounded up, with the tail. -/
def expHi (n y : Nat) : Nat → Nat → Nat → Nat
  | 0, _, t => 2 * t
  | fuel + 1, k, t => t + expHi n y fuel (k + 1) (t * y / (2 ^ n * (k + 1)) + 1)

/-- Bounds of exp at scale 2^n for an argument between bounds below 1. -/
def expBounds (n ylo yhi : Nat) : Nat × Nat :=
  (expLo n ylo (n / 4 + 16) 0 (2 ^ n), expHi n yhi (n / 4 + 16) 0 (2 ^ n))

/-- Square bounds k times, at scale 2^n. -/
def squares (n : Nat) : Nat → Nat × Nat → Nat × Nat
  | 0, b => b
  | k + 1, b => squares n k (b.1 * b.1 / 2 ^ n, b.2 * b.2 / 2 ^ n + 1)

/-- Terms of atanh z from the power z^(2k+1), rounded down, or up with the tail. -/
def atanhSum (n zz up : Nat) : Nat → Nat → Nat → Nat
  | 0, _, t => up * 2 * t
  | fuel + 1, k, t => t / (2 * k + 1) + up + atanhSum n zz up fuel (k + 1) (t * zz / 2 ^ n + up)

/-- The rounding that a value strictly between lo × 2^e and hi × 2^e has, when both ends agree. -/
def agree (f : Fl → Nat × Flags) (neg : Bool) (lo hi : Nat) (e : Int) : Option (Nat × Flags) :=
  let a := f (.fin neg (2 * lo + 1) (e - 1))
  let b := f (.fin neg (2 * hi - 1) (e - 1))
  if a = b then some a else none

/-- The first precision at which bounds agree. -/
def firstAgree (g : Nat → Option (Nat × Flags)) : List Nat → Option (Nat × Flags)
  | [] => none
  | n :: l => match g n with
    | some r => some r
    | none => firstAgree g l

def precisions : List Nat := [192, 384, 768, 1536]

/-- 2^a for a finite a, not zero, rounded by `f`; none when no precision decides (DEDUCED, log 7). -/
def exp2Fin (f : Fl → Nat × Flags) (s : Bool) (m : Nat) (e : Int) : Option (Nat × Flags) :=
  if 14 < e + (Nat.log2 m : Nat) then some (f (.fin false 1 (if s then -40000 else 40000)))
  else
    let x (n : Nat) : Int × Bool :=   -- ⌊a 2^n⌋ and whether it is exact
      let t : Int := (if s then -1 else 1) * (m : Int)
      if 0 ≤ e + n then (t * 2 ^ (e + n).toNat, true)
      else (t / 2 ^ (-(e + n)).toNat, t % 2 ^ (-(e + n)).toNat == 0)
    if (x 0).2 then some (f (.fin false 1 (x 0).1))
    else firstAgree (fun n =>
      let p : Int := (x 0).1
      let fr := ((x n).1 - p * 2 ^ n).toNat
      let b := expBounds n (fr * (ln2 n).1 / 2 ^ n) ((fr + (if (x n).2 then 0 else 1)) * (ln2 n).2 / 2 ^ n + 1)
      agree f false b.1 b.2 (p - n)) precisions

/-- log2 a for a finite positive a = m × 2^e. -/
def log2Fin (f : Fl → Nat × Flags) (m : Nat) (e : Int) : Option (Nat × Flags) :=
  let k := Nat.log2 m
  let p : Int := e + (k : Nat)
  if m = 2 ^ k then some (f (.ofInt p))
  else firstAgree (fun n =>
    let num := (m - 2 ^ k) * 2 ^ n
    let den := m + 2 ^ k
    let zlo := num / den
    let zhi := num / den + 1
    let lo := 2 * atanhSum n (zlo * zlo / 2 ^ n) 0 n 0 zlo * 2 ^ n / (ln2 n).2
    let hi := 2 * atanhSum n (zhi * zhi / 2 ^ n + 1) 1 n 0 zhi * 2 ^ n / (ln2 n).1 + 1
    if 0 ≤ p then agree f false (p.toNat * 2 ^ n + lo) (p.toNat * 2 ^ n + hi) (-(n : Int))
    else agree f true ((-p).toNat * 2 ^ n - hi) ((-p).toNat * 2 ^ n - lo) (-(n : Int))) precisions

/-- exp(−t) for a finite positive t = m × 2^e (R304). -/
def expNegFin (f : Fl → Nat × Flags) (m : Nat) (e : Int) : Option (Nat × Flags) :=
  if 8 < e + (Nat.log2 m : Nat) then some (f (.fin false 1 (-40000)))
  else firstAgree (fun n =>
    let y (up : Nat) : Nat :=
      if 0 ≤ e + n - 10 then m * 2 ^ (e + n - 10).toNat
      else m / 2 ^ (-(e + n - 10)).toNat + up
    let b := squares n 10 (expBounds n (y 0) (y 1))
    agree f false (2 ^ (3 * n) / b.2) (2 ^ (3 * n) / b.1 + 1) (-(2 * n : Int))) precisions

/-- VEXP2 and VLOG2 (R296): `f` rounds. -/
def exp2Fl (f : Fl → Nat × Flags) (x : Fl) : Option (Nat × Flags) :=
  match x with
  | .nan => some (f .nan)
  | .inf s => some (f (if s then .fin false 0 0 else .inf false))
  | .fin s m e => if m = 0 then some (f (.fin false 1 0)) else exp2Fin f s m e

def log2Fl (f : Fl → Nat × Flags) (x : Fl) : Option (Nat × Flags) :=
  match x with
  | .nan => some (f .nan)
  | .inf s => if s then some ((f .nan).1, fNv) else some (f (.inf false))
  | .fin s m e =>
    if m = 0 then some ((f (.inf true)).1, fDz)
    else if s then some ((f .nan).1, fNv)
    else log2Fin f m e

-- format codes (R113, R114)

/-- The element encodings of the format codes. -/
inductive Elem where
  | flt (f : Fmt)
  | int (w : Nat) (signed : Bool)
  | pal
  deriving DecidableEq, Repr, Inhabited

def elemOf : Nat → Option Elem
  | 0 => some (.flt .fp32)
  | 1 => some (.flt .e8m10)
  | 2 => some (.flt .bf16)
  | 3 => some (.flt .fp16)
  | 4 => some (.flt .e4m3)
  | 5 => some (.flt .e5m2)
  | 6 => some (.flt .e3m2)
  | 7 => some (.flt .e2m3)
  | 8 => some (.flt .e2m1)
  | 9 => some (.int 8 true)
  | 10 => some (.int 8 false)
  | 11 => some (.int 4 true)
  | 12 => some (.int 4 false)
  | 13 => some .pal
  | _ => none

/-- The 28 format codes (R114). -/
def fmtCodes : List Nat :=
  [0x00, 0x04, 0x08, 0x0C, 0x10, 0x11, 0x12, 0x13, 0x14, 0x15, 0x16, 0x17, 0x18, 0x19, 0x1B, 0x1C, 0x1D, 0x1F, 0x21,
   0x23, 0x25, 0x26, 0x27, 0x29, 0x2E, 0x2F, 0x33, 0x34]

/-- The element of a valid format code (R115). -/
def fmtElem (code : Nat) : Option Elem := if fmtCodes.contains code then elemOf (code / 4) else none

/-- Bits of an element, which is its width class (R114). -/
def Elem.bits : Elem → Nat
  | .flt f => f.bits
  | .int w _ => w
  | .pal => 8

/-- Element i of packed elements of w bits (R113). -/
def elemAt (w : Nat) (bytes : List Byte) (i : Nat) : Nat :=
  (ofBytes ((bytes.drop (i * w / 8)).take ((i * w % 8 + w + 7) / 8))) / 2 ^ (i * w % 8) % 2 ^ w

/-- The signed value of an integer code. -/
def intVal (w : Nat) (signed : Bool) (c : Nat) : Int :=
  if signed && decide (2 ^ (w - 1) ≤ c % 2 ^ w) then (c % 2 ^ w : Nat) - (2 ^ w : Nat) else (c % 2 ^ w : Nat)

/-- The range of an integer type. -/
def intRange (w : Nat) (signed : Bool) : Int × Int :=
  if signed then (-(2 ^ (w - 1) : Nat), (2 ^ (w - 1) : Nat) - 1) else (0, (2 ^ w : Nat) - 1)

/-- An integer's code in w bits. -/
def intCode (w : Nat) (n : Int) : Nat := (n % (2 ^ w : Nat)).toNat

/-- Entry i of a palette as an exact value. -/
def Palette.entry (p : Palette) (i : Nat) : Fl := Fmt.e8m10.val ((p.p.toList[i]?).getD 0).toNat

/-- A PAL8 code's value (R126). -/
def Palette.dec (p : Palette) (c : Nat) : Fl :=
  if p.nan7f && c % 128 == 127 then .nan
  else if 128 ≤ c % 256 then (p.entry (c % 128)).negate else p.entry (c % 128)

/-- First index in [lo, hi] whose entry is at least m (R127). -/
def Palette.search (p : Palette) (m : Fl) : Nat → Nat → Nat → Nat
  | 0, lo, _ => lo
  | n + 1, lo, hi =>
    if lo < hi then
      if ltFl (p.entry ((lo + hi) / 2)) m then p.search m n ((lo + hi) / 2 + 1) hi
      else p.search m n lo ((lo + hi) / 2)
    else p.search m n lo hi

/-- ENC8 of a value (R127). -/
def Palette.enc (p : Palette) (x : Fl) : Nat × Flags :=
  match x with
  | .nan => if p.nan7f then (0x7F, 0) else (0, fNv)
  | _ =>
    let m : Fl := if x.neg then x.negate else x
    let top := if p.nan7f then 126 else 127
    let k0 := p.search m 7 0 top
    let k :=
      if k0 = 0 then 0
      else
        let dl := (sumFl 0 [m, (p.entry (k0 - 1)).negate]).1
        let dh := (sumFl 0 [p.entry k0, m.negate]).1
        if ltFl dl dh || (eqFl dl dh && (k0 - 1) % 2 == 0) then k0 - 1 else k0
    let fl := if x.isInf true || x.isInf false then fNv
      else if ltFl (p.entry top) m then fOf ||| fNx
      else if eqFl (p.entry k) m then 0 else fNx
    ((if x.neg then 128 else 0) + k, fl)

/-- The exact value of an element (R126, R130). -/
def Elem.dec (e : Elem) (p : Palette) (c : Nat) : Fl :=
  match e with
  | .flt f => f.val c
  | .int w sg => .ofInt (intVal w sg c)
  | .pal => p.dec c

/-- A value converted into an element (R117-R120, R127). -/
def Elem.enc (e : Elem) (p : Palette) (mode : Nat) (ftz ovfInf : Bool) (v : Fl) : Nat × Flags :=
  match e with
  | .flt f => f.convert mode ftz ovfInf v
  | .int w sg =>
    let r := toInt mode (intRange w sg).1 (intRange w sg).2 v
    (intCode w r.1, r.2)
  | .pal => p.enc v

/-- The entries of a palette break R125 first at this index. A −0 at index 0 is a zero and no negative entry (DESIGN CHOICE,
log 72). -/
def palFault (p : List Nat) (nan7f : Bool) : Option Nat :=
  let v (i : Nat) : Fl := Fmt.e8m10.val ((p[i]?).getD 0)
  (List.range 128).find? (fun i =>
    if nan7f && i == 127 then false
    else
      match v i with
      | .nan => true
      | .inf _ => true
      | .fin s m _ => (s && m != 0) || (i != 0 && (m == 0 || !(ltFl (v (i - 1)) (v i)))))

end Sys2Proof.Machine
end

