-- ==== Sys2Proof/Machine/Float.lean ====
section
/-! DEFINITION. Scalar floating point (R285-R292). -/

namespace Sys2Proof.Machine

/-- The format of a type code less 4 (R205). -/
def fmtOf (ty : BitVec 2) : Fmt :=
  match ty.toNat with
  | 0 => .fp64
  | 1 => .fp32
  | 2 => .fp16
  | _ => .bf16

/-- The operand's code in the low bits of a register (R285). -/
def lowCode (f : Fmt) (v : Word) : Nat := v.toNat % 2 ^ f.bits

/-- An exact result with flags, rounded into a format as arithmetic (R117, R118). -/
def roundRes (f : Fmt) (mode : Nat) (ftz : Bool) (r : Fl × Flags) : Nat × Flags :=
  let p := f.conv mode ftz .ieee r.1
  (p.1, r.2 ||| p.2)

/-- Write a scalar result and raise its flags (R122, R285). -/
def fwrite (k : Nat) (d : Fld) (r : Nat × Flags) : M Unit := do
  modSlot (fun x => x.raiseFlags r.2)
  wg k d (BitVec.ofNat 64 r.1)

/-- d := g(x, y), rounded once (R287). -/
def farith (k : Nat) (o : FOp) (g : Nat → Fl → Fl → Fl × Flags) (s : State) : Out := run (do
  prep [.dst o.d, .src o.a, .src o.b]
  let x ← rg o.a
  let y ← rg o.b
  let t ← slot
  let f := fmtOf o.ty
  fwrite k o.d (roundRes f t.round t.ftz (g t.round (f.input t.ftz (lowCode f x)) (f.input t.ftz (lowCode f y))))
  done) s

def execFadd (o : FOp) (s : State) : Out := farith 4 o (fun mode x y => sumFl mode [x, y]) s
def execFsub (o : FOp) (s : State) : Out := farith 4 o (fun mode x y => sumFl mode [x, y.negate]) s
def execFmul (o : FOp) (s : State) : Out := farith 6 o (fun _ x y => mulFl x y) s
def execFdiv (o : FOp) (s : State) : Out := farith 8 o (fun _ x y => divFl x y) s

/-- FMIN and FMAX: no flag, ftz on the inputs (R288). -/
def execFmin (o : FOp) (s : State) : Out := farith 4 o (fun _ x y => (minFl x y, 0)) s
def execFmax (o : FOp) (s : State) : Out := farith 4 o (fun _ x y => (maxFl x y, 0)) s

/-- x × y + z (R287). -/
def fmaFl (mode : Nat) (x y z : Fl) : Fl × Flags :=
  let p := mulFl x y
  let r := sumFl mode [p.1, z]
  (r.1, p.2 ||| r.2)

def execFfma (o : FOp) (c : BitVec 6) (s : State) : Out := run (do
  prep [.dst o.d, .src o.a, .src o.b, .src (plain c)]
  let x ← rg o.a
  let y ← rg o.b
  let z ← rg (plain c)
  let t ← slot
  let f := fmtOf o.ty
  let v (w : Word) : Fl := f.input t.ftz (lowCode f w)
  fwrite 6 o.d (roundRes f t.round t.ftz (fmaFl t.round (v x) (v y) (v z)))
  done) s

def execFsqrt (o : FUn) (s : State) : Out := run (do
  prep [.dst o.d, .src o.a]
  let x ← rg o.a
  let t ← slot
  let f := fmtOf o.ty
  fwrite 8 o.d (roundRes f t.round t.ftz (sqrtFl (f.input t.ftz (lowCode f x))))
  done) s

/-- The magnitude of x, or the canonical NaN's, with a sign (R289). -/
def withSign (f : Fmt) (x : Nat) (neg : Bool) : Nat :=
  if (f.val x).isNan then f.code neg f.canonNan else f.code neg (f.mag x)

/-- FSGN (R289). -/
def execFsgn (o : FOp) (mode : BitVec 2) (s : State) : Out := run (do
  prep [.dst o.d, .src o.a, .src o.b]
  let x ← rg o.a
  let y ← rg o.b
  let f := fmtOf o.ty
  let sx := f.sign (lowCode f x)
  let sy := f.sign (lowCode f y)
  let neg := if mode = 0 then sy else if mode = 1 then !sy else sx != sy
  wg 4 o.d (BitVec.ofNat 64 (withSign f (lowCode f x) neg))
  done) s

/-- The bit of FCLASS (R290). -/
def classBit (f : Fmt) (c : Nat) : Nat :=
  match f.val c with
  | .nan => 8
  | .inf s => if s then 0 else 7
  | .fin s m _ =>
    if m = 0 then (if s then 3 else 4)
    else if f.expo c = 0 then (if s then 2 else 5)
    else (if s then 1 else 6)

def execFclass (o : FUn) (s : State) : Out := run (do
  prep [.dst o.d, .src o.a]
  let x ← rg o.a
  let f := fmtOf o.ty
  wg 4 o.d (1#64 <<< classBit f (lowCode f x))
  done) s

/-- The width of an integer type code 0 to 3 (R205). -/
def intWidth (ty : Nat) : Nat := 64 / 2 ^ (ty % 4)

/-- FCVT (R291). -/
def execFcvt (o : FUn) (tgt : BitVec 3) (unsT : Bool) (s : State) : Out := run (do
  prep [.dst o.d, .src o.a]
  let x ← rg o.a
  let t ← slot
  let f := fmtOf o.ty
  let v := f.input t.ftz (lowCode f x)
  if tgt.toNat < 4 then do
    let w := intWidth tgt.toNat
    let r := toInt t.round (intRange w (!unsT)).1 (intRange w (!unsT)).2 v
    modSlot (fun x => x.raiseFlags r.2)
    wg 4 o.d (BitVec.ofInt 64 r.1)
  else
    fwrite 4 o.d ((fmtOf (tgt.setWidth 2)).convert t.round t.ftz t.ovfInf v)
  done) s

/-- FCMP (R292). -/
def execFcmp (p : BitVec 4) (cond : BitVec 3) (ty : BitVec 2) (a b : Fld) (s : State) : Out := run (do
  prep [.pw, .src a, .src b]
  let x ← rg a
  let y ← rg b
  let t ← slot
  let f := fmtOf ty
  let r := fltCond cond (f.input t.ftz (lowCode f x)) (f.input t.ftz (lowCode f y))
  modSlot (fun z => (z.raiseFlags r.2).setPred p r.1)
  done) s

end Sys2Proof.Machine
end

