-- ==== Sys2Proof/Machine/Integer.lean ====
section
/-! DEFINITION. Integer arithmetic, work identifiers, predicates and compares (R227, R246-R259). -/

namespace Sys2Proof.Machine

/-- Raise an exact trap from the state in which the instruction was tried: no channel word is taken (R405). -/
def trapFrom {α : Type} (s0 : State) (cause : BitVec 16) (tval : Word) : M α := fun _ => trap cause tval s0

/-- d := f(Gpr(a), Gpr(b)) with latency k (R227, R246). -/
def alu3 (k : Nat) (o : DAB) (f : Word → Word → Word) (s : State) : Out := run (do
  prep [.dst o.d, .src o.a, .src o.b]
  let x ← rg o.a
  let y ← rg o.b
  wg k o.d (f x y)
  done) s

/-- d := f(Gpr(a)) with k = 4. -/
def alu2 (o : DA) (f : Word → Word) (s : State) : Out := run (do
  prep [.dst o.d, .src o.a]
  let x ← rg o.a
  wg 4 o.d (f x)
  done) s

/-- d := f(Gpr(a)) for the plain fields of the I format. -/
def aluI (k : Nat) (d a : BitVec 6) (f : Word → Word) (s : State) : Out := run (do
  prep [.dst (plain d), .src (plain a)]
  let x ← rg (plain a)
  wg k (plain d) (f x)
  done) s

/-- A division: y = 0 raises the integer-divide trap with tval := x and writes nothing (R247). -/
def divide (o : DAB) (f : Word → Word → Word) (s : State) : Out := run (do
  prep [.dst o.d, .src o.a, .src o.b]
  let s0 ← getS
  let x ← rg o.a
  let y ← rg o.b
  if y = 0 then trapFrom s0 cDivide x
  wg 7 o.d (f x y)
  done) s

/-- High half of the unsigned product (R246). -/
def mulHighU (x y : Word) : Word := BitVec.ofNat 64 (x.toNat * y.toNat / 2 ^ 64)

/-- High half of the signed product (R246). -/
def mulHighS (x y : Word) : Word := BitVec.ofInt 64 (x.toInt * y.toInt / 2 ^ 64)

def signedMin (x y : Word) : Word := if x.slt y then x else y
def signedMax (x y : Word) : Word := if x.slt y then y else x
def unsignedMin (x y : Word) : Word := if x.ult y then x else y
def unsignedMax (x y : Word) : Word := if x.ult y then y else x

def execAdd (o : DAB) (s : State) : Out := alu3 4 o (fun x y => x + y) s
def execSub (o : DAB) (s : State) : Out := alu3 4 o (fun x y => x - y) s
def execMul (o : DAB) (s : State) : Out := alu3 6 o (fun x y => x * y) s
def execMulh (o : DAB) (s : State) : Out := alu3 6 o mulHighS s
def execMulhu (o : DAB) (s : State) : Out := alu3 6 o mulHighU s
/-- DIV: truncated toward zero; −2^63 ÷ −1 gives −2^63 (R246, R247). -/
def execDiv (o : DAB) (s : State) : Out := divide o (fun x y => BitVec.ofInt 64 (x.toInt.tdiv y.toInt)) s
def execDivu (o : DAB) (s : State) : Out := divide o (fun x y => x / y) s
/-- REM: the sign of sx (R246). -/
def execRem (o : DAB) (s : State) : Out := divide o (fun x y => BitVec.ofInt 64 (x.toInt.tmod y.toInt)) s
def execRemu (o : DAB) (s : State) : Out := divide o (fun x y => x % y) s
def execAnd (o : DAB) (s : State) : Out := alu3 4 o (fun x y => x &&& y) s
def execOr (o : DAB) (s : State) : Out := alu3 4 o (fun x y => x ||| y) s
def execXor (o : DAB) (s : State) : Out := alu3 4 o (fun x y => x ^^^ y) s
def execAndn (o : DAB) (s : State) : Out := alu3 4 o (fun x y => x &&& ~~~y) s
def execSll (o : DAB) (s : State) : Out := alu3 4 o (fun x y => x <<< (y.toNat % 64)) s
def execSrl (o : DAB) (s : State) : Out := alu3 4 o (fun x y => x >>> (y.toNat % 64)) s
def execSra (o : DAB) (s : State) : Out := alu3 4 o (fun x y => x.sshiftRight (y.toNat % 64)) s
def execMin (o : DAB) (s : State) : Out := alu3 4 o signedMin s
def execMax (o : DAB) (s : State) : Out := alu3 4 o signedMax s
def execMinu (o : DAB) (s : State) : Out := alu3 4 o unsignedMin s
def execMaxu (o : DAB) (s : State) : Out := alu3 4 o unsignedMax s
def execAddw (o : DAB) (s : State) : Out := alu3 4 o (fun x y => ((x + y).setWidth 32).signExtend 64) s
def execSubw (o : DAB) (s : State) : Out := alu3 4 o (fun x y => ((x - y).setWidth 32).signExtend 64) s

def execAddi (o : IOp) (s : State) : Out := aluI 4 o.d o.a (fun x => x + o.imm.signExtend 64) s
def execAndi (o : IOp) (s : State) : Out := aluI 4 o.d o.a (fun x => x &&& o.imm.signExtend 64) s
def execOri (o : IOp) (s : State) : Out := aluI 4 o.d o.a (fun x => x ||| o.imm.signExtend 64) s
def execXori (o : IOp) (s : State) : Out := aluI 4 o.d o.a (fun x => x ^^^ o.imm.signExtend 64) s
def execMuli (o : IOp) (s : State) : Out := aluI 6 o.d o.a (fun x => x * o.imm.signExtend 64) s
def execSlli (o : IShift) (s : State) : Out := aluI 4 o.d o.a (fun x => x <<< o.sh.toNat) s
def execSrli (o : IShift) (s : State) : Out := aluI 4 o.d o.a (fun x => x >>> o.sh.toNat) s
def execSrai (o : IShift) (s : State) : Out := aluI 4 o.d o.a (fun x => x.sshiftRight o.sh.toNat) s

/-- LI: d := Sext(imm, 32) (R249). -/
def execLi (d : BitVec 6) (imm : BitVec 32) (s : State) : Out := run (do
  prep [.dst (plain d)]
  wg 4 (plain d) (imm.signExtend 64)
  done) s

/-- LIH: d := (imm << 32) OR Gpr(d)[31:0]; it reads d (R249). -/
def execLih (d : BitVec 6) (imm : BitVec 32) (s : State) : Out := run (do
  prep [.dst (plain d), .src (plain d)]
  let x ← rg (plain d)
  wg 4 (plain d) (imm ++ x.setWidth 32 : BitVec 64)
  done) s

def execMov (o : DA) (s : State) : Out := alu2 o (fun x => x) s

/-- Leading zeros of the low n bits. -/
def leadZeros (x : Word) : Nat → Nat
  | 0 => 0
  | n + 1 => if x.getLsbD n then 0 else 1 + leadZeros x n

/-- Trailing zeros, from bit i on, of n bits. -/
def trailZeros (x : Word) : Nat → Nat → Nat
  | _, 0 => 0
  | i, n + 1 => if x.getLsbD i then 0 else 1 + trailZeros x (i + 1) n

def onesCount (x : Word) : Nat := ((List.range 64).filter (fun i => x.getLsbD i)).length

def execClz (o : DA) (s : State) : Out := alu2 o (fun x => BitVec.ofNat 64 (leadZeros x 64)) s
def execCtz (o : DA) (s : State) : Out := alu2 o (fun x => BitVec.ofNat 64 (trailZeros x 0 64)) s
def execPopc (o : DA) (s : State) : Out := alu2 o (fun x => BitVec.ofNat 64 (onesCount x)) s

/-- A mask of `w1 + 1` ones. -/
def onesMask (w1 : BitVec 6) : Word := BitVec.ofNat 64 (2 ^ (w1.toNat + 1) - 1)

/-- BFX (R251); pos + width > 64 is illegal (R252). -/
def execBfx (o : BitField) (s : State) : Out := run (do
  if 64 < o.pos.toNat + o.width1.toNat + 1 then illegal
  prep [.dst o.d, .src o.a]
  let x ← rg o.a
  wg 4 o.d ((x >>> o.pos.toNat) &&& onesMask o.width1)
  done) s

/-- BFI: Gpr(d) with a field replaced; it reads d (R251). -/
def execBfi (o : BitField) (s : State) : Out := run (do
  if 64 < o.pos.toNat + o.width1.toNat + 1 then illegal
  prep [.dst o.d, .src o.a, .src o.d]
  let x ← rg o.a
  let old ← rg o.d
  let m := onesMask o.width1 <<< o.pos.toNat
  wg 4 o.d ((old &&& ~~~m) ||| ((x <<< o.pos.toNat) &&& m))
  done) s

/-- SEL: d := x if Pred(c), else y (R253). -/
def execSel (o : DAB) (c : BitVec 4) (s : State) : Out := run (do
  prep [.dst o.d, .src o.a, .src o.b, .pw]
  let p := (← slot).pred c
  let x ← rg o.a
  let y ← rg o.b
  wg 4 o.d (if p then x else y)
  done) s

/-- MADD: d := x × y + Gpr(c), k = 6 (R253). -/
def execMadd (o : DAB) (c : BitVec 6) (s : State) : Out := run (do
  prep [.dst o.d, .src o.a, .src o.b, .src (plain c)]
  let x ← rg o.a
  let y ← rg o.b
  let z ← rg (plain c)
  wg 6 o.d (x * y + z)
  done) s

def execLea (o : DAB) (sh : BitVec 2) (s : State) : Out := alu3 4 o (fun x y => x + (y <<< sh.toNat)) s

-- work identifiers (R41, R254, R256)

/-- A word of the launch header of the thread, 0 when the slot has no launch. -/
def State.hdrWord (s : State) (i : Sid) (n : Nat) : Word :=
  match s.launch? (s.slotAt i).launch with
  | some l => (l.hdr[n]?).getD 0
  | none => 0

/-- Width k of a layout word (R41). -/
def layoutWidth (layout : Word) (k : Nat) : Nat := (layout.toNat / 2 ^ (6 * k)) % 64

/-- Field boundary B[k] (R41). -/
def layoutB (layout : Word) : Nat → Nat
  | 0 => 0
  | k + 1 => layoutB layout k + layoutWidth layout k

/-- Field k of a work identifier, 0 for k above 5 (R254, R220). -/
def fieldOf (layout wid : Word) (k : Nat) : Word :=
  if 5 < k then 0 else BitVec.ofNat 64 ((wid.toNat / 2 ^ layoutB layout k) % 2 ^ layoutWidth layout k)

/-- WIDF (R254). -/
def execWidf (d : Fld) (k : BitVec 3) (s : State) : Out := run (do
  prep [.dst d]
  let s ← getS
  wg 4 d (fieldOf (s.hdrWord s.cur 3) (s.slotAt s.cur).wid k.toNat)
  done) s

/-- Bit i of a cell's coordinates goes to bits 3i, 3i+1, 3i+2 of the key (R255). -/
def morton (cx cy cz : Nat) : Nat → Nat
  | 0 => 0
  | n + 1 => morton cx cy cz n + 8 ^ n * ((cx / 2 ^ n) % 2 + 2 * ((cy / 2 ^ n) % 2) + 4 * ((cz / 2 ^ n) % 2))

/-- The key of CELLH (R255). -/
def cellKey (x p : Word) : Word :=
  let n := Nat.min 21 (p.extractLsb' 8 5).toNat
  let sh := (p.extractLsb' 0 5).toNat
  let px := (x.extractLsb' 0 21).toNat / 2 ^ sh % 2 ^ n
  let py := (x.extractLsb' 21 21).toNat / 2 ^ sh % 2 ^ n
  let pz := (x.extractLsb' 42 21).toNat / 2 ^ sh % 2 ^ n
  BitVec.ofNat 64 (morton px py pz n)

def execCellh (o : DAB) (c : BitVec 6) (s : State) : Out := run (do
  prep [.dst o.d, .src o.a, .src o.b, .src (plain c)]
  let x ← rg o.a
  let p ← rg o.b
  let base ← rg (plain c)
  wg 4 o.d (base + cellKey x p)
  done) s

/-- GEOM (R256). -/
def execGeom (d : Fld) (c : BitVec 4) (s : State) : Out := run (do
  prep [.dst d, .pw]
  let s ← getS
  let x := s.slotAt s.cur
  let lay := s.hdrWord s.cur 3
  let ti := fieldOf lay x.wid (x.mgeo.extractLsb' 48 8).toNat
  let tj := fieldOf lay x.wid (x.mgeo.extractLsb' 56 8).toNat
  wg 4 d ((x.mgeo.extractLsb' 32 16) ++ 0#16 ++ tj.setWidth 16 ++ ti.setWidth 16 : BitVec 64)
  modSlot (fun y => y.setPred c (decide (ti.toNat < (x.mgeo.extractLsb' 0 16).toNat) && decide (tj.toNat < (x.mgeo.extractLsb' 16 16).toNat)))
  done) s

-- predicates and compares (R216, R257-R259)

/-- The integer conditions (R216). -/
def intCond (c : BitVec 3) {w : Nat} (x y : BitVec w) : Bool :=
  match c.toNat with
  | 0 => x == y
  | 1 => x != y
  | 2 => x.slt y
  | 3 => !(x.slt y)
  | 4 => y.slt x
  | 5 => !(y.slt x)
  | 6 => x.ult y
  | _ => y.ult x

def execCmp (p : BitVec 4) (cond : BitVec 3) (a b : Fld) (s : State) : Out := run (do
  prep [.pw, .src a, .src b]
  let x ← rg a
  let y ← rg b
  modSlot (fun z => z.setPred p (intCond cond x y))
  done) s

def execCmpi (p : BitVec 4) (cond : BitVec 3) (a : BitVec 6) (imm : BitVec 32) (s : State) : Out := run (do
  prep [.pw, .src (plain a)]
  let x ← rg (plain a)
  modSlot (fun z => z.setPred p (intCond cond x (imm.signExtend 64)))
  done) s

/-- PLOG: fn[2 × Pred(a) + Pred(b)] (R258). -/
def execPlog (p pa pb table : BitVec 4) (s : State) : Out := run (do
  prep [.pw]
  modSlot (fun z => z.setPred p (table.getLsbD (2 * (z.pred pa).toNat + (z.pred pb).toNat)))
  done) s

def execPset (p : BitVec 4) (v : Bool) (s : State) : Out := run (do
  prep [.pw]
  modSlot (fun z => z.setPred p v)
  done) s

/-- PSET.PW: pw[15:1] := imm[15:1] (R259). -/
def execPsetPw (mask : BitVec 16) (s : State) : Out := run (do
  prep [.pw]
  modSlot (fun z => { z with pw := pwFix mask })
  done) s

-- branches (R260-R263)

/-- The target of the B format (R209). -/
def branchTarget (pc : Word) (off : BitVec 41) : Word := pc + (off.signExtend 64 <<< 3)

def execBra (off : BitVec 41) (s : State) : Out := run (do
  jump (branchTarget (← slot).pc off)) s

/-- CALL: the link is pc + 8 (R260). -/
def execCall (d : BitVec 4) (off : BitVec 41) (s : State) : Out := run (do
  prep [.dst (gf d)]
  let pc := (← slot).pc
  wg 4 (gf d) (pc + 8)
  jump (branchTarget pc off)) s

/-- JMP: the target is read before the link is written; a misaligned target is an access violation (R261). -/
def execJmp (d a : Fld) (s : State) : Out := run (do
  prep [.dst d, .src a]
  let t ← rg a
  let pc := (← slot).pc
  if t.setWidth 3 ≠ 0#3 then trapWith ⟨cAccess, t, 0xFF, none, some (detail 0 false 0xF 5)⟩
  wg 4 d (pc + 8)
  jump t) s

/-- LOOP (R262). -/
def execLoop (d : BitVec 4) (off : BitVec 41) (s : State) : Out := run (do
  prep [.dst (gf d), .src (gf d)]
  let n := (← rg (gf d)) - 1
  let pc := (← slot).pc
  wg 4 (gf d) n
  jump (if n ≠ 0 then branchTarget pc off else pc + 8)) s

end Sys2Proof.Machine
end

