-- ==== Sys2Proof/Machine/Atomic.lean ====
section
/-! DEFINITION. Atomics, remote updates, local-store atomics, migration by instruction, home queries (R271, R277-R283). -/

namespace Sys2Proof.Machine

/-- Op(old, v) of R278 at a width (DEDUCED, log 8). -/
def amoOp {w : Nat} (op : Nat) (old v : BitVec w) : BitVec w :=
  match op with
  | 0 => old + v
  | 1 => old &&& v
  | 2 => old ||| v
  | 3 => old ^^^ v
  | 4 => if old.slt v then old else v
  | 5 => if old.slt v then v else old
  | 6 => if old.ult v then old else v
  | 7 => if old.ult v then v else old
  | _ => v

/-- Op at the size of an atomic, on zero-extended values. -/
def sizedOp (op : Nat) (dword : Bool) (old v : Word) : Word :=
  if dword then amoOp op old v else (amoOp op (old.setWidth 32) (v.setWidth 32)).setWidth 64

/-- n bytes at a place, little-endian, as the home has them. -/
def State.readLoc (s : State) (l : Loc) (n : Nat) : Nat := ofBytes ((List.range n).map (fun i => s.byteAt (l.off i)))

def State.writeLoc (s : State) (l : Loc) (n v : Nat) : State :=
  (List.range n).foldl (fun s i => s.setByte (l.off i) (BitVec.ofNat 8 (v / 256 ^ i))) s

/-- The result of FAMO on two codes (R280). Only .fadd honours ftz, as R280 says of it alone; R123 speaks of all arithmetic
(DESIGN CHOICE, log 74). -/
def famoOp (op : Nat) (dword : Bool) (status : BitVec 32) (old v : Word) : Word × Flags :=
  let f : Fmt := if dword then .fp64 else .fp32
  let ftz := status.getLsbD 7
  let mode := (status.extractLsb' 5 2).toNat
  let x := f.input ftz (lowCode f old)
  let y := f.input ftz (lowCode f v)
  if op = 0 then
    let r := roundRes f mode ftz (sumFl mode [x, y])
    (BitVec.ofNat 64 r.1, r.2)
  else
    let a := f.val (lowCode f old)
    let b := f.val (lowCode f v)
    (BitVec.ofNat 64 (f.conv 0 false .ieee (if op = 1 then minFl a b else maxFl a b)).1, 0)

/-- The value an atomic writes over `old`, with its flags. -/
def ReqOp.new (r : ReqOp) (old : Word) : Word × Flags :=
  match r with
  | .amo op d v => (sizedOp op.toNat d old v, 0)
  | .cas d cmp v =>
    if d then (if old = cmp then v else old, 0)
    else (if old.setWidth 32 = (cmp.setWidth 32 : BitVec 32) then (v.setWidth 32 : BitVec 32).setWidth 64 else old, 0)
  | .famo op d v st => famoOp op.toNat d st old v

/-- Perform an atomic at its home slice as one event: the state, the old value, the line's number after it, the flags
(R76, R277). None while the line cannot be allocated. -/
def State.atomicAt (s : State) (slice : Nat) (l : Loc) (r : ReqOp) : Option (State × Word × BitVec 16 × Flags) :=
  match locLine l with
  | none => none
  | some (line, host) =>
    (s.l2Use slice line host true).map (fun s =>
      let old := BitVec.ofNat 64 (s.readLoc l r.size)
      let nw := r.new old
      ((s.writeLoc l r.size nw.1.toNat).unsnoop ((List.range r.size).map l.off), old, s.seqOf slice line host, nw.2))

/-- The registers an atomic names: with d = 0 both results are discarded (R277). -/
def atomUses (o : AtomicOp) (readsD : Bool) : List Use :=
  (if o.d = 0 then [] else [.dst (gf o.d), .dst (gf (o.d + 1))]) ++ [.src (plain o.a), .src (plain o.b)] ++
  (if readsD then [.src (gf o.d)] else [])

/-- Something of the thread or of its port is still on its way to a home that is the slice it runs on (R102, R103 d). -/
def State.portBusy (s : State) (i : Sid) : Bool :=
  s.flights.any (fun f => (f.sid == some i && f.body.isLoad) || (f.src == i.pl && !f.body.isReply && f.homes.contains i.pl))

/-- The issuing core's copy of a line goes home and is dropped, ahead of an update sent past it (R92, R93) (DEDUCED, log 29). -/
def State.pushLine (s : State) (p : Place) (l : Loc) : State :=
  match l with
  | .dev a => (s.cleanL1 p (fun k => k.line == a / 128)).dropL1 p (fun k => k.line == a / 128)
  | _ => s

/-- Write the two results of an atomic; none with d = 0. -/
def atomResults (d : BitVec 4) (old : Word) (seq : BitVec 16) : M Unit :=
  if d = 0 then pure ()
  else modSlot (fun x => (x.setGr d old).setGr (d + 1) (seq.setWidth 64))

/-- The destinations an atomic marks: none with d = 0 (R30, R277). -/
def atomDests (d : BitVec 4) : Nat := if d = 0 then 0 else 2

/-- AMO, CAS and FAMO: checked, then performed at the home slice, where an unpinned thread goes first and a pinned one
sends a remote request (R54, R277). -/
def atomic (o : AtomicOp) (readsD : Bool) (mk : Word → Word → BitVec 32 → ReqOp) (s : State) : Out := run (do
  prep (atomUses o readsD)
  accessGate
  let n := atomSize o.dword
  let ea ← peek (eaX o.a o.off)
  let bs ← checkAccess 0 true ea n n
  needHomes 0 true ea bs
  if bs.any noSequence then violation 0 true ea
  let s0 ← getS
  let loc := (bs.head?.map (·.loc)).getD (.dev 0)
  let home := s0.homeFirst bs
  if home = s0.cur.pl then do
    pendRoom (atomDests o.d)
    release o.sc.toNat
    if s0.portBusy s0.cur then loseTurn
    modS (fun s => s.noteHost bs)
    let held := (← getS).hostHeld ((List.range n).map loc.off)
    if !held.isEmpty then do
      modS (fun s => s.snoop held)
      loseTurn
    let _ ← eaX o.a o.off
    let v ← rg (plain o.b)
    let x ← slot
    match (← getS).atomicAt (clusterOf home) loc (mk (x.gr o.d) v x.status) with
    | none => loseTurn
    | some (t, old, seq, fl) => do
      setS t
      modSlot (fun x => x.raiseFlags fl)
      atomResults o.d old seq
      acquire o.sc.toNat
      done
  else if s0.pinned s0.cur then do
    pendRoom (atomDests o.d)
    if (s0.at' s0.cur.pl).l1Busy then loseTurn
    release o.sc.toNat
    let _ ← eaX o.a o.off
    let v ← rg (plain o.b)
    let x ← slot
    modS (fun s => (s.noteHost bs).pushLine s.cur.pl loc)
    if o.d ≠ 0 then do
      markPend (.g o.d.toNat)
      markPend (.g (o.d + 1).toNat)
    modS (fun s => s.send x.launch s.cur.pl home (some s.cur) (.reqAtomic o.d loc (mk (x.gr o.d) v x.status) o.sc))
    done
  else depart home false) s

def execAmo (op : BitVec 4) (o : AtomicOp) (s : State) : Out := atomic o false (fun _ v _ => .amo op o.dword v) s

/-- CAS compares old with Gpr(d) (R279). -/
def execCas (o : AtomicOp) (s : State) : Out := atomic o true (fun cmp v _ => .cas o.dword cmp v) s

def execFamo (op : BitVec 2) (o : AtomicOp) (s : State) : Out := atomic o false (fun _ v st => .famo op o.dword v st) s

/-- RED: the release, then the update sent as a remote-update thread (R55, R281). -/
def execRed (op : BitVec 3) (a b : BitVec 6) (dword : Bool) (sc : BitVec 3) (off : BitVec 20) (s : State) : Out := run (do
  prep [.src (plain a), .src (plain b)]
  accessGate
  let n := atomSize dword
  let ea ← peek (eaX a off)
  let bs ← checkAccess 0 true ea n n
  needHomes 0 true ea bs
  if bs.any noSequence then violation 0 true ea
  if ((← getS).at' (← place)).l1Busy then loseTurn
  release sc.toNat
  let _ ← eaX a off
  let v ← rg (plain b)
  let x ← slot
  let loc := (bs.head?.map (·.loc)).getD (.dev 0)
  modS (fun s => (s.noteHost bs).pushLine s.cur.pl loc)
  modS (fun s => s.send x.launch s.cur.pl (s.homeFirst bs) (some s.cur) (.red loc (op.setWidth 4) dword v))
  done) s

/-- LSRMW: one read-modify-write on the own local store or scratch banks (R271). -/
def execLsrmw (d a b : BitVec 6) (op : BitVec 4) (dword : Bool) (off : BitVec 20) (s : State) : Out := run (do
  needCore
  prep [.dst (plain d), .src (plain a), .src (plain b)]
  accessGate
  let s0 ← getS
  let n := atomSize dword
  let ea ← peek (eaX a off)
  let own (i : Nat) : Option Loc :=
    match apertureByte s0 (ea.toNat + i), s0.cur.pl with
    | some (.ls m o), .core k => if m = k then some (.ls m o) else none
    | _, _ => none
  if (List.range n).any (fun i => (own i).isNone) then violation 0 true ea
  if ea.toNat % n ≠ 0 then misaligned 0 true ea
  match own 0 with
  | none => violation 0 true ea
  | some loc => do
    cfgGate false [⟨ea.toNat, loc, 0, 0⟩]
    let _ ← eaX a off
    let v ← rg (plain b)
    let old := BitVec.ofNat 64 ((← getS).readLoc loc n)
    modS (fun s => s.writeLoc loc n (sizedOp op.toNat dword old v).toNat)
    wg 4 (plain d) old
    done) s

/-- Where GOTO leads (R282): a live core, or the home of an address; none when the target is disabled or the address
fails R264. -/
def State.gotoTarget (s : State) (home : Bool) (v : Word) : Option Place :=
  if home then
    match regionOf v.toNat with
    | .virt => (s.quietByte v).bind s.homeOf
    | .own off =>
      let n := match s.cur.pl with
        | .core n => n
        | .slice _ => (s.slotAt s.cur).origin.toNat
      if offsetOk (tabGet coreReset s.cores n) off then some (.core n) else none
    | .core n off => if s.coreLive n && offsetOk (tabGet coreReset s.cores n) off then some (.core n) else none
    | .none => none
  else if s.coreLive (v.setWidth 12).toNat then some (.core (v.setWidth 12).toNat) else none

/-- GOTO in both forms (R54, R282) (DEDUCED, log 28). -/
def gotoWith (home : Bool) (a : BitVec 6) (s : State) : Out := run (do
  prep [.src (plain a)]
  if home then do
    let v ← peek (rg (plain a))
    lookPage v
  let s0 ← getS
  let v ← rg (plain a)
  match s0.gotoTarget home v with
  | none => fun _ => violation 0 false v s0
  | some p =>
    if p = s0.cur.pl then done
    else if s0.pinned s0.cur then trapFrom s0 cPinned v
    else depart p true) s

def execGoto (a : BitVec 6) (s : State) : Out := gotoWith false a s

def execGotoHome (a : BitVec 6) (s : State) : Out := gotoWith true a s

/-- The router position of a place: mesh column and row, and its layer (R12). -/
def Place.pos : Place → Nat × Nat × Nat
  | .core n => (n / 4 % 32, n / 4 / 32, 1)
  | .slice n => (n % 32, n / 32, 0)

/-- Links crossed between two places. -/
def hops (p q : Place) : Nat :=
  meshLinks (Place.pos p).1 (Place.pos p).2.1 (Place.pos p).2.2 (Place.pos q).1 (Place.pos q).2.1 (Place.pos q).2.2

/-- The HOME word (R283): hops, class (3 for an aperture), core bit, target (DEDUCED, log 39). -/
def homeWord (src home : Place) (cls : Nat) : Word :=
  let isCore := match home with
    | .core _ => true
    | .slice _ => false
  let n := match home with
    | .core n => n
    | .slice n => n
  (0#32 ++ BitVec.ofNat 16 (hops src home) ++ BitVec.ofNat 2 cls ++ 0#1 ++ BitVec.ofBool isCore ++ BitVec.ofNat 12 n : BitVec 64)

/-- Where an address lives, and its class, for HOME (R283): an own alias at the thread's core, or its origin core on a
slice core; it sends nobody anywhere. -/
def homeOfAddr (ea : Word) : M (Place × Nat) := do
  let s ← getS
  match regionOf ea.toNat with
  | .own _ =>
    match s.gotoTarget true ea with
    | some p => pure (p, 3)
    | none => violation 0 false ea
  | _ => do
    let bs ← checkAccess 0 false ea 1 1
    needHomes 0 false ea bs
    match bs.head? with
    | none => loseTurn
    | some b => do
      let cls := match b.loc with
        | .ls _ _ => 3
        | .host _ => 0
        | .dev _ => pteClass b.pte
      pure ((← getS).homeFirst bs, cls)

def execHome (d a : BitVec 6) (off : BitVec 20) (s : State) : Out := run (do
  prep [.dst (plain d), .src (plain a)]
  let ea ← peek (eaX a off)
  let h ← homeOfAddr ea
  let _ ← eaX a off
  wg 4 (plain d) (homeWord (← place) h.1 h.2)
  done) s

end Sys2Proof.Machine
end

