-- ==== Sys2Proof/Machine/Ring.lean ====
section
/-! DEFINITION. The Coach Ring: stations, captures, boarding, barriers, and the carriage instructions (R134-R153,
R349-R357, R444-R451). All that a station does in one pass is applied when word 3 crosses it (DESIGN CHOICE, log 17). -/

namespace Sys2Proof.Machine

-- stations and passes (R135, R136)

/-- The station of a cluster. -/
def stationOf (cl : Nat) : Nat :=
  let x := cl % 32
  let y := cl / 32
  if y = 0 then x
  else if x = 0 then 993 + (31 - y)
  else if y % 2 = 1 then 32 + 31 * (y - 1) + (31 - x)
  else 32 + 31 * (y - 1) + (x - 1)

/-- Word w of carriage c crosses a station in this cycle. -/
def crosses (cyc station c w : Nat) : Bool := cyc % 1024 == (station + 8 * (c / 16) + w) % 1024

/-- The pass of a carriage at a station is applied in this cycle, in which its word 3 crosses: every request that R142 admits
to the pass has been issued by then, and every result of it is due later (DESIGN CHOICE, log 17). -/
def passes (cyc station c : Nat) : Bool := crosses cyc station c 3 && decide (3 ≤ cyc)

/-- When word w of the pass applied in this cycle crosses the station. -/
def crossAt (cyc w : Nat) : Nat := cyc + w - 3

/-- The revolution a pass belongs to: the count that the carriage carries during it (R137). The last stations pass it when
its first words have begun the next revolution at the depot. -/
def Carriage.passRev (c : Carriage) (cyc station : Nat) : BitVec 16 :=
  match c.lastRev with
  | some t => if t + station + 3 ≤ cyc then c.rev else c.rev - 1
  | none => c.rev

/-- The number of a control state in a control byte (R137). -/
def CarState.code : CarState → BitVec 2
  | .empty => 0
  | .reserved => 1
  | .seated => 2
  | .landing => 3

/-- The count of which word w carries a nibble in a cycle: the new one from the cycle on in which it crosses the depot (R137). -/
def Carriage.wordRev (c : Carriage) (cyc w : Nat) : BitVec 16 :=
  match c.lastRev with
  | some t => if t + w ≤ cyc then c.rev else c.rev - 1
  | none => c.rev

/-- The control byte of word w (R137): a nibble of the count, zero, the control state. -/
def Carriage.control (c : Carriage) (cyc w : Nat) : BitVec 8 :=
  ((c.wordRev cyc w).extractLsb' (4 * (w % 4)) 4 ++ 0#2 ++ c.st.code : BitVec 8)

/-- The beat of word w: the word, its control byte, and the check bits that protect both (R134). -/
def Carriage.beat (c : Carriage) (cyc : Nat) (w : Fin 8) : Word × BitVec 8 × BitVec 8 :=
  (c.words[w], c.control cyc w.val, Config.checkBits c.words[w] (c.control cyc w.val))

-- captures (R142, R143)

/-- The words a capture touches. -/
def CapOp.words (op : CapOp) (w : Nat) : List Nat :=
  match op with
  | .store seat _ => if seat then List.range 8 else [w]
  | .board _ _ => List.range 8
  | .alight _ _ => List.range 8
  | .join => [0, 1]
  | .arrive => [0, 1]
  | .depart => [0, 1]
  | .phase _ => [0, 1]
  | .poison => [1]
  | _ => [w]

/-- A capture that takes turns (R143). -/
def CapOp.writes : CapOp → Bool
  | .load => false
  | .cwait _ _ => false
  | .phase _ => false
  | _ => true

/-- CWAIT and CPHASE hold their thread asleep (R352). -/
def CapOp.sleeps : CapOp → Bool
  | .cwait _ _ => true
  | .phase _ => true
  | _ => false

def CapOp.barrier : CapOp → Bool
  | .join => true
  | .arrive => true
  | .depart => true
  | _ => false

/-- Order of a request at its station: arrival, core, slot, issue (R142) (DEDUCED, log 61). -/
def Cap.before (a b : Cap) : Bool :=
  decide (a.arrive < b.arrive) ||
    (a.arrive == b.arrive && (decide (a.key < b.key) || (a.key == b.key && decide (a.id ≤ b.id))))

/-- A thread's CARRIVE is under way. -/
def State.carriveOut (s : State) (i : Sid) : Bool :=
  (s.cluster (clusterOf i.pl)).caps.any (fun k => k.sid == some i && k.op.barrier) ||
  (s.cluster (clusterOf i.pl)).heldCaps.any (fun k => k.2.sid == some i && k.2.op.barrier)

/-- A capture of a thread is under way; `all` when one that its thread sleeps in, which a vacate withdraws (R416), counts too. -/
def State.capsOut (s : State) (i : Sid) (all : Bool) : Bool :=
  let cl := s.cluster (clusterOf i.pl)
  (cl.caps ++ cl.heldCaps.map (fun k => k.2)).any (fun k => k.sid == some i && (all || !k.op.sleeps))

def insertCap (l : List Cap) (c : Cap) : List Cap :=
  match l with
  | [] => [c]
  | x :: t => if x.before c then x :: insertCap t c else c :: x :: t

/-- Submit a capture of a core: to its station's queue, or held at the core while the station has 64 requests, of which a request
on its way is one (DESIGN CHOICE, log 95). -/
def State.submit (s : State) (core : Nat) (c : Cap) : State :=
  let cl := s.cluster (core / 4)
  let s := { s with nextId := s.nextId + 1 }
  let c := { c with id := s.nextId - 1, arrive := s.cyc + 4 }
  if cl.caps.length < 64 then s.setCluster (core / 4) { cl with caps := insertCap cl.caps c }
  else s.setCluster (core / 4) { cl with heldCaps := cl.heldCaps ++ [(core, c)] }

/-- Forward the first held request in order of core, slot and issue, once an entry is free. It reaches the station 4 cycles
later, as a request that issues does (DESIGN CHOICE, log 76). -/
def State.forwardCap (s : State) (cl : Nat) : State :=
  let c := s.cluster cl
  if 64 ≤ c.caps.length then s
  else
    let b := c.heldCaps.foldl (fun (b : Option Cap) e => match b with
      | none => some e.2
      | some x => if e.2.key < x.key ∨ (e.2.key = x.key ∧ e.2.id < x.id) then some e.2 else b) none
    match b with
    | none => s
    | some e => s.setCluster cl { c with
        caps := insertCap c.caps { e with arrive := s.cyc + 4 }, heldCaps := c.heldCaps.filter (fun x => x.2.id != e.id) }

/-- Forward held requests while entries are free. -/
def State.forwardCaps (s : State) (cl : Nat) : State :=
  (s.cluster cl).heldCaps.foldl (fun s _ => s.forwardCap cl) s

/-- Remove a request from its station and forward a held one. -/
def State.dropCap (s : State) (cl id : Nat) : State :=
  let c := s.cluster cl
  (s.setCluster cl { c with caps := c.caps.filter (fun x => x.id != id), heldCaps := c.heldCaps.filter (fun x => x.2.id != id) }).forwardCaps cl

def State.putCap (s : State) (cl : Nat) (c : Cap) : State :=
  let k := s.cluster cl
  s.setCluster cl { k with caps := k.caps.map (fun x => if x.id = c.id then c else x) }

/-- The cluster whose station holds a request. -/
def State.findCap (s : State) (id : Nat) : Option (Nat × Cap) :=
  s.clusters.findSome? (fun e => (e.2.caps.find? (fun c => c.id == id)).map (fun c => (e.1, c)))

/-- Withdraw the waiting CWAIT or CPHASE of a slot (R242, R352); the entry it had is free for a held request. -/
def State.withdrawCaps (s : State) (i : Sid) : State :=
  let cl := clusterOf i.pl
  let c := s.cluster cl
  (s.setCluster cl { c with
    caps := c.caps.filter (fun x => !(x.sid == some i && x.op.sleeps)),
    heldCaps := c.heldCaps.filter (fun x => !(x.2.sid == some i && x.2.op.sleeps)) }).forwardCaps cl

/-- The captures of a thread that ends are still applied; their results are discarded (R447). -/
def State.orphanCaps (s : State) (i : Sid) : State :=
  let cl := clusterOf i.pl
  let c := s.cluster cl
  let f (x : Cap) : Cap := if x.sid == some i then { x with sid := none } else x
  s.setCluster cl { c with caps := c.caps.map f, heldCaps := c.heldCaps.map (fun e => (e.1, f e.2)) }

-- carriages

/-- Key of the turn of a word at a station; readings are marked from 8,192 on. -/
def turnKey (station w : Nat) : Nat := station * 8 + w

/-- The turn of a word is taken in the pass that is applied now. -/
def Carriage.turnTaken (c : Carriage) (cyc station w : Nat) : Bool := tabGet 0 c.passed (turnKey station w) == cyc + 1

def Carriage.readNow (c : Carriage) (cyc station w : Nat) : Bool := tabGet 0 c.passed (8192 + turnKey station w) == cyc + 1

def Carriage.takeTurns (c : Carriage) (cyc station : Nat) (ws : List Nat) : Carriage :=
  { c with passed := ws.foldl (fun t w => tabSet t (turnKey station w) (cyc + 1)) c.passed }

def Carriage.markRead (c : Carriage) (cyc station : Nat) (ws : List Nat) : Carriage :=
  { c with passed := ws.foldl (fun t w => tabSet t (8192 + turnKey station w) (cyc + 1)) c.passed }

def Carriage.w (c : Carriage) (k : Nat) : Word := (c.words.toList[k]?).getD 0

def Carriage.setW (c : Carriage) (k : Nat) (v : Word) : Carriage := { c with words := c.words.setIfInBounds k v }

/-- Make a carriage EMPTY; an Advance that was scheduled is dropped (R151). -/
def Carriage.empty (c : Carriage) : Carriage := { c with st := .empty, adv := [] }

-- barriers (R149-R151)

def barEpoch (w0 : Word) : Nat := (w0.extractLsb' 0 32).toNat
def barExpected (w0 : Word) : Nat := (w0.extractLsb' 32 16).toNat
def barPoison (w1 : Word) : Bool := w1.getLsbD 32
def barAdv (w1 : Word) : Bool := w1.getLsbD 33
def barCnt (w1 : Word) (p : Nat) : BitVec 16 := if p % 2 = 0 then w1.extractLsb' 0 16 else w1.extractLsb' 16 16

/-- Word 0 with expected and epoch, its reserved bits kept. -/
def barW0 (w0 : Word) (x e : Nat) : Word := (w0.extractLsb' 48 16 ++ BitVec.ofNat 16 x ++ BitVec.ofNat 32 e : BitVec 64)

/-- Word 1 with adv and the two counts, poison and reserved bits kept. -/
def barW1 (w1 : Word) (adv : Bool) (even odd : BitVec 16) : Word :=
  (w1.extractLsb' 34 30 ++ BitVec.ofBool adv ++ BitVec.ofBool (barPoison w1) ++ odd ++ even : BitVec 64)

def setCnt (c : BitVec 16 × BitVec 16) (p : Nat) (v : BitVec 16) : BitVec 16 × BitVec 16 :=
  if p % 2 = 0 then (v, c.2) else (c.1, v)

def getCnt (c : BitVec 16 × BitVec 16) (p : Nat) : BitVec 16 := if p % 2 = 0 then c.1 else c.2

/-- What an applied capture answers: value and indication; 8 stands for the overflow of a join (R356). -/
inductive Applied where
  | retry
  | done (v : Word) (ind : Nat)
  deriving DecidableEq, Repr, Inhabited

/-- The station's computation for CARRIVE on a SEATED carriage (R150): the carriage, the answer, whether an Advance is
scheduled. -/
def arriveOn (c : Carriage) (op : CapOp) (mword : Word) : Carriage × Applied × Bool :=
  let w0 := c.w 0
  let w1 := c.w 1
  let e := barEpoch w0
  let x := barExpected w0
  let m := (mword.extractLsb' 32 32).toNat
  let cnt := (barCnt w1 0, barCnt w1 1)
  let fin (x : Nat) (cnt : BitVec 16 × BitVec 16) (v : Nat) : Carriage × Applied × Bool :=
    let up := !(barAdv w1) && decide (0 < x) && (getCnt cnt e).toNat == x
    ((c.setW 0 (barW0 w0 x e)).setW 1 (barW1 w1 (barAdv w1 || up) cnt.1 cnt.2), .done (BitVec.ofNat 64 v) 0, up)
  if barPoison w1 then (c, .done (BitVec.ofNat 64 e) 4, false)
  else
    match op with
    | .join =>
      if 0xFFFF < x + 1 then (c, .done (BitVec.ofNat 64 e) 8, false)
      else fin (x + 1) cnt (e + (barAdv w1).toNat)
    | .arrive =>
      if e + 2 ≤ m then (c, .retry, false)
      else if m < e then (c, .done (BitVec.ofNat 64 e) 3, false)
      else fin x (setCnt cnt m (getCnt cnt m + 1)) m
    | _ =>
      let ks := (List.range 2).filter (fun i => decide (e + i < Nat.min m (e + 2)))
      fin (x - 1) (ks.foldl (fun c i => setCnt c (e + i) (getCnt c (e + i) - 1)) cnt) 0

/-- What a capture does to its carriage in its pass, but for BOARD and ALIGHT (R148, R150, R152, R353, R354): the answer
is none while a test stays false. -/
def applyCap (c : Carriage) (k : Cap) : Carriage × Option Applied × Bool :=
  let seated := c.st == .seated
  let emptyAns : Carriage × Option Applied × Bool := (c, some (.done 0 1), false)
  match k.op with
  | .load => if seated then (c, some (.done (c.w k.w) 0), false) else emptyAns
  | .cop op v => if seated then (c.setW k.w (amoOp op.toNat (c.w k.w) v), some (.done (c.w k.w) 0), false) else emptyAns
  | .ccas x v => if seated then (if c.w k.w = x then c.setW k.w v else c, some (.done (c.w k.w) 0), false) else emptyAns
  | .store seat v =>
    if seat then
      if c.st == .empty then
        ({ c with st := .seated, adv := [], words := (Vector.replicate 8 (0 : Word)).setIfInBounds k.w v }, some (.done 0 0), false)
      else (c, some (.done 0 2), false)
    else if seated then (c.setW k.w v, some (.done (c.w k.w) 0), false) else emptyAns
  | .cwait cond v =>
    if !seated then emptyAns
    else if intCond cond (c.w k.w) v then (c, some (.done (c.w k.w) 0), false) else (c, none, false)
  | .phase tok =>
    let t := (tok.extractLsb' 0 32).toNat
    let e := barEpoch (c.w 0)
    if !seated then emptyAns
    else if barPoison (c.w 1) then (c, some (.done (BitVec.ofNat 64 e) 4), false)
    else if t + 2 ≤ e then (c, some (.done (BitVec.ofNat 64 e) 3), false)
    else if t < e then (c, some (.done (BitVec.ofNat 64 e) 0), false)
    else (c, none, false)
  | .poison => (if seated then c.setW 1 (c.w 1 ||| (1#64 <<< 32)) else c, some (.done 0 0), false)
  | .board _ _ => (c, none, false)
  | .alight _ _ => (c, none, false)
  | op =>
    if seated then
      let r := arriveOn c op k.mword
      (r.1, some r.2.1, r.2.2)
    else emptyAns

/-- The last word a capture touches; its result is due four cycles after that word leaves (R144). -/
def lastWord (k : Cap) : Nat := (k.op.words k.w).foldl Nat.max 0

/-- The station has a write of its own to make in a pass for a capture it has already begun: the words of a BOARD whose data
came before the pass, or the end of an ALIGHT whose write was acknowledged before it (R146, R147). -/
def CapSt.stationDue (x : CapSt) (cyc : Nat) : Bool :=
  match x with
  | .fetched _ t => decide (t + 3 < cyc)
  | .landed t => decide (t + 3 < cyc)
  | _ => false

/-- The pass applied in this cycle may take the request (R142, R143): its first word crosses after it was queued; the station's
own operations of the pass are made (R146, R147, R151, R160); no earlier writer waits on its words; and for a writer every
turn is free and unread. -/
def State.capDue (s : State) (cl : Nat) (k : Cap) : Bool :=
  let st := stationOf cl
  let c := s.car k.car
  let ws := k.op.words k.w
  passes s.cyc st k.car && decide (k.arrive < crossAt s.cyc (ws.headD 0)) &&
  (c.st != .seated || tabGet 0 c.passed (16384 + st) == s.cyc + 1 || !(s.launches.any (fun l => !l.finished && l.winBase == k.car))) &&
  !(c.adv.any (fun a => a.1 == st && decide (a.2 < s.cyc))) &&
  !((s.cluster cl).caps.any (fun o => o.car == k.car && o.st.stationDue s.cyc)) &&
  (k.st == .tested || !((s.cluster cl).caps.any (fun o => o.id != k.id && o.before k && o.op.writes && o.car == k.car && o.st == .queued &&
      (o.op.words o.w).any (fun w => ws.contains w)))) &&
  (!k.op.writes || ws.all (fun w => !(c.turnTaken s.cyc st w) && !(c.readNow s.cyc st w)))

/-- A writing request that is due takes effect in this pass: BOARD waits while the carriage is LANDING, and an arrive that
is too early is retried (R146, R150). -/
def Carriage.moves (c : Carriage) (k : Cap) : Bool :=
  match k.op with
  | .board _ _ => c.st != .landing
  | .alight _ _ => true
  | _ => (applyCap c k).2.1 != some .retry

/-- The request is applied in this pass: a writer when it is due, a reader only after this pass's write of its words
(R143, R145). -/
def State.capReady (s : State) (cl : Nat) (k : Cap) : Bool :=
  s.capDue cl k &&
  (k.op.writes || !((s.cluster cl).caps.any (fun o => o.op.writes && o.car == k.car && o.st == .queued &&
      (o.op.words o.w).any (fun w => (k.op.words k.w).contains w) && s.capDue cl o && (s.car k.car).moves o)))

def CapSt.waiting : CapSt → Bool
  | .queued => true
  | .tested => true
  | _ => false

/-- CAPTURE_APPLY (R143, R145-R152, R447): the request numbered State.subj is applied, or tested, in this pass. -/
def execCaptureApply (s : State) : Out :=
  match s.findCap s.subj with
  | none => .next s
  | some (cl, k) =>
    if !(k.st.waiting && s.capReady cl k) then .next s
    else
      let st := stationOf cl
      let c := s.car k.car
      let ws := k.op.words k.w
      let due := crossAt s.cyc (lastWord k) + 4
      let rev := c.passRev s.cyc st
      let fin (c : Carriage) (x : CapSt) : Out :=
        let c := if k.op.writes then c.takeTurns s.cyc st ws else c.markRead s.cyc st ws
        .next ((s.setCar k.car c).putCap cl { k with st := x })
      match k.op with
      | .board _ _ =>
        match c.st with
        | .empty => fin { c with st := .reserved } .fetching
        | .landing => .next s
        | _ => fin c (.done 0 2 rev due)
      | .alight _ _ =>
        if c.st = .seated then fin { c with st := .landing, adv := [] } (.landing c.words.toList)
        else fin c (.done 0 1 rev due)
      | _ =>
        let r := applyCap c k
        let c' := if r.2.2 then { r.1 with adv := r.1.adv ++ [(st, s.cyc)] } else r.1
        match r.2.1 with
        | some (.done v ind) => fin c' (.done v ind rev due)
        | some .retry => .next s
        | none => fin c' .tested

/-- BARRIER_ADVANCE of the carriage numbered State.subj, at the next pass of the station that scheduled it (R151). -/
def execBarrierAdvance (s : State) : Out :=
  let c := s.car s.subj
  match c.adv.find? (fun a => passes s.cyc a.1 s.subj && decide (a.2 < s.cyc)) with
  | none => .next s
  | some (st, t) =>
    if c.st ≠ .seated then .next s
    else
      let e := barEpoch (c.w 0)
      let x := barExpected (c.w 0)
      let cnt := setCnt (barCnt (c.w 1) 0, barCnt (c.w 1) 1) e 0
      let up := decide (0 < x) && (getCnt cnt (e + 1)).toNat == x
      let c := (c.setW 0 (barW0 (c.w 0) x (e + 1))).setW 1 (barW1 (c.w 1) up cnt.1 cnt.2)
      let c := { c with adv := c.adv.filter (fun a => a != (st, t)) ++ (if up then [(st, s.cyc)] else []) }
      .next (s.setCar s.subj (c.takeTurns s.cyc st [0, 1]))

/-- REVOLUTION_START of the carriage numbered State.subj: its count rises in the cycle in which its word 0 crosses the depot (R137). -/
def execRevolutionStart (s : State) : Out :=
  let c := s.car s.subj
  if s.subj < 2048 ∧ crosses s.cyc 0 s.subj 0 ∧ c.lastRev ≠ some s.cyc then
    .next (s.setCar s.subj { c with rev := c.rev + 1, lastRev := some s.cyc })
  else .next s

/-- The 64 bytes at a place as eight words. -/
def State.words64 (s : State) (l : Loc) : List Word :=
  (List.range 8).map (fun k => BitVec.ofNat 64 (s.locNat (locOff l (8 * k)) 8))

/-- The line of a place holds an uncorrectable soft error (R446), or is one that the host cannot give (R461). -/
def State.locPoison (s : State) (l : Loc) : Bool :=
  match l with
  | .dev pa => s.poison.contains (pa / 128)
  | .host pa => s.hostBad.contains (pa / 128)
  | .ls _ _ => false

/-- The home of a place for an agent that uses the frame class table (R77, R88). -/
def State.locHome (s : State) (l : Loc) : Place :=
  match l with
  | .dev pa => .slice (s.frameHome pa)
  | .host pa => .slice (s.modHome (pa / 128))
  | .ls n _ => .core n

/-- The line of a place at its home, for a read (R75). -/
def useOf (l : Loc) (home : Place) : List (Nat × Nat × Bool) := srcLines [.at l home true]

/-- BOARD_DATA_SEAT of the request numbered State.subj: the 64 bytes are read once from their home, with an acquire at device
scope that its thread makes when it completes, and the carriage is seated at the first pass after that (R146); a poisoned
line returns it to EMPTY (R446). -/
def execBoardDataSeat (s : State) : Out :=
  match s.findCap s.subj with
  | none => .next s
  | some (cl, k) =>
    let st := stationOf cl
    let c := s.car k.car
    let ended : CapSt := .done 0 0 (c.passRev s.cyc st) (crossAt s.cyc 7 + 4)
    match k.st, k.op with
    | .fetching, .board l home =>
      (match s.useLines (useOf l home) with
       | none => .next s
       | some t => .next (t.putCap cl { k with st := .fetched (if s.locPoison l then [] else s.words64 l) s.cyc }))
    | .fetched [] _, _ =>
      if passes s.cyc st k.car && k.st.stationDue s.cyc then
        .next ((s.setCar k.car c.empty).putCap cl { k with st := .done 0 9 (c.passRev s.cyc st) (crossAt s.cyc 7 + 4) })
      else .next s
    | .fetched ws _, _ =>
      if passes s.cyc st k.car && k.st.stationDue s.cyc then
        let c' := { c with st := .seated, adv := [], words := Vector.ofFn (fun (i : Fin 8) => recW ws i.val) }
        .next ((s.setCar k.car (c'.takeTurns s.cyc st (List.range 8))).putCap cl { k with st := ended })
      else .next s
    | _, _ => .next s

/-- ALIGHT_LANDED of the request numbered State.subj: the 64 bytes are performed at home as one posted write, and the
carriage becomes EMPTY at the next pass after that (R147). -/
def execAlightLanded (s : State) : Out :=
  match s.findCap s.subj with
  | none => .next s
  | some (cl, k) =>
    match k.st, k.op with
    | .landing ws, .alight l home =>
      let held := s.hostHeld [l]
      if !held.isEmpty then .next (s.snoop held)
      else
        let bytes := (ws.flatMap (fun w => natBytes 8 w.toNat)).zipIdx.map (fun e => (locOff l e.2, e.1, 0xFF#8))
        match s.writeHome home bytes true with
        | some s => .next (s.putCap cl { k with st := .landed s.cyc })
        | none => .next s
    | .landed _, _ =>
      let st := stationOf cl
      let c := s.car k.car
      if passes s.cyc st k.car && k.st.stationDue s.cyc then
        .next ((s.setCar k.car c.empty).putCap cl { k with st := .done 0 0 (c.passRev s.cyc st) (crossAt s.cyc 7 + 4) })
      else .next s
    | _, _ => .next s

-- completion (R144, R350, R356)

/-- The completion word (R350). -/
def capWord (ind : Nat) (rev : BitVec 16) : Word := (0#45 ++ BitVec.ofNat 3 ind ++ rev : BitVec 64)

/-- A membership word (R150). -/
def memberWord (m : Nat) (valid : Bool) (idx : Nat) : Word :=
  (BitVec.ofNat 32 m ++ 0#15 ++ BitVec.ofBool valid ++ BitVec.ofNat 16 idx : BitVec 64)

def memValid (w : Word) : Bool := w.getLsbD 16
def memIndex (w : Word) : Nat := (w.extractLsb' 0 16).toNat

/-- The membership after a completed CARRIVE (R356, R448). -/
def memberAfter (op : CapOp) (old : Word) (idx : Nat) (v : Word) (ind : Nat) : Word :=
  match op, ind with
  | .join, 0 => memberWord (v.toNat % 2 ^ 32) true idx
  | .arrive, 0 => memberWord (v.toNat % 2 ^ 32 + 1) true idx
  | .arrive, 3 => memberWord (v.toNat % 2 ^ 32) true idx
  | .depart, 0 => memberWord 0 false 0
  | .depart, 1 => memberWord 0 false 0
  | _, _ => old

/-- The barrier fault's tval (R449). -/
def barrierTval (reason idx : Nat) : Word := BitVec.ofNat 64 (reason + idx * 65536)

-- the instructions (R349, R351)

/-- The thread's window index, checked (R139, R351): the absolute carriage. -/
def windowCar (writes : Bool) (idx : Nat) : M Nat := do
  let l ← myLaunch
  if l.winCount ≤ idx ∨ (writes ∧ idx = 0) then trap cWindow (BitVec.ofNat 64 idx)
  pure (l.winBase + idx)

/-- Issue a capture of the thread: its results pend, or the thread sleeps. -/
def issueCap (d : BitVec 6) (pair : Bool) (car w : Nat) (op : CapOp) (mem : Nat) (mword : Word) (acq : Bool) : M Unit := do
  let s ← getS
  let x := s.slotAt s.cur
  let c : Cap := ⟨0, placeNum s.cur.pl * 8 + s.cur.k, some s.cur, x.launch, d, car, w, op, mem, mword, acq, 0, .queued⟩
  if op.sleeps then do
    modS (fun s => s.submit (placeNum s.cur.pl) c)
    sleepTurn (match op with
      | .phase _ => .cphase
      | _ => .cwait)
  else do
    if d ≠ 0 then do
      markPend (pregOf d)
      if pair then markPend (pregOf (d + 1))
    modS (fun s => s.submit (placeNum s.cur.pl) c)
    done

/-- The request of a sleeping CWAIT or CPHASE is already at its station. -/
def asleepInCap : M Bool := do
  let s ← getS
  let c := s.cluster (clusterOf s.cur.pl)
  pure (c.caps.any (fun k => k.sid == some s.cur && k.op.sleeps) || c.heldCaps.any (fun k => k.2.sid == some s.cur && k.2.op.sleeps))

/-- A capture on one word or carriage (R351): registers, gate, window, release, request. -/
def capture (o : CarOp) (us : List Use) (writes : Bool) (mk : Slot → CapOp) (s : State) : Out := run (do
  needCore
  prep ((if o.d = 0 then [] else [.dst (gf o.d), .dst (gf (o.d + 1))]) ++ [.src (gf o.a)] ++ us)
  accessGate
  if ← asleepInCap then loseTurn
  let x ← slot
  let idx := ((x.gr o.a).setWidth 16).toNat + o.idx.toNat
  let car ← windowCar writes idx
  if o.d ≠ 0 then pendRoom 2
  if o.rel then release 4
  issueCap (o.d.setWidth 6) true car o.w.toNat (mk x) 0 0 o.acq) s

def execCload (o : CarOp) (s : State) : Out := capture o [] false (fun _ => .load) s
def execCop (o : CarOp) (op : BitVec 4) (s : State) : Out := capture o [.src (gf o.b)] true (fun x => .cop op (x.gr o.b)) s
def execCcas (o : CarOp) (s : State) : Out :=
  capture o [.src (gf o.b), .src (gf o.d)] true (fun x => .ccas (x.gr o.d) (x.gr o.b)) s
def execCstore (o : CarOp) (s : State) : Out := capture o [.src (gf o.b)] true (fun x => .store false (x.gr o.b)) s
def execCstoreSeat (o : CarOp) (s : State) : Out := capture o [.src (gf o.b)] true (fun x => .store true (x.gr o.b)) s
def execCwait (o : CarOp) (cond : BitVec 3) (s : State) : Out :=
  capture o [.src (gf o.b)] false (fun x => .cwait cond (x.gr o.b)) s
def execCphase (o : CarOp) (s : State) : Out := capture o [.src (gf o.b)] false (fun x => .phase (x.gr o.b)) s

/-- BOARD and ALIGHT (R355). -/
def carMem (a b : BitVec 4) (idx : BitVec 16) (wr : Bool) (mk : Loc → Place → CapOp) (s : State) : Out := run (do
  needCore
  prep [.src (gf a), .dst (gf a), .src (gf b)]
  accessGate
  let x ← slot
  let i := ((x.gr b).setWidth 16).toNat + idx.toNat
  let car ← windowCar true i
  let ea := x.gr a
  let bs ← checkAccess 4 wr ea 64 64
  needHomes 4 wr ea bs
  if bs.any noSequence then violation 4 wr ea
  if a ≠ 0 then pendRoom 1
  if wr then release 4
  let s ← getS
  match bs.head? with
  | some b => issueCap (a.setWidth 6) false car 0 (mk b.loc (s.homeFirst bs)) 0 0 (!wr)
  | none => violation 4 wr ea) s

def execBoard (a b : BitVec 4) (idx : BitVec 16) (s : State) : Out := carMem a b idx false .board s
def execAlight (a b : BitVec 4) (idx : BitVec 16) (s : State) : Out := carMem a b idx true .alight s

/-- The membership that names a window index, and the first that is free (R356). -/
def memberOf (x : Slot) (idx : Nat) : Option Nat :=
  (List.range 2).find? (fun k => memValid ((x.member.toList[k]?).getD 0) && memIndex ((x.member.toList[k]?).getD 0) == idx)

def memberFree (x : Slot) : Option Nat := (List.range 2).find? (fun k => !(memValid ((x.member.toList[k]?).getD 0)))

/-- Another CARRIVE of the thread that is under way decides what this one finds: one on the same window index, or a join for a
join (DESIGN CHOICE, log 18). -/
def State.carriveBusy (s : State) (i : Sid) (join : Bool) (idx : Nat) : Bool :=
  let on (k : Cap) : Bool := k.sid == some i && k.op.barrier && ((k.mword.extractLsb' 0 16).toNat == idx || (join && k.op == .join))
  (s.cluster (clusterOf i.pl)).caps.any on || (s.cluster (clusterOf i.pl)).heldCaps.any (fun k => on k.2)

/-- CARRIVE (R356, R449): the membership checks, then the request. -/
def carrive (o : CarOp) (op : CapOp) (s : State) : Out := run (do
  needCore
  prep ((if o.d = 0 then [] else [.dst (gf o.d), .dst (gf (o.d + 1))]) ++ [.src (gf o.a)])
  accessGate
  let x ← slot
  let idx := ((x.gr o.a).setWidth 16).toNat + o.idx.toNat
  let car ← windowCar true idx
  let s0 ← getS
  if s0.carriveBusy s0.cur (op == .join) idx then loseTurn
  let mem ← (match op, memberOf x idx, memberFree x with
    | .join, some _, _ => trap cBarrier (barrierTval 1 idx)
    | .join, none, none => trap cBarrier (barrierTval 2 idx)
    | .join, none, some k => pure k
    | _, some k, _ => pure k
    | _, none, _ => trap cBarrier (barrierTval 4 idx))
  if o.d ≠ 0 then pendRoom 2
  if o.rel then release 4
  let mw := match op with
    | .join => BitVec.ofNat 64 idx
    | _ => (x.member.toList[mem]?).getD 0
  issueCap (o.d.setWidth 6) true car 0 op mem mw o.acq) s

def execCarriveJoin (o : CarOp) (s : State) : Out := carrive o .join s
def execCarriveArrive (o : CarOp) (s : State) : Out := carrive o .arrive s
def execCarriveDepart (o : CarOp) (s : State) : Out := carrive o .depart s

/-- Queue a capture that leaves slot k of a core with no result to come (R153): a depart or a poison of a membership. -/
def State.queueOwn (s : State) (core k launch : Nat) (op : CapOp) (mword : Word) : State :=
  match s.launch? launch with
  | none => s
  | some l => s.submit core ⟨0, core * 8 + k, none, launch, 0, l.winBase + memIndex mword, 0, op, 0, mword, false, 0, .queued⟩

/-- One capture for each valid membership of a thread. -/
def State.queueMembers (s : State) (core k launch : Nat) (op : CapOp) (member : Vector Word 2) : State :=
  member.toList.foldl (fun s w => if memValid w then s.queueOwn core k launch op w else s) s

/-- The departs of a slot that have not reached their station's queue (R153). -/
def State.departsOut (s : State) (core k : Nat) : Bool :=
  let c := s.cluster (core / 4)
  let mine (x : Cap) : Bool := x.key == core * 8 + k && x.sid.isNone && x.op == .depart
  c.heldCaps.any (fun x => mine x.2) || c.caps.any (fun x => mine x && decide (s.cyc < x.arrive))

end Sys2Proof.Machine
end

