-- ==== Sys2Proof/Machine/System.lean ====
section
/-! DEFINITION. System instructions: traps, returns, special registers, sleep and wake, translations, events (R217-R219,
R230-R238, R241, R244, R245, R438). -/

namespace Sys2Proof.Machine

def execNop (s : State) : Out := run done s

/-- An unassigned opcode raises the illegal-instruction trap with the word in tval (R438). -/
def execUnassignedOpcode (w : Word) (s : State) : Out := run (trap cIllegal w) s

/-- A supervisor instruction in user mode raises the privilege trap (R217). -/
def needSup : M Unit := do
  let s ← getS
  if (s.slotAt s.cur).mode = .user then trap cPrivilege s.word

/-- TRAP (R232). With the cause of a system call it goes back to its origin core, where Umber ends its thread
(R415, R437; DEDUCED, log 85). -/
def execTrap (a : BitVec 6) (cause : BitVec 16) (s : State) : Out := run (do
  if cause = cSysc then needCore
  prep [.src (plain a)]
  let s0 ← getS
  let v ← rg (plain a)
  if cause = cSysc then fun _ => .error (.next (s0.raiseKill s0.cur ⟨cause, v, 0xFF, none, none⟩)) else trapFrom s0 cause v) s

/-- The registers that a system call passes: its arguments g1 to g9 and its result g1 (R233). -/
def syscUses : List Use := (List.range 9).map (fun n => .src (gf (BitVec.ofNat 4 (n + 1))))

/-- SYSC (R233): none of the registers it passes is pending (R29). -/
def execSysc (n : BitVec 32) (s : State) : Out := run (do
  prep syscUses
  trap cSysc (n.setWidth 64)) s

/-- ERET (R234). -/
def execEret (s : State) : Out := run (do
  needSup
  modSlot Slot.eret) s

/-- The registers that a return from an interrupt handler writes (R235). -/
def uretUses (h : Handler) : List Use :=
  match h with
  | .interrupt => .pw :: (List.range 5).map (fun n => .dst (gf (BitVec.ofNat 4 (n + 11))))
  | _ => []

/-- URET (R235): none of the registers it restores is pending (R29). -/
def execUret (s : State) : Out := run (do
  prep (uretUses (← slot).handler)
  match (← slot).uret with
  | some x => modSlot (fun _ => x)
  | none => illegal) s

-- special registers (R218)

/-- The queue of a thread's launch, 256 for none: the key of register 0x120 (R218). -/
def State.queueKey (s : State) (i : Sid) : Nat :=
  match s.launch? (s.slotAt i).launch with
  | some l => l.queue
  | none => 256

/-- The core number a thread reports: on a slice core, of its origin core (R53). -/
def State.coreId (s : State) (i : Sid) : Nat :=
  match i.pl with
  | .core n => n
  | .slice _ => (s.slotAt i).origin.toNat

/-- The value of a special register; none for a number no chapter defines. -/
def State.special (s : State) (i : Sid) (num : Nat) : Option Word :=
  let x := s.slotAt i
  let c := s.at' i.pl
  if 0x100 ≤ num ∧ num < 0x108 then c.owners.toList[num - 0x100]?
  else
    match num with
    | 0x000 => some (x.status.setWidth 64)
    | 0x001 => some x.wid
    | 0x002 => some (s.hdrWord i 3)
    | 0x003 => some (s.hdrWord i 2)
    | 0x004 => some x.mgeo
    | 0x005 => some x.ix
    | 0x006 => some x.fshadow
    | 0x007 => some x.sshadow
    | 0x008 => some (BitVec.ofNat 64 (s.coreId i))
    | 0x009 => some (BitVec.ofNat 64 i.k)
    | 0x010 => some x.utvec
    | 0x011 => some x.uivec
    | 0x012 => some x.tcause
    | 0x013 => some x.tval
    | 0x014 => some x.tpc
    | 0x015 => some x.tseq
    | 0x020 => some (x.budget.setWidth 64)
    | 0x030 => some (BitVec.ofNat 64 x.launch)
    | 0x031 => some (x.bucket.setWidth 64)
    | 0x040 => some (s.hdrWord i 5)
    | 0x050 => some ((s.hdrWord i 9).setWidth 32 |>.setWidth 64)
    | 0x110 => some (c.refill.setWidth 64)
    | 0x120 => some (s.rootOf i)
    | 0x130 => some c.steal
    | 0x140 => some x.sepc
    | 0x141 => some (match x.smode with
      | .user => 0
      | .supervisor => 1)
    | 0x142 => some c.svec
    | 0x150 => some c.ctxArea
    | 0x160 => some x.fdetail
    | _ => none

/-- A write of a special register, with the fields that it may change (R121, R124, R218, R219, R404, R413); an RO register
ignores it. -/
def State.setSpecial (s : State) (i : Sid) (num : Nat) (v : Word) : State :=
  let x := s.slotAt i
  let c := s.at' i.pl
  match num with
  | 0x000 => s.setSlot i { x with status := (v &&& 0x1FF).setWidth 32 }
  | 0x004 => s.setSlot i { x with mgeo := v }
  | 0x005 => s.setSlot i { x with ix := v }
  | 0x006 => s.setSlot i { x with fshadow := v &&& fshadowMask }
  | 0x007 => s.setSlot i { x with sshadow := v &&& sshadowMask }
  | 0x010 => s.setSlot i { x with utvec := clear3 v }
  | 0x011 => s.setSlot i { x with uivec := clear3 v }
  | 0x012 => s.setSlot i { x with tcause := v &&& tcauseMask }
  | 0x013 => s.setSlot i { x with tval := v }
  | 0x014 => s.setSlot i { x with tpc := v }
  | 0x120 => s.setAt i.pl { c with roots := tabSet c.roots (s.queueKey i) (v &&& 0x000FFFFFFFFF00FF) }
  | 0x130 => s.setAt i.pl { c with steal := v &&& 0x0007FFFFFFFFFFFF }
  | 0x140 => s.setSlot i { x with sepc := clear3 v }
  | 0x141 => s.setSlot i { x with smode := if v.getLsbD 0 then .supervisor else .user }
  | 0x142 => s.setAt i.pl { c with svec := clear3 v }
  | 0x150 => s.setAt i.pl { c with ctxArea := v &&& 0xFFFFFFFFFFFFE000 }
  | _ => s

/-- MFS (R236): numbers from 0x100 on are supervisor-only (R217) (DEDUCED, log 30). -/
def execMfs (d : BitVec 6) (num : BitVec 9) (s : State) : Out := run (do
  if 0x100 ≤ num.toNat then needSup
  if (s.special s.cur num.toNat).isNone then illegal
  prep ([.dst (plain d)] ++ (if num.toNat = 5 then [.src (plain 0x19)] else []))
  match (← getS).special s.cur num.toNat with
  | some v => do
    wg 4 (plain d) v
    done
  | none => illegal) s

/-- MTS (R236). -/
def execMts (a : BitVec 6) (num : BitVec 9) (s : State) : Out := run (do
  if 0x100 ≤ num.toNat then needSup
  if (s.special s.cur num.toNat).isNone then illegal
  prep ([.src (plain a)] ++ (if num.toNat = 5 then [.dst (plain 0x19)] else []))
  let v ← rg (plain a)
  modS (fun s => s.setSpecial s.cur num.toNat v)
  done) s

/-- MTS to a slot owner register (R58): effective and the reserved bits keep their values. -/
def execSlotOwnerWrite (n : BitVec 3) (a : BitVec 6) (s : State) : Out := run (do
  needSup
  prep [.src (plain a)]
  let v ← rg (plain a)
  modCore (fun c =>
    let w := (v &&& 0x3000000FF) ||| (((c.owners.toList[n.toNat]?).getD 0) &&& 0xFF000000)
    { c with owners := c.owners.setIfInBounds n.toNat w })
  done) s

/-- A write of the refill level sets every budget counter of the core (R62). -/
def CoreSt.setRefill (c : CoreSt) (v : BitVec 32) : CoreSt :=
  { c with refill := v,
           slots := (List.range 8).foldl (fun t k => tabSet t k { tabGet slotReset t k with budget := v }) c.slots }

/-- MTS to the refill level (R62). -/
def execRefillLevelWrite (a : BitVec 6) (s : State) : Out := run (do
  needSup
  prep [.src (plain a)]
  let v ← rg (plain a)
  modCore (fun c => c.setRefill (v.setWidth 32))
  done) s

-- sleep and wake (R237, R238)

/-- SLEEP: a set wake bit ends it at once; else the thread sleeps until a wake or its interval's end. -/
def execSleep (n : BitVec 32) (s : State) : Out := run (do
  let s ← getS
  let x := s.slotAt s.cur
  match x.asleep with
  | some z =>
    match z.till with
    | some t =>
      if t ≤ s.cyc then do
        modSlot (fun x => { x with timedOut := some s.cyc })
        done
      else loseTurn
    | none => loseTurn
  | none =>
    if x.wake then do
      modSlot (fun x => { x with wake := false })
      done
    else do
      modSlot (fun x => { x with asleep := some ⟨s.cyc, .sleep, if n = 0 then none else some (s.cyc + n.toNat)⟩ })
      stop) s

/-- WAKE sends a wake to core Gpr(a)[11:0], slot Gpr(a)[14:12]. -/
def execWake (a : BitVec 6) (s : State) : Out := run (do
  prep [.src (plain a)]
  let v ← rg (plain a)
  let x ← slot
  let n := (v.extractLsb' 0 12).toNat
  modS (fun s => s.send x.launch s.cur.pl (.core n) (some s.cur) (.wake n (v.extractLsb' 12 3).toNat))
  done) s

-- TLBINV (R241)

/-- Drop translations everywhere: every micro-TLB and cluster TLB (DESIGN CHOICE, log 31). -/
def State.tlbDrop (s : State) (f : TlbEntry → Bool) : State :=
  let keep (l : List TlbEntry) : List TlbEntry := l.filter (fun e => !(f e))
  { s with
    cores := s.cores.map (fun e => (e.1, { e.2 with utlb := keep e.2.utlb })),
    slices := s.slices.map (fun e => (e.1, { e.2 with utlb := keep e.2.utlb })),
    clusters := s.clusters.map (fun e => (e.1, { e.2 with tlb := keep e.2.tlb })) }

def execTlbinvPage (a : Fld) (s : State) : Out := run (do
  needSup
  prep [.src a]
  let v ← rg a
  let s ← getS
  let asid := asidOf (s.rootOf s.cur)
  modS (fun s => s.tlbDrop (fun e => e.asid == asid && e.page == v.toNat / 2 ^ e.shift))
  done) s

def execTlbinvAsid (a : Fld) (s : State) : Out := run (do
  needSup
  prep [.src a]
  let v ← rg a
  modS (fun s => s.tlbDrop (fun e => e.asid == v.setWidth 8))
  done) s

def execTlbinvAll (s : State) : Out := run (do
  needSup
  modS (fun s => s.tlbDrop (fun _ => true))
  done) s

/-- The launch id of a thread's launch, and its queue (R398). -/
def State.lidOf (s : State) (i : Sid) : Word :=
  match s.launch? (s.slotAt i).launch with
  | some l => l.lid
  | none => 0

def State.eventQueue (s : State) (i : Sid) : Option Nat := (s.launch? (s.slotAt i).launch).map (fun l => l.queue)

/-- HEVENT (R244). -/
def execHevent (a : BitVec 6) (code : BitVec 16) (s : State) : Out := run (do
  needSup
  prep [.src (plain a)]
  let v ← rg (plain a)
  modS (fun s => s.postEvent code (eventLoc s.cur (s.eventQueue s.cur)) v (s.lidOf s.cur) (s.eventQueue s.cur))
  done) s

/-- CYC (R245). -/
def execCyc (d : BitVec 6) (s : State) : Out := run (do
  prep [.dst (plain d)]
  let s ← getS
  wg 4 (plain d) (BitVec.ofNat 64 s.cyc)
  done) s

end Sys2Proof.Machine
end

