-- ==== Sys2Proof/Machine/Life.lean ====
section
/-! DEFINITION. The end of a thread: EXIT, the exit packet, kills by Umber, and what a slot gives up (R153, R231, R276,
R317, R347, R415, R434). -/

namespace Sys2Proof.Machine

/-- An endpoint that its thread leaves: closed; grants that arrived for it stay (R456), and so does one that is bound to a
saved context (R418). -/
def Endpoint.left (e : Endpoint) : Endpoint :=
  if e.saved then e else { e with opened := false, peer := 0, allow := 0, buf := [], outst := 0 }

/-- The slot without its thread: the budget counter (R61) and the tag count of its engine commands (R333) stay. -/
def Slot.freed (x : Slot) : Slot :=
  { slotReset with
    budget := x.budget, tags := x.tags, lastIssue := x.lastIssue, lastSeq := x.lastSeq, eps := x.eps.map Endpoint.left }

/-- Free a slot; what leaves may end the bank launch (R35). -/
def State.freeSlot (s : State) (i : Sid) : State := (s.setSlot i (s.slotAt i).freed).bankCheckAt i.pl

/-- Words of the thread's send endpoints are still on their way (R347). -/
def State.wordsOut (s : State) (i : Sid) : Bool :=
  s.flights.any (fun f => f.sid == some i && (match f.body with
    | .chWord .. => true
    | _ => false))

/-- A tile operation of a slot is queued or running (R317). -/
def CoreSt.tileWork (c : CoreSt) (k : Nat) : Bool :=
  c.qlo.any (fun e => e.slot == k && e.done.isNone) || c.qhi.any (fun e => e.slot == k && e.done.isNone)

/-- The running tile operation belongs to a slot. -/
def CoreSt.tileRuns (c : CoreSt) (k : Nat) : Bool := c.qlo.any (fun e => e.slot == k && e.running) || c.qhi.any (fun e => e.slot == k && e.running)

/-- The slot's matrix entries leave both queues and its accumulator has no owner. -/
def CoreSt.dropTiles (c : CoreSt) (k : Nat) : CoreSt :=
  { c with
    qlo := c.qlo.filter (fun e => e.slot != k), qhi := c.qhi.filter (fun e => e.slot != k),
    acc := c.acc.map (fun (a : Acc) => if a.owner = some k then { a with owner := none } else a) }

/-- The cause with which a discarded failed completion counts (R434). -/
def statusCause (st : BitVec 8) : BitVec 16 := if st = 6 then cData else cAccess

/-- Count the failed ones among completions that are discarded (R434). -/
def State.countDiscarded (s : State) (launch : Nat) (i : Sid) (l : List Completion) : State :=
  l.foldl (fun s c => if c.status = 0 then s else s.countFault launch 1 (statusCause c.status) (locWord i)) s

/-- Release the residency slots a thread holds: its RESIDE blocks, and its footprint at its placement core (R69, R276). -/
def State.releaseRes (s : State) (i : Sid) : State :=
  let x := s.slotAt i
  let s := match i.pl with
    | .core n => s.freeRes n x.reside
    | .slice _ => s
  match x.foot with
  | none => s
  | some r => s.freeRes x.placement.toNat [r]

/-- The stage number of a thread in EXIT: it finishes before a vacate (R416). -/
def exitStage : Nat := 7

/-- Step 1 of EXIT is over (R231). -/
def State.exitReady (s : State) (i : Sid) : Bool :=
  let x := s.slotAt i
  x.pend.isEmpty && !(s.storesOut i (fun _ => true)) && x.seqr.isNone &&
  !(s.cmds.any (fun c => .core c.core == i.pl && c.slot == some i.k && !c.disc)) && !(s.wordsOut i) && !((s.at' i.pl).tileWork i.k) &&
  !(s.carriveOut i) && !(s.repliesOut i)

/-- The stage number of a thread in EXIT whose departs are on their way to the station's queue (R153). -/
def departStage : Nat := 8

/-- EXIT (R231): the thread's departs must be queued before its slot is free (R153). -/
def execExit (s : State) : Out := run (do
  if (← slot).stage ≠ departStage then modSlot (fun x => { x with stage := exitStage })
  let s ← getS
  let x := s.slotAt s.cur
  if !(s.exitReady s.cur) then holdTurn
  match s.cur.pl with
  | .core n => do
    if x.stage ≠ departStage ∧ x.member.toList.any memValid then do
      modS (fun s => s.queueMembers n s.cur.k x.launch .depart x.member)
      modSlot (fun x => { x with stage := departStage })
      holdTurn
    if s.departsOut n s.cur.k then holdTurn
    match s.addDelta n x.launch x.bucket.toNat (-1) with
    | none => holdTurn
    | some t => do
      setS (t.countDiscarded x.launch s.cur (x.fifo ++ x.ints ++ x.heldC))
      modS (fun s => s.orphanCaps s.cur)
      modS (fun s => s.releaseRes s.cur)
      modS (fun s => s.countTasks n x.launch 0 1)
      modCore (fun c => c.dropTiles s.cur.k)
      modS (fun s => s.freeSlot s.cur)
  | .slice _ => do
    modS (fun s => s.send x.launch s.cur.pl (.core x.origin.toNat) none (.exit x.origin.toNat x.bucket x.placement x.member x.foot))
    modS (fun s => s.freeSlot s.cur)) s

/-- EXIT_PACKET_ARRIVAL of the flight numbered State.subj: the delta, the departs and the residency release at the origin
core (R231). The departs stand in the queue as of slot 0 of that core (DESIGN CHOICE, log 95). -/
def execExitPacketArrival (s : State) : Out :=
  match s.flight? s.subj with
  | some f =>
    match f.body with
    | .exit n bucket placement member foot =>
      match (if s.first f then s.addDelta n f.launch bucket.toNat (-1) else none) with
      | none => .next s
      | some t =>
        let t := (t.queueMembers n 0 f.launch .depart member).countTasks n f.launch 0 1
        let t := match foot with
          | none => t
          | some r => t.freeRes placement.toNat [r]
        .next ((t.dropFlight f.id).bankCheck n)
    | _ => .next s
  | none => .next s

/-- What a thread that is gone has in transit: its results come to nobody, its writes go on. -/
def State.orphanFlights (s : State) (i : Sid) : State :=
  { s with flights := s.flights.filterMap (fun (f : Flight) =>
    if f.sid = some i then
      match f.body with
      | .load .. => none
      | .vload .. => none
      | .reqLoad .. => none
      | .result .. => none
      | .reqAtomic _ loc op sc => some { f with sid := none, body := .reqAtomic 0 loc op sc }
      | _ => some { f with sid := none }
    else some f) }

/-- What a kill waits for: the running tile operation, the words of the thread's endpoints, room for its delta (R415). -/
def State.killReady (s : State) (i : Sid) : Bool :=
  let x := s.slotAt i
  !((s.at' i.pl).tileRuns i.k) && !(s.wordsOut i) && (s.addDelta (placeNum i.pl) x.launch x.bucket.toNat (-1)).isSome

/-- End the thread of a slot of a compute core without its EXIT (R415 steps 2 to 6); `poison` its barriers. -/
def State.killThread (s : State) (i : Sid) (poison : Bool) : State :=
  let x := s.slotAt i
  let n := placeNum i.pl
  let s := ((s.withdrawCaps i).orphanCaps i).orphanFlights i
  let s := if poison then s.queueMembers n i.k x.launch .poison x.member else s
  let s := (s.addDelta n x.launch x.bucket.toNat (-1)).getD s
  let s := s.countTasks n x.launch 0 1
  let s := s.releaseRes i
  let s := s.countDiscarded x.launch i (x.fifo ++ x.ints ++ x.heldC)
  let s := { s with cmds := s.cmds.map (fun (c : Cmd) => if Place.core c.core = i.pl ∧ c.slot = some i.k then { c with disc := true } else c) }
  let s := s.setAt i.pl ((s.at' i.pl).dropTiles i.k)
  s.freeSlot i

/-- Umber kills the thread of a slot for its trap (R415): 1 + tcause.lost faults with the trap's cause and location. -/
def State.killFor (s : State) (i : Sid) : State :=
  let x := s.slotAt i
  let s := s.countFault x.launch (1 + (x.tcause.extractLsb' 40 8).toNat) (x.tcause.extractLsb' 0 16) (locWord i)
  s.killThread i true

end Sys2Proof.Machine
end

