-- ==== Sys2Proof/Machine/Late.lean ====
section
/-! DEFINITION. Dispatch records and late faults (R406-R409), and the delivery of what waits for a slot's turn (R237, R337,
R407, R414). -/

namespace Sys2Proof.Machine

def Slot.rec' (x : Slot) (seq : BitVec 16) : DispRec := (x.ring.toList[seq.toNat % 64]?).getD ⟨0, 0, 0⟩

def Slot.setRec (x : Slot) (seq : BitVec 16) (r : DispRec) : Slot := { x with ring := x.ring.setIfInBounds (seq.toNat % 64) r }

/-- Mark a record completed or faulted. -/
def Slot.markRec (x : Slot) (seq : BitVec 16) (st : BitVec 3) : Slot := x.setRec seq { x.rec' seq with st := st }

/-- The next ring entry still holds a dispatched instruction (R406). -/
def Slot.ringBusy (x : Slot) : Bool := (x.rec' x.dseq).st == 1

/-- Number an instruction: its record is written in state `st` (R406). -/
def Slot.dispatch (x : Slot) (op : Nat) (st : BitVec 3) (pc : Word) : Slot :=
  { x.setRec x.dseq ⟨BitVec.ofNat 8 op, st, pc.extractLsb' 3 53⟩ with dseq := x.dseq + 1 }

/-- A fault that comes to a thread between its instructions wakes it and ends its departure, be it one with a trap of a slice
core, whose instruction is executed again; a waiting CWAIT or CPHASE is
withdrawn, its pc left at it (R407, R408). -/
def State.rouse (s : State) (i : Sid) : State :=
  let x := { s.slotAt i with asleep := none }
  let x := match x.hold with
    | .depart _ _ _ => { x with hold := .none }
    | _ => x
  (s.setSlot i x).withdrawCaps i

/-- A late fault of a slot (R407-R409): recorded, or counted as lost; it wakes a sleeper, ends a departure and drops the
body of the sequencer that raised it. -/
def State.lateFault (s : State) (i : Sid) (lf : LateFault) (fromSeq : Bool) : State :=
  let x := s.slotAt i
  let x := match lf.seq with
    | some q => x.markRec q 3
    | none => x
  let x := if fromSeq then { x with seqr := none } else x
  if x.late.isSome || x.lateRun then s.setSlot i (x.noteLate lf) else (s.setSlot i (x.noteLate lf)).rouse i

/-- CAPTURE_COMPLETION of the request numbered State.subj: its result reaches its thread (R144, R350, R356), and the request
gives up its entry at the station, which it keeps until then (DESIGN CHOICE, log 76). The overflow of a join is taken at the
slot's next turn, the EXIT that waited for it ends (R356). R446 names no tval of the data error
that a failed BOARD raises: a free value (log 4). -/
def execCaptureCompletion (s : State) : Out :=
  match s.findCap s.subj with
  | none => .next s
  | some (cl, k) =>
    match k.st with
    | .done v ind rev due =>
      if s.cyc < due ∨ !(s.turnPast? k.sid) then .next s
      else
        let s1 := s.dropCap cl k.id
        match k.sid with
        | none => .next s1
        | some i =>
          let shown := if ind = 8 then 0 else if ind = 9 then 1 else ind
          let isMem := match k.op with
            | .board _ _ => true
            | .alight _ _ => true
            | _ => false
          let s2 :=
            if isMem then s1.deliver i k.d (capWord shown rev)
            else if k.d = 0 then s1
            else (s1.deliver i k.d v).deliver i (k.d + 1) (capWord shown rev)
          let s3 :=
            if k.op.barrier && decide (ind < 8) then
              let x := s2.slotAt i
              let m := memberAfter k.op ((x.member.toList[k.mem]?).getD 0) (k.mword.extractLsb' 0 16).toNat v ind
              s2.setSlot i { x with member := x.member.setIfInBounds k.mem m }
            else s2
          let s4 := if k.op.sleeps then s3.setSlot i (s3.slotAt i).advance else s3
          let s5 := if k.acq then s4.dropL1 i.pl (fun _ => true) else s4
          let s6 :=
            if ind = 8 then (s5.setSlot i { s5.slotAt i with
              hold := if (s5.slotAt i).hold = .held then .none else (s5.slotAt i).hold,
              sliceTrap := some ⟨cBarrier, barrierTval 3 (k.mword.extractLsb' 0 16).toNat, 0, false⟩ }).rouse i
            else if ind = 9 then ({ s5 with fresh := s5.fresh + 1 }).lateFault i ⟨cData, Config.free s5.fresh, 0xFF, none, none⟩ false
            else s5
          .next s6
    | _ => .next s

/-- The late fault of a slot is taken: tcause.late is set, tseq names the record, tpc is the next instruction (R407). -/
def State.deliverLate (s : State) (i : Sid) : State :=
  match (s.slotAt i).late with
  | none => s
  | some lf =>
    (s.setSlot i { s.slotAt i with late := none }).raiseLate i ⟨lf.cause, lf.tval, lf.lane, lf.seq, lf.detail⟩

/-- The slot may take something at its turn now: it holds a thread that is not out of the rotation. -/
def State.atTurn (s : State) (i : Sid) : Bool :=
  let x := s.slotAt i
  s.cyc % 8 == i.k && x.busy && x.hold == .none && x.umber.isNone

/-- LATE_FAULT_DELIVERY. -/
def execLateFaultDelivery (core slot : Nat) (s : State) : Out :=
  let i : Sid := ⟨.core core, slot⟩
  if s.atTurn i && (s.slotAt i).handler == .none then .next (s.deliverLate i) else .next s

/-- SLICE_CORE_TRAP_RETURN: the trap that a thread brought back from a slice core, or the overflow of its join, is taken
(R414, R356). -/
def execSliceCoreTrapReturn (slice slot : Nat) (s : State) : Out :=
  let i : Sid := ⟨.core slice, slot⟩
  match (s.slotAt i).sliceTrap with
  | some t =>
    if s.atTurn i then
      let s := s.setSlot i { s.slotAt i with sliceTrap := none }
      let e : Trap := ⟨t.cause, t.tval, 0xFF, none, some t.detail⟩
      .next (if t.late then s.raiseLate i e else s.raise i e)
    else .next s
  | none => .next s

/-- SLEEP_TIMEOUT: the sleep ends at the first turn at or after its interval's end (R237) (DEDUCED, log 62). -/
def execSleepTimeout (pl : Place) (slot : Nat) (s : State) : Out :=
  let i : Sid := ⟨pl, slot⟩
  match (s.slotAt i).asleep with
  | some ⟨_, .sleep, some t⟩ => if t ≤ s.cyc ∧ s.atTurn i then .next (s.setSlot i { (s.slotAt i).advance with timedOut := some s.cyc }) else .next s
  | _ => .next s

end Sys2Proof.Machine
end

