-- ==== Sys2Proof/Machine/Streams.lean ====
section
/-! DEFINITION. The frame of a vector instruction: environment, masks, streams, energy charges, dispatch (R61-R64,
R293, R305-R307, R309, R314, R406), and the accesses that never trap their thread. -/

namespace Sys2Proof.Machine

-- accesses of agents that report their faults late (R275, R306, R425, R429)

/-- A failed access: cause, tval, fault detail. -/
structure AccFault where
  cause : BitVec 16
  tval : Word
  detail : Word
  deriving DecidableEq, Repr, Inhabited

/-- The bytes of an access after the checks of R264, or its fault, with the translations that `xl` gives. The own alias is that
of the place State.cur. -/
def State.accessWith (s : State) (xl : Word → WalkRes) (agent : BitVec 3) (wr : Bool) (ea : Word) (n align : Nat) : Except AccFault (List PByte) :=
  let vas := (List.range n).map (fun i => ea.toNat + i)
  if vas.any (fun a => (apertureByte s a).isNone) then .error ⟨cAccess, ea, detail agent wr 0xF 4⟩
  else if ea.toNat % align ≠ 0 then .error ⟨cAlign, ea, detail agent wr 0xF 5⟩
  else
    let r := vas.foldlM (fun (acc : List PByte) a => do
      match regionOf a with
      | .virt =>
        match xl (BitVec.ofNat 64 a) with
        | .leaf pte sh =>
          if wr && pteRo pte then Except.error (⟨cPage, BitVec.ofNat 64 a, detail agent wr (levelOf sh) 2⟩ : AccFault)
          else
            let p := pteAddr pte sh (BitVec.ofNat 64 a)
            Except.ok (acc ++ [(⟨a, if pteHost pte then .host p else .dev p, pte, sh⟩ : PByte)])
        | .fail lvl kind => Except.error ⟨cPage, BitVec.ofNat 64 a, detail agent wr lvl kind⟩
      | _ =>
        match apertureByte s a with
        | some l => Except.ok (acc ++ [(⟨a, l, 0, 0⟩ : PByte)])
        | none => Except.error ⟨cAccess, ea, detail agent wr 0xF 4⟩) []
    match r with
    | .ok bs => if bs.any (fun b => (s.homeOf b).isNone) then .error ⟨cAccess, ea, detail agent wr 0xF 4⟩ else .ok bs
    | .error e => .error e

/-- The access of an agent in an address space: translation by the cluster TLB, in which a walk has put the page (State.warm). To
an agent a bank that is leaving SCRATCH is gone (R430, R431). -/
def State.accessBy (s : State) (root : Word) (agent : BitVec 3) (wr : Bool) (ea : Word) (n align : Nat) : Except AccFault (List PByte) :=
  match s.accessWith (s.xlate (clusterOf s.cur.pl) root) agent wr ea n align with
  | .error f => .error f
  | .ok bs => if bs.any (fun b => s.bankGone (placeNum s.cur.pl) b.va) then .error ⟨cAccess, ea, detail agent wr 0xF 4⟩ else .ok bs

/-- The same in the address space of the thread of State.cur. -/
def State.quietAccess (s : State) (agent : BitVec 3) (wr : Bool) (ea : Word) (n align : Nat) : Except AccFault (List PByte) :=
  s.accessBy (s.rootOf s.cur) agent wr ea n align

/-- A byte of an access lies in a line with an uncorrectable soft error (R464). -/
def State.bytePoison (s : State) (b : PByte) : Bool :=
  match b.loc with
  | .dev p => s.poison.contains (p / 128)
  | _ => false

-- the environment of an instruction

/-- Where a vector instruction takes ix, masks and its VBCAST source from: the thread, or a sequencer's snapshots
(R308). `word` and `pc` are its own. -/
structure VEnv where
  seq : Bool
  ix : Word
  gs : Vector Word 16
  bc : Word
  word : Word
  pc : Word
  /-- fields that name a register whose value is not read (R303) -/
  names : List Fld

/-- The environment of an instruction that the thread issues. -/
def threadEnv : M VEnv := do
  let s ← getS
  let x := s.slotAt s.cur
  pure ⟨false, x.ix, x.g, 0, s.word, x.pc, []⟩

/-- The code of a field in the environment (R206). -/
def VEnv.code (e : VEnv) (f : Fld) : BitVec 6 := if f.rel then BitVec.ofNat 6 (f.code.toNat + e.ix.toNat) else f.code

/-- The mask of a vector instruction: its bits, and whether every lane is active (R293). -/
def VEnv.mask (e : VEnv) (x : Slot) (c : BitVec 4) : BitVec 16 × Bool :=
  if c = 0 then (0xFFFF, true)
  else if e.seq then ((e.gs.toList[c.toNat]?).getD 0 |>.setWidth 16, false)
  else ((x.gr c).setWidth 16, false)

/-- Lane i of n is active (R293). -/
def laneOn (m : BitVec 16 × Bool) (n i : Nat) : Bool := m.2 || m.1.getLsbD (if n ≤ 16 then i else i * 16 / n)

def activeLanes (m : BitVec 16 × Bool) (n : Nat) : List Nat := (List.range n).filter (laneOn m n)

-- lanes

/-- Lane i of w bits. -/
def lane (w : Nat) (v : Vec) (i : Nat) : Nat := v.toNat / 2 ^ (w * i) % 2 ^ w

/-- A vector from its lanes, lowest first. -/
def ofLanes (w : Nat) (l : List Nat) : Vec := BitVec.ofNat 512 (l.foldr (fun x acc => x % 2 ^ w + 2 ^ w * acc) 0)

-- streams

def Stream.total (t : Stream) : Nat := t.b0 * t.b1 * t.b2

/-- The address of vector v (R305). -/
def Stream.addr (t : Stream) (v : Nat) : Word :=
  t.base + BitVec.ofNat 64 (v % t.b0) * t.s0 + BitVec.ofNat 64 (v / t.b0 % t.b1) * t.s1 + BitVec.ofNat 64 (v / t.b0 / t.b1) * t.s2

/-- The stream that a vector code names: f28 to f31 while configured. -/
def Slot.stream? (x : Slot) (c : BitVec 6) : Option (Nat × Stream) :=
  if 28 ≤ c.toNat ∧ c.toNat < 32 then ((x.streams.toList[c.toNat - 28]?).join).map (fun t => (c.toNat - 28, t)) else none

def Slot.setStream (x : Slot) (n : Nat) (t : Option Stream) : Slot := { x with streams := x.streams.setIfInBounds n t }

/-- Pushes of the thread that their homes have not acknowledged; one push may have gone out in several writes. -/
def State.pushesOut (s : State) (i : Sid) : Nat :=
  (s.flights.filterMap (fun f => match f.body with
    | .write _ _ st _ => if f.sid = some i then st else none
    | _ => none)).dedup.length

/-- The next vector of a read stream has arrived, or there is none. -/
def Stream.ready (t : Stream) : Bool := decide (t.total ≤ t.next) || t.ahead.any (fun p => p.idx == t.next && (p.got == 8 || p.fault.isSome))

/-- The pages of a vector of a stream of State.cur are in reach (R85). -/
def State.warmVector (s : State) (t : Stream) (v : Nat) : Option State :=
  s.warm (clusterOf s.cur.pl) (s.rootOf s.cur) (pagesOf (t.addr v).toNat 64)

/-- One 8-byte part of a vector of a read stream, whose pages are in reach, read now: its fault, or the part in place; none while the core has
something on its way to it (R93, R94), or its home has no room for its line (R75). -/
def State.prefetchPart (s : State) (t : Stream) (p : Prefetched) : Option (State × Prefetched) :=
  match s.quietAccess 2 false (t.addr p.idx) 64 8 with
  | .error f => some (s, { p with fault := some (f.cause, f.tval, f.detail) })
  | .ok bs =>
    let part := (bs.drop (8 * p.got)).take 8
    let src := s.srcs true true part
    if part.any s.bytePoison then some (s, { p with fault := some (cData, t.addr p.idx, 0) })
    else if !(part.all (fun b => s.quietAt s.cur.pl b.loc)) then none
    else
      (s.useLines (srcLines src)).map (fun u =>
        (u, { p with got := p.got + 1, val := p.val ||| (BitVec.ofNat 512 (ofBytes (src.map s.sample)) <<< (64 * p.got)) }))

/-- STREAM_PREFETCH: one 8-byte part of a read stream's vector is read, at most 8 vectors ahead (R306). -/
def execStreamPrefetch (core slot : Nat) (n : BitVec 2) (s : State) : Out :=
  let s := { s with cur := ⟨.core core, slot⟩ }
  let x := s.slotAt s.cur
  match (x.streams.toList[n.toNat]?).join with
  | none => .next s
  | some t =>
    if t.wr ∨ !x.busy then .next s
    else
      let t := if t.ahead.any (fun p => decide (p.got < 8) && p.fault.isNone) then t
        else if t.ahead.length < 8 ∧ t.next + t.ahead.length < t.total then
          { t with ahead := t.ahead ++ [⟨t.next + t.ahead.length, 0, 0, none⟩] }
        else t
      match t.ahead.find? (fun p => decide (p.got < 8) && p.fault.isNone) with
      | none => .next s
      | some p =>
        match (s.warmVector t p.idx).bind (fun s => s.prefetchPart t p) with
        | none => .next s
        | some (u, q) =>
          let t := { t with ahead := t.ahead.map (fun k => if k.idx = p.idx then q else k) }
          .next (u.setSlot u.cur ((u.slotAt u.cur).setStream n.toNat (some t)))

-- checks, charges, pops

/-- A trap of a vector instruction that is exact for a thread and late inside a sequencer body, where its record needs an entry
of the dispatch ring (R299, R406, R407). -/
def vtrap {α : Type} (e : VEnv) (op : Nat) (cause : BitVec 16) (tval : Word) : M α := do
  if e.seq then do
    let x ← slot
    if x.ringBusy then loseTurn
    modSlot (fun x => x.dispatch op 3 e.pc)
    modS (fun s => s.lateFault s.cur ⟨cause, tval, 0xFF, some x.dseq, none⟩ true)
    stop
  else trap cause tval

/-- The checks before a vector instruction issues: registers, streams, the dispatch ring, the sequencer (R202, R212, R306,
R309, R406). `gus` are its general registers. -/
def vprep (e : VEnv) (op : Nat) (reads writes : List Fld) (gus : List Use) : M Unit := do
  let s ← getS
  let x := s.slotAt s.cur
  let us : List Use := (reads ++ writes).map (fun f => Use.vec f) ++ e.names.map (fun f => Use.name f)
  if e.seq then do
    let cs := (reads ++ writes).map e.code
    let all := cs ++ e.names.map e.code
    match all.find? (fun c => decide (x.nalloc ≤ c.toNat) && decide (c.toNat < 32)) with
    | some c => vtrap e op cRegIndex (c.setWidth 64)
    | none => pure ()
    if cs.any (fun c => x.isPend (vregOf c)) then loseTurn
    if all.any (fun c => decide (32 ≤ c.toNat)) ∧ (s.at' s.cur.pl).bankLaunch ≠ some x.launch then vtrap e op cShared e.word
  else do
    needCore
    if x.seqr.isSome then loseTurn
    prep (us ++ gus)
    if (reads ++ writes).any (fun f => (x.stream? (e.code f)).isSome) then accessGate
  let x ← slot
  if reads.any (fun f => match x.stream? (e.code f) with
      | some (_, t) => t.wr
      | none => false) ∨
     writes.any (fun f => match x.stream? (e.code f) with
      | some (_, t) => !t.wr
      | none => false) then vtrap e op cIllegal e.word
  if x.ringBusy then loseTurn

/-- Charge the budget counter, or lose the turn (R61, R63). -/
def vcharge (units : Nat) : M Unit := do
  let s ← getS
  let x := s.slotAt s.cur
  let lvl := (s.at' s.cur.pl).refill.toNat
  let c := if lvl = 0 then units else Nat.min units lvl
  if lvl = 0 ∨ x.budget.toNat < c then loseTurn
  modSlot (fun x => { x with budget := x.budget - BitVec.ofNat 32 c })

/-- Issue: streams are ready, the charge is made, the record written, and the sources are read, each read stream once. A vector
whose bank has begun to leave SCRATCH faults as it is popped, though it was read before (R306, R406, R431). -/
def vtake (e : VEnv) (op : Nat) (reads writes : List Fld) (units : Nat) : M (List Vec) := do
  let s ← getS
  let x := s.slotAt s.cur
  let rs := (reads.filterMap (fun f => x.stream? (e.code f))).dedup
  if rs.any (fun r => !r.2.ready) then loseTurn
  if writes.any (fun f => match x.stream? (e.code f) with
      | some (_, t) => decide (t.next < t.total) && decide (16 ≤ s.pushesOut s.cur)
      | none => false) then loseTurn
  match (writes.filterMap (fun f => x.stream? (e.code f))).foldlM (fun s r =>
      if r.2.next < r.2.total then s.warmVector r.2 r.2.next else some s) s with
  | none => loseTurn
  | some t => setS t
  vcharge units
  let q := (← slot).dseq
  modSlot (fun x => x.dispatch op 2 e.pc)
  -- pops
  let pops ← rs.mapM (fun r => do
    let t := r.2
    if t.total ≤ t.next then pure (r.1, (0 : Vec))
    else do
      modSlot (fun x => x.setStream r.1 (some { t with next := t.next + 1, ahead := t.ahead.filter (fun p => p.idx != t.next) }))
      match t.ahead.find? (fun p => p.idx == t.next) with
      | none => pure (r.1, (0 : Vec))
      | some p =>
        let gone := s.bankGone (placeNum s.cur.pl) (t.addr t.next).toNat || s.bankGone (placeNum s.cur.pl) ((t.addr t.next).toNat + 63)
        match if gone then some (cAccess, t.addr t.next, detail 2 false 0xF 4) else p.fault with
        | none => pure (r.1, p.val)
        | some (c, v, d) => do
          modS (fun s => s.lateFault s.cur ⟨c, v, 0xFF, some q, some d⟩ e.seq)
          let w ← freeVec
          pure (r.1, w))
  reads.mapM (fun f => do
    match x.stream? (e.code f) with
    | some (n, _) => pure (((pops.find? (fun p => p.1 == n)).map (fun p => p.2)).getD 0)
    | none => rv (plain (e.code f)))

/-- The old value of a destination whose inactive lanes stay; undefined for a write stream (R307). -/
def vold (e : VEnv) (d : Fld) : M Vec := do
  match (← slot).stream? (e.code d) with
  | some _ => freeVec
  | none => rv (plain (e.code d))

/-- Push a vector to a write stream: posted to its homes (R306). A fault is late. -/
def State.push (s : State) (i : Sid) (n : Nat) (t : Stream) (q : BitVec 16) (fromSeq : Bool) (v : Vec) : State :=
  if t.total ≤ t.next then s
  else
    let s := s.setSlot i ((s.slotAt i).setStream n (some { t with next := t.next + 1 }))
    match s.quietAccess 2 true (t.addr t.next) 64 8 with
    | .error f => s.lateFault i ⟨f.cause, f.tval, 0xFF, some q, some f.detail⟩ fromSeq
    | .ok bs => { s with nextId := s.nextId + 1 }.store i (bs.zip (vecBytes v)) true none (some s.nextId)

/-- Write a vector result, or push it (R293, R306). -/
def vwrite (k : Nat) (e : VEnv) (d : Fld) (v : Vec) : M Unit := do
  let x ← slot
  match x.stream? (e.code d) with
  | some (n, t) => modS (fun s => s.push s.cur n t (x.dseq - 1) e.seq v)
  | none => wv k (plain (e.code d)) v

-- energy (R314)

/-- Units of a charge: base + per × ⌈active × bits ÷ 32⌉ (DEDUCED, log 22). -/
def energy (base per active bits : Nat) : Nat := base + per * ((active * bits + 31) / 32)

/-- Width of a type code (R205). -/
def tyBits (ty : BitVec 3) : Nat :=
  match ty.toNat with
  | 0 => 64
  | 1 => 32
  | 2 => 16
  | 3 => 8
  | 4 => 64
  | 5 => 32
  | _ => 16

def tyLanes (ty : BitVec 3) : Nat := 512 / tyBits ty

def tyFloat (ty : BitVec 3) : Bool := decide (4 ≤ ty.toNat)

/-- The format of a float type code. -/
def tyFmt (ty : BitVec 3) : Fmt := fmtOf (ty.setWidth 2)

-- SCFG, SCLOSE (R305, R307)

/-- An opcode from 0xA0 to 0xA7 loses its turns while the sequencer holds a body (R309). -/
def seqGate : M Unit := do
  if (← slot).seqr.isSome then loseTurn

/-- n bytes of a descriptor from offset o on, as a number. -/
def part (bytes : List Byte) (o n : Nat) : Nat := ofBytes ((bytes.drop o).take n)

def execScfg (n : BitVec 2) (wr : Bool) (a : BitVec 6) (off : BitVec 20) (s : State) : Out := run (do
  needCore
  seqGate
  prep [.src (plain a)]
  let s0 ← getS
  if (s0.slotAt s0.cur).nalloc < 32 then trap cRegIndex (BitVec.ofNat 64 (28 + n.toNat))
  accessGate
  let ea ← peek (eaX a off)
  let bs ← checkAccess 4 false ea 64 64
  needHomes 4 false ea bs
  cfgGate true bs
  let r ← readNow bs
  let w (o : Nat) : Word := BitVec.ofNat 64 (part r o 8)
  let base := w 0
  let s0' := w 8
  let s1' := w 16
  let s2' := w 24
  match [base, s0', s1', s2'].find? (fun v => v.setWidth 3 != 0#3) with
  | some v => trapWith ⟨cAlign, v, 0xFF, none, some (detail 4 false 0xF 5)⟩
  | none => pure ()
  let b0 := part r 32 4
  let b1 := part r 36 4
  let b2 := part r 40 4
  let _ ← eaX a off
  modSlot (fun x => x.setStream n.toNat (some ⟨ea, wr, base, s0', s1', s2', b0, b1, b2, 0, []⟩))
  done) s

def execSclose (n : BitVec 2) (s : State) : Out := run (do
  needCore
  seqGate
  let x ← slot
  match (x.streams.toList[n.toNat]?).join with
  | none => done
  | some _ => do
    let v ← freeVec
    modSlot (fun x => { x.setStream n.toNat none with f := x.f.setIfInBounds (28 + n.toNat) v })
    done) s

end Sys2Proof.Machine
end

