-- ==== Sys2Proof/Machine/Engines.lean ====
section
/-! DEFINITION. Copy, gather and collective engines (R105, R333-R339, R401, R430-R434) and the interrupts their completions
raise (R337). -/

namespace Sys2Proof.Machine

-- tenders as the engines see them (R341, R342)

/-- Stages filled: counted from C, modulo 2^32. -/
def Tender.filled (t : Tender) : Nat := Nat.min (t.t - t.c).toNat (t.e - t.c).toNat

/-- Engine advances held back are made while there is room (R435). -/
def Tender.settle : Nat → Tender → Tender
  | 0, t => t
  | n + 1, t =>
    if t.owed = 0 ∨ t.stages ≤ (t.e - t.c).toNat then t
    else Tender.settle n { t with e := t.e + 1, t := if t.quota = 1 then t.t + 1 else t.t, owed := t.owed - 1 }

/-- One engine advance. -/
def Tender.advance (t : Tender) : Tender := Tender.settle (t.owed + 1) { t with owed := t.owed + 1 }

/-- A tender may be used: reasons 6 and 5 (R435). -/
def tenderUsable (t : Nat) : M Unit := do
  let c ← core
  if !(c.tender t).conf then trap cTender (tenderTval t 6)
  if (c.tender t).broken then trap cTender (tenderTval t 5)

-- pushing (R333)

/-- Commands of a slot that are outstanding, or whose completions are unpopped. -/
def State.engineUse (s : State) (i : Sid) : Nat :=
  (s.cmds.filter (fun c => .core c.core == i.pl && c.slot == some i.k && !c.disc)).length +
  (s.slotAt i).fifo.length + (s.slotAt i).ints.length + (s.slotAt i).heldC.length

/-- The next tag: from 1, wrapping, 0 skipped. -/
def nextTag (t : BitVec 16) : BitVec 16 := if t + 1 = 0 then 1 else t + 1

/-- XCPY, XGATH and XCOLL: the release, then one command with its tag. -/
def engine (op : Nat) (kind : BitVec 3) (o : EngineOp) (s : State) : Out := run (do
  needCore
  prep [.dst (plain o.d), .src (plain o.a), .src (plain o.b), .src (plain o.c)]
  accessGate
  let s0 ← getS
  if 16 ≤ s0.engineUse s0.cur then loseTurn
  if o.ntf = 1 then tenderUsable o.tnd.toNat
  release 4
  let a ← rg (plain o.a)
  let b ← rg (plain o.b)
  let c ← rg (plain o.c)
  let tag := nextTag (← slot).tags
  modSlot (fun x => { x with tags := tag })
  let id ← newId
  let s ← getS
  let x := s.slotAt s.cur
  let g := (c.extractLsb' 32 8).toNat
  let k := if op = 3 then tabGet 0 s.matches' g else 0
  let cmd : Cmd := ⟨id, x.launch, placeNum s.cur.pl, some s.cur.k, op, kind, a, b, c, tag, o.ntf, o.tnd, s.cyc, 0, [],
    op != 1, false, k, none, false⟩
  modS (fun s => { s with cmds := s.cmds ++ [cmd], matches' := if op = 3 then tabSet s.matches' g (k + 1) else s.matches' })
  wg 4 (plain o.d) (tag.setWidth 64)
  done) s

def execXcpy (o : EngineOp) (s : State) : Out := engine 1 0 o s
def execXgath (o : EngineOp) (s : State) : Out := engine 2 0 o s
def execXcoll (o : EngineOp) (kind : BitVec 3) (s : State) : Out := engine 3 kind o s

-- completions (R335-R337, R432-R434)

/-- The XPOP word (R336). -/
def Completion.word (c : Completion) : Word := c.bytes ++ c.status ++ c.tag

/-- An L1 line overlaps a span of virtual addresses of a thread (R105). -/
def State.lineIn (s : State) (i : Sid) (dst : Word) (span : Nat) (l : L1Line) : Bool :=
  decide (0 < span) && (List.range (span / 128 + 2)).any (fun k =>
    let va := dst.toNat / 128 * 128 + 128 * k
    decide (va < dst.toNat + span) &&
    (match s.xlate (clusterOf i.pl) (s.rootOf i) (BitVec.ofNat 64 va) with
     | .leaf pte sh => !pteHost pte && pteAddr pte sh (BitVec.ofNat 64 va) / 128 == l.line
     | .fail _ _ => false))

/-- Acquire exactly the command's writes (R105, R336). -/
def State.acquireOf (s : State) (i : Sid) (c : Completion) : State := s.dropL1 i.pl (s.lineIn i c.dst c.span)

/-- A waiting XPOP takes the oldest FIFO entry (R336). -/
def State.serveXpop (s : State) (i : Sid) : State :=
  let x := s.slotAt i
  match x.xpopWait, x.fifo with
  | d :: ds, c :: cs => ((s.setSlot i { x with xpopWait := ds, fifo := cs }).acquireOf i c).deliver i d c.word
  | _, _ => s

/-- A completion is delivered to the thread of a slot by its mode (R335, R337, R433). -/
def State.notify (s : State) (i : Sid) (c : Completion) (tnd : Nat) : State :=
  let x := s.slotAt i
  let fifo (s : State) : State := (s.setSlot i { s.slotAt i with fifo := (s.slotAt i).fifo ++ [c] }).serveXpop i
  match c.ntf.toNat with
  | 1 =>
    let k := s.at' i.pl
    if c.status = 0 then s.setAt i.pl (k.setTender tnd (k.tender tnd).advance) else fifo s
  | 2 => if x.uivec = 0 then fifo s else s.setSlot i { x with ints := x.ints ++ [c] }
  | _ => fifo s

/-- A completion held by the port for a saved context (R420), by the number of its record. One that will advance a tender
carries the tender's number as its span: it acquires nothing. -/
def State.holdFor (s : State) (core n : Nat) (c : Completion) : State :=
  let put (r : Saved) : Saved := if r.rec' = n then { r with sl := { r.sl with heldC := r.sl.heldC ++ [c] } } else r
  let k := s.core' core
  s.setCore core { k with
    recs := k.recs.map (fun e => (e.1, put e.2)),
    rq := k.rq.map (fun e => match e with
      | .saved r => .saved (put r)
      | .arrived p => .arrived p) }

/-- A command ends with a status and a count of bytes; one that fails and was to advance a tender breaks it, whatever has become
of its thread (R335, R415, R420, R432-R434). -/
def State.endCmd (s : State) (k : Cmd) (status : BitVec 8) (bytes span : Nat) : State :=
  let c : Completion := ⟨k.tag, status, BitVec.ofNat 40 bytes, k.ntf, k.dst, if k.ntf = 1 then k.tnd.toNat else span⟩
  let s := { s with cmds := s.cmds.filter (fun x => x.id != k.id) }
  let s := if k.ntf = 1 ∧ status ≠ 0 then s.setCore k.core ((s.core' k.core).breakTender k.tnd.toNat) else s
  let i : Sid := ⟨.core k.core, k.slot.getD 0⟩
  let s :=
    if k.disc then s.countDiscarded k.launch i [c]
    else
      match k.owner with
      | some n => s.holdFor k.core n c
      | none => s.notify i { c with span := span } k.tnd.toNat
  (List.range 4096).foldl (fun s n => if addrOnCore k.core n k.dst || addrOnCore k.core n k.src then s.bankCheck n else s) s

-- the copies

/-- The address space of a launch as a core translates it (R83). -/
def State.launchRoot (s : State) (core launch : Nat) : Word :=
  match s.launch? launch with
  | some l => (tabFind (s.core' core).roots l.queue).getD l.root
  | none => 0

/-- An address of a bank, where a failing destination is one that is not in SCRATCH mode (R432). -/
def inBankWindow (va : Nat) : Bool :=
  match regionOf va with
  | .own o => decide (0x20000 ≤ o)
  | .core _ o => decide (0x20000 ≤ o)
  | _ => false

/-- One byte of a source, or the status of its failure. -/
def State.srcOf (s : State) (root : Word) (va : Word) : Except Nat PByte :=
  match s.accessBy root 0 false va 1 1 with
  | .ok (b :: _) => if s.bytePoison b then .error 6 else .ok b
  | _ => .error 1

def State.dstOf (s : State) (root : Word) (va : Word) : Except Nat PByte :=
  match s.accessBy root 0 true va 1 1 with
  | .ok (b :: _) => .ok b
  | _ => .error (if inBankWindow va.toNat then 3 else 2)

/-- Pairs of source and destination byte in destination order, up to the first failure, with its status. -/
def plan (f : Nat → Except Nat (PByte × PByte)) : List Nat → List (PByte × PByte) × Nat
  | [] => ([], 0)
  | i :: l =>
    match f i with
    | .error st => ([], st)
    | .ok p =>
      let r := plan f l
      (p :: r.1, r.2)

/-- Write masked bytes at their homes, in order; none while a line cannot be allocated (R75, R76). -/
def State.writeGroups (s : State) (l : List (PByte × Byte × Byte)) : Option State :=
  (groupPosts s l).foldlM (fun s g => (s.writeHome g.1 g.2.2 g.2.1).map (fun t => t.clearPoison g.2.2)) s

/-- The lines that an agent's source bytes use at their slices (R75); none while one cannot be allocated. -/
def State.useBytes (s : State) (l : List PByte) : Option State := s.useLines (srcLines (l.map s.srcHome))

/-- The bytes that a copy writes; bytes that overlap the source are free values (R2, R333). -/
def State.copyBytes (s : State) (l : List (PByte × PByte)) : List (PByte × Byte × Byte) :=
  l.zipIdx.map (fun e =>
    let both := l.any (fun p => p.1.loc == e.1.2.loc)
    (e.1.2, if both then (Config.free (s.fresh + e.2)).setWidth 8 else s.byteAt e.1.1.loc, 0xFF#8))

/-- The malformed Gpr(c) words (R333). -/
def Cmd.malformed (k : Cmd) : Bool :=
  match k.op with
  | 1 => k.cw.extractLsb' 40 24 != 0
  | 2 => k.cw.extractLsb' 35 29 != 0 || (k.cw.extractLsb' 0 32) == 0 || decide (65536 < (k.cw.extractLsb' 0 32).toNat) ||
      k.cw.extractLsb' 32 3 == 7
  | _ => k.cw.extractLsb' 43 21 != 0 || !([1, 4, 5, 7].contains (k.cw.extractLsb' 40 3).toNat)

/-- log2 of an XGATH element. -/
def Cmd.elemSh (k : Cmd) : Nat := (k.cw.extractLsb' 32 3).toNat

/-- The pairs an XCPY or XGATH has still to copy (R420: from its mark). A destination in a bank that is no longer in SCRATCH is
what the status tells, whatever the source (R430). -/
def State.cmdPlan (s : State) (k : Cmd) : List (PByte × PByte) × Nat :=
  let root := s.launchRoot k.core k.launch
  let pair (src dst : Word) : Except Nat (PByte × PByte) :=
    match s.srcOf root src, s.dstOf root dst with
    | _, .error 3 => .error 3
    | .error st, _ => .error st
    | _, .error st => .error st
    | .ok a, .ok b => .ok (a, b)
  if k.op = 1 then
    let len := (k.cw.extractLsb' 0 40).toNat
    plan (fun i => pair (k.src + BitVec.ofNat 64 i) (k.dst + BitVec.ofNat 64 i)) ((List.range len).drop k.mark)
  else
    let n := (k.cw.extractLsb' 0 32).toNat
    let sz := 2 ^ k.elemSh
    let addrOf (i : Nat) : Except Nat Word :=
      ((List.range 8).mapM (fun j => s.srcOf root (k.src + BitVec.ofNat 64 (8 * i + j)))).map
        (fun ls => BitVec.ofNat 64 (ofBytes (ls.map (fun b => s.byteAt b.loc))))
    plan (fun q =>
      match addrOf (q / sz) with
      | .error st => .error st
      | .ok a => pair (a + BitVec.ofNat 64 (q % sz)) (k.dst + BitVec.ofNat 64 q)) ((List.range (n * sz)).drop (k.mark * sz))

-- collectives (R334, R401, R467)

def State.groupBytes (s : State) (g : Nat) : List Byte := tabGet [] s.groups g

def groupByte (l : List Byte) (n : Nat) : Nat := ((l[n]?).getD 0).toNat

/-- What one byte of a member's destination is (R334): byte `off` of the member's own source; a byte of a peer's data; or byte
`b` of an element's sum, whose own term is the element at `off` of the own source and whose peers' terms are numbered from
`peer` on. -/
inductive CollByte where
  | own (off : Nat)
  | free
  | sum (off peer b : Nat)
  deriving DecidableEq, Repr

/-- What a member writes, or the status that ends the command (R334, R432). -/
def collBytes (kind : Nat) (m rank es len : Nat) : Except Nat (List CollByte) :=
  let own (a n : Nat) : List CollByte := (List.range n).map (fun i => .own (a + i))
  let free (n : Nat) : List CollByte := List.replicate n .free
  let sums (a n : Nat) : List CollByte := (List.range n).map (fun i => .sum (a + i / es * es) (i / es * m) (i % es))
  match kind with
  | 0 => .ok (if rank = 0 then own 0 len else free len)
  | 1 => .ok ((List.range m).flatMap (fun r => if r = rank then own 0 len else free len))
  | 2 => .ok (sums 0 len)
  | 3 => if len % (m * es) ≠ 0 then .error 4 else .ok (sums (rank * (len / m)) (len / m))
  | _ =>
    if len % (m * es) ≠ 0 then .error 4
    else .ok ((List.range m).flatMap (fun r => if r = rank then own (rank * (len / m)) (len / m) else free (len / m)))

/-- What ends an XCOLL before it writes, or the destination bytes' origins (R334, R401, R432, R467). Whether the other
members agree is a free value (DESIGN CHOICE, log 4) (DESIGN CHOICE, log 47). -/
def State.collPlan (s : State) (k : Cmd) : Except Nat (List CollByte) :=
  let g := s.groupBytes (k.cw.extractLsb' 32 8).toNat
  let m := groupByte g 0
  let rank := groupByte g 1
  let es := tyBits (k.cw.extractLsb' 40 3) / 8
  let len := (k.cw.extractLsb' 0 32).toNat
  if m = 0 then .error (1 + (Config.free s.fresh).toNat % 7)
  else if (List.range m).any (fun r => r != rank && s.lostCouplings.contains (groupByte g (4 + r))) then .error 5
  else if m ≠ 1 ∧ (Config.free s.fresh).getLsbD 0 then .error 4
  else collBytes k.kind.toNat m rank es len

/-- The sum of one element over the ranks in increasing order: floats round to nearest even at each addition, INT32 lanes wrap
(R334). -/
def collSum (ty : BitVec 3) (terms : List Nat) : Nat :=
  match terms with
  | [] => 0
  | x :: t =>
    if tyFloat ty then t.foldl (fun a b => (roundRes (tyFmt ty) 0 false (sumFl 0 [(tyFmt ty).val a, (tyFmt ty).val b])).1) x
    else t.foldl (fun a b => (a + b) % 2 ^ tyBits ty) x

/-- The bytes of an XCOLL's own source, up to its first failure. -/
def State.collSrc (s : State) (k : Cmd) (off n : Nat) : Except Nat (List PByte) :=
  (List.range n).mapM (fun i => s.srcOf (s.launchRoot k.core k.launch) (k.src + BitVec.ofNat 64 (off + i)))

/-- The value of one destination byte of an XCOLL; the data of the peers are free values (DESIGN CHOICE, log 47). -/
def State.collByte (s : State) (k : Cmd) (o : CollByte) (i : Nat) : Except Nat Byte :=
  match o with
  | .own off => (s.collSrc k off 1).map (fun l => (l.map (fun b => s.byteAt b.loc)).headD 0)
  | .free => .ok ((Config.free (s.fresh + 1 + i)).setWidth 8)
  | .sum off peer b =>
    let g := s.groupBytes (k.cw.extractLsb' 32 8).toNat
    let ty := k.cw.extractLsb' 40 3
    (s.collSrc k off (tyBits ty / 8)).map (fun l =>
      let terms := (List.range (groupByte g 0)).map (fun r =>
        if r = groupByte g 1 then ofBytes (l.map (fun b => s.byteAt b.loc))
        else (Config.free (s.fresh + 1 + peer + r)).toNat % 2 ^ tyBits ty)
      BitVec.ofNat 8 (collSum ty terms / 256 ^ b))

/-- The bytes an XCOLL writes before its first failure; a destination byte that its source holds too is a free value (R2,
R333). -/
def State.collBytesOf (s : State) (k : Cmd) (l : List CollByte) : List (PByte × Byte × Byte) × Nat :=
  let root := s.launchRoot k.core k.launch
  let len := (k.cw.extractLsb' 0 32).toNat
  let m := groupByte (s.groupBytes (k.cw.extractLsb' 32 8).toNat) 0
  let src := (List.range len).filterMap (fun i => match s.srcOf root (k.src + BitVec.ofNat 64 i) with
    | .ok b => some b.loc
    | .error _ => none)
  l.zipIdx.foldl (fun (acc : List (PByte × Byte × Byte) × Nat) e =>
    if acc.2 ≠ 0 then acc
    else
      match s.collByte k e.1 e.2, s.dstOf root (k.dst + BitVec.ofNat 64 e.2) with
      | .error st, _ => (acc.1, st)
      | _, .error st => (acc.1, st)
      | .ok v, .ok b => (acc.1 ++ [(b, if src.contains b.loc then (Config.free (s.fresh + 1 + l.length * (m + 1) + e.2)).setWidth 8 else v, 0xFF#8)], 0)) ([], 0)

/-- The source bytes that a command reads: for XGATH the list too. -/
def State.cmdSources (s : State) (k : Cmd) (l : List (PByte × PByte)) : List PByte :=
  let at' (off n : Nat) : List PByte := match s.collSrc k off n with
    | .ok l => l
    | .error _ => []
  if k.op = 3 then at' 0 (k.cw.extractLsb' 0 32).toNat
  else l.map (fun p => p.1) ++ (if k.op = 2 then at' 0 (8 * (k.cw.extractLsb' 0 32).toNat) else [])

/-- The pages that a command touches are in reach of its engine; XGATH's list first, then what it names (R85). -/
def State.warmCmd (s : State) (k : Cmd) : Option State :=
  let w (a : Word) (n : Nat) (s : State) : Option State := s.warm (k.core / 4) (s.launchRoot k.core k.launch) (pagesOf a.toNat n)
  let len := (k.cw.extractLsb' 0 32).toNat
  match k.op with
  | 1 => (w k.src (s.cmdLen k) s).bind (w k.dst (s.cmdLen k))
  | 2 => ((w k.src (8 * len) s).bind (w k.dst (s.cmdLen k))).bind (fun s => (List.range len).foldlM (fun s i =>
      match s.collSrc k (8 * i) 8 with
      | .ok l => w (BitVec.ofNat 64 (ofBytes (l.map (fun b => s.byteAt b.loc)))) (2 ^ k.elemSh) s
      | .error _ => some s) s)
  | _ => (w k.src len s).bind (w k.dst (s.cmdLen k))

/-- Perform what a command has still to do, once: its end, or none while a page is not in reach or a line cannot be used or written
yet (R75, R85, R335, R430, R432). -/
def State.perform (s : State) (k : Cmd) : State × Bool :=
  let s := { s with cur := ⟨.core k.core, k.slot.getD 0⟩ }
  let sz := if k.op = 2 then 2 ^ k.elemSh else 1
  let put (s : State) (l : List (PByte × Byte × Byte)) (src : List PByte) (used st : Nat) : State × Bool :=
    let held := s.hostHeld (l.map (fun e => e.1.loc))
    if !held.isEmpty then (s.snoop held, false)
    else
      match (s.useBytes src).bind (fun s => s.writeGroups l) with
      | none => (s, false)
      | some t =>
        let n := k.mark * sz + l.length / sz * sz
        (({ t with fresh := t.fresh + used }).endCmd k (BitVec.ofNat 8 st) n n, true)
  if k.malformed then (s.endCmd k 7 0 0, true)
  else if k.cutBank then (s.endCmd k 3 (k.mark * sz) (k.mark * sz), true)
  else
    match s.warmCmd k with
    | none => (s, false)
    | some s =>
      if k.op = 3 then
        match s.collPlan k with
        | .error st => (({ s with fresh := s.fresh + 1 }).endCmd k (BitVec.ofNat 8 st) 0 0, true)
        | .ok l =>
          let r := s.collBytesOf k l
          put s r.1 (s.cmdSources k []) (1 + l.length * (groupByte (s.groupBytes (k.cw.extractLsb' 32 8).toNat) 0 + 2)) r.2
      else
        let r := s.cmdPlan k
        put s (s.copyBytes (r.1.take (r.1.length / sz * sz))) (s.cmdSources k r.1) r.1.length r.2

/-- The slot whose XPOP waits for a command's completion has had its turn of this cycle (R29, R336). -/
def State.popPast (s : State) (k : Cmd) : Bool :=
  match k.slot with
  | some j => (s.slotAt ⟨.core k.core, j⟩).xpopWait.isEmpty || s.turnPast ⟨.core k.core, j⟩
  | none => true

/-- ENGINE_COMPLETION of the command numbered State.subj, and of those merged with it (R335, R339) (DESIGN CHOICE, log 43). -/
def execEngineCompletion (s : State) : Out :=
  match s.cmds.find? (fun c => c.id == s.subj) with
  | none => .next s
  | some k =>
    let all := k.id :: k.merge
    if !k.started ∨ s.cmds.any (fun c => c.merge.contains k.id) ∨ s.cmds.any (fun c => all.contains c.id && !(s.popPast c)) then .next s
    else
      .next ((all.foldl (fun (p : State × Bool) id =>
        if !p.2 then p
        else
          match p.1.cmds.find? (fun c => c.id == id) with
          | none => p
          | some c => p.1.perform c) (s, true)).1)

/-- The offset in its core's window of an address of a local store or scratch bank, with the core (R339). -/
def windowOff (core : Nat) (va : Word) : Option (Nat × Nat) :=
  match regionOf va.toNat with
  | .own o => some (core, o)
  | .core n o => some (n, o)
  | _ => none

/-- Two copies may be merged (R339): equal sources are equal addresses of one address space that are not each core's own (DEDUCED, log 43). -/
def State.partners (s : State) (a b : Cmd) : Bool :=
  a.op == 1 && b.op == 1 && !b.started && s.launchRoot a.core a.launch == s.launchRoot b.core b.launch && a.core / 4 == b.core / 4 &&
  a.core != b.core && a.src == b.src && (match regionOf a.src.toNat with
    | .own _ => false
    | _ => true) && (a.cw.extractLsb' 0 40) == (b.cw.extractLsb' 0 40) && a.ntf == b.ntf && !a.malformed && !b.malformed &&
  a.mark == b.mark &&
  (match windowOff a.core a.dst, windowOff b.core b.dst with
   | some (m, p), some (n, q) => m == a.core && n == b.core && p == q
   | _, _ => false)

/-- COMBINING_HOLD_EXPIRY of the XCPY numbered State.subj: it starts, with the partners that have arrived (R339). -/
def execCombiningHoldExpiry (s : State) : Out :=
  match s.cmds.find? (fun c => c.id == s.subj) with
  | none => .next s
  | some k =>
    if k.started ∨ k.op ≠ 1 then .next s
    else
      let ps := (s.cmds.filter (fun c => c.id != k.id && s.partners k c)).map (fun c => c.id)
      .next { s with cmds := s.cmds.map (fun (c : Cmd) =>
        if c.id = k.id then { c with started := true, merge := ps }
        else if ps.contains c.id then { c with started := true } else c) }

-- XPOP and user interrupts

/-- XPOP (R336). -/
def execXpop (d : BitVec 6) (s : State) : Out := run (do
  needCore
  prep [.dst (plain d)]
  accessGate
  let s0 ← getS
  let x := s0.slotAt s0.cur
  match x.fifo with
  | c :: cs => do
    modSlot (fun x => { x with fifo := cs })
    modS (fun s => s.acquireOf s.cur c)
    wg 4 (plain d) c.word
    done
  | [] => do
    if s0.cmds.any (fun c => .core c.core == s0.cur.pl && c.slot == some s0.cur.k && c.ntf == 0 && !c.disc) then do
      pendRoom 1
      claimDst (plain d)
      modSlot (fun x => { x with xpopWait := x.xpopWait ++ [d] })
    else wg 4 (plain d) 0
    done) s

/-- Entry to the user interrupt handler (R337). -/
def Slot.interrupt (x : Slot) (w : Word) : Slot :=
  { x with
    savedG := Vector.ofFn (fun (k : Fin 5) => (x.g.toList[11 + k.val]?).getD 0), savedPw := x.pw, savedPc := x.pc,
    g := x.g.setIfInBounds 11 w, handler := .interrupt, pc := x.uivec, asleep := none, hold := .none, relDone := false, stage := 0, spec := none }

/-- USER_INTERRUPT_ENTRY (R337). -/
def execUserInterruptEntry (core slot : Nat) (s : State) : Out :=
  let i : Sid := ⟨.core core, slot⟩
  let x := s.slotAt i
  match x.ints with
  | [] => .next s
  | c :: cs =>
    if !(s.atTurn i) ∨ x.handler ≠ .none ∨ x.isPend .pw then .next s
    else if x.uivec = 0 then
      .next ((s.setSlot i { x with ints := cs, fifo := x.fifo ++ [c] }).serveXpop i)
    else
      let s := (s.withdrawCaps i).acquireOf i c
      .next (s.setSlot i { (s.slotAt i).interrupt c.word with ints := cs })

end Sys2Proof.Machine
end

