-- ==== Sys2Proof/Machine/Channels.lean ====
section
/-! DEFINITION. Tenders and channels: TCFG to CHCLOSE, words and grants in transit (R73, R106, R340-R347, R435, R455, R456). -/

namespace Sys2Proof.Machine

-- tenders

/-- The stages of a tender lie in program use, or in one bank in SCRATCH mode (R340). -/
def CoreSt.stagesOk (c : CoreSt) (base : Word) (len : Nat) : Bool :=
  match regionOf base.toNat with
  | .own o =>
    decide (o + len ≤ 0x14000) ||
    (decide (0x20000 ≤ o) && decide (o + len ≤ bankLo ((o - 0x20000) / 0x10000 + 1)) && bankModeOf c ((o - 0x20000) / 0x10000) == .scratch)
  | _ => false

/-- A TWAIT of the core sleeps on a tender, in a slot or swapped out, or a command names it that is still outstanding (R340, R435). -/
def State.tenderBusy (s : State) (n t : Nat) : Bool :=
  let c := s.core' n
  c.slots.any (fun e => e.2.busy && e.2.waitsOn t) || c.rq.any (fun x => match x with
    | .saved r => r.sl.waitsOn t
    | .arrived _ => false) || c.recs.any (fun e => e.2.sl.waitsOn t) ||
  s.cmds.any (fun k => k.core == n && k.ntf == 1 && k.tnd.toNat == t)

/-- TCFG (R340). -/
def execTcfg (t : BitVec 4) (a : BitVec 6) (s : State) : Out := run (do
  needCore
  prep [.src (plain a)]
  let s0 ← getS
  if (s0.at' s0.cur.pl).bankLaunch ≠ some (s0.slotAt s0.cur).launch then trap cShared s0.word
  accessGate
  let ea ← peek (rg (plain a))
  let bs ← checkAccess 4 false ea 16 16
  needHomes 4 false ea bs
  cfgGate true bs
  let r ← readNow bs
  let base := BitVec.ofNat 64 (part r 0 8)
  let size := part r 8 4
  let stages := part r 12 2
  let q := part r 14 1
  let z := part r 15 1
  let c ← core
  if base.toNat % 64 ≠ 0 ∨ size % 64 ≠ 0 ∨ size = 0 ∨ 65536 < size ∨ stages = 0 ∨ 256 < stages ∨ (q ≠ 1 ∧ q ≠ 2) ∨ z ≠ 0 ∨
     !(c.stagesOk base (size * stages)) then trap cTender (tenderTval t.toNat 1)
  if !(c.tender t.toNat).broken && s0.tenderBusy (placeNum s0.cur.pl) t.toNat then trap cTender (tenderTval t.toNat 2)
  let _ ← rg (plain a)
  modCore (fun c => c.setTender t.toNat ⟨true, false, base, size, stages, q, 0, 0, 0, 0⟩)
  done) s

/-- TADV (R342): `f` gives the tender after the advance, or none for reason 3. -/
def tadv (t : BitVec 4) (f : Tender → Option Tender) (s : State) : Out := run (do
  needCore
  accessGate
  tenderUsable t.toNat
  release 4
  tenderUsable t.toNat
  match f ((← core).tender t.toNat) with
  | none => trap cTender (tenderTval t.toNat 3)
  | some x => do
    modCore (fun c => c.setTender t.toNat x)
    done) s

def execTadvFill (t : BitVec 4) (n : BitVec 8) (s : State) : Out :=
  tadv t (fun x =>
    let t' := x.t + n.setWidth 32
    if x.stages < (t' - x.c).toNat then none
    else some { x with t := t', e := if x.quota = 1 then x.e + n.setWidth 32 else x.e }) s

/-- TADV.free makes room for engine advances held back (R435). -/
def execTadvFree (t : BitVec 4) (n : BitVec 8) (s : State) : Out :=
  tadv t (fun x =>
    if x.filled < n.toNat then none
    else some (Tender.settle x.owed { x with c := x.c + n.setWidth 32 })) s

/-- TWAIT (R342, R435): asleep until the count is reached, then an acquire at device scope. -/
def twait (t : BitVec 4) (n : BitVec 8) (count : Tender → Nat) (s : State) : Out := run (do
  needCore
  accessGate
  tenderUsable t.toNat
  let x := (← core).tender t.toNat
  if x.stages < n.toNat then trap cTender (tenderTval t.toNat 4)
  if count x < n.toNat then do
    modSlot (fun x => { x with stage := twaitStage t.toNat })
    sleepTurn .twait
  acquire 4
  done) s

def execTwaitFill (t : BitVec 4) (n : BitVec 8) (s : State) : Out := twait t n Tender.filled s
def execTwaitFree (t : BitVec 4) (n : BitVec 8) (s : State) : Out := twait t n (fun x => x.stages - (x.t - x.c).toNat) s

-- channels

/-- An instruction that names an endpoint waits while a load will write to it (R267). -/
def chIdle (n : BitVec 3) : M Unit := do
  if (← slot).isPend (.ch n.toNat) then loseTurn

/-- The channel fault of an endpoint of the issuing slot (R455). -/
def chFault {α : Type} (n reason : Nat) : M α := do
  let k := (← getS).cur.k
  trap cChannel (chanTval k n reason)

/-- The name of an endpoint as its peer knows it. -/
def endpointName (core k n : Nat) : BitVec 18 := BitVec.ofNat 18 (core + k * 4096 + n * 32768)

/-- CHOPEN (R343, R455). -/
def execChopen (n : BitVec 3) (a : BitVec 6) (s : State) : Out := run (do
  needCore
  prep [.src (plain a)]
  chIdle n
  let s0 ← getS
  let w ← peek (rg (plain a))
  let e := (s0.slotAt s0.cur).ep n.toNat
  if e.saved then chFault n.toNat 6
  if e.opened then chFault n.toNat 1
  if w.extractLsb' 19 45 ≠ 0 ∨ !(s0.coreLive (w.extractLsb' 0 12).toNat) then chFault n.toNat 2
  let _ ← rg (plain a)
  let grants := (e.kept.filter (fun k => k.1 == w.setWidth 18)).foldl (fun m k => m + k.2) 0
  modSlot (fun x => x.setEp n.toNat ⟨true, w.setWidth 19, if w.getLsbD 18 then 0 else grants, [], 0, [], false⟩)
  done) s

/-- The receive buffer that grants must fit, with the banks a CFGBANK is taking away (R73, R74). -/
def CoreSt.grantRoom (c : CoreSt) : Nat :=
  match c.cfg with
  | some g => c.recvBufAfter g
  | none => c.recvBuf

/-- CHGRANT (R344). -/
def execChgrant (n : BitVec 3) (cnt : BitVec 16) (s : State) : Out := run (do
  needCore
  chIdle n
  let s0 ← getS
  let x := s0.slotAt s0.cur
  let e := x.ep n.toNat
  if !e.opened || !e.recv then chFault n.toNat 3
  let g := Nat.min cnt.toNat ((s0.at' s0.cur.pl).grantRoom - e.outst)
  let peer := (e.peer.setWidth 12).toNat
  if g ≠ 0 then do
    modSlot (fun x => x.setEp n.toNat { e with outst := e.outst + g })
    modS (fun s => s.send x.launch s.cur.pl (.core peer) (some s.cur)
      (.chGrant peer ((e.peer.extractLsb' 12 3).toNat * 8 + (e.peer.extractLsb' 15 3).toNat) (endpointName (placeNum s.cur.pl) s.cur.k n.toNat) g))
  done) s

/-- An endpoint is ready for CHALT (R346). -/
def Endpoint.ready (e : Endpoint) : Bool := if e.recv then !e.buf.isEmpty else decide (0 < e.allow)

/-- CHALT (R346). -/
def execChalt (d a : BitVec 6) (s : State) : Out := run (do
  needCore
  prep [.dst (plain d), .src (plain a)]
  let x ← slot
  let m ← peek (rg (plain a))
  let opened := (List.range 8).filter (fun n => m.getLsbD n && (x.ep n).opened)
  if opened.isEmpty then chFault 0 5
  match ((List.range 8).map (fun k => (x.chLast + 1 + k) % 8)).find? (fun n => opened.contains n && (x.ep n).ready) with
  | none => sleepTurn .chalt
  | some n => do
    let _ ← rg (plain a)
    modSlot (fun x => { x with chLast := n })
    wg 4 (plain d) (BitVec.ofNat 64 n)
    done) s

/-- Words of one endpoint are still on their way. -/
def State.epWordsOut (s : State) (i : Sid) (n : Nat) : Bool :=
  s.flights.any (fun f => f.sid == some i && (match f.body with
    | .chWord _ _ src _ => (src.extractLsb' 15 3).toNat == n
    | _ => false))

/-- CHCLOSE (R347). -/
def execChclose (n : BitVec 3) (s : State) : Out := run (do
  needCore
  chIdle n
  let s0 ← getS
  let e := (s0.slotAt s0.cur).ep n.toNat
  if !e.opened then done
  else do
    if !e.recv && s0.epWordsOut s0.cur n.toNat then holdTurn
    modSlot (fun x => x.setEp n.toNat { e with opened := false, peer := 0, allow := 0, buf := [], outst := 0 })
    done) s

/-- CHANNEL_WORD_ARRIVAL of the flight numbered State.subj (R345, R456). -/
def execChannelWordArrival (s : State) : Out :=
  match s.flight? s.subj with
  | some f =>
    match f.body with
    | .chWord core en src v =>
      let i : Sid := ⟨.core core, en / 8⟩
      if !(s.first f && s.cleared f && s.turnPast i) then .next s
      else
        let x := s.slotAt i
        let e := x.ep (en % 8)
        let s := s.dropFlight f.id
        let s :=
          if (e.saved || (e.opened && x.busy && x.launch == f.launch)) && e.recv && e.peer.setWidth 18 == src then
            s.setSlot i (x.setEp (en % 8) { e with buf := e.buf ++ [v] })
          else s.countFault f.launch 1 cChannel (locWord i)
        .next (s.bankCheck core)
    | _ => .next s
  | none => .next s

/-- CHANNEL_GRANT_ARRIVAL of the flight numbered State.subj (R344, R456). -/
def execChannelGrantArrival (s : State) : Out :=
  match s.flight? s.subj with
  | some f =>
    match f.body with
    | .chGrant core en src n =>
      let i : Sid := ⟨.core core, en / 8⟩
      if !(s.first f && s.cleared f && s.turnPast i) then .next s
      else
        let x := s.slotAt i
        let e := x.ep (en % 8)
        let s := s.dropFlight f.id
        let e' : Endpoint :=
          if (e.saved || e.opened) && !e.recv && e.peer.setWidth 18 == src then { e with allow := e.allow + n }
          else { e with kept := e.kept ++ [(src, n)] }
        .next ((s.setSlot i (x.setEp (en % 8) e')).bankCheck core)
    | _ => .next s
  | none => .next s

end Sys2Proof.Machine
end

