-- ==== Sys2Proof/Machine/Matrix.lean ====
section
/-! DEFINITION. The matrix unit: tensor records, tile operations, accumulators, tile queues and triggers (R81, R113-R116,
R128-R133, R316-R332, R429). -/

namespace Sys2Proof.Machine

-- tensor records (R321)

structure Tensor where
  base : Nat
  rows : Nat
  cols : Nat
  stride : Nat
  code : Nat
  pal : Nat
  flags : BitVec 16
  group : Nat
  scale : Nat
  ind : Nat
  pad : Nat
  /-- it lies in ordinary memory, aligned to 64 -/
  placed : Bool
  deriving DecidableEq, Repr

/-- Why a tile operation, an MLOAD or an MSTORE fails: a check (R323), or an access (R429). -/
inductive TileErr where
  | format
  | access (f : AccFault)
  deriving DecidableEq, Repr

abbrev TE := Except TileErr

/-- A check of a tile operation. -/
def need (b : Bool) : TE Unit := if b then .ok () else .error .format

/-- The bytes of an access of the tile fetch unit (DEDUCED, log 33). -/
def State.tileAccess (s : State) (wr : Bool) (va n align : Nat) : TE (List PByte) :=
  match s.quietAccess 3 wr (BitVec.ofNat 64 va) n align with
  | .error f => .error (.access f)
  | .ok bs => if !wr && bs.any s.bytePoison then .error (.access ⟨cData, BitVec.ofNat 64 va, 0⟩) else .ok bs

/-- A read of the tile fetch unit, from the homes (R72, R322). -/
def State.tileNat (s : State) (va n align : Nat) : TE Nat :=
  (s.tileAccess false va n align).map (fun bs => ofBytes (bs.map (fun b => s.byteAt b.loc)))

/-- A field of a record held as a number. -/
def fieldAt (v o n : Nat) : Nat := v / 256 ^ o % 256 ^ n

/-- A record as its 64 bytes give it, wherever they lie; where it lies is one of the conditions that are checked later (R321,
R322). What cannot be read in an aperture breaks that condition. -/
def State.tensor (s : State) (va : Word) : TE Tensor :=
  let fields (v : Nat) (placed : Bool) : Tensor :=
    ⟨fieldAt v 0 8, fieldAt v 8 4, fieldAt v 12 4, fieldAt v 16 8, fieldAt v 24 1, fieldAt v 25 1,
     BitVec.ofNat 16 (fieldAt v 26 2), fieldAt v 28 4, fieldAt v 32 8, fieldAt v 40 8, fieldAt v 48 16, placed⟩
  match s.tileNat va.toNat 64 1 with
  | .ok v => .ok (fields v (va.toNat % 64 == 0 && regionOf va.toNat == .virt))
  | .error f => .error (if regionOf va.toNat = .virt then f else .format)

def Tensor.tiled (t : Tensor) : Bool := t.flags.getLsbD 0
def Tensor.trans (t : Tensor) : Bool := t.flags.getLsbD 1
def Tensor.indirect (t : Tensor) : Bool := t.flags.getLsbD 2

/-- The scale kind of a code: 0 none, 1 per-tensor, 2 per-row, 3 per-group (R114). -/
def Tensor.kind (t : Tensor) : Nat := t.code % 4

def Tensor.width (t : Tensor) : Nat :=
  match fmtElem t.code with
  | some e => e.bits
  | none => 8

/-- log2 of a tile block (R81): from the tensor-map page of the base, else from the element width. -/
def State.blockSh (s : State) (t : Tensor) : Nat :=
  let own := if t.width = 4 then 9 else if t.width = 32 then 12 else if t.width = 16 then 11 else 10
  match s.quietAccess 3 false (BitVec.ofNat 64 t.base) 1 1 with
  | .ok (b :: _) => if pteClass b.pte = 2 then 9 + ((pteArg b.pte).extractLsb' 10 2).toNat else own
  | _ => own

/-- The conditions of R321, R115 and R116 on a record. -/
def State.tensorOk (s : State) (t : Tensor) : Bool :=
  t.placed && (fmtElem t.code).isSome && decide (t.pal ≤ 1) && (t.flags &&& 0xFFF8) == 0 && t.pad == 0 &&
  t.group == (if t.kind = 3 then 128 else 0) &&
  (if t.kind = 0 then true else if t.kind = 3 then t.scale % 2 == 0 else t.scale % 4 == 0) &&
  (if t.tiled then t.base % 2 ^ (s.blockSh t + 5) == 0
   else t.base % 16 == 0 && t.stride % 16 == 0 && decide ((t.cols * t.width + 7) / 8 ≤ t.stride))

/-- The bit address of stored element (r, c) (R81, R321). -/
def Tensor.bitAddr (t : Tensor) (sh r c : Nat) : Nat :=
  if t.tiled then
    let sj := ((t.cols + 31) / 32 + 31) / 32
    let ti := r / 32
    let tj := c / 32
    8 * (t.base + 2 ^ sh * (tj % 32 + 32 * (ti % 32) + 1024 * (ti / 32 * sj + tj / 32))) + (32 * (r % 32) + c % 32) * t.width
  else 8 * (t.base + r * t.stride) + c * t.width

/-- Stored row and column of element (i, j) in the operand's orientation. -/
def Tensor.stored (t : Tensor) (i j : Nat) : Nat × Nat := if t.trans then (j, i) else (i, j)

/-- Extents in the operand's orientation, the rows field replaced by a count where one was read. -/
def Tensor.dims (t : Tensor) (rows : Nat) : Nat × Nat := if t.trans then (t.cols, rows) else (rows, t.cols)

/-- The name of a line that an operation uses at its slice: slice, line, and whether it is the host's. -/
def pinKeys (s : State) (bs : List PByte) : List Nat :=
  ((srcLines (bs.map s.srcHome)).map (fun e => (e.2.1 * 1024 + e.1) * 2 + e.2.2.toNat)).dedup

/-- A write of a place to one of these lines is on its way: what its tile fetch unit reads there follows it, since packets from
one source to one destination arrive in the order they were sent (R91, R93). -/
def State.linesPending (s : State) (p : Place) (keys : List Nat) : Bool :=
  s.flights.any (fun g => g.src == p && keys.any (fun k => (List.range 128).any (fun j =>
    let a := k / 2048 * 128 + j
    g.body.writesLoc (if k % 2 = 1 then .host a else .dev a))))

/-- The lines of n bytes that the tile fetch unit reads; none where it may not. -/
def State.fetchLines (s : State) (va n : Nat) : List Nat :=
  match s.tileAccess false va n 1 with
  | .ok bs => pinKeys s bs
  | .error _ => []

/-- The code of element (i, j) and the lines it lies in. -/
def State.element (s : State) (t : Tensor) (sh i j : Nat) : TE (Nat × List Nat) :=
  let rc := t.stored i j
  let bit := t.bitAddr sh rc.1 rc.2
  (s.tileAccess false (bit / 8) ((bit % 8 + t.width + 7) / 8) 1).map (fun bs =>
    (ofBytes (bs.map (fun b => s.byteAt b.loc)) / 2 ^ (bit % 8) % 2 ^ t.width, pinKeys s bs))

def zeroFl : Fl := .fin false 0 0
def oneFl : Fl := .fin false 1 0

/-- The value of an element (R126, R130). -/
def State.valueOf (s : State) (t : Tensor) (code : Nat) : Fl :=
  match fmtElem t.code with
  | some e => e.dec (((s.at' s.cur.pl).pal.toList[t.pal]?).getD palReset) code
  | none => zeroFl

/-- The 32 values of one segment at a non-K index: zero from `lim` on (R322, R130). `at'` places a K index. -/
def State.segment (s : State) (t : Tensor) (sh : Nat) (at' : Nat → Nat × Nat) (seg lim : Nat) : TE (List Fl × List Nat) :=
  (List.range 32).foldlM (fun (acc : List Fl × List Nat) k =>
    let kk := 32 * seg + k
    if kk < lim then
      (s.element t sh (at' kk).1 (at' kk).2).map (fun r => (acc.1 ++ [s.valueOf t r.1], acc.2 ++ r.2))
    else .ok (acc.1 ++ [zeroFl], acc.2)) ([], [])

/-- The group scale of a non-K index in a segment (R116, R130): 1 beyond the K extent; and the lines it is read from. -/
def State.groupScale (s : State) (t : Tensor) (idx seg k : Nat) : TE (Fl × List Nat) :=
  if t.kind ≠ 3 ∨ k ≤ 32 * seg then .ok (oneFl, [])
  else (s.tileAccess false (t.scale + 2 * (idx * ((k + 127) / 128) + seg / 4)) 2 1).map (fun bs =>
    (Fmt.bf16.val (ofBytes (bs.map (fun b => s.byteAt b.loc))), pinKeys s bs))

/-- A 32-bit scale as a value. -/
def State.scale32 (s : State) (va : Nat) : TE Fl := (s.tileNat va 4 1).map (fun v => Fmt.fp32.val v)

-- the product (R128-R131)

/-- The weight-only pairing (R129). -/
def weightOnly (a b : Nat) : Bool := a == 0x08 && [0x2F, 0x33, 0x23].contains b

def intCodeOf (code : Nat) : Bool :=
  match fmtElem code with
  | some (.int _ _) => true
  | _ => false

/-- The accumulator's kind is INT32 (R130). -/
def int32Kind (a b : Tensor) : Bool := intCodeOf a.code && intCodeOf b.code && a.kind != 3 && b.kind != 3

def pairOk (a b : Tensor) : Bool := weightOnly a.code b.code || a.width == b.width

/-- Multiply with the flags of both. -/
def mulAcc (x : Fl × Flags) (y : Fl) : Fl × Flags :=
  let r := mulFl x.1 y
  (r.1, x.2 ||| r.2)

def roundRes32 (v : Fl × Flags) : Nat × Flags := roundRes .fp32 0 false v

/-- One segment of one element (R130, R131). -/
def segStep (i32 : Bool) (old : BitVec 32) (a b : List Fl) (ga gb : Fl) : BitVec 32 × Flags :=
  let ps := (a.zip b).map (fun p => mulFl p.1 p.2)
  let sum := sumFl 0 (ps.map (fun p => p.1))
  let fl := orFl (ps.map (fun p => p.2)) ||| sum.2
  if i32 then
    let x := old.toInt + sum.1.atExp 0
    let c : Int := if x < -2147483648 then -2147483648 else if 2147483647 < x then 2147483647 else x
    (BitVec.ofInt 32 c, fl ||| (if c = x then 0 else fOf))
  else
    let v := roundRes32 (mulAcc (mulAcc (sum.1, fl) ga) gb)
    let t := sumFl 0 [Fmt.fp32.val old.toNat, Fmt.fp32.val v.1]
    let r := roundRes32 t
    (BitVec.ofNat 32 r.1, v.2 ||| r.2)
where
  orFl (l : List Flags) : Flags := l.foldl (fun a b => a ||| b) 0

/-- A weight dequantised to BF16 (R129). R118 names this rounding under none of its lists; it overflows as an arithmetic
result does (DESIGN CHOICE, log 80). -/
def dequant (q g : Fl) : Fl × Flags :=
  let r := roundRes .bf16 0 false (mulFl q g)
  (Fmt.bf16.val r.1, r.2)

/-- A tile operation as the unit issues it (R322). -/
structure TileIn where
  a : Tensor
  b : Tensor
  sa : Nat
  sb : Nat
  ti : Nat
  tj : Nat
  lo : Nat
  m : Nat
  ka : Nat
  kb : Nat
  n : Nat

/-- Non-K indices in play: rows from lo on and columns, within the tensors. -/
def TileIn.rowsIn (t : TileIn) : List Nat := (List.range 32).filter (fun i => decide (t.lo ≤ i) && decide (32 * t.ti + i < t.m))
def TileIn.colsIn (t : TileIn) : List Nat := (List.range 32).filter (fun j => decide (32 * t.tj + j < t.n))

/-- A tile operation that does nothing (R322). -/
def TileIn.noOp (t : TileIn) (kc : Nat) : Bool := decide (kc = 0) || decide (t.m ≤ 32 * t.ti + t.lo) || decide (t.n ≤ 32 * t.tj)

/-- What the product accumulates: elements, flags, operand lines, lines of scales. -/
structure TileAcc where
  elems : List (BitVec 32)
  flags : Flags
  pins : List Nat
  used : List Nat

/-- One K tile. K indices beyond an operand's extent give zero products, whatever the scales (R130). -/
def State.tileSeg (s : State) (t : TileIn) (acc : TileAcc) (seg : Nat) : TE TileAcc := do
  let lim := Nat.min t.ka t.kb
  let as ← t.rowsIn.mapM (fun i => do
    let v ← s.segment t.a t.sa (fun k => (32 * t.ti + i, k)) seg lim
    let g ← s.groupScale t.a (32 * t.ti + i) seg t.ka
    pure (i, v, g))
  let wo := weightOnly t.a.code t.b.code
  let bs ← t.colsIn.mapM (fun j => do
    let v ← s.segment t.b t.sb (fun k => (k, 32 * t.tj + j)) seg lim
    let g ← s.groupScale t.b (32 * t.tj + j) seg t.kb
    if wo then
      let w := v.1.zipIdx.map (fun q => if 32 * seg + q.2 < lim then dequant q.1 g.1 else (zeroFl, 0))
      pure (j, (w.map (fun p => p.1), v.2), (oneFl, g.2), w.foldl (fun f p => f ||| p.2) (0 : Flags))
    else pure (j, v, g, (0 : Flags)))
  let i32 := int32Kind t.a t.b
  let next := acc.elems.zipIdx.map (fun e =>
    match as.find? (fun r => r.1 == e.2 / 32), bs.find? (fun c => c.1 == e.2 % 32) with
    | some (_, va, ga), some (_, vb, gb, _) => segStep i32 e.1 va.1 vb.1 ga.1 gb.1
    | _, _ => (e.1, 0))
  pure ⟨next.map (fun e => e.1), (next.foldl (fun f e => f ||| e.2) acc.flags) ||| bs.foldl (fun f b => f ||| b.2.2.2) 0,
    (acc.pins ++ as.flatMap (fun r => r.2.1.2) ++ bs.flatMap (fun c => c.2.1.2)).dedup,
    (acc.used ++ as.flatMap (fun r => r.2.2.2) ++ bs.flatMap (fun c => c.2.2.1.2)).dedup⟩

-- the coordinate word (R319)

def cwTi (cw : Word) : Nat := (cw.extractLsb' 0 16).toNat
def cwTj (cw : Word) : Nat := (cw.extractLsb' 16 16).toNat
def cwK0 (cw : Word) : Nat := (cw.extractLsb' 32 16).toNat
def cwKc (mmag : Bool) (cw : Word) : Nat := if mmag then (cw.extractLsb' 48 8).toNat else (cw.extractLsb' 48 16).toNat
def cwLo (mmag : Bool) (cw : Word) : Nat := if mmag then Nat.min (cw.extractLsb' 56 8).toNat 32 else 0

/-- What an operation came to: outcome, rows, new elements and flags, operand lines, lines of scales, palettes used, length in
cycles. -/
structure TileOut where
  outcome : BitVec 3
  rows : Nat
  elems : List (BitVec 32)
  flags : Flags
  pins : List Nat
  used : List Nat
  pals : List Nat
  cycles : Nat

/-- The count of A's rows is read from memory (R321, R329). -/
def TEntry.counts (e : TEntry) (ta : Tensor) : Bool := e.mmag && ta.indirect

/-- What an operation reads first: its records and its count (R322). -/
def State.tileArgs (s : State) (e : TEntry) : TE (TileIn × Nat) := do
  let ta ← s.tensor e.a
  let tb ← s.tensor e.b
  let ra ← if e.counts ta then s.tileNat ta.ind 4 1 else .ok ta.rows
  let mk := ta.dims ra
  let kn := tb.dims tb.rows
  .ok (⟨ta, tb, s.blockSh ta, s.blockSh tb, cwTi e.c, cwTj e.c, cwLo e.mmag e.c, mk.1, mk.2, kn.1, kn.2⟩, ra)

/-- The checks of an operation that is no no-op (R115, R116, R128-R130, R321, R322). -/
def State.tileOk (s : State) (e : TEntry) (t : TileIn) (acc : Acc) : Bool :=
  s.tensorOk t.a && s.tensorOk t.b && pairOk t.a t.b && (int32Kind t.a t.b == acc.i32) && (!e.counts t.a || t.a.ind % 4 == 0)

/-- The K tiles of an operation. -/
def TEntry.segs (e : TEntry) : List Nat := (List.range (cwKc e.mmag e.c)).map (fun k => cwK0 e.c + k)

/-- Issue a tile operation on an accumulator (R322, R323, R329); a failure comes with the count read, or 0. -/
def State.tileOp (s : State) (e : TEntry) (acc : Acc) : Except (TileErr × Nat) TileOut :=
  match s.tileArgs e with
  | .error f => .error (f, 0)
  | .ok (t, ra) =>
    let shown := if e.counts t.a then ra else 0
    let rows := if e.counts t.a then ra else t.m
    if t.noOp e.segs.length then .ok ⟨2, rows, acc.elems.toList, 0, [], [], [], 8⟩
    else if !(s.tileOk e t acc) then .error (.format, shown)
    else
      match e.segs.foldlM (fun a g => s.tileSeg t a g) (⟨acc.elems.toList, 0, [], []⟩ : TileAcc) with
      | .error f => .error (f, shown)
      | .ok r =>
        let pals := (if t.a.code = 0x34 then [t.a.pal] else []) ++ (if t.b.code = 0x34 then [t.b.pal] else [])
        .ok ⟨1, rows, r.elems, r.flags, r.pins, r.used, pals, e.segs.length * (if t.a.code = 0 ∨ t.b.code = 0 then 256 else 64)⟩

-- the pages that the tile fetch unit reaches (R85)

/-- One address for each page of a list. -/
def onePerPage (l : List Nat) : List Nat :=
  l.foldl (fun acc a => if acc.any (fun x => x / 65536 == a / 65536) then acc else acc ++ [a]) []

/-- Where the stored elements of a tensor lie, for elements in its operand's orientation. -/
def Tensor.vas (t : Tensor) (sh : Nat) (l : List (Nat × Nat)) : List Nat :=
  l.flatMap (fun e =>
    let bit := t.bitAddr sh (t.stored e.1 e.2).1 (t.stored e.1 e.2).2
    [bit / 8, (bit + t.width - 1) / 8])

/-- Where the group scale of a non-K index lies in a segment. -/
def Tensor.scaleVas (t : Tensor) (idx seg k : Nat) : List Nat :=
  if t.kind ≠ 3 ∨ k ≤ 32 * seg then [] else [t.scale + 2 * (idx * ((k + 127) / 128) + seg / 4)]

/-- What a segment reads. -/
def TileIn.vas (t : TileIn) (seg : Nat) : List Nat :=
  let ks := ((List.range 32).map (fun k => 32 * seg + k)).filter (fun k => decide (k < Nat.min t.ka t.kb))
  t.rowsIn.flatMap (fun i => t.a.vas t.sa (ks.map (fun k => (32 * t.ti + i, k))) ++ t.a.scaleVas (32 * t.ti + i) seg t.ka) ++
    t.colsIn.flatMap (fun j => t.b.vas t.sb (ks.map (fun k => (k, 32 * t.tj + j))) ++ t.b.scaleVas (32 * t.tj + j) seg t.kb)

/-- The pages of some addresses are in reach of the tile fetch unit of State.cur. -/
def State.warmVas (s : State) (l : List Nat) : Option State := s.warm (clusterOf s.cur.pl) (s.rootOf s.cur) (onePerPage l)

/-- The pages of an operation are in reach: its records, its count, its tiles. -/
def State.warmTile (s : State) (e : TEntry) (acc : Acc) : Option State :=
  ((s.warmVas (pagesOf e.a.toNat 64 ++ pagesOf e.b.toNat 64)).bind (fun s =>
    match s.tensor e.a with
    | .ok t => if e.counts t then s.warmVas (pagesOf t.ind 4) else some s
    | .error _ => some s)).bind (fun s =>
    match s.tileArgs e with
    | .ok (t, _) =>
      (s.warmVas [t.a.base, t.b.base]).bind (fun s =>
        if t.noOp e.segs.length || !(s.tileOk e t acc) then some s else s.warmVas (e.segs.flatMap t.vas))
    | .error _ => some s)

/-- The lines that names name are used at their slices; none while one cannot be allocated (R75). -/
def State.useKeys (s : State) (l : List Nat) : Option State :=
  s.useLines (l.map (fun k => (k / 2 % 1024, k / 2048, k % 2 == 1)))

/-- The lines of the records and the count that an operation reads (R322, R329). -/
def State.recordKeys (s : State) (e : TEntry) : List Nat :=
  s.fetchLines e.a.toNat 64 ++ s.fetchLines e.b.toNat 64 ++
    (match s.tensor e.a with
     | .ok t => if e.counts t then s.fetchLines t.ind 4 else []
     | .error _ => [])

/-- The pins of a line change by a function. -/
def State.pinLine (s : State) (k : Nat) (f : Nat → Nat) : State :=
  { s with l2 := tabSet s.l2 (k / 2 % 1024) ((tabGet [] s.l2 (k / 2 % 1024)).map (fun (e : L2Line) =>
      if e.line = k / 2048 ∧ e.hostMem = (k % 2 == 1) then { e with pins := f e.pins } else e)) }

/-- Pin the lines of the operands; none while one cannot be allocated (R75, R322). -/
def State.pinLines (s : State) (l : List Nat) : Option State :=
  l.foldlM (fun s k => (s.useKeys [k]).map (fun s => s.pinLine k (· + 1))) s

def State.unpinLines (s : State) (l : List Nat) : State := l.foldl (fun s k => s.pinLine k (· - 1)) s

/-- The late fault of a failed operation; R323 names no tval for a failed check (DESIGN CHOICE, log 4). -/
def State.tileFault (s : State) (f : TileErr) (seq : BitVec 16) : LateFault × State :=
  match f with
  | .format => (⟨cFormat, Config.free s.fresh, 0xFF, some seq, none⟩, { s with fresh := s.fresh + 1 })
  | .access f => (⟨f.cause, f.tval, 0xFF, some seq, some f.detail⟩, s)

-- the queues (R325-R328)

def CoreSt.acc' (c : CoreSt) (n : Nat) : Acc := (c.acc.toList[n]?).getD accReset
def CoreSt.setAcc (c : CoreSt) (n : Nat) (a : Acc) : CoreSt := { c with acc := c.acc.setIfInBounds n a }
def CoreSt.tq (c : CoreSt) (hi : Bool) : List TEntry := if hi then c.qhi else c.qlo
def CoreSt.setTq (c : CoreSt) (hi : Bool) (l : List TEntry) : CoreSt := if hi then { c with qhi := l } else { c with qlo := l }

/-- An operation of a slot on an accumulator is queued or running. -/
def CoreSt.accBusy (c : CoreSt) (k n : Nat) : Bool := (c.qlo ++ c.qhi).any (fun e => e.slot == k && e.acc == n && e.done.isNone)

/-- The head of a queue: its first entry that has not issued (R322, R327). -/
def CoreSt.tqHead (c : CoreSt) (hi : Bool) : Option TEntry := (c.tq hi).find? (fun e => e.done.isNone && !e.running)

def trgOff (w : Word) : Nat := (w.extractLsb' 0 19).toNat

/-- The trigger of an entry holds now (R326): a .ls word in every cycle, a .car word at each pass of its station, as a read
that takes no turn. -/
def State.trigNow (s : State) (n : Nat) (e : TEntry) : Bool :=
  let c := s.core' n
  let thr := (e.trg.extractLsb' 32 32).toNat
  if e.seen ≠ 0 then true
  else
    match e.kind.toNat with
    | 1 =>
      let off := trgOff e.trg
      let v := if offsetOk c off && !(decide (0x20000 ≤ off) && c.bankBusy ((off - 0x20000) / 0x10000)) then Memory.readNat c.ls off 4 else 0
      decide (thr ≤ v)
    | 2 =>
      match s.launch? (s.slotAt ⟨.core n, e.slot⟩).launch with
      | none => false
      | some l =>
        let k := l.winBase + (e.trg.extractLsb' 0 16).toNat
        let w := (e.trg.extractLsb' 16 3).toNat
        let v : Word := if (s.car k).st = .seated then (s.car k).w w else 0
        s.capReady (n / 4) ⟨s.nextId, 0, none, 0, 0, k, w, .load, 0, 0, false, 0, .queued⟩ && decide (thr ≤ (v.extractLsb' 0 32).toNat)
    | _ => true

/-- The head may issue (R318, R327). -/
def CoreSt.headOk (c : CoreSt) (hi : Bool) (e : TEntry) : Bool :=
  !(c.tq (!hi)).any (fun o => o.slot == e.slot && o.acc == e.acc && o.done.isNone && decide (o.id < e.id))

/-- The heads whose trigger holds now are marked. -/
def State.testHeads (s : State) (n : Nat) : State :=
  [false, true].foldl (fun s hi =>
    match (s.core' n).tqHead hi with
    | none => s
    | some e =>
      if s.trigNow n e then
        s.setCore n ((s.core' n).setTq hi (((s.core' n).tq hi).map (fun (o : TEntry) => if o.id = e.id then { o with seen := 1 } else o)))
      else s) s

/-- The head to issue (R327). -/
def CoreSt.pickHead (c : CoreSt) : Option (Bool × TEntry) :=
  let ok (hi : Bool) : Option TEntry := (c.tqHead hi).filter (fun e => e.seen != 0 && c.headOk hi e)
  match ok true, ok false with
  | some h, some l => if 4 ≤ c.hiRun then some (false, l) else some (true, h)
  | some h, none => some (true, h)
  | none, some l => some (false, l)
  | none, none => none

/-- The lines that an operation reads. -/
def State.opLines (s : State) (e : TEntry) (r : Except (TileErr × Nat) TileOut) : List Nat :=
  s.recordKeys e ++ (match r with
    | .ok o => o.used ++ o.pins
    | .error _ => [])

/-- TILE_OP_ISSUE of core State.subj (R322, R323, R327): it follows the core's own writes to what it reads (R93). -/
def execTileOpIssue (s : State) : Out :=
  let n := s.subj
  let s := s.testHeads n
  let c := s.core' n
  if c.running.isSome then .next s
  else
    match c.pickHead with
    | none => .next s
    | some (hi, e) =>
      match ({ s with cur := ⟨.core n, e.slot⟩ } : State).warmTile e (c.acc' e.acc) with
      | none => .next s
      | some s =>
      let r := s.tileOp e (c.acc' e.acc)
      let start (s : State) (r : Running) : Out :=
        let c := s.core' n
        let c := c.setTq hi ((c.tq hi).map (fun (o : TEntry) => if o.id = e.id then { o with running := true } else o))
        .next (s.setCore n { c with running := some r, hiRun := if hi then c.hiRun + 1 else 0 })
      if s.linesPending (.core n) (s.opLines e r) then .next s
      else
      match r with
      | .error (f, rows) =>
        (match s.useKeys (s.recordKeys e) with
         | none => .next s
         | some s =>
           let r := s.tileFault f e.seq
           start r.2 ⟨hi, e.id, s.cyc, 3, BitVec.ofNat 32 rows, [], 0, none, [], [], some r.1⟩)
      | .ok o =>
        match (s.useKeys (s.recordKeys e ++ o.used)).bind (fun s => s.pinLines o.pins) with
        | none => .next s
        | some s =>
          start s ⟨hi, e.id, s.cyc + o.cycles, o.outcome, BitVec.ofNat 32 o.rows, o.elems, o.flags,
            if o.outcome = 1 then some (e.a, e.b) else none, o.pins, o.pals, none⟩

/-- The MMPOP word (R328). -/
def mmpopWord (rows : BitVec 32) (acc : Nat) (fl : BitVec 5) (outcome : BitVec 3) : Word :=
  (rows ++ 0#22 ++ BitVec.ofNat 2 acc ++ fl ++ outcome : BitVec 64)

/-- A completion of a slot on a queue reaches the oldest MMPOP that waits there. -/
def State.servePop (s : State) (i : Sid) (hi : Bool) : State :=
  let x := s.slotAt i
  let c := s.at' i.pl
  match x.mmpopWait.find? (fun p => p.1 == hi), (c.tq hi).find? (fun e => e.slot == i.k && e.done.isSome) with
  | some p, some e =>
    let s := s.setAt i.pl (c.setTq hi ((c.tq hi).filter (fun o => o.id != e.id)))
    let s := s.setSlot i { s.slotAt i with mmpopWait := (s.slotAt i).mmpopWait.erase p }
    s.deliver i p.2 (e.done.getD 0)
  | _, _ => s

/-- TILE_OP_COMPLETE of core State.subj (R322, R323, R328). -/
def execTileOpComplete (s : State) : Out :=
  let n := s.subj
  let c := s.core' n
  match c.running with
  | none => .next s
  | some r =>
    if s.cyc < r.endAt then .next s
    else
      match (c.tq r.hi).find? (fun e => e.id == r.id) with
      | none => .next ((s.unpinLines r.pins).setCore n { (s.unpinLines r.pins).core' n with running := none })
      | some e =>
        let i : Sid := ⟨.core n, e.slot⟩
        if !(s.slotAt i).mmpopWait.isEmpty ∧ !(s.turnPast i) then .next s
        else
        let s := s.unpinLines r.pins
        let c := s.core' n
        let a := c.acc' e.acc
        let a' : Acc := { a with
          elems := Vector.ofFn (fun (k : Fin 1024) => (r.elems[k.val]?).getD 0), flags := a.flags ||| r.flags, srcs := r.srcs }
        let c := if r.outcome = 1 then c.setAcc e.acc a' else c
        let word := mmpopWord r.rows e.acc r.flags r.outcome
        let q := if e.mma then (c.tq r.hi).filter (fun o => o.id != e.id)
          else (c.tq r.hi).map (fun (o : TEntry) => if o.id = e.id then { o with running := false, done := some word } else o)
        let s := s.setCore n { c.setTq r.hi q with running := none }
        let s := match r.late with
          | some lf => s.lateFault i lf false
          | none => s.setSlot i ((s.slotAt i).markRec e.seq 2)
        .next (s.servePop i r.hi)

-- the instructions

/-- The accumulator trap (R318). -/
def needAcc (n : Nat) : M Unit := do
  let s ← getS
  if ((s.at' s.cur.pl).acc' n).owner ≠ some s.cur.k then trap cAcc (BitVec.ofNat 64 n)

/-- MCLAIM (R317). -/
def execMclaim (acc : BitVec 2) (s : State) : Out := run (do
  needCore
  let s ← getS
  let c := s.at' s.cur.pl
  let k := s.cur.k
  if (c.acc' acc.toNat).owner = some k then done
  else if c.acc.toList.any (fun a => a.owner == some k) then trap cAcc (acc.setWidth 64)
  else if (c.acc' acc.toNat).owner.isSome then loseTurn
  else do
    modCore (fun c => c.setAcc acc.toNat { c.acc' acc.toNat with owner := some k })
    done) s

def execMclaimRel (acc : BitVec 2) (s : State) : Out := run (do
  needCore
  let s ← getS
  let c := s.at' s.cur.pl
  if (c.acc' acc.toNat).owner ≠ some s.cur.k then done
  else if c.accBusy s.cur.k acc.toNat then loseTurn
  else do
    modCore (fun c => c.setAcc acc.toNat { c.acc' acc.toNat with owner := none })
    done) s

/-- MGEO (R320). -/
def execMgeo (a : BitVec 6) (s : State) : Out := run (do
  needCore
  prep [.src (plain a)]
  let v ← rg (plain a)
  modSlot (fun x => { x with mgeo := v })
  done) s

/-- The dispatch ring lets the next instruction be numbered (R406). -/
def ringRoom : M Unit := do
  if (← slot).ringBusy then loseTurn

/-- Append an entry to a tile queue, numbered as a dispatched instruction (R325, R406). -/
def queueTile (op : Nat) (hi : Bool) (acc : Nat) (a b c trg : Word) (kind : BitVec 2) (mmag mma : Bool) : M Unit := do
  let x ← slot
  let id ← newId
  modSlot (fun x => x.dispatch op 1 x.pc)
  let k := (← getS).cur.k
  modCore (fun co => co.setTq hi (co.tq hi ++ [⟨id, k, acc, a, b, c, trg, kind, mmag, mma, x.dseq, if kind = 0 then 1 else 0, false, none⟩]))

/-- MMA: at the tail of the high queue, its thread held until it completes (R324). -/
def execMma (acc : BitVec 2) (a b c : BitVec 6) (s : State) : Out := run (do
  needCore
  let s0 ← getS
  if (s0.slotAt s0.cur).stage = 1 then do
    if (s0.at' s0.cur.pl).qhi.any (fun e => e.slot == s0.cur.k && e.mma) then holdTurn
    done
  else do
    prep [.src (plain a), .src (plain b), .src (plain c)]
    accessGate
    needAcc acc.toNat
    ringRoom
    if 8 ≤ (← core).qhi.length then loseTurn
    let va ← rg (plain a)
    let vb ← rg (plain b)
    let vc ← rg (plain c)
    queueTile 0xB0 true acc.toNat va vb vc 0 0 false true
    modSlot (fun x => { x with stage := 1 })
    holdTurn) s

/-- The trigger register is acceptable (R326). -/
def trigCheck (kind : BitVec 2) (w : Word) : M Unit := do
  match kind.toNat with
  | 1 => do
    let c ← core
    if !(trgOff w % 8 == 0 && offsetOk c (trgOff w)) then trap' w
  | 2 => do
    let _ ← windowCar false (w.extractLsb' 0 16).toNat
    pure ()
  | _ => pure ()
where
  trap' (w : Word) : M Unit := violation 3 false (BitVec.ofNat 64 (apertureOwn + trgOff w))

/-- MMQ and MMAG: while the queue is full the turn is lost; at the turn at which the entry is appended the claim and the trigger
are checked (R325, R326). -/
def queued (op : Nat) (mmag : Bool) (o : TileOp) (s : State) : Out := run (do
  needCore
  let trg : List Use := if o.trg = 0 then [] else [.src (gf o.gt)]
  prep ([.src (plain o.a), .src (plain o.b), .src (plain o.c)] ++ trg)
  accessGate
  ringRoom
  if 8 ≤ ((← core).tq o.hi).length then loseTurn
  needAcc o.acc.toNat
  let x ← slot
  let w := if o.trg = 0 then 0 else x.gr o.gt
  trigCheck o.trg w
  let va ← rg (plain o.a)
  let vb ← rg (plain o.b)
  let vc ← rg (plain o.c)
  queueTile op o.hi o.acc.toNat va vb vc w o.trg mmag false
  done) s

def execMmq (o : TileOp) (s : State) : Out := queued 0xB1 false o s
def execMmag (o : TileOp) (s : State) : Out := queued 0xB2 true o s

/-- MMPOP (R328). -/
def execMmpop (hi : Bool) (d : BitVec 6) (s : State) : Out := run (do
  needCore
  prep [.dst (plain d)]
  ringRoom
  let s ← getS
  let k := s.cur.k
  let mine := ((s.at' s.cur.pl).tq hi).filter (fun e => e.slot == k && !e.mma)
  match mine.find? (fun e => e.done.isSome) with
  | some e => do
    modSlot (fun x => x.dispatch 0xB3 2 x.pc)
    modCore (fun c => c.setTq hi ((c.tq hi).filter (fun o => o.id != e.id)))
    wg 4 (plain d) (e.done.getD 0)
    done
  | none => do
    if mine.isEmpty then do
      modSlot (fun x => x.dispatch 0xB3 2 x.pc)
      wg 4 (plain d) 0
    else do
      pendRoom 1
      modSlot (fun x => x.dispatch 0xB3 2 x.pc)
      claimDst (plain d)
      modSlot (fun x => { x with mmpopWait := x.mmpopWait ++ [(hi, d)] })
    done) s

/-- MZERO (R330). -/
def execMzero (acc : BitVec 2) (i32 : Bool) (s : State) : Out := run (do
  needCore
  needAcc acc.toNat
  ringRoom
  if (← core).accBusy (← getS).cur.k acc.toNat then loseTurn
  modSlot (fun x => x.dispatch 0xB4 2 x.pc)
  modCore (fun c => c.setAcc acc.toNat
    { c.acc' acc.toNat with elems := Vector.replicate 1024 0, i32 := i32, flags := 0, srcs := none })
  done) s

/-- Elements of a tile in its row-major order, with their indexes in the tensor, those outside left out. -/
def tileIndexes (m n ti tj : Nat) : List (Nat × Nat × Nat) :=
  (List.range 1024).filterMap (fun k =>
    let i := 32 * ti + k / 32
    let j := 32 * tj + k % 32
    if i < m ∧ j < n then some (k, i, j) else none)

/-- The elements MLOAD writes (R331), with the lines it reads. -/
def State.loadTile (s : State) (va cw : Word) : TE (List (BitVec 32) × List Nat) := do
  let t ← s.tensor va
  need (s.tensorOk t && t.kind == 0)
  let d := t.dims t.rows
  let vs ← (tileIndexes d.1 d.2 (cwTi cw) (cwTj cw)).mapM (fun e => do
    let r ← s.element t (s.blockSh t) e.2.1 e.2.2
    pure (e.1, BitVec.ofNat 32 (Fmt.fp32.conv 0 false .ieee (s.valueOf t r.1)).1, r.2))
  pure ((List.range 1024).map (fun k => ((vs.find? (fun v => v.1 == k)).map (fun v => v.2.1)).getD 0), (vs.flatMap (fun v => v.2.2)).dedup)

/-- Per-tensor and per-row scales of a scale source, a record that keeps R321 (R133, R332). -/
def State.sourceScale (s : State) (t : Tensor) (idx : Nat) : TE Fl :=
  if t.kind = 1 then s.scale32 t.scale
  else if t.kind = 2 then s.scale32 (t.scale + 4 * idx)
  else .ok oneFl

/-- The scale-shadow multiplier; a shadow of 0 stands for 1 (R124). -/
def Slot.outMul (x : Slot) : Fl := if x.sshadow.setWidth 32 = 0#32 then oneFl else Fmt.fp32.val (x.sshadow.setWidth 32).toNat

/-- The value of an accumulator element. -/
def Acc.value (a : Acc) (k : Nat) : Fl :=
  let e := (a.elems.toList[k]?).getD 0
  if a.i32 then .ofInt e.toInt else Fmt.fp32.val e.toNat

/-- Masked bytes of a code at a bit address, for the bytes it touches. -/
def codeBytes (bs : List PByte) (sh w code : Nat) : List (PByte × Byte × Byte) :=
  let v := code % 2 ^ w * 2 ^ sh
  let m := (2 ^ w - 1) * 2 ^ sh
  bs.zipIdx.map (fun e => (e.1, BitVec.ofNat 8 (v / 256 ^ e.2), BitVec.ofNat 8 (m / 256 ^ e.2)))

/-- What MSTORE writes: the masked bytes of the elements before the first failing one, their flags, and the failure; an element
fails where its scales cannot be read or its place cannot be written (R332, R429; DEDUCED, log 92). -/
def State.storeTile (s : State) (x : Slot) (a : Acc) (va cw : Word) : TE (List (PByte × Byte × Byte) × Flags × Option TileErr) := do
  let t ← s.tensor va
  need (s.tensorOk t && t.code == x.outFmt)
  let srcs ← match a.srcs with
    | none => pure none
    | some (p, q) => do
      let tp ← s.tensor p
      let tq ← s.tensor q
      need (s.tensorOk tp && s.tensorOk tq)
      pure (some (tp, tq))
  let d := t.dims t.rows
  let sh := s.blockSh t
  let e ← match fmtElem t.code with
    | some e => .ok e
    | none => .error .format
  let pal := ((s.at' s.cur.pl).pal.toList[t.pal]?).getD palReset
  let step (acc : List (PByte × Byte × Byte) × Flags × Option TileErr) (k : Nat × Nat × Nat) :
      TE (List (PByte × Byte × Byte) × Flags × Option TileErr) := do
    if acc.2.2.isSome then pure acc
    else
      let scales : TE (Fl × Fl) := match srcs with
        | some r => do
          let fa ← s.sourceScale r.1 k.2.1
          let fb ← s.sourceScale r.2 k.2.2
          pure (fa, fb)
        | none => .ok (oneFl, oneFl)
      let rc := t.stored k.2.1 k.2.2
      let bit := t.bitAddr sh rc.1 rc.2
      match scales, s.tileAccess true (bit / 8) ((bit % 8 + t.width + 7) / 8) 1 with
      | .error f, _ => pure (acc.1, acc.2.1, some f)
      | _, .error f => pure (acc.1, acc.2.1, some f)
      | .ok (fa, fb), .ok bs =>
        let y := mulAcc (mulAcc (mulAcc (a.value k.1, 0) fa) fb) x.outMul
        let c := e.enc pal 0 false x.ovfInf y.1
        pure (acc.1 ++ codeBytes bs (bit % 8) t.width c.1, acc.2.1 ||| y.2 ||| c.2, none)
  (tileIndexes d.1 d.2 (cwTi cw) (cwTj cw)).foldlM step ([], a.flags, none)

/-- The lines of a record are used at their slices (R75, R322). -/
def State.useRecord (s : State) (va : Word) : State := (s.useKeys (s.fetchLines va.toNat 64)).getD s

/-- The lines that MLOAD and MSTORE read: the record, the tile of an MLOAD, the records and scales of an MSTORE's sources (R331,
R332). -/
def State.moveLines (s : State) (load : Bool) (acc : Acc) (va cw : Word) : List Nat :=
  let source (p : Word) (idx : Nat) : List Nat := s.fetchLines p.toNat 64 ++ (match s.tensor p with
    | .ok t => if t.kind = 1 then s.fetchLines t.scale 4 else if t.kind = 2 then s.fetchLines (t.scale + 4 * (32 * idx)) 128 else []
    | .error _ => [])
  s.fetchLines va.toNat 64 ++
    (if load then (match s.loadTile va cw with
      | .ok l => l.2
      | .error _ => [])
    else match acc.srcs with
      | some (p, q) => source p (cwTi cw) ++ source q (cwTj cw)
      | none => [])

/-- The scales that an MSTORE reads of a source's record, for the non-K indices of a tile from one on (R133, R332). -/
def Tensor.sourceVas (t : Tensor) (idx : Nat) : List Nat :=
  if t.kind = 1 then pagesOf t.scale 4 else if t.kind = 2 then pagesOf (t.scale + 4 * (32 * idx)) 128 else []

/-- The pages of an MLOAD or MSTORE are in reach: its record, its sources' records, its tile and its scales. -/
def State.warmMove (s : State) (load : Bool) (acc : Acc) (va cw : Word) : Option State :=
  let srcs : List (Word × Nat) := if load then [] else match acc.srcs with
    | some (p, q) => [(p, cwTi cw), (q, cwTj cw)]
    | none => []
  (s.warmVas (pagesOf va.toNat 64 ++ srcs.flatMap (fun p => pagesOf p.1.toNat 64))).bind (fun s =>
    let tile : List Nat := match s.tensor va with
      | .ok t => let d := t.dims t.rows
        t.vas (s.blockSh t) ((tileIndexes d.1 d.2 (cwTi cw) (cwTj cw)).map (fun e => e.2))
      | .error _ => []
    s.warmVas (tile ++ srcs.flatMap (fun p => match s.tensor p.1 with
      | .ok t => t.sourceVas p.2
      | .error _ => [])))

/-- The checks MLOAD and MSTORE share; they end with the record of the instruction written. -/
def tileMove (op : Nat) (load : Bool) (acc : BitVec 2) (a c : BitVec 6) : M (Word × Word) := do
  needCore
  prep [.src (plain a), .src (plain c)]
  accessGate
  needAcc acc.toNat
  ringRoom
  if (← core).accBusy (← getS).cur.k acc.toNat then loseTurn
  if !load && (← core).l1Busy then loseTurn
  if !(← getS).l2Free then holdTurn
  let va ← rg (plain a)
  let vc ← rg (plain c)
  let s0 ← getS
  match s0.warmMove load ((s0.at' s0.cur.pl).acc' acc.toNat) va vc with
  | none => loseTurn
  | some t => setS t
  let s ← getS
  if s.linesPending s.cur.pl (s.moveLines load ((s.at' s.cur.pl).acc' acc.toNat) va vc) then loseTurn
  modS (fun s => s.useRecord va)
  modSlot (fun x => x.dispatch op 2 x.pc)
  pure (va, vc)

/-- The late fault of an MLOAD or MSTORE. -/
def moveFault (f : TileErr) : M Unit := do
  let s ← getS
  let q := (s.slotAt s.cur).dseq - 1
  let r := s.tileFault f q
  setS (r.2.lateFault s.cur r.1 false)

/-- MLOAD (R331). -/
def execMload (acc : BitVec 2) (a c : BitVec 6) (s : State) : Out := run (do
  let (va, vc) ← tileMove 0xB6 true acc a c
  match (← getS).loadTile va vc with
  | .error f => do
    done
    moveFault f
  | .ok l => do
    modS (fun s => (s.useKeys l.2).getD s)
    modCore (fun co => co.setAcc acc.toNat { co.acc' acc.toNat with
      elems := Vector.ofFn (fun (k : Fin 1024) => (l.1[k.val]?).getD 0), i32 := false, flags := 0, srcs := none })
    done) s

/-- A posted write of masked bytes meets the L1 of its core: a whole byte takes the value there and is clean (R91); a line with
a dirty byte that is written in part goes home first. -/
def State.postOver (s : State) (p : Place) (l : List (PByte × Byte × Byte)) : State :=
  let lines (sel : Byte → Bool) : List Nat := (l.filterMap (fun e => match e.1.loc with
    | .dev a => if sel e.2.2 then some (a / 128) else none
    | _ => none)).dedup
  let part := lines (fun m => m != 0xFF)
  let s := s.cleanL1 p (fun k => part.contains k.line && l.any (fun e => e.2.2 != 0xFF &&
    (match e.1.loc with
     | .dev a => a / 128 == k.line && k.dirty.getLsbD (a % 128)
     | _ => false)))
  l.foldl (fun s e => match e.1.loc with
    | .dev a => if e.2.2 = 0xFF then s.l1Clean p a e.2.1 else s
    | _ => s) s

/-- MSTORE (R133, R332): the accumulator's flags and those of the conversions it made go to status, also where it stops at a
failing element (R132). -/
def execMstore (acc : BitVec 2) (a c : BitVec 6) (s : State) : Out := run (do
  let (va, vc) ← tileMove 0xB5 false acc a c
  let s ← getS
  match s.storeTile (s.slotAt s.cur) ((s.at' s.cur.pl).acc' acc.toNat) va vc with
  | .error f => do
    done
    moveFault f
  | .ok (l, fl, bad) => do
    let lines := l.filterMap (fun e => match e.1.loc with
      | .dev p => some (p / 128)
      | _ => none)
    modS (fun s => (s.postOver s.cur.pl l).post s.cur l none none)
    modS (fun s => s.dropL1 s.cur.pl (fun k => lines.contains k.line))
    modSlot (fun x => x.raiseFlags fl)
    done
    match bad with
    | some f => moveFault f
    | none => pure ()) s

end Sys2Proof.Machine
end

