-- ==== Sys2Proof/Machine/Mordant.lean ====
section
/-! DEFINITION. The Mordant: the walk of a specialisable routine, the code arena, SPEC, SCALL, SKEEP and SFREE (R181-R199,
R366-R368, R452-R454, R471, R472). Words are walked as words: fields by the table of R214. -/

namespace Sys2Proof.Machine

-- the registers an instruction word names (R213, R214)

/-- A field of a word: d, a, b, c, or the trigger register of spec[3:0]. -/
inductive FName where
  | d
  | a
  | b
  | c
  | s
  deriving DecidableEq, Repr, Inhabited

/-- A use of a field that names a general register or a predicate. -/
structure Role where
  f : FName
  pr : Bool
  rd : Bool
  wr : Bool
  deriving DecidableEq, Repr, Inhabited

def gR (f : FName) : Role := ⟨f, false, true, false⟩
def gW (f : FName) : Role := ⟨f, false, false, true⟩
def gRW (f : FName) : Role := ⟨f, false, true, true⟩
def pR (f : FName) : Role := ⟨f, true, true, false⟩
def pW (f : FName) : Role := ⟨f, true, false, true⟩

/-- The general and predicate fields of a word, by its opcode (R214). A mask field is a general field read. -/
def rolesOf (w : Word) : List Role :=
  let op := (fOp w).toNat
  if op = 0x02 ∨ op = 0x07 ∨ op = 0x09 ∨ op = 0x0E then [gR .a]
  else if op = 0x06 ∨ op = 0x0F then [gW .d]
  else if op = 0x0B then (if (fFn w).toNat < 2 then [gR .a] else [])
  else if op = 0x0C then [gW .d, gR .a]
  else if op = 0x0D then [gR .a, gR .b]
  else if (0x10 ≤ op ∧ op ≤ 0x23) ∨ op = 0x2B ∨ op = 0x2C ∨ op = 0x2D then [gW .d, gR .a, gR .b]
  else if (0x24 ≤ op ∧ op ≤ 0x27) ∨ op = 0x3A then [gW .d, gR .a]
  else if op = 0x28 then [gRW .d, gR .a]
  else if op = 0x29 then [gW .d, gR .a, gR .b, pR .c]
  else if op = 0x2A ∨ op = 0x2E then [gW .d, gR .a, gR .b, gR .c]
  else if op = 0x2F ∨ op = 0x38 then [gW .d]
  else if 0x30 ≤ op ∧ op ≤ 0x37 then [gW .d, gR .a]
  else if op = 0x39 then [gRW .d]
  else if op = 0x3B then [gW .d, pW .c]
  else if op = 0x40 ∨ op = 0x48 then [pW .d, gR .a, gR .b]
  else if op = 0x41 then [pW .d, gR .a]
  else if op = 0x42 then [pW .d, pR .a, pR .b]
  else if op = 0x43 then (if fFnI w = 0 then [pW .d] else [])
  else if op = 0x45 then [gW .d]
  else if op = 0x46 then [gW .d, gR .a]
  else if op = 0x47 then [gRW .d]
  else if op = 0x50 ∨ op = 0x52 then [gW .d, gR .a, gR .b]
  else if op = 0x51 ∨ op = 0x53 then [gR .d, gR .a, gR .b]
  else if op = 0x54 then [gRW .d, gR .a, gR .b]
  else if op = 0x55 then [gW .d, gR .a, gR .b]
  else if (0x56 ≤ op ∧ op ≤ 0x58) ∨ op = 0x5A ∨ op = 0x5B ∨ op = 0x5E ∨ op = 0x5F then [gR .a, gR .b]
  else if op = 0x5C ∨ op = 0x5D then [gR .a, gR .c]
  else if op = 0x60 ∨ op = 0x65 then [gW .d, gR .a, gR .b]
  else if op = 0x61 then [gRW .d, gR .a, gR .b]
  else if op = 0x62 then [gR .a, gR .b]
  else if op = 0x63 then [gR .a]
  else if op = 0x64 then [gW .d, gR .a]
  else if op = 0x73 then [gW .d, gR .a, gR .b, gR .c]
  else if op = 0x75 ∨ op = 0x78 ∨ op = 0x7A then [gW .d, gR .a]
  else if 0x70 ≤ op ∧ op ≤ 0x79 then [gW .d, gR .a, gR .b]
  else if op = 0x8F then [gW .d, gR .c]
  else if op = 0x99 then [gR .a, gR .c]
  else if op = 0x9A then [gW .d, gR .b]
  else if op = 0x9C then [gRW .c]
  else if (0x80 ≤ op ∧ op ≤ 0x9F) ∨ op = 0xA5 ∨ op = 0xA6 then [gR .c]
  else if op = 0xA0 ∨ op = 0xA4 then [gR .a]
  else if op = 0xB0 then [gR .a, gR .b, gR .c]
  else if op = 0xB1 ∨ op = 0xB2 then [gR .a, gR .b, gR .c] ++ (if (fFn w).extractLsb' 1 2 = 0 then [] else [gR .s])
  else if op = 0xB3 then [gW .d]
  else if op = 0xB5 ∨ op = 0xB6 then [gR .a, gR .c]
  else if op = 0xB7 then [gR .a]
  else if 0xC0 ≤ op ∧ op ≤ 0xC2 then [gW .d, gR .a, gR .b, gR .c]
  else if op = 0xC3 then [gW .d]
  else if op = 0xC4 ∨ op = 0xC7 then [gR .a]
  else if op = 0xC9 then [gW .d, gR .a]
  else if op = 0xD2 then [gRW .d, gR .a, gR .b]
  else if op = 0xD0 ∨ op = 0xD6 then [gW .d, gR .a]
  else if op = 0xD4 ∨ op = 0xD5 then [gRW .a, gR .b]
  else if 0xD0 ≤ op ∧ op ≤ 0xD8 then [gW .d, gR .a, gR .b]
  else if op = 0xE0 ∨ op = 0xE3 then [gR .a]
  else if op = 0xE1 ∨ op = 0xE2 ∨ op = 0xE5 ∨ op = 0xE6 then [gW .d, gR .a]
  else if op = 0xE4 then [gW .d]
  else if op = 0xF0 then [gW .d, gR .a]
  else if op = 0xF1 ∨ op = 0xF2 ∨ op = 0xF3 then [gR .a]
  else []

/-- The opcodes of the R format among those with a field that may be relative (R204, R214). -/
def hasRel (op : Nat) : Bool :=
  op == 0x0B || op == 0x0C || op == 0x0D || (decide (0x10 ≤ op) && decide (op ≤ 0x2F)) || op == 0x3A || op == 0x3B ||
  op == 0x40 || op == 0x46 || op == 0x48 || op == 0x5C || op == 0x5D || (decide (0x70 ≤ op) && decide (op ≤ 0x7A)) ||
  (decide (0x80 ≤ op) && decide (op ≤ 0x9F)) || op == 0xA5 || op == 0xA6

/-- The opcodes of the M format with an address (R208). -/
def isMFormat (op : Nat) : Bool :=
  (decide (0x50 ≤ op) && decide (op ≤ 0x5F)) && !([0x55, 0x59, 0x5C, 0x5D].contains op)

/-- Instructions that write a second register, g(d + 1) (R277, R349). -/
def writesPair (op : Nat) : Bool := [0x60, 0x61, 0x65, 0xD0, 0xD1, 0xD2, 0xD3, 0xD6, 0xD7, 0xD8].contains op

def codeOf (w : Word) : FName → BitVec 6
  | .d => fD w
  | .a => fA w
  | .b => fB w
  | .c => fC w
  | .s => fSpec w &&& 0xF

/-- The relative bit of a field (R204). -/
def relOf (w : Word) (f : FName) : Bool :=
  hasRel (fOp w).toNat &&
  (match f with
   | .d => w.getLsbD 9
   | .a => w.getLsbD 11
   | .b => w.getLsbD 10
   | _ => false)

/-- A word with n bits from bit lo on replaced. -/
def setBits (w : Word) (lo n : Nat) (v : Word) : Word :=
  let m : Word := BitVec.ofNat 64 (2 ^ n - 1)
  (w &&& ~~~(m <<< lo)) ||| ((v &&& m) <<< lo)

def setCode (w : Word) (f : FName) (c : BitVec 6) : Word :=
  match f with
  | .d => setBits w 41 6 (c.setWidth 64)
  | .a => setBits w 35 6 (c.setWidth 64)
  | .b => setBits w 29 6 (c.setWidth 64)
  | .c => setBits w 23 6 (c.setWidth 64)
  | .s => w

def clearEb (w : Word) : Word := w &&& 0xFFF87FFFFFFFFFFF#64

/-- A word with the guard of another. -/
def guardAs (g : BitVec 4) (gn : Bool) (w : Word) : Word :=
  setBits (setBits w 52 4 (g.setWidth 64)) 51 1 ((BitVec.ofBool gn).setWidth 64)

def fits32 (v : Word) : Bool := (v.setWidth 32).signExtend 64 == v

-- routine headers (R181)

structure RHeader where
  early : BitVec 16
  stage2 : BitVec 16
  result : BitVec 16
  nofork : Bool
  len : Nat
  deriving DecidableEq, Repr, Inhabited

def routineMagic : BitVec 32 := 0x3A5D0E11

/-- A header of 16 bytes, as a number, that keeps R181. -/
def parseHeader (h : BitVec 128) : Option RHeader :=
  let early := h.extractLsb' 32 16
  let stage2 := h.extractLsb' 48 16
  let result := h.extractLsb' 64 16
  let flags := h.extractLsb' 80 16
  let len := (h.extractLsb' 96 32).toNat
  if h.setWidth 32 = routineMagic ∧ early.toNat < 512 ∧ stage2 &&& ~~~early = 0 ∧ result.toNat < 512 ∧ flags.toNat < 2 ∧
      1 ≤ len ∧ len ≤ 65536 then some ⟨early, stage2, result, flags.getLsbD 0, len⟩
  else none

-- the walk (R184-R194)

/-- Why a walk ends without residual code: cause, tval, fault detail. -/
structure WErr where
  cause : BitVec 16
  tval : Word
  detail : Option Word
  deriving DecidableEq, Repr, Inhabited

def noStep : Nat := 0xFFFFFFFF

/-- The specialisation fault (R452). -/
def specFault (cls reason step : Nat) : WErr := ⟨cSpec, BitVec.ofNat 64 (step * 2 ^ 32 + reason * 256 + cls), none⟩

/-- A routine being walked: its header's address, length, the index of the next instruction, the link register of the
CALL that inlined it. -/
structure Frame where
  base : Word
  len : Nat
  nxt : Nat
  link : BitVec 6
  deriving DecidableEq, Repr, Inhabited

/-- A taken path still to be walked (R189): the known state at its fork, where it goes on, its branch's index. -/
structure PathW where
  g : List (Option Word)
  p : List (Option Bool)
  frames : List Frame
  patch : Nat
  deriving DecidableEq, Repr, Inhabited

/-- A walk in progress. `frames` has the innermost routine first; `relocs` lists the emitted CALLs with their targets; `mark`
counts the words emitted before the step in hand; `used` lists the lines read at their slices. -/
structure Walker where
  g : List (Option Word)
  p : List (Option Bool)
  frames : List Frame
  out : List Word
  steps : Nat
  cycles : Nat
  forks : Nat
  paths : List PathW
  patch : Option Nat
  relocs : List (Nat × Word)
  idx : Nat
  mark : Option Nat
  used : List (Nat × Nat × Bool)
  deriving DecidableEq, Repr, Inhabited

/-- A walk keeps its own state where it fails: what it has cost, and the lines it has read. -/
abbrev W := StateT Walker (Except (WErr × Walker))

def wThrow {α : Type} (e : WErr) : W α := fun x => .error (e, x)

/-- A binding error at the instruction being visited. -/
def binding {α : Type} (reason : Nat) : W α := fun x => wThrow (specFault 1 reason x.idx) x

def budget {α : Type} (reason : Nat) : W α := fun x => wThrow (specFault 2 reason x.idx) x

/-- The cost of the step in hand (R192): nothing between two steps. -/
def Walker.stepCost (x : Walker) : Nat :=
  match x.mark with
  | none => 0
  | some m => if x.out.length = m then 1 else 2 * (x.out.length - m)

/-- What the walk reads besides the routine: the machine, the thread, the main routine's header. -/
structure WEnv where
  s : State
  i : Sid
  hd : RHeader

/-- Where the Mordant reads a byte: through the cluster TLB, at its home (R182); a line without one is an access violation
(R79). -/
def WEnv.byte (e : WEnv) (va : Word) : Except WErr PByte :=
  match e.s.xlate (clusterOf e.i.pl) (e.s.rootOf e.i) va with
  | .leaf pte sh =>
    let b : PByte := ⟨va.toNat, if pteHost pte then .host (pteAddr pte sh va) else .dev (pteAddr pte sh va), pte, sh⟩
    if (e.s.homeOf b).isNone then .error ⟨cAccess, va, some (detail 4 false 0xF 4)⟩ else .ok b
  | .fail lvl kind => .error ⟨cPage, va, some (detail 4 false lvl kind)⟩

/-- The places of n bytes at an address. Addresses that are not translated are a binding error of reason 1 (R182). -/
def WEnv.bytes (e : WEnv) (va : Word) (n : Nat) (step : Nat) : Except WErr (List PByte) :=
  if apertureOwn < va.toNat + n then .error (specFault 1 1 step)
  else (List.range n).mapM (fun k => e.byte (va + BitVec.ofNat 64 k))

/-- What the places hold, as a number. -/
def WEnv.value (e : WEnv) (l : List PByte) : Nat := ofBytes (l.map (fun b => e.s.byteAt b.loc))

def WEnv.read (e : WEnv) (va : Word) (n : Nat) (step : Nat) : Except WErr Nat := (e.bytes va n step).map e.value

/-- A read of the walk, which uses the lines at their slices (R75). -/
def WEnv.readW (e : WEnv) (va : Word) (n : Nat) : W Nat := fun x =>
  match e.bytes va n x.idx with
  | .ok l => .ok (e.value l, { x with used := (x.used ++ srcLines (l.map e.s.srcHome)).dedup })
  | .error r => .error (r, x)

def knownG (x : Walker) (c : BitVec 6) : Option Word :=
  if c = 0 then some 0 else if c.toNat < 11 then (x.g[c.toNat]?).join else none

def knownP (x : Walker) (n : BitVec 6) : Option Bool := if n = 0 then some true else (x.p[n.toNat]?).join

def setKG (c : Nat) (v : Option Word) : W Unit := modify (fun x => if c = 0 then x else { x with g := x.g.set c v })

def setKP (n : Nat) (v : Option Bool) : W Unit := modify (fun x => if n = 0 then x else { x with p := x.p.set n v })

/-- Emit a word (R192); the first of a taken path gives its branch its offset (R189). -/
def put (w : Word) : W Unit := do
  let x ← get
  if 4096 ≤ x.out.length then budget 1
  match x.patch with
  | some j =>
    set { x with
      out := (x.out.set j (setBits ((x.out[j]?).getD 0) 0 41 (BitVec.ofNat 64 (x.out.length - j)))) ++ [w], patch := none }
  | none => set { x with out := x.out ++ [w] }

/-- LI, and LIH when the value needs more than 32 signed bits (R186). -/
def putLi (r : BitVec 6) (v : Word) (g : BitVec 4) (gn : Bool) : W Unit := do
  put (guardAs g gn (packI 0x38 r 0 0 (v.setWidth 32)))
  if !(fits32 v) then put (guardAs g gn (packI 0x39 r 0 0 (v.extractLsb' 32 32)))

/-- Give a known register its value; it is late afterwards (R187). -/
def matG (k : Nat) : W Unit := do
  match ((← get).g[k]?).join with
  | some v => do
    putLi (BitVec.ofNat 6 k) v 0 false
    setKG k none
  | none => pure ()

def matP (n : Nat) : W Unit := do
  match ((← get).p[n]?).join with
  | some v => do
    put (packI 0x43 (BitVec.ofNat 6 n) 0 0 ((BitVec.ofBool v).setWidth 32))
    setKP n none
  | none => pure ()

/-- The numbers of a list between 1 and n, rising. -/
def ascending (n : Nat) (l : List Nat) : List Nat := ((List.range n).map (· + 1)).filter l.contains

def matGs (l : List Nat) : W Unit := (ascending 10 l).forM matG
def matPs (l : List Nat) : W Unit := (ascending 15 l).forM matP
def allG : List Nat := List.range 11
def allP : List Nat := List.range 16

/-- R193: LI into g11 of the tval, then `trap g11, cause`. -/
def putTrap (cause : BitVec 16) (tval : Word) : W Unit := do
  putLi 11 tval 0 false
  put (packI 0x02 0 11 0 (cause.setWidth 32))

-- folding (R185)

/-- The meaning of a foldable instruction. -/
def foldOp (i : Instr) : Option (State → Out) :=
  match i with
  | .add o => some (execAdd o)
  | .sub o => some (execSub o)
  | .mul o => some (execMul o)
  | .mulh o => some (execMulh o)
  | .mulhu o => some (execMulhu o)
  | .div o => some (execDiv o)
  | .divu o => some (execDivu o)
  | .rem o => some (execRem o)
  | .remu o => some (execRemu o)
  | .and o => some (execAnd o)
  | .or o => some (execOr o)
  | .xor o => some (execXor o)
  | .andn o => some (execAndn o)
  | .sll o => some (execSll o)
  | .srl o => some (execSrl o)
  | .sra o => some (execSra o)
  | .min o => some (execMin o)
  | .max o => some (execMax o)
  | .minu o => some (execMinu o)
  | .maxu o => some (execMaxu o)
  | .addw o => some (execAddw o)
  | .subw o => some (execSubw o)
  | .addi o => some (execAddi o)
  | .andi o => some (execAndi o)
  | .ori o => some (execOri o)
  | .xori o => some (execXori o)
  | .slli o => some (execSlli o)
  | .srli o => some (execSrli o)
  | .srai o => some (execSrai o)
  | .muli o => some (execMuli o)
  | .li d imm => some (execLi d imm)
  | .lih d imm => some (execLih d imm)
  | .mov o => some (execMov o)
  | .clz o => some (execClz o)
  | .ctz o => some (execCtz o)
  | .popc o => some (execPopc o)
  | .bfx o => some (execBfx o)
  | .bfi o => some (execBfi o)
  | .sel o c => some (execSel o c)
  | .madd o c => some (execMadd o c)
  | .lea o c => some (execLea o c)
  | .cellh o c => some (execCellh o c)
  | .cmp p c a b => some (execCmp p c a b)
  | .cmpi p c a imm => some (execCmpi p c a imm)
  | .plog p a b t => some (execPlog p a b t)
  | .pset p v => some (execPset p v)
  | .psetPw m => some (execPsetPw m)
  | _ => none

/-- A slot that holds the known registers and nothing else, in user mode with user trap handling off. -/
def foldSlot (x : Slot) (k : Walker) : Slot :=
  { x with
    g := Vector.ofFn (fun (j : Fin 16) => ((k.g[j.val]?).join).getD 0),
    pw := pwFix (BitVec.ofNat 16 (((List.range 16).map (fun n => if ((k.p[n]?).join).getD false then 2 ^ n else 0)).sum)),
    mode := .user, status := 0, pend := [], hold := .none, asleep := none, handler := .none }

/-- Run a foldable instruction on the known values: the slot afterwards. -/
def WEnv.fold (e : WEnv) (k : Walker) (w : Word) (f : State → Out) : Option Slot :=
  let s := e.s.setSlot e.i (foldSlot (e.s.slotAt e.i) k)
  match f { s with cur := e.i, word := w } with
  | .next t => some (t.slotAt e.i)
  | _ => none

/-- Record the results of a folded instruction. -/
def foldResults (rs : List Role) (w : Word) (y : Slot) : W Unit := do
  if ((fOp w).toNat = 0x43 && rs.isEmpty) || rs.any (fun r => r.wr && !r.pr && codeOf w r.f == 0x18) then
    allP.forM (fun n => setKP n (some (y.pw.getLsbD n)))
  else
    rs.forM (fun r => do
      if r.wr then
        if r.pr then setKP (codeOf w r.f).toNat (some (y.pw.getLsbD (codeOf w r.f).toNat))
        else setKG (codeOf w r.f).toNat (some (y.gr ((codeOf w r.f).setWidth 4))))

/-- The early operands of a visit, with their values. -/
abbrev Marks := List (FName × Word)

def Marks.at' (m : Marks) (f : FName) : Option Word := (m.find? (fun e => e.1 == f)).map (·.2)

/-- R185's condition on the sources, and a destination the walk can hold known: g1 to g10, predicates, all of pw. -/
def sourcesKnown (x : Walker) (w : Word) (rs : List Role) (mk : Marks) : Bool :=
  rs.all (fun r =>
    (!r.rd || (if r.pr then (knownP x (codeOf w r.f)).isSome else codeOf w r.f == 0 || (mk.at' r.f).isSome)) &&
    (!r.wr || r.pr || decide ((codeOf w r.f).toNat ≤ 10) || codeOf w r.f == 0x18))

/-- What a visit comes to: the path ends, it goes on, or the instruction is not folded. -/
inductive Visit where
  | ends
  | goes
  | emit
  deriving DecidableEq, Repr, Inhabited

/-- An early load (R185, R193, R194). Only one in a constant page is folded; an aperture address, also one that R67 does not
name, never is (R182). -/
def WEnv.load (e : WEnv) (w : Word) (mk : Marks) : W Visit := do
  let n := 2 ^ ((fSz w).toNat % 4)
  let ad := mAddr w
  let ea : Word := (mk.at' .a).getD 0 + ((mk.at' .b).getD 0 <<< ad.scl.toNat) + ad.off.signExtend 64
  if 2 ^ 56 ≤ ea.toNat then do
    putTrap cAccess ea
    pure .ends
  else if apertureOwn < ea.toNat + n then pure .emit
  else
    match e.s.xlate (clusterOf e.i.pl) (e.s.rootOf e.i) ea with
    | .fail lvl kind => wThrow ⟨cPage, ea, some (detail 4 false lvl kind)⟩
    | .leaf pte _ =>
      if !(pteConst pte) then pure .emit
      else if ea.toNat % n ≠ 0 then do
        putTrap cAlign ea
        pure .ends
      else
        match e.byte ea with
        | .error _ => do
          putTrap cAccess ea
          pure .ends
        | .ok _ => do
          let v := extend (fSx w) n (← e.readW ea n)
          if fD w = 0x18 then allP.forM (fun k => setKP k (some ((pwFix (v.setWidth 16)).getLsbD k)))
          else setKG (fD w).toNat (some v)
          pure .goes

/-- A bit field that runs past bit 63 (R193, R252). -/
def bfRange (w : Word) : Bool :=
  (fOp w == 0x27 || fOp w == 0x28) && decide (64 < (fSpec w).toNat + ((fFn w).setWidth 6).toNat + 1)

/-- Fold the visited instruction, if R185 allows it. A field out of range reports its word with EB clear (R193; DEDUCED, log
23). -/
def WEnv.tryFold (e : WEnv) (w : Word) (rs : List Role) (gk : Option Bool) (mk : Marks) : W Visit := do
  let x ← get
  if gk ≠ some true ∨ rs.any (fun r => relOf w r.f) ∨ !(sourcesKnown x w rs mk) then pure .emit
  else
    match decode (clearEb w) with
    | none =>
      if bfRange w then do
        putTrap cIllegal (clearEb w)
        pure .ends
      else pure .emit
    | some d =>
      match d.ins with
      | .ld _ => e.load w mk
      | i =>
        match foldOp i with
        | none => pure .emit
        | some f =>
          match e.fold x (clearEb w) f with
          | none => pure .emit
          | some y =>
            if y.mode = .supervisor then do
              putTrap (y.tcause.setWidth 16) y.tval
              pure .ends
            else do
              foldResults rs w y
              pure .goes

-- emitted instructions (R186-R188, R471)

/-- The identities of R188, for the operand f known as k and a late other operand: the word to emit, none when the
instruction needs none, with "d is known 0". No answer where no identity applies. -/
def identity (w : Word) (f : FName) (k : Word) (other : BitVec 6) (gk : Bool) : Option (Option Word × Bool) :=
  let op := (fOp w).toNat
  let d := fD w
  let chan (c : BitVec 6) : Bool := decide (0x10 ≤ c.toNat) && decide (c.toNat < 0x18)
  if (k = 0 ∧ (op = 0x10 ∨ op = 0x1A ∨ op = 0x1B ∨ (op = 0x11 ∧ f = .b))) ∨
      ((op = 0x1D ∨ op = 0x1E ∨ op = 0x1F) ∧ f = .b ∧ k.setWidth 6 = 0#6) ∨ (op = 0x12 ∧ k = 1) then
    if d = other ∧ !(chan d) then some (none, false)
    else some (some (guardAs (fG w) (fGn w) (packR 0x3A (plain d) (plain other) (plain 0) 0 0 0 0)), false)
  else if (op = 0x12 ∨ op = 0x19) ∧ k = 0 ∧ gk ∧ d.toNat ≤ 10 ∧ !(chan other) then some (none, true)
  else if op = 0x12 ∧ k = BitVec.allOnes 64 then
    some (some (guardAs (fG w) (fGn w) (packR 0x11 (plain d) (plain 0) (plain other) 0 0 0 0)), false)
  else none

/-- The partner of a condition (R216). -/
def partnerCond (c : BitVec 3) : BitVec 3 :=
  match c.toNat with
  | 2 => 4
  | 3 => 5
  | 4 => 2
  | 5 => 3
  | 6 => 7
  | 7 => 6
  | _ => c

/-- The immediate forms of R186. -/
def immediateForm (w : Word) (f : FName) (k : Word) (other : BitVec 6) : Option Word :=
  let op := (fOp w).toNat
  let mk (o : BitVec 8) (fn : BitVec 3) (v : BitVec 32) : Word := guardAs (fG w) (fGn w) (packI o (fD w) other fn v)
  let fit (o : BitVec 8) (v : Word) : Option Word := if fits32 v then some (mk o 0 (v.setWidth 32)) else none
  match op with
  | 0x10 => fit 0x30 k
  | 0x11 => if f = .b then fit 0x30 (-k) else none
  | 0x12 => fit 0x37 k
  | 0x19 => fit 0x31 k
  | 0x1A => fit 0x32 k
  | 0x1B => fit 0x33 k
  | 0x1D => if f = .b then some (mk 0x34 0 ((k.setWidth 6).setWidth 32)) else none
  | 0x1E => if f = .b then some (mk 0x35 0 ((k.setWidth 6).setWidth 32)) else none
  | 0x1F => if f = .b then some (mk 0x36 0 ((k.setWidth 6).setWidth 32)) else none
  | 0x40 =>
    if fits32 k then some (mk 0x41 (if f = .b then (fFn w).setWidth 3 else partnerCond ((fFn w).setWidth 3)) (k.setWidth 32))
    else none
  | _ => none

/-- The two-source instructions that R186 and R188 rewrite. -/
def rewritten (op : Nat) : Bool := [0x10, 0x11, 0x12, 0x19, 0x1A, 0x1B, 0x1D, 0x1E, 0x1F, 0x40].contains op

/-- Known index and base of the M format go into the offset (R186). -/
def offsetForm (x : Walker) (w : Word) (mk : Marks) : Word × Marks :=
  let fit (v : Int) : Bool := decide (-524288 ≤ v) && decide (v < 524288)
  let r : Word × Marks := match mk.at' .b with
    | some k =>
      let o := (immX w).toInt + k.toInt * 2 ^ (mAddr w).scl.toNat
      if fit o then (setBits (setBits (setCode w .b 0) 20 2 0) 0 20 (BitVec.ofInt 64 o), mk.filter (fun (e : FName × Word) => e.1 != FName.b)) else (w, mk)
    | none => (w, mk)
  match r.2.at' .a with
  | some k =>
    let o := (immX r.1).toInt + k.toInt
    if fB r.1 ≠ 0 ∧ (knownG x (fB r.1)).isNone ∧ (r.2.at' .b).isNone ∧ (mAddr r.1).scl = 0 ∧ fit o then
      (setBits (setCode (setCode r.1 .a (fB r.1)) .b 0) 0 20 (BitVec.ofInt 64 o), r.2.filter (fun (e : FName × Word) => e.1 != FName.a))
    else r
  | none => r

/-- Early operands that stay are read from g11, g12, g13 (R186). -/
def slotOperands (w : Word) (mk : Marks) : W Word := do
  let r ← [FName.a, .b, .c].foldlM (fun (acc : Word × Nat) f => do
    match mk.at' f with
    | some k => do
      putLi (BitVec.ofNat 6 (11 + acc.2)) k 0 false
      pure (setCode acc.1 f (BitVec.ofNat 6 (11 + acc.2)), acc.2 + 1)
    | none => pure acc) (w, 0)
  pure r.1

/-- The word to emit for a visited instruction, none when it needs none, and whether d is then known 0. -/
def rewrite (w : Word) (gk : Option Bool) (mk : Marks) (rel : Bool) : W (Option Word × Bool) := do
  let x ← get
  let w := if gk = some true then guardAs 0 false (clearEb w) else clearEb w
  let op := (fOp w).toNat
  let plainWord : W (Option Word × Bool) := do
    let r := if isMFormat op then offsetForm x w mk else (w, mk)
    pure (some (← slotOperands r.1 r.2), false)
  match mk with
  | [(f, k)] =>
    let other := if f = .a then fB w else fA w
    if rel then plainWord
    else if rewritten op && (f == .a || f == .b) && other != 0 && (knownG x other).isNone then
      match if op = 0x40 then none else identity w f k other (gk == some true) with
      | some r => pure r
      | none =>
        match immediateForm w f k other with
        | some v => pure (some v, false)
        | none => plainWord
    else if op = 0x3A && f == .a && (fits32 k || !(decide (0x10 ≤ (fD w).toNat) && decide ((fD w).toNat < 0x18))) then do
      putLi (fD w) k (fG w) (fGn w)
      pure (none, false)
    else plainWord
  | _ => plainWord

/-- The registers that an instruction reads without a field: SYSC its arguments (R233), SPEC those it may bind (R366), VSEQ the
masks and VBCAST sources that its body names (R308). -/
def hiddenReads (op : Nat) (body : List Word) : List Nat :=
  (if op = 0x03 ∨ op = 0xF0 then (List.range 9).map (· + 1) else []) ++
  body.flatMap (fun b => ((rolesOf b).filter (fun r => r.rd && !r.pr)).flatMap (fun r => if relOf b r.f then allG else [(codeOf b r.f).toNat]))

/-- The registers that an instruction writes without a field: the second of a pair, the link of SCALL, the result of SYSC. -/
def hiddenWrites (w : Word) : List Nat :=
  let op := (fOp w).toNat
  if writesPair op ∧ fD w ≠ 0 then [(fD w).toNat + 1]
  else if op = 0xF1 then [10]
  else if op = 0x03 then [1]
  else []

/-- Emit the visited instruction (R186-R191, R471, R472); `body` holds the words of a VSEQ, whose snapshot takes all of pw (R308);
`target` is the target of an emitted CALL. -/
def emit (w : Word) (rs : List Role) (gk : Option Bool) (mk : Marks) (body : List Word) (target : Option Word) : W Unit := do
  let op := (fOp w).toNat
  let call := op == 0x45 || op == 0xF1
  let gs := rs.filter (fun r => !r.pr)
  let rel (r : Role) : Bool := relOf w r.f
  let rall := gs.any (fun r => r.rd && rel r)
  let wall := gs.any (fun r => r.wr && rel r)
  let pall := op == 0xA2 || gs.any (fun r => r.rd && codeOf w r.f == 0x18)
  let wpall := gs.any (fun r => r.wr && codeOf w r.f == 0x18) || (op == 0x43 && rs.isEmpty)
  let nums (l : List Role) : List Nat := l.map (fun r => (codeOf w r.f).toNat)
  let reads := nums (gs.filter (fun r => r.rd && !(rel r) && (mk.at' r.f).isNone)) ++ hiddenReads op body
  let preads := nums (rs.filter (fun r => r.pr && r.rd))
  let writes := nums (gs.filter (fun r => r.wr && !(rel r))) ++ hiddenWrites w
  let pwrites := nums (rs.filter (fun r => r.pr && r.wr)) ++
    (if op = 0x9C then [((fFn w).extractLsb' 0 4).toNat] else if op = 0x9E then [((fFn w).extractLsb' 4 4).toNat] else [])
  matGs (if call || rall then allG else reads)
  matPs (if pall then allP else preads)
  if gk.isNone then do
    matGs (if wall then allG else writes)
    matPs (if wpall then allP else pwrites)
  let r ← rewrite w gk mk (rs.any rel)
  match r.1, target with
  | some v, some t => do
    modify (fun x => { x with relocs := x.relocs ++ [(x.out.length, t)] })
    put v
  | some v, none => put v
  | none, _ => pure ()
  (if wall then allG else if call then writes ++ List.range 10 else writes).forM
    (fun k => if k ≤ 10 then setKG k none else pure ())
  (if wpall || op == 0x45 then allP else pwrites).forM (fun n => setKP n none)
  if r.2 then setKG (fD w).toNat (some 0)

-- branches, loops, jumps and calls (R189, R190, R472)

def moveTo (t : Int) : W Unit := modify (fun x =>
  match x.frames with
  | f :: l => { x with frames := { f with nxt := if t < 0 then 0xFFFFFFFF else t.toNat } :: l }
  | [] => x)

def WEnv.branch (e : WEnv) (w : Word) (i : Nat) (gk : Option Bool) : W Visit := do
  let t : Int := i + (offB w).toInt
  let x ← get
  if (fOp w).toNat = 0x47 then
    match gk, knownG x (fD w) with
    | some _, some v => do
      setKG (fD w).toNat (some (v - 1))
      if v - 1 ≠ 0 then moveTo t
      pure .goes
    | _, _ => binding 7
  else
    match gk with
    | some _ => do
      moveTo t
      pure .goes
    | none =>
      if t ≤ i then binding 7
      else if e.hd.nofork then binding 10
      else if (fEb w).getLsbD 0 then binding 4
      else if 64 ≤ x.forks then budget 3
      else do
        put (clearEb w)
        modify (fun y => { y with
          forks := y.forks + 1,
          paths := y.paths ++ [⟨y.g, y.p, (match y.frames with
            | f :: l => { f with nxt := t.toNat } :: l
            | [] => []), y.out.length - 1⟩] })
        pure .goes

def WEnv.call (e : WEnv) (w : Word) (pc : Word) (rs : List Role) (gk : Option Bool) (mk : Marks) : W Visit := do
  let t := branchTarget pc (offB w)
  let x ← get
  match e.read t 16 x.idx with
  | .error _ => binding 1
  | .ok v =>
    if (BitVec.ofNat 32 v) ≠ routineMagic then
      if (fEb w).getLsbD 0 then binding 4
      else do
        emit w rs gk mk [] (some t)
        pure .goes
    else
      match parseHeader (BitVec.ofNat 128 v) with
      | none => binding 1
      | some h =>
        if t.setWidth 4 ≠ 0#4 then binding 1
        else if gk.isNone ∨ 8 < x.frames.length ∨
            (List.range 10).any (fun k => decide (1 ≤ k) && h.early.getLsbD (k - 1) && (knownG x (BitVec.ofNat 6 k)).isNone) then binding 9
        else do
          setKG (fD w).toNat none
          modify (fun y => { y with frames := ⟨t, h.len, 0, fD w⟩ :: y.frames })
          pure .goes

/-- The link of a removed jump (R472); a link that is no tracked register is written through g11 (DEDUCED, log 23). -/
def putLink (w : Word) (v : Word) : W Unit := do
  if relOf w .d then do
    putLi 11 v 0 false
    put (packR 0x3A ⟨fD w, true⟩ (plain 11) (plain 0) 0 0 0 0)
    allG.forM (fun k => setKG k none)
  else if (fD w).toNat ≤ 10 then setKG (fD w).toNat (some v)
  else do
    putLi 11 v 0 false
    put (packR 0x3A (plain (fD w)) (plain 11) (plain 0) 0 0 0 0)

def WEnv.jmp (e : WEnv) (w : Word) (f : Frame) (i : Nat) (rs : List Role) (gk : Option Bool) (mk : Marks) : W Visit := do
  let x ← get
  if relOf w .a then binding 8
  else if 1 < x.frames.length ∧ fA w = f.link then
    if gk ≠ some true then binding 9
    else do
      setKG f.link.toNat none
      modify (fun y => { y with frames := y.frames.tail })
      pure .goes
  else
    match knownG x (fA w) with
    | some t =>
      let base := f.base + 16
      if gk ≠ some true ∨ t.setWidth 3 ≠ 0#3 ∨ t.toNat < base.toNat ∨ base.toNat + 8 * f.len ≤ t.toNat then binding 8
      else do
        putLink w (base + BitVec.ofNat 64 (8 * (i + 1)))
        moveTo ((t.toNat - base.toNat) / 8 : Nat)
        pure .goes
    | none =>
      if fA w ≠ 10 then binding 8
      else if (fEb w).getLsbD 0 then binding 4
      else do
        matGs ((List.range 10).filter (fun k => decide (1 ≤ k) && e.hd.result.getLsbD (k - 1)))
        emit w rs gk mk [] none
        pure (if gk = some true then .ends else .goes)

/-- Visit the instruction w, number i of its routine, at address pc. -/
def WEnv.visit (e : WEnv) (w : Word) (f : Frame) (i : Nat) : W Visit := do
  let x ← get
  let rs := rolesOf w
  let gs := rs.filter (fun r => !r.pr)
  let marked : List FName := ([(FName.a, 3), (.b, 2), (.c, 1)].filter (fun m => (fEb w).getLsbD m.2)).map (·.1)
  if marked.any (fun m => relOf w m || !(gs.any (fun r => r.f == m)) || decide (15 < (codeOf w m).toNat)) then binding 5
  else if gs.any (fun r => !(relOf w r.f) && decide (11 ≤ (codeOf w r.f).toNat) && decide ((codeOf w r.f).toNat ≤ 15)) then binding 6
  else
    let gk := (knownP x ((fG w).setWidth 6)).map (fun v => v != fGn w)
    if gk = some false then pure .goes
    else if marked.any (fun m => (knownG x (codeOf w m)).isNone) then binding 3
    else
      let mk : Marks := marked.map (fun m => (m, (knownG x (codeOf w m)).getD 0))
      let op := (fOp w).toNat
      if op = 0x44 ∨ op = 0x47 then e.branch w i gk
      else if op = 0x45 then e.call w (f.base + 16 + BitVec.ofNat 64 (8 * i)) rs gk mk
      else if op = 0x46 then e.jmp w f i rs gk mk
      else do
        match ← e.tryFold w rs gk mk with
        | .ends => pure .ends
        | .goes => pure .goes
        | .emit =>
          if (fEb w).getLsbD 0 then binding 4
          else do
            let n := if op = 0xA2 then Nat.min (w.extractLsb' 0 5).toNat (f.len - (i + 1)) else 0
            let body ← (List.range n).mapM (fun k => do
              let v ← e.readW (f.base + 16 + BitVec.ofNat 64 (8 * (i + 1 + k))) 8
              pure (BitVec.ofNat 64 v))
            emit w rs gk mk body none
            pure (if gk = some true ∧ (op = 0x01 ∨ op = 0x02) then .ends else .goes)

/-- One step of the walk (R185, R192); true when it was the last. -/
def WEnv.walkStep (e : WEnv) : W Bool := do
  let x ← get
  match x.frames with
  | [] => pure true
  | f :: l =>
    if f.len ≤ f.nxt then binding 2
    else do
      let i := f.nxt
      modify (fun y => { y with idx := i, mark := some y.out.length })
      if 65536 ≤ x.steps then budget 2
      modify (fun y => { y with steps := y.steps + 1, frames := { f with nxt := i + 1 } :: l })
      let w : Word := BitVec.ofNat 64 (← e.readW (f.base + 16 + BitVec.ofNat 64 (8 * i)) 8)
      let v ← e.visit w f i
      modify (fun y => { y with cycles := y.cycles + y.stepCost, mark := none })
      if v = .ends then
        match (← get).paths with
        | [] => pure true
        | p :: ps => do
          modify (fun y => { y with g := p.g, p := p.p, frames := p.frames, patch := some p.patch, paths := ps })
          pure false
      else pure false

/-- At most n steps. -/
def WEnv.walkAll (e : WEnv) : Nat → W Unit
  | 0 => pure ()
  | n + 1 => do if ← e.walkStep then pure () else e.walkAll n

/-- The walk of a routine with the values known at its start (R184). -/
def WEnv.run (e : WEnv) (routine : Word) (g : List (Option Word)) : Except (WErr × Walker) Walker :=
  match e.walkAll 65537 ⟨g, List.replicate 16 none, [⟨routine, e.hd.len, 0, 0⟩], [], 0, 0, 0, [], none, [], 0, none, []⟩ with
  | .ok (_, x) => .ok x
  | .error r => .error r

-- the code arena (R195-R197)

def Launch.arena (l : Launch) : Nat := (l.h 5).toNat
def Launch.units (l : Launch) : Nat := (l.h 6).toNat / 64
def Launch.firstUnit (l : Launch) : Nat := (64 + 4 * l.units + 63) / 64

/-- A naturally aligned write to the arena at its home, whose line's number rises; whatever the page's read_only bit
(R195); discarded where it does not translate (DESIGN CHOICE, log 16). -/
def State.arenaWrite (s : State) (l : Launch) (va n v : Nat) : State :=
  match s.portByte 0 l.root va with
  | some b => s.agentNat b n v
  | none => s

def mapAddr (l : Launch) (u : Nat) : Nat := l.arena + 64 + 4 * u

/-- A unit's map entry (R195). -/
def State.unitEntry (s : State) (l : Launch) (u : Nat) : BitVec 32 := BitVec.ofNat 32 (s.vRead l (mapAddr l u) 4)

def handleUnit (h : Word) : Nat := (h.extractLsb' 1 32).toNat

/-- The address of a block (R196). -/
def unitAddr (l : Launch) (u : Nat) : Nat := l.arena + 64 * u

/-- A handle names a block of the arena (R197). -/
def State.handleOk (s : State) (l : Launch) (h : Word) : Bool :=
  let u := handleUnit h
  h.getLsbD 0 && h.extractLsb' 33 15 == 0 && decide (l.firstUnit ≤ u) && decide (u < l.units) &&
  (s.unitEntry l u).getLsbD 0 && (s.unitEntry l u).extractLsb' 16 16 == h.extractLsb' 48 16

/-- The check reads the map entry of a unit in range, from its home (R197, R367). -/
def State.handleUse (s : State) (l : Launch) (h : Word) : State :=
  let u := handleUnit h
  if h.getLsbD 0 && h.extractLsb' 33 15 == 0 && decide (l.firstUnit ≤ u) && decide (u < l.units) then s.vUse l (mapAddr l u) 4 else s

/-- A unit that a block may take (R199, R453). -/
def State.unitFree (s : State) (l : Launch) (u : Nat) : Bool := (s.unitEntry l u).extractLsb' 16 16 == 0 && !(l.pendFree.contains u)

/-- First fit: the first of `need` free units in a row, `len` of them seen so far, of the n units from u on. -/
def State.firstFit (s : State) (l : Launch) (need : Nat) : Nat → Nat → Nat → Option Nat
  | 0, _, _ => none
  | n + 1, u, len =>
    if s.unitFree l u then
      if need ≤ len + 1 then some (u + 1 - need) else s.firstFit l need n (u + 1) (len + 1)
    else s.firstFit l need n (u + 1) 0

/-- The code of a walk for a block whose code starts at `va`: the emitted CALLs get their offsets. -/
def Residual.code (x : Residual) (va : Nat) : List Word :=
  x.relocs.foldl (fun l r =>
    l.set r.1 (setBits ((l[r.1]?).getD 0) 0 41 ((r.2 - BitVec.ofNat 64 (va + 8 * r.1)) >>> 3))) x.out

/-- Write words from an address on. -/
def State.arenaWords (s : State) (l : Launch) (va : Nat) (ws : List Word) : State :=
  ws.zipIdx.foldl (fun s e => s.arenaWrite l (va + 8 * e.2) 8 e.1.toNat) s

/-- The lines that hold a unit leave every instruction cache (R82, R199). -/
def State.dropUnit (s : State) (l : Launch) (u : Nat) : State :=
  match s.portLoc 0 l.root (unitAddr l u) with
  | some (.dev p) =>
    { s with
      clusters := s.clusters.map (fun (e : Nat × ClusterSt) => (e.1, { e.2 with icache := e.2.icache.filter (fun x => x.1 != p / 128) })),
      sliceIcache := s.sliceIcache.map (fun (e : Nat × List (Nat × BitVec 1024)) => (e.1, e.2.filter (fun x => x.1 != p / 128))) }
  | _ => s

/-- Allocate `need` units from u on for a block and write it (R195, R196); no instruction cache holds its lines (R198); the
handle (R197). -/
def State.writeBlock (s : State) (l : Launch) (u need : Nat) (code : List Word) (routine : Word) (bound : BitVec 16)
    (vals : List Word) : State × Word :=
  let gen := s.vRead l l.arena 2
  let s := s.arenaWrite l l.arena 2 (if gen = 0xFFFF then 1 else gen + 1)
  let s := (List.range need).foldl (fun s k => s.arenaWrite l (mapAddr l (u + k)) 4 (gen * 65536 + (if k = 0 then 1 else 0))) s
  let va := unitAddr l u
  let head : Word := BitVec.ofNat 64 (1 + code.length * 2 ^ 32)
  let third : Word := BitVec.ofNat 64 (bound.toNat + need * 65536)
  let s := s.arenaWords l va ([head, routine, third] ++ vals ++ List.replicate 4 0)
  let s := s.arenaWords l (va + 128) code
  ((List.range need).foldl (fun s k => s.dropUnit l (u + k)) s, BitVec.ofNat 64 (gen * 2 ^ 48 + u * 2 + 1))

/-- What a SPEC starts from (R184, R366): routine, header, the values known at the start and the bound mask. -/
structure SpecStart where
  routine : Word
  hd : RHeader
  bound : BitVec 16
  vals : List (Option Word)
  deriving DecidableEq, Repr, Inhabited

/-- The routine's header, read at its address (R181, R366). -/
def WEnv.header (e : WEnv) (routine : Word) : Except WErr RHeader :=
  if routine.setWidth 4 ≠ 0#4 then .error (specFault 1 1 noStep)
  else do
    match parseHeader (BitVec.ofNat 128 (← e.read routine 16 noStep)) with
    | some h => pure h
    | none => .error (specFault 1 1 noStep)

/-- What the SPEC of a slot specialises and with which values (R184, R366, R453). -/
def State.specStart (s : State) (i : Sid) (l : Launch) (h : Word) : Except WErr SpecStart :=
  let x := s.slotAt i
  let e : WEnv := ⟨s, i, ⟨0, 0, 0, false, 0⟩⟩
  let value (k : Nat) : Option Word := some (x.gr (BitVec.ofNat 4 k))
  if h.getLsbD 0 then
    if !(s.handleOk l h) then .error ⟨cStale, h, none⟩
    else do
      let va := unitAddr l (handleUnit h)
      let routine : Word := BitVec.ofNat 64 (s.vRead l (va + 8) 8)
      let old : BitVec 16 := BitVec.ofNat 16 (s.vRead l (va + 16) 2)
      let hd ← e.header routine
      pure ⟨routine, hd, hd.early, (List.range 11).map (fun k =>
        if k = 0 ∨ !(hd.early.getLsbD (k - 1)) then none
        else if old.getLsbD (k - 1) then some (BitVec.ofNat 64 (s.vRead l (va + 24 + 8 * (k - 1)) 8)) else value k)⟩
  else do
    let hd ← e.header h
    let b := hd.early &&& ~~~hd.stage2
    pure ⟨h, hd, b, (List.range 11).map (fun k => if k = 0 ∨ !(b.getLsbD (k - 1)) then none else value k)⟩

/-- The registers SPEC reads besides a: the ones it binds. -/
def boundUses (b : BitVec 16) : List Use :=
  ((List.range 10).filter (fun k => decide (1 ≤ k) && b.getLsbD (k - 1))).map (fun k => .src (plain (BitVec.ofNat 6 k)))

/-- The Mordant of the slot's cluster takes up its SPEC: it is idle, and no earlier request of the cluster's threads waits
(R192); requests of one cycle are taken in the order of their cores (DEDUCED, log 45). -/
def State.mordantTurn (s : State) (i : Sid) (r : SpecRun) : Bool :=
  let cl := clusterOf i.pl
  decide ((s.cluster cl).mordantFree ≤ s.cyc) &&
  !((List.range 4).any (fun k => (List.range 8).any (fun j =>
    let y := s.slotAt ⟨.core (4 * cl + k), j⟩
    match y.spec with
    | some q => y.busy && q.stop.isNone && (decide (q.asked < r.asked) || (q.asked == r.asked && decide (4 * cl + k < placeNum i.pl)))
    | none => false)))

/-- A walk that fails after `cost` cycles of the Mordant: the thread stays out of the rotation until they are over (R192). -/
def specFail {α : Type} (e : WErr) (cost : Nat) : M α := do
  let s ← getS
  let t := s.cyc + cost
  if cost = 0 then trapWith ⟨e.cause, e.tval, 0xFF, none, e.detail⟩
  else do
    setS (s.setCluster (clusterOf s.cur.pl) { s.cluster (clusterOf s.cur.pl) with mordantFree := t })
    modSlot (fun y => { y with
      hold := .untilCyc t, spec := y.spec.map (fun r => { r with stop := some (e.cause, e.tval, e.detail.getD noDetail) }) })
    stop

/-- The search of the arena finds no run (R199, R453): it is made once more when no release is pending, and then fails, all
when the walk's cycles are over. -/
def specNoRun {α : Type} (l : Launch) (r : SpecRun) (cost : Nat) : M α := do
  if l.pendFree.isEmpty then specFail (specFault 3 1 noStep) cost
  else do
    modSlot (fun y => { y with spec := some { r with waits := true } })
    holdTurn

/-- A walk's code gets its place in the arena, and d the handle; the thread is out of the rotation until the walk's cycles are over
(R192, R195, R366). -/
def specPlace (d : BitVec 4) (l : Launch) (r : SpecRun) (w : Residual) : M Unit := do
  let s ← getS
  let ends := r.began.getD s.cyc + w.cycles
  if r.waits && !l.pendFree.isEmpty then holdTurn
  let need := (128 + 8 * w.out.length + 63) / 64
  match s.firstFit l need (l.units - l.firstUnit) l.firstUnit 0 with
  | none => specNoRun l r (ends - s.cyc)
  | some u => do
    let b := s.writeBlock l u need (w.code (unitAddr l u + 128)) w.routine w.bound w.vals
    setS b.1
    wg 1 (gf d) b.2
    done
    let s ← getS
    let cl := clusterOf s.cur.pl
    let t := Nat.max s.cyc ends
    setS (s.setCluster cl { s.cluster cl with mordantFree := t })
    modSlot (fun y => { y with hold := .untilCyc t })

/-- The residual code of a walk that has ended. -/
def Walker.residual (x : Walker) (st : SpecStart) : Residual :=
  ⟨st.routine, st.bound, (List.range 9).map (fun k => ((st.vals[k + 1]?).join).getD 0), x.out, x.relocs, x.cycles⟩

/-- The Mordant takes a SPEC up: the handle and the descriptor are read, once, and the routine is walked (R184, R453). -/
def specBegin (d : BitVec 4) (l : Launch) (h : Word) (r : SpecRun) : M Unit := do
  let s ← getS
  match s.specStart s.cur l h with
  | .error e => specFail e 0
  | .ok st =>
    match WEnv.run ⟨s, s.cur, st.hd⟩ st.routine st.vals with
    | .error (e, x) => do
      modS (fun s => (s.useLines x.used).getD s)
      specFail e (x.cycles + x.stepCost)
    | .ok x => do
      modS (fun s => (s.useLines x.used).getD s)
      let r := { r with walk := some (x.residual st) }
      modSlot (fun y => { y with spec := some r })
      specPlace d l r (x.residual st)

/-- SPEC (R366): the request to the Mordant, the walk, the block, the handle; the thread is out of the rotation until the
Mordant has served the requests before its own and this one (R192) (DEDUCED, log 45). -/
def execSpec (d a : BitVec 4) (s : State) : Out := run (do
  needCore
  prep [.dst (gf d), .src (gf a)]
  match ((← slot).spec).bind (fun r => r.stop) with
  | some e => trapWith ⟨e.1, e.2.1, 0xFF, none, some e.2.2⟩
  | none => do
    let h ← rg (gf a)
    let l ← myLaunch
    let s ← getS
    match (s.slotAt s.cur).spec.bind (fun r => r.walk.map (fun w => (r, w))) with
    | some (r, w) => do
      if !s.l2Free then holdTurn
      specPlace d l r w
    | none => do
      match s.specStart s.cur l h with
      | .ok st => prep (boundUses st.bound)
      | .error _ => pure ()
      let s ← getS
      let r : SpecRun := ((s.slotAt s.cur).spec).getD ⟨s.cyc, none, false, none, none⟩
      let begins := s.mordantTurn s.cur r && s.l2Free
      let r := if begins then { r with began := some s.cyc } else r
      modSlot (fun y => { y with spec := some r })
      if begins then specBegin d l h r else holdTurn) s

/-- SCALL (R367). -/
def execScall (a : BitVec 4) (s : State) : Out := run (do
  needCore
  prep [.dst (gf 10), .src (gf a)]
  let h ← rg (gf a)
  let l ← myLaunch
  let s ← getS
  if !s.l2Free then holdTurn
  modS (fun s => s.handleUse l h)
  if !(s.handleOk l h) then trap cStale h
  wg 1 (gf 10) ((← slot).pc + 8)
  jump (BitVec.ofNat 64 (unitAddr l (handleUnit h) + 128))) s

/-- SKEEP: one more reference, at the descriptor's home (R199, R368). -/
def execSkeep (a : BitVec 4) (s : State) : Out := run (do
  needCore
  prep [.src (gf a)]
  let h ← rg (gf a)
  let l ← myLaunch
  let s ← getS
  if !s.l2Free then holdTurn
  let va := unitAddr l (handleUnit h)
  let n := s.vRead l va 4
  if !(s.handleOk l h) || n == 0 then trap cStale h
  if n = 0xFFFFFFFF then trap cArena h
  setS (s.arenaWrite l va 4 (n + 1))
  done) s

/-- SFREE: one reference less; at zero the block's map entries become 0 and its units wait for every instruction cache
(R199, R368). -/
def execSfree (a : BitVec 4) (s : State) : Out := run (do
  needCore
  prep [.src (gf a)]
  let h ← rg (gf a)
  let l ← myLaunch
  let s ← getS
  if !s.l2Free then holdTurn
  let u := handleUnit h
  let va := unitAddr l u
  let n := s.vRead l va 4
  if !(s.handleOk l h) || n == 0 then trap cStale h
  let t := s.arenaWrite l va 4 (n - 1)
  if n = 1 then do
    let us := (List.range (s.vRead l (va + 18) 2)).map (fun k => u + k)
    let t := us.foldl (fun t k => t.arenaWrite l (mapAddr l k) 4 0) t
    setS (t.setLaunch { l with pendFree := l.pendFree ++ us })
  else setS t
  done) s

/-- A launch ends: the invalidations of its releases that are still under way reach every instruction cache (R199). -/
def State.dropPending (s : State) (l : Launch) : State := l.pendFree.foldl (fun s u => s.dropUnit l u) s

/-- RESIDUAL_UNITS_FREED: every instruction cache has dropped a unit's lines, and the unit is free (R199). -/
def execResidualUnitsFreed (launch unit : Nat) (s : State) : Out :=
  match s.launch? launch with
  | some l =>
    if l.pendFree.contains unit then .next ((s.dropUnit l unit).setLaunch { l with pendFree := l.pendFree.filter (· != unit) })
    else .next s
  | none => .next s

end Sys2Proof.Machine
end

