-- ==== Sys2Proof/Machine/Context.lean ====
section
/-! DEFINITION. Contexts: vacating a slot and its record, reinstatement, the run queue, migration, and the pop of a task
(R37-R40, R44-R59, R104, R242, R243, R408, R414, R416-R422). -/

namespace Sys2Proof.Machine

-- vacating a slot (R416, R419, R420)

/-- What a vacate waits for (R416 step 2): nothing of the thread is in progress, a capture or a remote request whose results
are discarded included, which would come to another thread (DEDUCED, log 18); and its record can be written (R75). -/
def State.vacateReady (s : State) (i : Sid) : Bool :=
  let x := s.slotAt i
  let c := s.at' i.pl
  x.pend.isEmpty && x.seqr.isNone && x.umber.isNone && x.spec.isNone && x.stage != 1 && x.stage != exitStage && x.stage != departStage &&
  !(s.capsOut i false) && !(s.repliesOut i) && s.l2Free &&
  (match x.hold with
   | .none => true
   | .held => true
   | .untilCyc t => decide (t ≤ s.cyc)
   | .depart _ _ _ => false) &&
  (match c.cfg with
   | some g => g.slot != i.k
   | none => true) &&
  !(c.qlo.any (fun e => e.slot == i.k && e.mma)) && !(c.qhi.any (fun e => e.slot == i.k && e.mma)) && !(c.tileRuns i.k)

/-- A command of the slot that the engine stops: an XCPY or XGATH that is not merged (R420). -/
def State.stoppable (s : State) (i : Sid) (k : Cmd) : Bool :=
  .core k.core == i.pl && k.slot == some i.k && !k.disc && k.op != 3 && k.merge.isEmpty && !(s.cmds.any (fun c => c.merge.contains k.id))

/-- Checkpoint a command: it has written some bytes, how many being a free value, and writes no more (R420). -/
def State.checkpoint (s : State) (k : Cmd) : State × EngEnt :=
  let sz := if k.op = 2 then 2 ^ k.elemSh else 1
  let r := if k.malformed || k.cutBank then ([], 0) else s.cmdPlan k
  let n := r.1.length / sz
  let take := (Config.free s.fresh).toNat % (n + 1)
  let s := { s with fresh := s.fresh + 1 }
  let l := s.copyBytes (r.1.take (take * sz))
  let ent (m : Nat) : EngEnt := ⟨k.op, k.dst, k.src, k.cw, k.tag, k.ntf, k.tnd, m⟩
  let drop (s : State) : State := { s with cmds := s.cmds.filter (fun c => c.id != k.id) }
  if !(s.hostHeld (l.map (fun e => e.1.loc))).isEmpty then (drop s, ent k.mark)
  else
    match (s.useBytes (s.cmdSources k r.1)).bind (fun s => s.writeGroups l) with
    | some t => (drop { t with fresh := t.fresh + r.1.length }, ent (k.mark + take))
    | none => (drop s, ent k.mark)

/-- The saved image of a thread: out of every wait but for its sleep (R423 asks for it in the run queue), with its prefetched
vectors discarded. -/
def Slot.image (x : Slot) : Slot :=
  { x with
    hold := .none, relDone := false, stage := if x.asleep.any (fun z => z.kind == .twait) then x.stage else 0, spec := none,
    stopped := false, preempted := false, walkWait := none,
    streams := x.streams.map (fun t => t.map (fun (y : Stream) => { y with ahead := [] })) }

/-- Open endpoints stay bound to their slot (R418). -/
def Endpoint.bind (e : Endpoint) : Endpoint := if e.opened then { e with opened := false, saved := true } else e

/-- Vacate a slot of a core whose thread is ready to go; `rec'` numbers the context (R416-R420). Its stores on their way stay
its own; its matrix entries are saved in the order they came in, over both queues, which R318 keeps on an accumulator. -/
def State.vacate (s : State) (i : Sid) (rec' : Nat) : State × Saved :=
  let keep := s.cur
  let own := (s.withdrawCaps i).ownStores i
  let s := { own.1 with cur := i }
  let x := { (s.slotAt i).image with prior := own.2 }
  let c := s.at' i.pl
  let own := (List.range 4).find? (fun n => (((c.acc.toList)[n]?).getD accReset).owner == some i.k)
  let acc := own.map (fun n => (n, { ((c.acc.toList)[n]?).getD accReset with owner := none }))
  let mine (hi : Bool) (q : List TEntry) : List (Bool × TEntry) :=
    (q.filter (fun e => e.slot == i.k)).map (fun e => (hi, { e with seen := 0 }))
  let mat := (mine false c.qlo ++ mine true c.qhi).insertionSort (fun a b => a.2.id ≤ b.2.id)
  let s := s.setAt i.pl (c.dropTiles i.k)
  let r := (s.cmds.filter (s.stoppable i)).foldl (fun (p : State × List EngEnt) k =>
    let q := p.1.checkpoint k
    (q.1, p.2 ++ [q.2])) (s, [])
  let s := { r.1 with cmds := r.1.cmds.map (fun (k : Cmd) =>
    if Place.core k.core = i.pl ∧ k.slot = some i.k ∧ !k.disc then { k with slot := none, owner := some rec' } else k) }
  let s := s.setSlot i { s.slotAt i with eps := (s.slotAt i).eps.map Endpoint.bind }
  let s := s.setSlot i (s.slotAt i).freed
  ({ s with cur := keep }, ⟨x, i.k, acc, mat, r.2, rec'⟩)

-- the context record (R417)

def recordMagic : BitVec 32 := 0x7C0AC7E8

def handlerCode : Handler → Nat
  | .none => 0
  | .trap => 1
  | .interrupt => 2

/-- Two 32-bit halves, low first. -/
def pair32 (a b : Nat) : Word := BitVec.ofNat 64 (a % 2 ^ 32 + b % 2 ^ 32 * 2 ^ 32)

def pairs32 : List Nat → List Word
  | a :: b :: l => pair32 a b :: pairs32 l
  | [a] => [pair32 a 0]
  | [] => []

/-- The carry set in the layout of the migration packet (R51); the record's kind bits are a free value. -/
def carryWords (x : Slot) (core : Nat) (kind : Word) : List Word :=
  [BitVec.ofNat 64 (core % 4096 + core % 4096 * 2 ^ 16 + x.launch % 65536 * 2 ^ 32 + kind.toNat % 16 * 2 ^ 60)] ++
  (List.range 10).map (fun n => (x.g.toList[n + 1]?).getD 0) ++
  [x.pc, x.wid, x.fshadow, x.sshadow, BitVec.ofNat 64 (x.pw.toNat + x.status.toNat * 2 ^ 32), x.utvec] ++ x.member.toList ++
  [BitVec.ofNat 64 (x.origin.toNat + x.placement.toNat * 2 ^ 16 + x.bucket.toNat * 2 ^ 32)]

def streamWords (t : Option Stream) : List Word :=
  match t with
  | none => [0, 0]
  | some y => [(y.desc &&& 0x00FFFFFFFFFFFFC0) ||| 2 ||| (BitVec.ofBool y.wr).setWidth 64, BitVec.ofNat 64 y.next]

/-- The word of an open endpoint; one that the thread does not hold is zero (R417). -/
def epWord (e : Endpoint) : Nat := if e.opened then 2 ^ 29 + e.allow % 1024 * 2 ^ 19 + e.peer.toNat else 0

def matWords (e : Bool × TEntry) : List Word :=
  let bits := 2 ^ 19 + (if e.2.done.isSome then 2 ^ 20 else 0) + (if e.1 then 2 ^ 21 else 0) + (if e.2.mmag then 2 ^ 22 else 0) +
    e.2.kind.toNat * 2 ^ 23
  [e.2.done.getD e.2.a, e.2.b, e.2.c, (e.2.trg &&& 0xFFFFFFFF0007FFFF) ||| BitVec.ofNat 64 bits]

def engInfo (op resume : Nat) (tag : BitVec 16) (ntf : BitVec 2) (tnd : BitVec 4) : Word :=
  BitVec.ofNat 64 (resume % 2 ^ 40 + tag.toNat * 2 ^ 40 + op % 4 * 2 ^ 56 + ntf.toNat * 2 ^ 58 + tnd.toNat * 2 ^ 60)

def engWords (e : EngEnt) : List Word := [e.dst, e.src, e.cw, engInfo e.op e.resume e.tag e.ntf e.tnd]

def doneWords (c : Completion) : List Word := [c.word, 0, 0, engInfo 3 0 c.tag c.ntf 0]

/-- A list of words made n long with zeros. -/
def padWords (n : Nat) (l : List Word) : List Word := (l ++ List.replicate n 0).take n

def ringWord (r : DispRec) : Word := (r.op ++ r.st ++ r.pc : BitVec 64)

def vecWords (v : Vec) : List Word := (List.range 8).map (fun k => v.extractLsb' (64 * k) 64)

/-- The trap registers of a record: a late fault that awaits delivery stands in tcause and tseq (R422). -/
def Slot.recorded (x : Slot) : Slot :=
  match x.late with
  | none => x
  | some lf =>
    let t : Trap := ⟨lf.cause, lf.tval, lf.lane, lf.seq, lf.detail⟩
    { x with tcause := t.tcause x.tcause ||| 0x80000000, tseq := t.tseq }

/-- The 1,024 words of a record (R417). -/
def recordWords (c : Saved) (core : Nat) (kind : Word) : List Word :=
  let x := c.sl.recorded
  let open' := x.eps.toList.any (·.opened)
  let head : Word := BitVec.ofNat 64 (recordMagic.toNat + core % 4096 * 2 ^ 32 + c.from' % 8 * 2 ^ 44 +
    (if c.acc.isSome then 2 ^ 47 else 0) + (if open' then 2 ^ 48 else 0) + handlerCode x.handler * 2 ^ 49)
  let second : Word := BitVec.ofNat 64 (x.launch % 65536 + x.nalloc * 2 ^ 16 + (if x.wake then 2 ^ 24 else 0))
  let acc := match c.acc with
    | some (n, a) =>
      [BitVec.ofNat 64 (n + (if a.i32 then 4 else 0) + a.flags.toNat * 8), (a.srcs.getD (0, 0)).1, (a.srcs.getD (0, 0)).2]
    | none => []
  let elems := match c.acc with
    | some (_, a) => a.elems.toList.map (·.toNat)
    | none => []
  let f := (List.range 32).map (fun n => if n < x.nalloc then (x.f.toList[n]?).getD 0 else 0)
  [head, second, 0, 0] ++ carryWords x core kind ++ (List.range 5).map (fun n => (x.g.toList[n + 11]?).getD 0) ++
  [x.ix, x.mgeo, x.uivec, x.dseq.setWidth 64] ++ [x.tcause, x.tval, x.tpc, x.tseq] ++
  (if x.handler = .interrupt then x.savedG.toList ++ [x.savedPw.setWidth 64, x.savedPc] else List.replicate 7 0) ++ x.streams.toList.flatMap streamWords ++
  pairs32 (x.eps.toList.map epWord) ++ padWords 8 acc ++ padWords 64 (c.mat.flatMap matWords) ++
  padWords 64 (x.fifo.flatMap doneWords ++ c.eng.flatMap engWords) ++ x.ring.toList.map ringWord ++
  f.flatMap vecWords ++ padWords 512 (pairs32 elems)

/-- The record of the words `w`, over what the core keeps beside it (`old`; R35): what the record does not hold comes from
there. -/
def parseRecord (w : Nat → Word) (old : Saved) : Saved :=
  let x := old.sl
  let half (k : Nat) (n : Nat) : Nat := ((w (k + n / 2)).toNat / 2 ^ (32 * (n % 2))) % 2 ^ 32
  let accOn := (w 0).getLsbD 47
  let accNo := (w 56).toNat % 4
  let fifoWords := (List.range 16).filter (fun k => ((w (128 + 4 * k + 3)).extractLsb' 56 2).toNat = 3)
  let engEnts := (List.range 16).filter (fun k =>
    let op := ((w (128 + 4 * k + 3)).extractLsb' 56 2).toNat
    op = 1 ∨ op = 2)
  let mats := (List.range 16).filter (fun k => (w (64 + 4 * k + 3)).getLsbD 19)
  let oldMat (n : Nat) : TEntry := ((old.mat[n]?).map (·.2)).getD default
  let y := { x with
    launch := (w 1).toNat % 65536, nalloc := ((w 1).extractLsb' 16 8).toNat, wake := (w 1).getLsbD 24,
    g := Vector.ofFn (fun (n : Fin 16) => if n.val = 0 then 0 else if n.val < 11 then w (4 + n.val) else w (24 + n.val - 11)),
    pc := w 15, wid := w 16, fshadow := w 17 &&& fshadowMask, sshadow := w 18 &&& sshadowMask, pw := pwFix ((w 19).setWidth 16),
    status := (w 19).extractLsb' 32 32 &&& 0x1FF, utvec := clear3 (w 20), member := Vector.ofFn (fun (n : Fin 2) => w (21 + n.val)),
    origin := (w 23).setWidth 12, placement := (w 23).extractLsb' 16 12, bucket := (w 23).extractLsb' 32 32,
    ix := w 29, mgeo := w 30, uivec := clear3 (w 31), dseq := (w 32).setWidth 16,
    tcause := w 33 &&& tcauseMask, tval := w 34, tpc := w 35, tseq := w 36 &&& 0x1FFFF,
    handler := (if (w 0).extractLsb' 49 3 = 1 then Handler.trap else if (w 0).extractLsb' 49 3 = 2 then .interrupt else .none),
    savedG := Vector.ofFn (fun (n : Fin 5) => w (37 + n.val)), savedPw := (w 42).setWidth 16, savedPc := w 43,
    streams := Vector.ofFn (fun (n : Fin 4) =>
      let a := w (44 + 2 * n.val)
      if a.getLsbD 1 then
        some { (((x.streams.toList[n.val]?).join).getD default) with
          desc := a &&& 0x00FFFFFFFFFFFFC0, wr := a.getLsbD 0, next := (w (45 + 2 * n.val)).toNat, ahead := [] }
      else none),
    eps := Vector.ofFn (fun (n : Fin 8) =>
      let e := half 52 n.val
      { (x.ep n.val) with opened := decide (e / 2 ^ 29 % 2 = 1), allow := e / 2 ^ 19 % 1024, peer := BitVec.ofNat 19 e }),
    fifo := (fifoWords.zipIdx).map (fun e =>
      let v := w (128 + 4 * e.1)
      let info := w (128 + 4 * e.1 + 3)
      { ((x.fifo[e.2]?).getD default) with
        tag := v.setWidth 16, status := v.extractLsb' 16 8, bytes := v.extractLsb' 24 40, ntf := info.extractLsb' 58 2 }),
    ring := Vector.ofFn (fun (n : Fin 64) =>
      let v := w (192 + n.val)
      ⟨v.extractLsb' 56 8, v.extractLsb' 53 3, v.setWidth 53⟩),
    f := Vector.ofFn (fun (n : Fin 32) =>
      BitVec.ofNat 512 ((List.range 8).foldr (fun k acc => (w (256 + 8 * n.val + k)).toNat + 2 ^ 64 * acc) 0)) }
  let acc : Option (Nat × Acc) :=
    if accOn then
      some (accNo, ⟨Vector.ofFn (fun (n : Fin 1024) => BitVec.ofNat 32 (half 512 n.val)), (w 56).getLsbD 2,
        (w 56).extractLsb' 3 5, none, if w 57 = 0 ∧ w 58 = 0 then none else some (w 57, w 58)⟩)
    else none
  let mat := (mats.zipIdx).map (fun e =>
    let t := w (64 + 4 * e.1 + 3)
    let o := oldMat e.2
    (t.getLsbD 21, { o with
      a := w (64 + 4 * e.1), b := w (64 + 4 * e.1 + 1), c := w (64 + 4 * e.1 + 2), trg := t &&& 0xFFFFFFFF0007FFFF,
      kind := t.extractLsb' 23 2, mmag := t.getLsbD 22, mma := false, acc := accNo, seen := 0, running := false,
      done := if t.getLsbD 20 then some (w (64 + 4 * e.1)) else none }))
  let eng := engEnts.map (fun k =>
    let info := w (128 + 4 * k + 3)
    (⟨((info.extractLsb' 56 2).toNat), w (128 + 4 * k), w (128 + 4 * k + 1), w (128 + 4 * k + 2), info.extractLsb' 40 16,
      info.extractLsb' 58 2, info.extractLsb' 60 4, (info.extractLsb' 0 40).toNat⟩ : EngEnt))
  ⟨y, ((w 0).extractLsb' 44 3).toNat, acc, mat, eng, old.rec'⟩

-- reinstatement (R421)

/-- A stream's descriptor is read again (R417); one that fails to translate leaves the stream as it was. -/
def State.rereadStream (s : State) (t : Stream) : Stream :=
  match s.quietAccess 4 false t.desc 64 64 with
  | .ok bs =>
    let n (o k : Nat) : Nat := ofBytes (((bs.drop o).take k).map (fun b => s.byteAt b.loc))
    { t with
      base := BitVec.ofNat 64 (n 0 8), s0 := BitVec.ofNat 64 (n 8 8), s1 := BitVec.ofNat 64 (n 16 8), s2 := BitVec.ofNat 64 (n 24 8),
      b0 := n 32 4, b1 := n 36 4, b2 := n 40 4 }
  | .error _ => t

/-- Endpoints of a context that returns: those it left open open again, with what arrived meanwhile (R418). -/
def backEps (img cur : Vector Endpoint 8) : Vector Endpoint 8 :=
  Vector.ofFn (fun (n : Fin 8) =>
    let e := (cur.toList[n.val]?).getD default
    if ((img.toList[n.val]?).getD default).opened then { e with opened := true, saved := false } else e)

/-- A saved context enters a slot (R421). -/
def State.reinstate (s : State) (i : Sid) (r : Saved) : State :=
  let keep := s.cur
  let y := s.slotAt i
  let s := { s with cur := i }
  let x := { r.sl with
    busy := true, eps := backEps r.sl.eps y.eps, budget := y.budget, lastIssue := some s.cyc, lastSeq := y.lastSeq, heldC := [],
    tags := y.tags, asleep := none, stage := 0, stopped := false, preempted := false }
  let s := s.enter i x
  let s := s.setSlot i { s.slotAt i with streams := x.streams.map (fun t => t.map s.rereadStream) }
  let c := s.at' i.pl
  let c := match r.acc with
    | some (n, a) => { c with acc := c.acc.setIfInBounds n { a with owner := some i.k } }
    | none => c
  let ents := (r.mat.zipIdx).map (fun e => (e.1.1, { e.1.2 with slot := i.k, id := s.nextId + e.2 }))
  let c := { c with
    qlo := c.qlo ++ (ents.filter (fun e => !e.1)).map (·.2), qhi := c.qhi ++ (ents.filter (fun e => e.1)).map (·.2) }
  let s := { s.setAt i.pl c with nextId := s.nextId + r.mat.length }
  let core := placeNum i.pl
  let s := { s with cmds := s.cmds.map (fun (k : Cmd) => if k.core = core ∧ k.owner = some r.rec' then { k with owner := none, slot := some i.k } else k) }
  let cmds := (r.eng.zipIdx).map (fun e =>
    (⟨s.nextId + e.2, x.launch, core, some i.k, e.1.op, 0, e.1.dst, e.1.src, e.1.cw, e.1.tag, e.1.ntf, e.1.tnd, s.cyc, e.1.resume, [],
      e.1.op != 1, s.bankGone core (e.1.dst.toNat + (if e.1.op = 2 then e.1.resume * 2 ^ (e.1.cw.extractLsb' 32 3).toNat else e.1.resume)), 0, none, false⟩ : Cmd))
  let s := { s with cmds := s.cmds ++ cmds, nextId := s.nextId + r.eng.length }
  let s := r.sl.heldC.foldl (fun s c => s.notify i { c with span := if c.ntf = 1 then 0 else c.span } c.span) s
  { s with cur := keep }

-- CTXSAVE and CTXLOAD (R242, R243)

/-- A naturally aligned 64-bit write in an address space; discarded where it does not translate (DESIGN CHOICE, log 16). -/
def State.rootWrite (s : State) (cl : Nat) (root : Word) (va : Nat) (v : Word) : State :=
  match s.portByte cl root va with
  | some b => s.agentNat b 8 v.toNat
  | none => s

def State.rootRead (s : State) (cl : Nat) (root : Word) (va : Nat) : Word :=
  match s.portLoc cl root va with
  | some l => BitVec.ofNat 64 (s.locNat l 8)
  | none => 0

/-- The part of a queue's context area that Umber assigns to a place: 2 MiB each, the compute cores' first (R52, R387; DESIGN
CHOICE, log 64). -/
def ctxPart (base : Word) (p : Place) : Word :=
  (base &&& 0xFFFFFFFFFFFFE000) + BitVec.ofNat 64 (0x200000 * (match p with
    | .core n => n
    | .slice n => 4096 + n))

/-- The context area of a place: special register 0x150 of a core; a slice core holds none, and the part of the launch's queue
serves there (R52, R413; DESIGN CHOICE, log 64). -/
def State.ctxBase (s : State) (p : Place) (launch : Nat) : Word :=
  match p with
  | .core _ => (s.at' p).ctxArea
  | .slice _ =>
    match s.launch? launch with
    | some l => ctxPart (recW (tabGet queueReset s.queues l.queue).ent 5) p
    | none => 0

/-- Where the next record of a place goes: the first 8 KiB of its context area that hold none (DESIGN CHOICE, log 13). -/
def State.recordAddr (s : State) (p : Place) (launch : Nat) : Nat :=
  let c := s.at' p
  let a (j : Nat) : Nat := (s.ctxBase p launch).toNat + 8192 * j
  a (((List.range (c.recs.length + 1)).find? (fun j => (tabFind c.recs (a j)).isNone)).getD 0)

/-- Write the record of a context into a place's context area (R242, R416 step 6, R417); its kind bits are a free value. -/
def State.writeRecord (s : State) (p : Place) (root : Word) (va : Nat) (c : Saved) : State :=
  let s := (recordWords c (placeNum p) (Config.free s.fresh)).zipIdx.foldl
    (fun s e => s.rootWrite (clusterOf p) root (va + 8 * e.2) e.1) { s with fresh := s.fresh + 1 }
  s.setAt p { s.at' p with recs := tabSet (s.at' p).recs va c }

-- the run queue (R52, R56)

/-- A context that a packet brought, in the form of a record: what it does not hold is zero (R417; DESIGN CHOICE, log 64). -/
def Packet.toSaved (p : Packet) : Saved :=
  ⟨{ slotReset with
      launch := p.launch, mode := p.mode, g := p.g, pw := p.pw, pc := p.pc, wid := p.wid, status := p.status, fshadow := p.fshadow,
      sshadow := p.sshadow, utvec := p.utvec, member := p.member, origin := p.origin, placement := p.placement, bucket := p.bucket,
      residual := p.residual, foot := p.foot, sliceTrap := p.trap }, 0, none, [], [], 0⟩

/-- The record that backs an entry of a run queue, if it has one. -/
def CoreSt.backing (c : CoreSt) (x : Ctx) : Option Nat :=
  match x with
  | .saved r => if (tabFind c.recs r.rec').isSome then some r.rec' else none
  | .arrived p => (c.recs.find? (fun e => e.2 == p.toSaved)).map (fun e => e.1)

/-- A context joins the tail of a run queue. The thread-context cache holds 64; the oldest context beyond them spills to the
context area, unless a record there holds it already (R52) (DESIGN CHOICE, log 64). -/
def State.rqPush (s : State) (p : Place) (x : Ctx) : State :=
  let s := s.setAt p { s.at' p with rq := (s.at' p).rq ++ [x] }
  let c := s.at' p
  match if 64 < c.rq.length then c.rq[c.rq.length - 65]? else none with
  | some (.arrived q) =>
    let root := match s.launch? q.launch with
      | some l => l.root
      | none => 0
    s.writeRecord p root (s.recordAddr p q.launch) q.toSaved
  | _ => s

/-- A context leaves a run queue for a slot: the record that backed it is free. -/
def State.rqTake (s : State) (p : Place) (x : Ctx) : State :=
  let c := s.at' p
  s.setAt p { c with
    rq := c.rq.erase x,
    recs := match c.backing x with
      | some a => tabDel c.recs a
      | none => c.recs }

/-- Vacate a slot to the tail of its core's run queue (R57, R59): its record is written as CTXSAVE writes one (R416). -/
def State.swapOut (s : State) (i : Sid) : State :=
  let va := s.recordAddr i.pl (s.slotAt i).launch
  let r := s.vacate i va
  (r.1.writeRecord i.pl (s.rootOf i) va r.2).rqPush i.pl (.saved r.2)

def execCtxsave (o : DA) (s : State) : Out := run (do
  needSup
  needCore
  prep [.dst o.d, .src o.a]
  let s0 ← getS
  let k := ((← peek (rg o.a)).setWidth 3).toNat
  let i : Sid := ⟨s0.cur.pl, k⟩
  if k = s0.cur.k then illegal
  let x := s0.slotAt i
  if !x.busy then do
    let _ ← rg o.a
    wg 4 o.d 0
    done
  else do
    setS (s0.setSlot i { x with stopped := true })
    if !(s0.vacateReady i) then holdTurn
    let _ ← rg o.a
    let s ← getS
    let va := s.recordAddr s.cur.pl (s.slotAt i).launch
    let r := s.vacate i va
    setS (r.1.writeRecord s.cur.pl (s.rootOf s.cur) va r.2)
    wg 4 o.d (BitVec.ofNat 64 va)
    done) s

def execCtxload (a b : Fld) (s : State) : Out := run (do
  needSup
  needCore
  prep [.src a, .src b]
  let s0 ← getS
  let va ← rg a
  let kw ← rg b
  let s ← getS
  let c := s.at' s.cur.pl
  let w (n : Nat) : Word := s.rootRead (clusterOf s.cur.pl) (s.rootOf s.cur) (va.toNat + 8 * n)
  if (w 0).setWidth 32 ≠ recordMagic ∨ ((w 0).extractLsb' 32 12).toNat ≠ placeNum s.cur.pl then trapFrom s0 cAccess va
  let old := (tabFind c.recs va.toNat).getD ⟨slotReset, 0, none, [], [], va.toNat⟩
  let r := parseRecord w old
  let i : Sid := ⟨s.cur.pl, (kw.setWidth 3).toNat⟩
  let bound := r.sl.eps.toList.any (·.opened)
  if !((s.slotAt i).busy) ∧ (s.slotAt i).gen.isNone ∧ !bound ∧ (Ctx.saved r).fits c i.k then
    setS ((s.setAt s.cur.pl { c with recs := tabDel c.recs va.toNat }).reinstate i r)
  else setS (s.rqPush s.cur.pl (.saved r))
  done) s

-- arrivals in slots (R52)

/-- A mode from a bit. -/
def modeOfBit (b : Bool) : Mode := if b then .supervisor else .user

/-- An undefined dispatch record: nothing of the thread is dispatched, so its state is another one (R406; log 4). -/
def freeRec (v : Word) : DispRec :=
  ⟨v.extractLsb' 56 8, if v.extractLsb' 53 3 = 1 then 0 else v.extractLsb' 53 3, v.setWidth 53⟩

/-- An arriving packet's thread in a slot: what it did not carry is undefined (R2), but for what R52 names. It issues at a later
turn of the slot. -/
def State.arrive (s : State) (i : Sid) (p : Packet) : State :=
  let y := s.slotAt i
  let n := match s.launch? p.launch with
    | some l => l.vecs
    | none => 0
  let f (k : Nat) : Word := Config.free (s.fresh + k)
  let x := { slotReset with
    busy := true, launch := p.launch, mode := p.mode,
    g := Vector.ofFn (fun (k : Fin 16) => if k.val < 11 then (p.g.toList[k.val]?).getD 0 else f k.val),
    pw := p.pw, pc := p.pc, wid := p.wid, status := p.status, fshadow := p.fshadow, sshadow := p.sshadow, utvec := p.utvec,
    member := p.member, origin := p.origin, placement := p.placement, bucket := p.bucket, residual := p.residual,
    mgeo := f 0, tcause := f 1 &&& tcauseMask, tval := f 2, tpc := f 3, tseq := f 4 &&& 0x1FFFF, nalloc := n,
    sepc := clear3 (f 5), smode := modeOfBit ((f 6).getLsbD 0), fdetail := f 7 &&& 0xFFF, dseq := (f 8).setWidth 16,
    ring := Vector.ofFn (fun (k : Fin 64) => freeRec (f (16 + k.val))), chLast := (f 9).toNat % 8, tags := y.tags, foot := p.foot,
    f := Vector.ofFn (fun (k : Fin 32) => Config.freeVec (s.fresh + k.val)),
    eps := y.eps, budget := y.budget, lastIssue := some s.cyc, lastSeq := y.lastSeq, sliceTrap := p.trap }
  ({ s with fresh := s.fresh + 80 }).enter i x

/-- RUN_QUEUE_TAKE: a free slot takes the first context it can take; none takes a task instead (R37, R56). -/
def execRunQueueTake (pl : Place) (k : Nat) (s : State) : Out :=
  let i : Sid := ⟨pl, k⟩
  let c := s.at' pl
  if (s.slotAt i).busy ∨ (s.slotAt i).gen.isSome ∨ s.cyc % 8 ≠ k then .next s
  else
    match c.rq.find? (fun x => x.fits c k) with
    | none => .next s
    | some x =>
      let s := s.rqTake pl x
      match x with
      | .arrived p => .next (s.arrive i p)
      | .saved r => .next (s.reinstate i r)

-- migration (R49-R53, R101, R104, R408)

/-- What a departure waits for, once the release has written back (R50, R408); captures and remote requests whose results are
discarded too: memberships travel, a late fault must find its thread, and no access that follows an acquire may begin before it (R99, R150, R446; DEDUCED, log 18). -/
def State.departReady (s : State) (i : Sid) : Bool :=
  let x := s.slotAt i
  !(s.storesOut i (fun _ => true)) && !(s.capsOut i true) && !(s.repliesOut i) && x.pend.isEmpty && x.seqr.isNone && x.ring.toList.all (fun r => r.st != 1) && x.late.isNone

/-- MIGRATION_DEPARTURE: the release at device scope, then the packet; streams close, RESIDE blocks are released, the slot
is free (R50). -/
def execMigrationDeparture (pl : Place) (k : Nat) (s : State) : Out :=
  let i : Sid := ⟨pl, k⟩
  let x := s.slotAt i
  match x.hold with
  | .depart dst past trap =>
    if !x.busy then .next s
    else if !x.relDone then
      if (s.at' pl).l1Busy then .next s
      else
        let s := s.cleanL1 pl (fun _ => true)
        .next (s.setSlot i { s.slotAt i with relDone := true })
    else if !(s.departReady i) then .next s
    else
      let origin : BitVec 12 := match pl with
        | .core n => BitVec.ofNat 12 n
        | .slice _ => x.origin
      let p : Packet := ⟨x.launch, pl, x.g, x.pw, if past then x.pc + 8 else x.pc, x.wid, x.fshadow, x.sshadow, x.status, x.utvec,
        x.member, origin, x.placement, x.bucket, x.mode, x.residual, x.foot, trap⟩
      let s := match pl with
        | .core n => s.freeRes n x.reside
        | .slice _ => s
      .next ((s.send x.launch pl dst none (.migrate p)).freeSlot i)
  | _ => .next s

/-- MIGRATION_ARRIVAL of the flight State.subj: the context joins the tail of the run queue; a compute core drops its clean
L1 lines (R52, R104). A packet of a launch that has been ended carries no thread any more (R424, R395). -/
def execMigrationArrival (s : State) : Out :=
  match s.flight? s.subj with
  | some f =>
    match f.body with
    | .migrate p =>
      if !(s.first f) ∨ !s.l2Free then .next s
      else
        let s := s.dropFlight f.id
        match s.launch? p.launch with
        | some l =>
          if l.abort.isSome then .next (s.bankCheckAt f.dst)
          else
            let s := match f.dst with
              | .core _ => s.dropL1 f.dst (fun _ => true)
              | .slice _ => s
            .next (s.rqPush f.dst (.arrived p))
        | none => .next s
    | _ => .next s
  | none => .next s

-- owner changes and sleepers (R57-R59)

/-- OWNER_CHANGE_EFFECT at a rotation boundary: at once for a free slot; with preempt the thread is vacated first (R59) (DEDUCED, log 46). -/
def execOwnerChangeEffect (core slot : Nat) (s : State) : Out :=
  let i : Sid := ⟨.core core, slot⟩
  let c := s.core' core
  let o : Word := (c.owners.toList[slot]?).getD 0
  let t (s : State) : State :=
    let c := s.core' core
    s.setCore core { c with owners := c.owners.setIfInBounds slot (setBits o 24 8 (o &&& 0xFF)) }
  let mark (b : Bool) : Out := .next (if (s.slotAt i).preempted = b then s else s.setSlot i { s.slotAt i with preempted := b })
  if s.cyc % 8 ≠ 0 then .next s
  else if o.extractLsb' 24 8 = o.setWidth 8 then mark false
  else if !((s.slotAt i).busy) then (if (s.slotAt i).gen.isNone then .next (t s) else .next s)
  else if !(o.getLsbD 33) then mark false
  else if s.vacateReady i then .next (t (s.swapOut i))
  else mark true

-- tasks (R37-R40, R44-R47)

/-- The live clusters of a rectangle, in row-major order: a disabled one is never a placement target (R21, R46). -/
def State.rectLive (s : State) (rect : BitVec 20) : List Nat :=
  let x0 := (rect.extractLsb' 0 5).toNat
  let y0 := (rect.extractLsb' 5 5).toNat
  let w := (rect.extractLsb' 10 5).toNat + 1
  let h := (rect.extractLsb' 15 5).toNat + 1
  (List.range h).flatMap (fun j => ((List.range w).map (fun i => (y0 + j) * 32 + x0 + i)).filter (fun c => !(s.deadClusters.contains c)))

/-- The core a grid task is placed on (R45, R46): its cluster group's place among the live clusters of the rectangle, then its
core group. -/
def State.coreFor (s : State) (l : Launch) (id : Nat) : Nat :=
  let lay := l.h 3
  let bcore := layoutB lay (lay.extractLsb' 36 3).toNat
  let bclus := layoutB lay (lay.extractLsb' 39 3).toNat
  let breg := layoutB lay (lay.extractLsb' 42 3).toNat
  let live := s.rectLive l.rect
  let g := (id / 2 ^ bclus) % 2 ^ (breg - bclus) % live.length
  4 * live.getD g 0 + (id / 2 ^ bcore) % 2 ^ (bclus - bcore) % 4

/-- The record of a grid task (R44). -/
def Launch.gridTask (l : Launch) (id : Nat) : List Word := [l.h 0, l.h 1, BitVec.ofNat 64 id, 0, 0, 0, 0, 0]

/-- The generator's record: its next identifier is argument 1 (R44). -/
def Launch.generator (l : Launch) (next : Nat) : List Word :=
  [l.h 0, l.h 1, BitVec.ofNat 64 next, 0, 0, 0, 0, recTail 0 4 0]

/-- Expand up to n identifiers from `next` on, each a task pushed to its core with its delta in the expanding core (R44),
while records and deltas find room (R162, R441): how many remain. -/
def State.expand (s : State) (core : Nat) (l : Launch) : Nat → Nat → State × Nat
  | 0, _ => (s, 0)
  | n + 1, next =>
    match s.addDelta core l.num 0 1 with
    | none => (s, n + 1)
    | some t =>
      match (t.countTasks core l.num 1 0).place (s.coreFor l next) l (l.gridTask next) true with
      | none => (s, n + 1)
      | some r => r.1.expand core l n (next + 1)

/-- A slot goes on with the generator it holds, which is no task and is not counted as one (R44, R173): the rest of its batch; then the generator is pushed again, or it
ends. What finds no room, or a port that cannot write, holds the slot (R75, R162, R441) (DEDUCED, log 59). -/
def State.runGenerator (s : State) (i : Sid) (l : Launch) : State :=
  match if s.l2Free then (s.slotAt i).gen else none with
  | none => s
  | some (r, n) =>
    let core := placeNum i.pl
    let next := (recW r 2).toNat
    let e := s.expand core l n next
    let next := next + (n - e.2)
    let r := l.generator next
    let hold (s : State) (n : Nat) : State := s.setSlot i { s.slotAt i with gen := some (r, n) }
    let free (s : State) : State := (s.setSlot i { s.slotAt i with gen := none }).bankCheck core
    if e.2 ≠ 0 then hold e.1 e.2
    else if next < (l.h 2).toNat then
      match e.1.place core l r true with
      | some q => free q.1
      | none => hold e.1 0
    else
      match e.1.addDelta core l.num 0 (-1) with
      | some q => free q
      | none => hold e.1 0

/-- A slot pops the generator of a siding entry: at most 64 identifiers in one batch (R44). -/
def State.popGenerator (s : State) (i : Sid) (l : Launch) (e : Nat) (r : List Word) : State :=
  let s := s.freeEntry (placeNum i.pl) e
  let s := s.setSlot i { s.slotAt i with launch := l.num, gen := some (r, Nat.min 64 ((l.h 2).toNat - (recW r 2).toNat)) }
  s.runGenerator i l

/-- The value of the shadows at a task's start, or the fault of the descriptor's read (R38, R40). -/
def State.taskShadows (s : State) (i : Sid) (l : Launch) (desc : Word) : Except AccFault (Word × Word) :=
  if desc = 0 then .ok (l.h 10, l.h 11)
  else
    match ({ s with cur := i }).accessBy (s.launchRoot (placeNum i.pl) l.num) 4 false desc 16 1 with
    | .error e => .error e
    | .ok bs =>
      let n (o : Nat) : Word := BitVec.ofNat 64 (ofBytes (((bs.drop o).take 8).map (fun b => s.byteAt b.loc)))
      .ok (n 0, n 8)

/-- The cluster group of a work identifier. -/
def Launch.clusterGroup (l : Launch) (wid : Word) : Nat := wid.toNat / 2 ^ layoutB (l.h 3) ((l.h 3).extractLsb' 39 3).toNat

/-- A task's thread (R38), which issues at a later turn of the slot. A group that has started does not wait again (R47). -/
def taskThread (cyc : Nat) (y : Slot) (l : Launch) (core : Nat) (r : List Word) (fs ss : Word) (foot : Option Nat) : Slot :=
  { slotReset with
    busy := true, launch := l.num,
    g := Vector.ofFn (fun (n : Fin 16) => if 1 ≤ n.val ∧ n.val ≤ 4 then recW r n.val else 0),
    pw := 1, pc := recW r 0, wid := recW r 2, status := if l.h 12 = 0 then 0 else 0x100, fshadow := fs &&& fshadowMask,
    sshadow := ss &&& sshadowMask, utvec := l.h 12,
    origin := BitVec.ofNat 12 core, placement := BitVec.ofNat 12 core, bucket := BitVec.ofNat 32 (recBucket r),
    nalloc := l.vecs, foot := foot, residual := (recW r 0).getLsbD 0, gatherWait := (l.h 3).getLsbD 48 && !(l.gathered.contains (l.clusterGroup (recW r 2))),
    eps := y.eps, budget := y.budget, tags := y.tags, lastIssue := some cyc, lastSeq := y.lastSeq }

/-- TASK_POP: a free slot pops the lowest eligible task of its effective queue, unless the run queue has a context it can
take (R37-R40). A grid generator expands (R44). -/
def execTaskPop (core slot : Nat) (s : State) : Out :=
  let i : Sid := ⟨.core core, slot⟩
  let c := s.core' core
  let o : Word := (c.owners.toList[slot]?).getD 0
  let y := s.slotAt i
  if y.gen.isSome ∧ s.cyc % 8 = slot then
    match s.launch? y.launch with
    | some l => .next (s.runGenerator i l)
    | none => .next (s.setSlot i { y with gen := none })
  else if y.busy ∨ s.cyc % 8 ≠ slot ∨ c.rq.any (fun x => x.fits c slot) ∨ !(o.getLsbD 32) then .next s
  else
    match bestEntry c.siding (fun e => s.eligible core e && (match s.launch? e.launch with
        | some l => l.queue == (o.extractLsb' 24 8).toNat && l.abort.isNone
        | none => false)) with
    | none => .next s
    | some (k, e) =>
      match s.launch? e.launch with
      | none => .next s
      | some l =>
        if recGen e.words then .next (s.popGenerator i l k e.words)
        else
          let s := s.freeEntry core k
          let sh := s.taskShadows i l (recW e.words 6)
          let p := match sh with
            | .ok v => v
            | .error _ => (l.h 10, l.h 11)
          let x := taskThread s.cyc y l core e.words p.1 p.2 e.fill
          let h := recW e.words 0
          let x := if x.residual then { x with pc := BitVec.ofNat 64 (unitAddr l (handleUnit h) + 128) } else x
          let s := s.enter i x
          match sh with
          | .error f =>
            let s := s.setSlot i { s.slotAt i with pc := h }
            .next (s.raise i ⟨f.cause, f.tval, 0xFF, none, some f.detail⟩)
          | .ok _ =>
            if h.getLsbD 0 ∧ !(s.handleOk l h) then
              let s := s.setSlot i { s.slotAt i with pc := h }
              .next (s.raise i ⟨cStale, h, 0xFF, none, none⟩)
            else .next s

/-- How many tasks a cluster group of a launch starts with: one for each of its identifiers, or the root task (R43, R44). -/
def Launch.groupSize (l : Launch) (g : Nat) : Nat :=
  let b := 2 ^ layoutB (l.h 3) ((l.h 3).extractLsb' 39 3).toNat
  if l.isRoot then 1 else Nat.min b ((l.h 2).toNat - g * b)

/-- The records of a spill chain, from a block on; `n` bounds the walk (R169, R173). -/
def State.chainRecs (s : State) (l : Launch) : Nat → Nat → List (List Word)
  | 0, _ => []
  | n + 1, b =>
    if b = noBlock then []
    else
      let k := s.link l b
      (List.range (linkRecords k)).map (fun j => s.readRec l (blockAddr l b + 64 * j)) ++ s.chainRecs l n (linkNext k)

/-- The waiting thread of a slot belongs to a cluster group. -/
def Slot.gathers (x : Slot) (l : Launch) (g : Nat) : Bool := x.busy && x.launch == l.num && x.gatherWait && l.clusterGroup x.wid == g

/-- A task of a cluster group holds no slot yet: its record waits in a siding or in a spilled block, or its thread has been
vacated. -/
def State.groupQueued (s : State) (l : Launch) (g : Nat) : Bool :=
  let waits (r : List Word) : Bool := !(recHeld r) && !(recGen r) && l.clusterGroup (recW r 2) == g
  s.cores.any (fun c =>
    c.2.siding.any (fun e => e.2.launch == l.num && waits e.2.words) ||
    (s.chainRecs l l.nb (tabGet noBlock c.2.chains l.num)).any waits ||
    c.2.rq.any (fun x => match x with
      | .saved r => r.sl.gathers l g
      | .arrived _ => false))

/-- GATHER_START_RELEASE of a cluster group (its number is `cluster`): when every task of the group holds a slot, all issue
from the next rotation boundary (R47) (DEDUCED, log 79), which comes after the cycle of the last pop. -/
def execGatherStartRelease (launch cluster : Nat) (s : State) : Out :=
  match s.launch? launch with
  | none => .next s
  | some l =>
    let n := ((s.cores.map (fun c => (c.2.slots.filter (fun e => e.2.gathers l cluster)).length)).sum)
    let now := s.cores.any (fun c => c.2.slots.any (fun e => e.2.gathers l cluster && e.2.lastIssue == some s.cyc))
    if s.cyc % 8 ≠ 0 ∨ n = 0 ∨ n < l.groupSize cluster ∨ s.groupQueued l cluster ∨ now then .next s
    else
      let s := s.setLaunch { l with gathered := l.gathered ++ [cluster] }
      .next { s with
        cores := s.cores.map (fun (c : Nat × CoreSt) =>
          (c.1, { c.2 with slots := c.2.slots.map (fun (e : Nat × Slot) =>
            if e.2.gathers l cluster then (e.1, { e.2 with gatherWait := false }) else e) })) }

end Sys2Proof.Machine
end

