-- ==== Sys2Proof/Machine/Fetch.lean ====
section
/-! DEFINITION. A slot's turn: what it does instead of issuing, the fetch of an instruction, and the checks before it
executes (R27, R37, R82, R200-R203, R263, R407, R414, R428). -/

namespace Sys2Proof.Machine

/-- A supervisor-only instruction (R217). -/
def supervisorOnly : Instr → Bool
  | .eret => true
  | .tlbinvPage _ => true
  | .tlbinvAsid _ => true
  | .tlbinvAll => true
  | .ctxsave _ => true
  | .ctxload _ _ => true
  | .hevent _ _ => true
  | .slotOwnerWrite _ _ => true
  | .refillLevelWrite _ => true
  | .mfs _ n => decide (0x100 ≤ n.toNat)
  | .mts _ n => decide (0x100 ≤ n.toNat)
  | _ => false

/-- The opcode of an instruction word a slice core executes (R53). -/
def sliceOpcode (op : Nat) : Bool :=
  (decide (op ≤ 0x65) || (decide (0x70 ≤ op) && decide (op ≤ 0x7A))) &&
  !([0x0A, 0x0C, 0x0D, 0x55, 0x5A, 0x5B, 0x5C, 0x5D, 0x5E, 0x5F].contains op)

-- the instruction caches (R82)

/-- The cached lines of a place, newest first, and how many it holds. -/
def State.icacheOf (s : State) (p : Place) : List (Nat × BitVec 1024) :=
  match p with
  | .core n => (s.cluster (n / 4)).icache
  | .slice n => tabGet [] s.sliceIcache n

/-- A cluster's cache holds 256 KiB and a slice core's 16 KiB of lines (R82); the spec gives no associativity and no
replacement: any line may lie anywhere, and the oldest fill leaves first (DESIGN CHOICE, log 12). -/
def State.setIcache (s : State) (p : Place) (l : List (Nat × BitVec 1024)) : State :=
  match p with
  | .core n => s.setCluster (n / 4) { s.cluster (n / 4) with icache := l.take 2048 }
  | .slice n => { s with sliceIcache := tabSet s.sliceIcache n (l.take 128) }

/-- The instruction cache of a place holds a line. -/
def State.icacheHas (s : State) (p : Place) (line : Nat) : Bool := (s.icacheOf p).any (fun e => e.1 == line)

/-- Fetch the word at a physical address through the instruction cache, which fills its lines from the L2 (R82); none while
the line's set there finds every way pinned (R75). -/
def State.fetchWord (s : State) (p : Place) (b : PByte) (pa : Nat) : Option (Word × State) :=
  let l := s.icacheOf p
  match l.find? (fun e => e.1 == pa / 128) with
  | some e => some (e.2.extractLsb' (8 * (pa % 128)) 64, s)
  | none =>
    let d : BitVec 1024 := BitVec.ofNat 1024 (Memory.readNat s.mem (pa / 128 * 128) 128)
    (s.useLines (srcLines [s.srcHome b])).map (fun s => (d.extractLsb' (8 * (pa % 128)) 64, s.setIcache p ((pa / 128, d) :: l)))

/-- A fetch reads a line with an uncorrectable error: the data-error trap, a late one (R403; DEDUCED, log 53); the rule names no
tval. -/
def fetchError {α : Type} : M α := fun s =>
  .error (.next ({ s with fresh := s.fresh + 1 }.raiseLate s.cur ⟨cData, Config.free s.fresh, 0xFF, none, none⟩))

/-- Fetch the instruction word at an address (R79, R82, R200, R263, R428): an address with low bits is refused as JMP refuses
one (R261; DEDUCED, log 14). -/
def fetchAt (va : Word) : M Word := do
  if va.toNat % 8 ≠ 0 then trapWith ⟨cAccess, va, 0xFF, none, some (detail 1 false 0xF 5)⟩
  match regionOf va.toNat with
  | .virt => do
    let e ← fetchTranslate va
    if pteHost e.pte then violation 1 false va
    let pa := pteAddr e.pte e.shift va
    let b : PByte := ⟨va.toNat, .dev pa, e.pte, e.shift⟩
    needHomes 1 false va [b]
    let s ← getS
    if !(s.icacheHas s.cur.pl (pa / 128)) && s.poison.contains (pa / 128) then fetchError
    match s.fetchWord s.cur.pl b pa with
    | some r => do
      setS r.2
      pure r.1
    | none => loseTurn
  | _ => violation 1 false va

/-- Fetch the instruction at pc. -/
def fetch : M Word := do fetchAt (← slot).pc

/-- The rows of the table that happen to the device or its host: no word encodes them. -/
def isEvent (i : Instr) : Bool := (encode i).isNone && (match i with
  | .unassignedOpcode _ => false
  | _ => true)

/-- A launch starts when the first instruction of its first task issues (R396). -/
def State.markStart (s : State) (n : Nat) : State :=
  match s.launch? n with
  | some l => if l.start.isNone then s.setLaunch { l with start := some s.cyc } else s
  | none => s

/-- The checks of R202 down to the guard: the instruction to execute, if it executes (DEDUCED, log 40). -/
def issue : M Instr := do
  let x ← slot
  if x.residual ∧ x.pc = 0 then pure .exit
  else do
    let w ← fetch
    modS (fun s => { s.markStart x.launch with word := w })
    match decode w with
    | none => trap cIllegal w
    | some d =>
      if unassigned (fOp w).toNat then pure d.ins
      else do
        if d.eb ≠ 0 then trap cIllegal w
        if supervisorOnly d.ins ∧ x.mode = .user then trap cPrivilege w
        if x.isPend .pw then loseTurn
        if x.pred d.g == d.gn then do
          done
          stop
        match (← place) with
        | .slice _ => if !(sliceOpcode (fOp w).toNat) then depart (.core x.origin.toNat) false
        | .core _ => pure ()
        pure d.ins

/-- What a turn comes to: it is over in some state, or it runs an instruction or an event. -/
inductive Turn where
  | over (o : Out)
  | go (i : Instr) (s : State)

/-- A free slot's turn: a context of the run queue that it can take, else a task of the queue that owns the slot (R37). -/
def freeTurn (s : State) : Turn :=
  let c := s.at' s.cur.pl
  if c.rq.any (fun x => x.fits c s.cur.k) && (s.slotAt s.cur).gen.isNone then .go (.runQueueTake s.cur.pl s.cur.k) s
  else
    match s.cur.pl with
    | .core n => .go (.taskPop n s.cur.k) s
    | .slice _ => .over (.next s)

/-- A wait until a cycle is over when the cycle has come. -/
def State.endHold (s : State) : State :=
  match (s.slotAt s.cur).hold with
  | .untilCyc c => if c ≤ s.cyc then s.setSlot s.cur { s.slotAt s.cur with hold := .none } else s
  | _ => s

/-- The turn goes to the instruction at the pc. -/
def issueTurn (s : State) : Turn :=
  match issue s with
  | .ok (i, t) => .go i t
  | .error o => .over o

/-- An instruction that a stopped thread finishes: an MMA, a SPEC or its EXIT (R416). -/
def Slot.finishing (x : Slot) : Bool := x.stage == 1 || x.stage == exitStage || x.stage == departStage || x.spec.isSome

/-- The turn of the slot State.cur. A thread that is being vacated only finishes what R416 names. Late faults and user interrupts wait while Umber serves a trap of the slot (DEDUCED, log 19). -/
def State.turn (s : State) : Turn :=
  let s := s.endHold
  let x := s.slotAt s.cur
  let n := placeNum s.cur.pl
  let k := s.cur.k
  let out := match x.hold with
    | .none => false
    | .held => false
    | .untilCyc c => decide (s.cyc < c)
    | .depart _ _ _ => true
  if !x.busy then freeTurn s
  else if out || x.gatherWait then .over (.next s)
  else if (x.stopped || x.preempted) && !x.finishing then .over (.next s)
  else if x.sliceTrap.isSome && x.hold == .none then .go (.sliceCoreTrapReturn n k) s
  else if x.late.isSome && x.handler == .none && x.hold == .none && x.umber.isNone then
    (match s.cur.pl with
     | .core _ => .go (.lateFaultDelivery n k) s
     | .slice _ => .over (.next (s.deliverLate s.cur)))
  else if !x.ints.isEmpty && x.handler == .none && x.hold == .none && !(x.isPend .pw) && x.umber.isNone then
    .go (.userInterruptEntry n k) s
  else
    match x.asleep with
    | some ⟨_, .sleep, some t⟩ =>
      if t ≤ s.cyc then
        (match execSleepTimeout s.cur.pl k s with
         | .next s' => issueTurn s'
         | o => .over o)
      else .over (.next s)
    | some ⟨_, .sleep, none⟩ => .over (.next s)
    | _ => issueTurn s

end Sys2Proof.Machine
end

