-- ==== Sys2Proof/Machine/Vector.lean ====
section
/-! DEFINITION. Vector instructions (R293-R304), palettes and shadows (R299, R311-R313). Each meaning runs in an
environment, so that the sequencer runs it as the thread does. -/

namespace Sys2Proof.Machine

/-- A vector instruction that writes vector d from vector sources: `f` gets the active lanes, the sources (d's old value
last with `useOld`) and d's old value. `n` lanes of `bits` bits are charged. -/
def vmap (op k per bits n : Nat) (d : Fld) (srcs : List Fld) (useOld : Bool) (c : BitVec 4)
    (f : State → List Nat → List Vec → Vec → Vec × Flags) (e : VEnv) : M Unit := do
  let reads := srcs ++ (if useOld then [d] else [])
  vprep e op reads [d] [.src (gf c)]
  let act := activeLanes (e.mask (← slot) c) n
  let vs ← vtake e op reads [d] (energy 8 per act.length bits)
  let old ← if useOld then pure ((vs.getLast?).getD 0) else vold e d
  let s ← getS
  let r := f s act vs old
  modSlot (fun x => x.raiseFlags r.2)
  vwrite k e d r.1

def orFlags (l : List (Nat × Flags)) : Flags := l.foldl (fun a r => a ||| r.2) 0

/-- Lane by lane: active lanes take `f`, the others keep the old value (R293). -/
def lanewise (w n : Nat) (act : List Nat) (old : Vec) (f : Nat → Nat × Flags) : Vec × Flags :=
  let rs := (List.range n).map (fun i => if act.contains i then f i else (lane w old i, 0))
  (ofLanes w (rs.map (fun r => r.1)), orFlags rs)

/-- An element-wise instruction (R295): `f` gets the thread's floating-point state, a, b and the old lane. -/
def velem (op k per : Nat) (ty : BitVec 3) (d : Fld) (srcs : List Fld) (useOld : Bool) (c : BitVec 4)
    (f : Slot → Nat → Nat → Nat → Nat × Flags) (e : VEnv) : M Unit :=
  let w := tyBits ty
  vmap op k per w (tyLanes ty) d srcs useOld c (fun s act vs old =>
    let x := s.slotAt s.cur
    lanewise w (tyLanes ty) act old (fun i =>
      f x (lane w ((vs[0]?).getD 0) i) (lane w ((vs[1]?).getD 0) i) (lane w old i))) e

/-- Run a meaning as an instruction of the thread. -/
def vrun (m : VEnv → M Unit) (s : State) : Out := run (do
  m (← threadEnv)
  done) s

-- element operations

/-- A float operation rounded once (R287, R293). -/
def fbin (ty : BitVec 3) (g : Nat → Fl → Fl → Fl × Flags) (x : Slot) (a b _ : Nat) : Nat × Flags :=
  let f := tyFmt ty
  roundRes f x.round x.ftz (g x.round (f.input x.ftz a) (f.input x.ftz b))

/-- An integer operation that wraps. -/
def ibin (ty : BitVec 3) (uns : Bool) (g : Int → Int → Int) (_ : Slot) (a b _ : Nat) : Nat × Flags :=
  let w := tyBits ty
  (intCode w (g (intVal w (!uns) a) (intVal w (!uns) b)), 0)

/-- One of both, by type. -/
def byType (ty : BitVec 3) (i f : Slot → Nat → Nat → Nat → Nat × Flags) : Slot → Nat → Nat → Nat → Nat × Flags :=
  if tyFloat ty then f else i

/-- A two-source element-wise instruction with its per-unit charges (R314). -/
def v3 (op k perI perF : Nat) (o : V3) (f : Slot → Nat → Nat → Nat → Nat × Flags) (e : VEnv) : M Unit :=
  velem op k (if tyFloat o.ty then perF else perI) o.ty o.d [o.a, o.b] false o.c f e

def v2 (op k per : Nat) (o : V2) (f : Slot → Nat → Nat → Nat → Nat × Flags) (e : VEnv) : M Unit :=
  velem op k per o.ty o.d [o.a] false o.c f e

def vAdd (o : V3) : VEnv → M Unit :=
  v3 0x80 6 3 5 o (byType o.ty (ibin o.ty false (fun a b => a + b)) (fbin o.ty (fun m a b => sumFl m [a, b])))
def vSub (o : V3) : VEnv → M Unit :=
  v3 0x81 6 3 5 o (byType o.ty (ibin o.ty false (fun a b => a - b)) (fbin o.ty (fun m a b => sumFl m [a, b.negate])))
def vMul (o : V3) : VEnv → M Unit :=
  v3 0x82 6 5 7 o (byType o.ty (ibin o.ty false (fun a b => a * b)) (fbin o.ty (fun _ a b => mulFl a b)))

/-- VFMA: a × b + old (R295). -/
def vFma (o : V3) : VEnv → M Unit :=
  velem 0x83 6 7 o.ty o.d [o.a, o.b] true o.c (byType o.ty
    (fun _ a b c => (intCode (tyBits o.ty) (a * b + c : Nat), 0))
    (fun x a b c =>
      let f := tyFmt o.ty
      roundRes f x.round x.ftz (fmaFl x.round (f.input x.ftz a) (f.input x.ftz b) (f.input x.ftz c))))

def vMin (o : V3) : VEnv → M Unit :=
  v3 0x84 6 2 5 o (byType o.ty (ibin o.ty o.uns (fun a b => if a < b then a else b)) (fbin o.ty (fun _ a b => (minFl a b, 0))))
def vMax (o : V3) : VEnv → M Unit :=
  v3 0x85 6 2 5 o (byType o.ty (ibin o.ty o.uns (fun a b => if a < b then b else a)) (fbin o.ty (fun _ a b => (maxFl a b, 0))))

/-- VABS and VNEG: the sign bit only for floats (R295). -/
def vAbs (o : V2) : VEnv → M Unit :=
  v2 0x86 6 2 o (byType o.ty (ibin o.ty false (fun a _ => if a < 0 then -a else a))
    (fun _ a _ _ => (withSign (tyFmt o.ty) a false, 0)))
def vNeg (o : V2) : VEnv → M Unit :=
  v2 0x87 6 2 o (byType o.ty (ibin o.ty false (fun a _ => -a))
    (fun _ a _ _ => (withSign (tyFmt o.ty) a (!((tyFmt o.ty).sign a)), 0)))

def vDiv (o : V3) : VEnv → M Unit := v3 0x8C 8 14 14 o (fbin o.ty (fun _ a b => divFl a b))

/-- VSEL: every lane is written (R295). -/
def vSel (o : V3) : VEnv → M Unit :=
  let w := tyBits o.ty
  vmap 0x90 6 2 w (tyLanes o.ty) o.d [o.a, o.b] false o.c (fun _ act vs _ =>
    (ofLanes w ((List.range (tyLanes o.ty)).map (fun i => lane w ((vs[if act.contains i then 0 else 1]?).getD 0) i)), 0))

def vAnd (o : V3) : VEnv → M Unit := v3 0x91 6 2 2 o (fun _ a b _ => (a &&& b, 0))
def vOr (o : V3) : VEnv → M Unit := v3 0x92 6 2 2 o (fun _ a b _ => (a ||| b, 0))
def vXor (o : V3) : VEnv → M Unit := v3 0x93 6 2 2 o (fun _ a b _ => (a ^^^ b, 0))
def vShl (o : V3) : VEnv → M Unit := v3 0x94 6 3 3 o (fun _ a b _ => (a * 2 ^ (b % tyBits o.ty), 0))
def vShr (o : V3) : VEnv → M Unit :=
  let w := tyBits o.ty
  v3 0x95 6 3 3 o (fun _ a b _ => (intCode w (intVal w (!o.uns) a / (2 ^ (b % w) : Nat)), 0))

/-- One-source float functions (R296). -/
def funary (o : V2) (g : Fl → Fl × Flags) (x : Slot) (a _ _ : Nat) : Nat × Flags :=
  let f := tyFmt o.ty
  roundRes f x.round x.ftz (g (f.input x.ftz a))

def vRcp (o : V2) : VEnv → M Unit := v2 0x88 8 14 o (funary o rcpFl)
def vRsq (o : V2) : VEnv → M Unit := v2 0x89 8 14 o (funary o rsqFl)
def vSqrt (o : V2) : VEnv → M Unit := v2 0x8D 8 14 o (funary o sqrtFl)

/-- VEXP2 and VLOG2 (R296): a result that no precision decides is a free value (DEDUCED, log 7). -/
def vtrans (op : Nat) (o : V2) (g : (Fl → Nat × Flags) → Fl → Option (Nat × Flags)) (e : VEnv) : M Unit := do
  let w := tyBits o.ty
  vmap op 8 14 w (tyLanes o.ty) o.d [o.a] false o.c (fun s act vs old =>
    let x := s.slotAt s.cur
    let f := tyFmt o.ty
    lanewise w (tyLanes o.ty) act old (fun i =>
      (g (f.conv x.round x.ftz .ieee) (f.input x.ftz (lane w ((vs[0]?).getD 0) i))).getD
        ((Config.free (s.fresh + i)).toNat % 2 ^ w, fNx))) e
  modS (fun s => { s with fresh := s.fresh + 64 })

def vExp2 (o : V2) : VEnv → M Unit := vtrans 0x8A o exp2Fl
def vLog2 (o : V2) : VEnv → M Unit := vtrans 0x8B o log2Fl

/-- VDOT4 (R297). -/
def vDot4 (o : V3) : VEnv → M Unit :=
  vmap 0x96 6 7 32 16 o.d [o.a, o.b] true o.c (fun _ act vs old =>
    lanewise 32 16 act old (fun i =>
      let t : Int := (List.range 4).foldl (fun (acc : Int) j =>
        acc + intVal 8 (!o.uns) (lane 8 ((vs[0]?).getD 0) (4 * i + j)) * intVal 8 (!o.uns) (lane 8 ((vs[1]?).getD 0) (4 * i + j))) 0
      (intCode 32 ((lane 32 old i : Nat) + t), 0)))

/-- A lane of a type as an exact value: an input under ftz for floats (R298). -/
def laneVal (x : Slot) (ty : BitVec 3) (uns : Bool) (c : Nat) : Fl :=
  if tyFloat ty then (tyFmt ty).input x.ftz c else .ofInt (intVal (tyBits ty) (!uns) c)

/-- VCVT between two types (R298). -/
def vcvtLane (x : Slot) (src : BitVec 3) (uns : Bool) (tgt : BitVec 3) (unsT : Bool) (c : Nat) : Nat × Flags :=
  let v := laneVal x src uns c
  if tyFloat tgt then (tyFmt tgt).convert x.round x.ftz x.ovfInf v
  else
    let w := tyBits tgt
    let r := toInt x.round (intRange w (!unsT)).1 (intRange w (!unsT)).2 v
    (intCode w r.1, if tyFloat src then r.2 else 0)

def vCvt (o : V2) (tgt : BitVec 3) (unsT : Bool) : VEnv → M Unit :=
  let ws := tyBits o.ty
  let wt := tyBits tgt
  let n := Nat.min (tyLanes o.ty) (tyLanes tgt)
  vmap 0x8E 6 5 (Nat.max ws wt) n o.d [o.a] false o.c (fun s act vs old =>
    lanewise wt n act old (fun i => vcvtLane (s.slotAt s.cur) o.ty o.uns tgt unsT (lane ws ((vs[0]?).getD 0) i)))

-- the shadow forms, ENC8 and DEC8 (R299, R312)

/-- Palette k of the core. -/
def State.palette (s : State) (k : Nat) : Palette := ((s.at' s.cur.pl).pal.toList[k]?).getD palReset

/-- The element of a shadow format code, or the invalid-format trap (R115, R299). -/
def shadowElem (e : VEnv) (op code : Nat) : M Elem := do
  let x ← slot
  match fmtElem code with
  | none => vtrap e op cFormat (BitVec.ofNat 64 code)
  | some el =>
    if el = .pal ∧ 2 ≤ x.palSel then vtrap e op cFormat (BitVec.ofNat 64 code)
    else pure el

/-- VCVT.widen (R299): exact, a subnormal source too whatever ftz is, as R299 names ftz for .narrow only (DEDUCED, log 94). -/
def vCvtWiden (o : V2) (e : VEnv) : M Unit := do
  vprep e 0x8E [o.a] [o.d] [.src (gf o.c)]
  let el ← shadowElem e 0x8E (← slot).inFmt
  vmap 0x8E 6 5 32 16 o.d [o.a] false o.c (fun s act vs old =>
    let x := s.slotAt s.cur
    (lanewise 32 16 act old (fun i =>
      ((Fmt.fp32.conv 0 false .ieee (el.dec (s.palette x.palSel) (elemAt el.bits (vecBytes ((vs[0]?).getD 0)) i))).1, 0)))) e

/-- Sixteen packed elements: active ones take `f`, the others keep their old bits, bytes above read zero (R299, R312). -/
def packed16 (w : Nat) (act : List Nat) (old : Vec) (f : Nat → Nat × Flags) : Vec × Flags :=
  let rs := (List.range 16).map (fun i => if act.contains i then f i else (lane w old i, 0))
  (ofLanes w (rs.map (fun r => r.1)), orFlags rs)

/-- VCVT.narrow (R117, R299): every rounding is by status.round, that to E8M10 too, of which R111 speaks without a mode (DESIGN
CHOICE, log 81). -/
def vCvtNarrow (o : V2) (e : VEnv) : M Unit := do
  vprep e 0x8E [o.a] [o.d] [.src (gf o.c)]
  let el ← shadowElem e 0x8E (← slot).outFmt
  vmap 0x8E 6 5 32 16 o.d [o.a] false o.c (fun s act vs old =>
    let x := s.slotAt s.cur
    packed16 el.bits act old (fun i =>
      let c := lane 32 ((vs[0]?).getD 0) i
      let v := if el = .pal then Fmt.fp32.val c else Fmt.fp32.input x.ftz c
      el.enc (s.palette x.palSel) x.round x.ftz x.ovfInf v)) e

/-- The palette of ENC8 and DEC8, fn[0] XOR pal (R312). R312 and R124 name no tval for a pal of 2 or 3; it is the pal
(DESIGN CHOICE, log 73). -/
def palOf (e : VEnv) (op : Nat) (alt : Bool) : M Nat := do
  let k := (← slot).palSel
  if 2 ≤ k then vtrap e op cFormat (BitVec.ofNat 64 k)
  else pure (if alt then 1 - k else k)

def vEnc8 (o : V2) (alt : Bool) (e : VEnv) : M Unit := do
  vprep e 0xA5 [o.a] [o.d] [.src (gf o.c)]
  let k ← palOf e 0xA5 alt
  vmap 0xA5 6 4 32 16 o.d [o.a] false o.c (fun s act vs old =>
    packed16 8 act old (fun i => (s.palette k).enc (Fmt.fp32.val (lane 32 ((vs[0]?).getD 0) i)))) e

def vDec8 (o : V2) (alt : Bool) (e : VEnv) : M Unit := do
  vprep e 0xA6 [o.a] [o.d] [.src (gf o.c)]
  let k ← palOf e 0xA6 alt
  vmap 0xA6 6 4 32 16 o.d [o.a] false o.c (fun s act vs old =>
    lanewise 32 16 act old (fun i =>
      ((Fmt.fp32.conv 0 false .ieee ((s.palette k).dec (lane 8 ((vs[0]?).getD 0) i))).1, 0))) e

-- reductions and scans (R301)

/-- The combination of integer lanes. -/
def intComb (op : Nat) (w : Nat) (uns : Bool) (l : List Nat) : Nat :=
  let v (c : Nat) : Int := intVal w (!uns) c
  match op, l with
  | 0, l => intCode w (l.foldl (fun (a : Int) c => a + v c) 0)
  | 1, [] => intCode w (intRange w (!uns)).2
  | 2, [] => intCode w (intRange w (!uns)).1
  | 1, x :: t => t.foldl (fun a c => if v c < v a then c else a) x
  | 2, x :: t => t.foldl (fun a c => if v a < v c then c else a) x
  | 3, l => l.foldl (fun a c => a &&& c) (2 ^ w - 1)
  | 4, l => l.foldl (fun a c => a ||| c) 0
  | _, l => l.foldl (fun a c => a ^^^ c) 0

/-- The combination of float lanes: one rounding of the exact sum, or R288. -/
def fltComb (op : Nat) (f : Fmt) (x : Slot) (l : List Nat) : Nat × Flags :=
  let vs := l.map (f.input x.ftz)
  match op, vs with
  | 0, vs => roundRes f x.round x.ftz (sumFl x.round vs)
  | _, [] => (f.inf (op != 1), 0)
  | 1, v :: t => ((f.conv 0 false .ieee (t.foldl minFl v)).1, 0)
  | _, v :: t => ((f.conv 0 false .ieee (t.foldl maxFl v)).1, 0)

def laneComb (o : V2) (op : Nat) (x : Slot) (l : List Nat) : Nat × Flags :=
  if tyFloat o.ty then
    (if l.isEmpty && op == 0 then (0, 0) else fltComb op (tyFmt o.ty) x l)
  else (intComb op (tyBits o.ty) o.uns l, 0)

def vRed (o : V2) (op : BitVec 3) : VEnv → M Unit :=
  let w := tyBits o.ty
  vmap 0x97 8 6 w (tyLanes o.ty) o.d [o.a] false o.c (fun s act vs _ =>
    let r := laneComb o op.toNat (s.slotAt s.cur) (act.map (lane w ((vs[0]?).getD 0)))
    (ofLanes w [r.1], r.2))

def vScan (o : V2) (op : BitVec 3) : VEnv → M Unit :=
  let w := tyBits o.ty
  vmap 0x98 8 6 w (tyLanes o.ty) o.d [o.a] false o.c (fun s act vs old =>
    lanewise w (tyLanes o.ty) act old (fun i =>
      laneComb o op.toNat (s.slotAt s.cur) ((act.filter (fun j => decide (j ≤ i))).map (lane w ((vs[0]?).getD 0)))))

-- lane movement (R302, R303)

/-- VBCAST (R302): its source is a general register. -/
def vBcast (o : V2) (e : VEnv) : M Unit := do
  let w := tyBits o.ty
  let n := tyLanes o.ty
  vprep e 0x99 [] [o.d] [.src (gf o.c), .src o.a]
  let act := activeLanes (e.mask (← slot) o.c) n
  let _ ← vtake e 0x99 [] [o.d] (energy 8 2 act.length w)
  let old ← vold e o.d
  let v ← if e.seq then pure e.bc else rg o.a
  vwrite 6 e o.d (lanewise w n act old (fun _ => (v.toNat % 2 ^ w, 0))).1

def vPerm (o : V3) : VEnv → M Unit :=
  let w := tyBits o.ty
  let n := tyLanes o.ty
  vmap 0x9B 6 2 w n o.d [o.a, o.b] false o.c (fun _ act vs old =>
    lanewise w n act old (fun i => (lane w ((vs[0]?).getD 0) (lane w ((vs[1]?).getD 0) i % n), 0)))

/-- Active lanes below i. -/
def below (act : List Nat) (i : Nat) : Nat := (act.filter (fun j => decide (j < i))).length

def vExpand (o : V2) : VEnv → M Unit :=
  let w := tyBits o.ty
  vmap 0x9D 6 2 w (tyLanes o.ty) o.d [o.a] false o.c (fun _ act vs old =>
    lanewise w (tyLanes o.ty) act old (fun i => (lane w ((vs[0]?).getD 0) (below act i), 0)))

/-- VIOTA: field a names a register whose value is not read (R303). -/
def vIota (o : V2) (e : VEnv) : M Unit := do
  let w := tyBits o.ty
  vmap 0x9F 6 2 w (tyLanes o.ty) o.d [] false o.c (fun _ act _ old =>
    lanewise w (tyLanes o.ty) act old (fun i => (below act i, 0))) { e with names := [o.a] }

-- instructions that only a thread issues

/-- VCMP (R300). -/
def vCmp (o : V3) (cond : BitVec 3) (e : VEnv) : M Unit := do
  let w := tyBits o.ty
  let n := tyLanes o.ty
  vprep e 0x8F [o.a, o.b] [] [.dst o.d, .src (gf o.c)]
  let act := activeLanes (e.mask (← slot) o.c) n
  let vs ← vtake e 0x8F [o.a, o.b] [] (energy 8 (if tyFloat o.ty then 5 else 3) act.length w)
  let x ← slot
  let f := tyFmt o.ty
  let r (i : Nat) : Bool × Flags :=
    let a := lane w ((vs[0]?).getD 0) i
    let b := lane w ((vs[1]?).getD 0) i
    if tyFloat o.ty then fltCond cond (f.input x.ftz a) (f.input x.ftz b)
    else if o.uns && decide (2 ≤ cond.toNat) && decide (cond.toNat ≤ 5) then
      (intCond cond (BitVec.ofNat (w + 1) a) (BitVec.ofNat (w + 1) b), 0)
    else (intCond cond (BitVec.ofNat w a) (BitVec.ofNat w b), 0)
  modSlot (fun x => x.raiseFlags (act.foldl (fun fl i => fl ||| (r i).2) 0))
  wg 6 o.d (BitVec.ofNat 64 (act.foldl (fun m i => m + (if (r i).1 then 2 ^ i else 0)) 0))

/-- VEXT (R302). -/
def vExt (o : DAB) (ty : BitVec 3) (e : VEnv) : M Unit := do
  let w := tyBits ty
  let n := tyLanes ty
  vprep e 0x9A [o.a] [] [.dst o.d, .src o.b]
  let vs ← vtake e 0x9A [o.a] [] (energy 8 2 n w)
  let i ← rg o.b
  let c := lane w ((vs[0]?).getD 0) (i.toNat % n)
  wg 6 o.d (if tyFloat ty then BitVec.ofNat 64 c else BitVec.ofInt 64 (intVal w true c))

/-- VCOMPRESS (R303). -/
def vCompress (o : V2) (p : BitVec 4) (e : VEnv) : M Unit := do
  let w := tyBits o.ty
  let n := tyLanes o.ty
  vprep e 0x9C [o.a] [o.d] [.src (gf o.c), .dst (gf o.c), .pw]
  let act := activeLanes (e.mask (← slot) o.c) n
  let vs ← vtake e 0x9C [o.a] [o.d] (energy 8 2 act.length w)
  vwrite 6 e o.d (ofLanes w (act.map (lane w ((vs[0]?).getD 0))))
  modSlot (fun x => (x.setGr o.c (BitVec.ofNat 64 act.length)).setPred p act.isEmpty)

/-- RoundF32 (R220). -/
def roundF32 (v : Fl) : Nat := (Fmt.fp32.conv 0 false .ieee v).1

/-- Score a ranks before score b: higher first, NaN below −∞ (R304). -/
def ranksHigher (a b : Fl) : Bool := !a.isNan && (b.isNan || (ltFl b a && !(eqFl a b)))

/-- The terms e_j of VTOPK for its winners' scores, best first (R304); `free` answers what no precision decides (DEDUCED, log 7). -/
def topkTerms (norm : Bool) (free : Nat → Nat) (ws : List Fl) : List Nat :=
  let one := roundF32 (.fin false 1 0)
  let inf (v : Fl) : Bool := v.isInf false
  if norm then
    if ws.any inf then ws.map (fun v => if inf v then one else 0)
    else ws.map (fun v => match v with
      | .fin false m e => if m = 0 then 0 else roundF32 (.fin false m e)
      | _ => 0)
  else
    let m := (ws.head?).getD .nan
    if inf m then ws.map (fun v => if inf v then one else 0)
    else (ws.zipIdx).map (fun e => match e.1 with
      | .fin _ _ _ =>
        (match (sumFl 0 [m, e.1.negate]).1 with
         | .fin _ mm ee => if mm = 0 then one else ((expNegFin (Fmt.fp32.conv 0 false .ieee) mm ee).map (fun r => r.1)).getD (free e.2)
         | _ => 0)
      | _ => 0)

/-- VTOPK (R304). -/
def vTopk (o : V2) (k1 : BitVec 3) (norm : Bool) (p : BitVec 4) (e : VEnv) : M Unit := do
  vprep e 0x9E [o.a] [o.d] [.src (gf o.c), .pw]
  let act := activeLanes (e.mask (← slot) o.c) 16
  let vs ← vtake e 0x9E [o.a] [o.d] (energy 8 12 act.length 32)
  let s ← getS
  let score (i : Nat) : Fl := Fmt.fp32.val (lane 32 ((vs[0]?).getD 0) i)
  let ranked := act.insertionSort (fun i j => ranksHigher (score i) (score j) = true ∨ (ranksHigher (score j) (score i) = false ∧ i ≤ j))
  let win := ranked.take (k1.toNat + 1)
  let c := win.length
  let es := topkTerms norm (fun j => (Config.free (s.fresh + j)).toNat % 2 ^ 32) (win.map score)
  let sum := roundF32 (sumFl 0 (es.map Fmt.fp32.val)).1
  let low := decide (sum < 0x00800000)
  let wt (ej : Nat) : Nat :=
    if low then roundF32 (divFl (.fin false 1 0) (.fin false c 0)).1
    else roundF32 (divFl (Fmt.fp32.val ej) (Fmt.fp32.val sum)).1
  let idx := (List.range 8).map (fun j => if k1.toNat < j then 0 else match win[j]? with
    | some i => i
    | none => 0xFFFFFFFF)
  modS (fun s => { s with fresh := s.fresh + 16 })
  vwrite 8 e o.d (ofLanes 32 ((es.map wt ++ List.replicate (8 - c) 0) ++ idx))
  modSlot (fun x => x.setPred p (low || c == 0))

-- the instructions

def execVadd (o : V3) (s : State) : Out := vrun (vAdd o) s
def execVsub (o : V3) (s : State) : Out := vrun (vSub o) s
def execVmul (o : V3) (s : State) : Out := vrun (vMul o) s
def execVfma (o : V3) (s : State) : Out := vrun (vFma o) s
def execVmin (o : V3) (s : State) : Out := vrun (vMin o) s
def execVmax (o : V3) (s : State) : Out := vrun (vMax o) s
def execVabs (o : V2) (s : State) : Out := vrun (vAbs o) s
def execVneg (o : V2) (s : State) : Out := vrun (vNeg o) s
def execVdiv (o : V3) (s : State) : Out := vrun (vDiv o) s
def execVsel (o : V3) (s : State) : Out := vrun (vSel o) s
def execVand (o : V3) (s : State) : Out := vrun (vAnd o) s
def execVor (o : V3) (s : State) : Out := vrun (vOr o) s
def execVxor (o : V3) (s : State) : Out := vrun (vXor o) s
def execVshl (o : V3) (s : State) : Out := vrun (vShl o) s
def execVshr (o : V3) (s : State) : Out := vrun (vShr o) s
def execVrcp (o : V2) (s : State) : Out := vrun (vRcp o) s
def execVrsq (o : V2) (s : State) : Out := vrun (vRsq o) s
def execVexp2 (o : V2) (s : State) : Out := vrun (vExp2 o) s
def execVlog2 (o : V2) (s : State) : Out := vrun (vLog2 o) s
def execVsqrt (o : V2) (s : State) : Out := vrun (vSqrt o) s
def execVdot4 (o : V3) (s : State) : Out := vrun (vDot4 o) s
def execVcvt (o : V2) (tgt : BitVec 3) (unsT : Bool) (s : State) : Out := vrun (vCvt o tgt unsT) s
def execVcvtWiden (o : V2) (s : State) : Out := vrun (vCvtWiden o) s
def execVcvtNarrow (o : V2) (s : State) : Out := vrun (vCvtNarrow o) s
def execVcmp (o : V3) (cond : BitVec 3) (s : State) : Out := vrun (vCmp o cond) s
def execVred (o : V2) (op : BitVec 3) (s : State) : Out := vrun (vRed o op) s
def execVscan (o : V2) (op : BitVec 3) (s : State) : Out := vrun (vScan o op) s
def execVbcast (o : V2) (s : State) : Out := vrun (vBcast o) s
def execVext (o : DAB) (ty : BitVec 3) (s : State) : Out := vrun (vExt o ty) s
def execVperm (o : V3) (s : State) : Out := vrun (vPerm o) s
def execVcompress (o : V2) (p : BitVec 4) (s : State) : Out := vrun (vCompress o p) s
def execVexpand (o : V2) (s : State) : Out := vrun (vExpand o) s
def execViota (o : V2) (s : State) : Out := vrun (vIota o) s
def execVtopk (o : V2) (k1 : BitVec 3) (norm : Bool) (p : BitVec 4) (s : State) : Out := vrun (vTopk o k1 norm p) s
def execEnc8 (o : V2) (alt : Bool) (s : State) : Out := vrun (vEnc8 o alt) s
def execDec8 (o : V2) (alt : Bool) (s : State) : Out := vrun (vDec8 o alt) s

/-- The meaning of a word that may stand in a sequencer body (R308), with its vector fields, mask and VBCAST source. -/
def seqOp : Instr → Option ((VEnv → M Unit) × List Fld × BitVec 4 × Option Fld)
  | .vadd o => some (vAdd o, [o.d, o.a, o.b], o.c, none)
  | .vsub o => some (vSub o, [o.d, o.a, o.b], o.c, none)
  | .vmul o => some (vMul o, [o.d, o.a, o.b], o.c, none)
  | .vfma o => some (vFma o, [o.d, o.a, o.b], o.c, none)
  | .vmin o => some (vMin o, [o.d, o.a, o.b], o.c, none)
  | .vmax o => some (vMax o, [o.d, o.a, o.b], o.c, none)
  | .vabs o => some (vAbs o, [o.d, o.a], o.c, none)
  | .vneg o => some (vNeg o, [o.d, o.a], o.c, none)
  | .vdiv o => some (vDiv o, [o.d, o.a, o.b], o.c, none)
  | .vsel o => some (vSel o, [o.d, o.a, o.b], o.c, none)
  | .vand o => some (vAnd o, [o.d, o.a, o.b], o.c, none)
  | .vor o => some (vOr o, [o.d, o.a, o.b], o.c, none)
  | .vxor o => some (vXor o, [o.d, o.a, o.b], o.c, none)
  | .vshl o => some (vShl o, [o.d, o.a, o.b], o.c, none)
  | .vshr o => some (vShr o, [o.d, o.a, o.b], o.c, none)
  | .vrcp o => some (vRcp o, [o.d, o.a], o.c, none)
  | .vrsq o => some (vRsq o, [o.d, o.a], o.c, none)
  | .vexp2 o => some (vExp2 o, [o.d, o.a], o.c, none)
  | .vlog2 o => some (vLog2 o, [o.d, o.a], o.c, none)
  | .vsqrt o => some (vSqrt o, [o.d, o.a], o.c, none)
  | .vdot4 o => some (vDot4 o, [o.d, o.a, o.b], o.c, none)
  | .vcvt o tgt unsT => some (vCvt o tgt unsT, [o.d, o.a], o.c, none)
  | .vcvtWiden o => some (vCvtWiden o, [o.d, o.a], o.c, none)
  | .vcvtNarrow o => some (vCvtNarrow o, [o.d, o.a], o.c, none)
  | .vred o op => some (vRed o op, [o.d, o.a], o.c, none)
  | .vscan o op => some (vScan o op, [o.d, o.a], o.c, none)
  | .vbcast o => some (vBcast o, [o.d], o.c, some o.a)
  | .vperm o => some (vPerm o, [o.d, o.a, o.b], o.c, none)
  | .vexpand o => some (vExpand o, [o.d, o.a], o.c, none)
  | .viota o => some (vIota o, [o.d, o.a], o.c, none)
  | .enc8 o alt => some (vEnc8 o alt, [o.d, o.a], o.c, none)
  | .dec8 o alt => some (vDec8 o alt, [o.d, o.a], o.c, none)
  | _ => none

-- palettes and shadows (R311, R313)

/-- PALW (R311). -/
def execPalw (pal nan7f : Bool) (a : BitVec 6) (off : BitVec 20) (s : State) : Out := run (do
  needCore
  seqGate
  prep [.src (plain a)]
  let s0 ← getS
  let x := s0.slotAt s0.cur
  if (s0.at' s0.cur.pl).bankLaunch ≠ some x.launch then trap cShared s0.word
  accessGate
  let ea ← peek (eaX a off)
  let bs ← checkAccess 4 false ea 512 64
  needHomes 4 false ea bs
  cfgGate true bs
  let c ← core
  if (match c.running with
      | some r => r.pals.contains pal.toNat
      | none => false) then holdTurn
  let r ← readNow bs
  let l := (List.range 128).map (fun i => part r (4 * i) 4)
  match palFault l nan7f with
  | some i => trap cFormat (BitVec.ofNat 64 i)
  | none => pure ()
  let _ ← eaX a off
  let p : Palette := ⟨Vector.ofFn (fun (i : Fin 128) => BitVec.ofNat 32 ((l[i.val]?).getD 0)), nan7f⟩
  modCore (fun c => { c with pal := c.pal.setIfInBounds pal.toNat p })
  done) s

/-- FMTSET.fmt: bit 18 is reserved (R124, R313). -/
def execFmtsetFmt (v : BitVec 20) (s : State) : Out := run (do
  needCore
  seqGate
  modSlot (fun x => { x with fshadow := v.setWidth 64 &&& 0xBFFFF })
  done) s

def execFmtsetScale (v : BitVec 32) (s : State) : Out := run (do
  needCore
  seqGate
  modSlot (fun x => { x with sshadow := v.setWidth 64 })
  done) s

end Sys2Proof.Machine
end

