-- ==== Sys2Proof/Machine/VecMem.lean ====
section
/-! DEFINITION. Vector memory instructions and the sequencer (R274, R275, R308-R310). -/

namespace Sys2Proof.Machine

/-- The dispatch number of the instruction that has just issued. -/
def lastSeqNo : M (BitVec 16) := do pure ((← slot).dseq - 1)

/-- VLD (R274): at once when every byte is fixed at issue, else pending until its result arrives. -/
def execVld (d : BitVec 6) (ad : MAddr) (s : State) : Out := run (do
  let e ← threadEnv
  let f := plain d
  vprep e 0x5A [] [f] (adUses ad)
  accessGate
  let ea ← eaM ad
  let bs ← checkAccess 0 false ea 64 8
  needHomes 0 false ea bs
  cfgGate true bs
  let s ← getS
  if !(s.fixedLoad true bs) then pendRoom 1
  let src := s.srcs true true bs
  let _ ← vtake e 0x5A [] [f] (energy 24 0 0 0)
  let q ← lastSeqNo
  touchL1 bs
  match allFixed src with
  | some l => do
    vwrite (if s.fixedLoad true bs then 4 else 6) e f (bytesVec l)
    done
  | none => do
    modSlot (fun x => x.markRec q 1)
    markPend (vregOf d)
    let s ← getS
    modS (fun t => t.send (s.slotAt s.cur).launch s.cur.pl (s.homeFirst bs) (some s.cur) (.vload d src q none (s.fillsOf src)))
    done) s

/-- VST (R274). -/
def execVst (d : BitVec 6) (ad : MAddr) (s : State) : Out := run (do
  let e ← threadEnv
  let f := plain d
  vprep e 0x5B [f] [] (adUses ad)
  accessGate
  let ea ← eaM ad
  let bs ← checkAccess 0 true ea 64 8
  needHomes 0 true ea bs
  cfgGate false bs
  let vs ← vtake e 0x5B [f] [] (energy 24 0 0 0)
  modS (fun s => s.store s.cur (bs.zip (vecBytes (vs.headD 0))) false none none)
  done) s

/-- The address of lane i (R275): lane i of b is a signed index of elements. The sum wraps at 64 bits, as R208 and R210 say of
other addresses and R275 does not (DESIGN CHOICE, log 71). -/
def laneAddr (ty : BitVec 3) (base : Word) (b : Vec) (i : Nat) : Word :=
  base + BitVec.ofInt 64 (intVal (tyBits ty) true (lane (tyBits ty) b i)) * BitVec.ofNat 64 (tyBits ty / 8)

/-- The access of a lane, whose page has been looked up (R264, R275). -/
def State.laneAccess (s : State) (wr : Bool) (ty : BitVec 3) (va : Word) : Except AccFault (List PByte) :=
  s.accessWith s.xlateCur 0 wr va (tyBits ty / 8) (tyBits ty / 8)

/-- The pages of the lanes of a gather or scatter are looked up in their order, as far as the first lane that fails (R85, R275). -/
def lookLanes (wr : Bool) (ty : BitVec 3) (base : Word) (b : Vec) : List Nat → M Unit
  | [] => pure ()
  | i :: l => do
    let va := laneAddr ty base b i
    if va.toNat % (tyBits ty / 8) = 0 then lookPage va
    match (← getS).laneAccess wr ty va with
    | .ok _ => lookLanes wr ty base b l
    | .error _ => pure ()

/-- The lanes of a gather or scatter below the first that fails R264, with the fault of that one. -/
def State.lanes (s : State) (wr : Bool) (ty : BitVec 3) (base : Word) (b : Vec) :
    List Nat → List (Nat × List PByte) × Option (Nat × AccFault)
  | [] => ([], none)
  | i :: l =>
    match s.laneAccess wr ty (laneAddr ty base b i) with
    | .error f => ([], some (i, f))
    | .ok bs =>
      let r := s.lanes wr ty base b l
      ((i, bs) :: r.1, r.2)

/-- The late fault of a failing lane (R275, R407) (DEDUCED, log 32). -/
def laneFault (q : BitVec 16) (f : Option (Nat × AccFault)) : Option LateFault :=
  f.map (fun r => ⟨r.2.cause, r.2.tval, BitVec.ofNat 8 r.1, some q, some r.2.detail⟩)

def State.lateMaybe (s : State) (i : Sid) (f : Option LateFault) : State :=
  match f with
  | some lf => s.lateFault i lf false
  | none => s

/-- What delays the lanes as it delays any access: walks, and banks in change (R85, R240). -/
def lanesGate (wr : Bool) (ty : BitVec 3) (act : List Nat) (base : Word) (b : Vec) : M Unit := do
  lookLanes wr ty base b act
  cfgGate (!wr) (((← getS).lanes wr ty base b act).1.flatMap (fun p => p.2))

/-- VGATH: lanes that are not performed keep their old values. -/
def execVgath (d a b : Fld) (c : BitVec 4) (ty : BitVec 3) (s : State) : Out := run (do
  let e ← threadEnv
  vprep e 0x5C [b] [d] [.src a, .src (gf c)]
  accessGate
  pendRoom 1
  let act := activeLanes (e.mask (← slot) c) (tyLanes ty)
  lanesGate false ty act (← peek (rg a)) ((← peek (vtake e 0x5C [b] [d] (energy 8 6 act.length (tyBits ty)))).headD 0)
  let vs ← vtake e 0x5C [b] [d] (energy 8 6 act.length (tyBits ty))
  let q ← lastSeqNo
  let old ← vold e d
  let base ← rg a
  let s ← getS
  let n := tyBits ty / 8
  let r := s.lanes false ty base (vs.headD 0) act
  let src : List BSrc := (List.range 64).map (fun k =>
    match r.1.find? (fun p => p.1 == k / n) with
    | some p => ((p.2[k % n]?).map (s.srcByte true true p.2)).getD (.val 0)
    | none => .val (((vecBytes old)[k]?).getD 0))
  let flt := laneFault q r.2
  let bs := r.1.flatMap (fun p => p.2)
  touchL1 bs
  match allFixed src with
  | some l => do
    vwrite 6 e d (bytesVec l)
    modS (fun s => s.lateMaybe s.cur flt)
    done
  | none => do
    let code := fldEff d (← slot)
    modSlot (fun x => x.markRec q 1)
    markPend (vregOf code)
    let s ← getS
    modS (fun t => t.send (s.slotAt s.cur).launch s.cur.pl (s.homeFirst bs) (some s.cur) (.vload code src q flt (s.fillsOf src)))
    done) s

/-- VSCAT: lanes in increasing order. -/
def execVscat (d a b : Fld) (c : BitVec 4) (ty : BitVec 3) (s : State) : Out := run (do
  let e ← threadEnv
  vprep e 0x5D [d, b] [] [.src a, .src (gf c)]
  accessGate
  let act := activeLanes (e.mask (← slot) c) (tyLanes ty)
  lanesGate true ty act (← peek (rg a))
    (((← peek (vtake e 0x5D [d, b] [] (energy 8 6 act.length (tyBits ty))))[1]?).getD 0)
  let vs ← vtake e 0x5D [d, b] [] (energy 8 6 act.length (tyBits ty))
  let q ← lastSeqNo
  let base ← rg a
  let s ← getS
  let r := s.lanes true ty base ((vs[1]?).getD 0) act
  modS (fun s => r.1.foldl (fun s p =>
    s.store s.cur (p.2.zip (natBytes (tyBits ty / 8) (lane (tyBits ty) (vs.headD 0) p.1))) false none none) s)
  modS (fun s => s.lateMaybe s.cur (laneFault q r.2))
  done) s

-- the sequencer

/-- Take a body instruction apart (R308): it may stand in a body, and its word opens no event bit. -/
def bodyWord (w : Word) : M ((VEnv → M Unit) × List Fld × BitVec 4 × Option Fld) := do
  match decode w with
  | none => trap cIllegal w
  | some d =>
    if d.eb ≠ 0 then trap cIllegal w
    match seqOp d.ins with
    | none => trap cIllegal w
    | some r => pure r

/-- The relative fields of a body instruction pass R206 with the snapshot of ix. -/
def bodyRelOk (x : Slot) (r : (VEnv → M Unit) × List Fld × BitVec 4 × Option Fld) : Bool :=
  r.2.1.all (fun f => (Use.vec f).relOk x) && r.2.2.2.toList.all (fun f => (Use.src f).relOk x)

/-- VSEQ (R308). It reads ix, which it checks the body's relative fields with, so it waits for a pending ix first (R29); the body's accesses begin after
the thread's acquire in flight (R99). -/
def execVseq (n : BitVec 5) (s : State) : Out := run (do
  needCore
  seqGate
  let s0 ← getS
  let x := s0.slotAt s0.cur
  let addrs := (List.range n.toNat).map (fun i => x.pc + BitVec.ofNat 64 (8 * (i + 1)))
  let ws ← addrs.mapM (fun a => fetchAt a)
  let ops ← ws.mapM bodyWord
  if x.isPend .ix then loseTurn
  if !(ops.all (bodyRelOk x)) then trap cRegIndex x.ix
  prep ((Use.pw) :: .src (plain 0x19) :: ops.flatMap (fun r => .src (gf r.2.2.1) :: (r.2.2.2.toList.map (fun f => Use.src f))))
  let strs := ops.flatMap (fun r => r.2.1.filterMap (fun f => x.stream? (fldEff f x)))
  match strs with
  | [] => trap cIllegal s0.word
  | t :: ts => do
    accessGate
    let cnt := ts.foldl (fun m k => Nat.min m (k.2.total - k.2.next)) (t.2.total - t.2.next)
    let bcs ← ops.mapM (fun r => match r.2.2.2 with
      | some f => rg f
      | none => pure 0)
    let body : SeqBody := ⟨(ws.zip addrs).zipWith (fun p b => (p.1, p.2, b)) bcs, x.ix, pwFix x.pw, x.g, cnt, 0, 0⟩
    modSlot (fun x => { x with seqr := if cnt = 0 then none else some body })
    jump (x.pc + BitVec.ofNat 64 (8 * (n.toNat + 1)))) s

/-- VSEQW (R310). -/
def execVseqw (s : State) : Out := run (do
  needCore
  if (← slot).seqr.isSome then holdTurn
  done) s

/-- The sequencer goes on to its next word; after the last iteration it holds no body. -/
def SeqBody.next (b : SeqBody) : Option SeqBody :=
  if b.pos + 1 < b.words.length then some { b with pos := b.pos + 1 }
  else if b.iter + 1 < b.n then some { b with iter := b.iter + 1, pos := 0 }
  else none

/-- SEQUENCER_ISSUE: one body instruction at a turn of the slot, ahead of what the scalar side issues in it (R309; DEDUCED, log
88); a short budget counter pauses it (R64) (DEDUCED, log 20). -/
def execSequencerIssue (core slot : Nat) (s : State) : Out :=
  let i : Sid := ⟨.core core, slot⟩
  let x := s.slotAt i
  match x.seqr with
  | none => .next s
  | some b =>
    if s.cyc % 8 ≠ slot ∨ !x.busy ∨ x.lastSeq = some s.cyc ∨ x.lastIssue = some s.cyc then .next s
    else
      let s := { s.setSlot i { x with lastSeq := some s.cyc } with cur := i }
      let (w, a, bc) := (b.words[b.pos]?).getD (0, 0, 0)
      let fin : M Unit := modSlot (fun x => { x with seqr := if x.seqr = some b then b.next else x.seqr })
      match decode w with
      | none => .next s
      | some d =>
        match seqOp d.ins with
        | none => .next s
        | some r =>
          if (d.g == 0 || b.pw.getLsbD d.g.toNat) == d.gn then run fin s
          else
            run (do
              r.1 ⟨true, b.ix, b.gs, bc, w, a, []⟩
              fin) s

end Sys2Proof.Machine
end

