-- ==== Sys2Proof/Machine/Arrive.lean ====
section
/-! DEFINITION. Arrivals: results, writes and requests at their homes, walks, wakes, and the host's snoops (R29, R54, R55,
R76, R85, R91-R94, R238, R267, R270, R277-R282, R386, R426, R464). -/

namespace Sys2Proof.Machine

/-- The port of a place may serve what comes to it from elsewhere: the access of the slot whose turn it is comes first in a
cycle (R271). -/
def State.portFree (s : State) (p : Place) : Bool :=
  match p with
  | .core _ => s.turnPast ⟨p, s.cyc % 8⟩
  | .slice _ => true

/-- A write may be performed now: earlier packets of its place to the same home have been delivered, the loads that its
stores leave after have returned (R91, R103 d), and the port serves it. -/
def State.writable (s : State) (f : Flight) : Bool := s.first f && s.cleared f && s.portFree f.dst

/-- A data error that a load met: late, at Umber (R464); the rule names no tval. -/
def State.dataError (s : State) (i : Sid) (seq : Option (BitVec 16)) : State :=
  ({ s with fresh := s.fresh + 1 }).lateFault i ⟨cData, Config.free s.fresh, 0xFF, seq, none⟩ false

/-- The bytes of a line that a fill may bring into the L1 of a place: those to which the place has no write on its way
(R93, R102). -/
def State.fillMask (s : State) (p : Place) (line : Nat) : BitVec 128 :=
  (List.range 128).foldl (fun m k => if s.writePending p (.dev (line * 128 + k)) then m else m ||| bit128 k) 0

/-- A line that a load brings into L1 (R71), unless it is poisoned (R464): dirty bytes stay, the others are the home's, where `fillMask` lets them in.
While a CFGBANK is in progress nothing comes in, and what the line held clean is gone (R240). -/
def State.fillLine (s : State) (p : Place) (line home : Nat) : State :=
  if !(s.usesL1 p) ∨ s.poison.contains line then s
  else if (s.at' p).l1Busy then s.dropL1 p (fun l => l.line == line)
  else
    let mem : BitVec 1024 := BitVec.ofNat 1024 (Memory.readNat s.mem (line * 128) 128)
    let old := (l1Find (s.at' p) line).getD ⟨line, home, 0, 0, 0, []⟩
    let d := (List.range 128).foldl (fun d k => if old.dirty.getLsbD k then lineSet d k (lineByte old.data k) else d) mem
    s.l1Insert p { old with have' := s.fillMask p line ||| old.dirty, data := d }

/-- The lines a load brings into L1. -/
def State.fillL1 (s : State) (p : Place) (lines : List (Nat × Nat)) : State :=
  lines.foldl (fun s e => s.fillLine p e.1 e.2) s

/-- A vector load's result reaches its register, or is pushed to the write stream it has become (R274, R306). -/
def State.deliverLoad (s : State) (i : Sid) (d : BitVec 6) (v : Vec) (seq : BitVec 16) : State :=
  match (s.slotAt i).stream? d with
  | some (n, t) =>
    let keep := s.cur
    let s := { s.setSlot i ((s.slotAt i).clearPend (vregOf d)) with cur := i }
    { s.push i n t seq false v with cur := keep }
  | none => s.deliverVec i d v

/-- The page that such a push goes to is in reach (R85). -/
def State.warmLoad (s : State) (i : Option Sid) (d : BitVec 6) : Option State :=
  match i.bind (fun i => ((s.slotAt i).stream? d).map (fun r => (i, r.2))) with
  | some (i, t) =>
    let own : State := { s with cur := i }
    if t.next < t.total then (own.warmVector t t.next).map (fun (u : State) => { u with cur := s.cur }) else some s
  | none => some s

/-- An acquire at scope sc of a thread, without the frame of an instruction (R99). -/
def State.acquireAt (s : State) (i : Sid) (sc : Nat) : State :=
  if sc < 2 then s else s.dropL1 i.pl (fun l => s.covers i sc (.slice l.home))

/-- A load of a place reaches its homes: it is first on its way, each home uses its lines (R75), and L1 takes them. None
while it must wait. -/
def State.loadArrives (s : State) (f : Flight) (src : List BSrc) (fill : List (Nat × Nat)) : Option State :=
  if !(s.first f && s.turnPast? f.sid && f.homes.all s.portFree) then none
  else ((s.dropFlight f.id).useLines (srcLines src)).map (fun t => t.fillL1 f.src fill)

/-- VARIABLE_RESULT_ARRIVAL of the flight State.subj (R29, R267): loads, prefetches, and results on their way back. An
acquire drops its lines when its read returns, before the load's own line comes in (DEDUCED, log 69). -/
def execVariableResultArrival (s : State) : Out :=
  match s.flight? s.subj with
  | none => .next s
  | some f =>
    match f.body with
    | .load d n sx src fill acq =>
      let v := extend sx n (ofBytes (src.map s.sample))
      let bad := s.srcPoison src
      let drop (s : State) : State :=
        match f.sid with
        | some i => s.acquireAt i acq
        | none => s
      (match (drop s).loadArrives f src fill with
       | none => .next s
       | some s =>
         match f.sid with
         | some i =>
           let s := s.deliver i d v
           .next (if bad then s.dataError i none else s)
         | none => .next s)
    | .vload d src seq flt fill =>
      let v := bytesVec (src.map s.sample)
      let bad := s.srcPoison src
      (match (s.loadArrives f src fill).bind (fun s => s.warmLoad f.sid d) with
       | none => .next s
       | some s =>
         match f.sid with
         | some i =>
           let s := s.setSlot i ((s.slotAt i).markRec seq 2)
           let s := s.deliverLoad i d v seq
           .next ((if bad then s.dataError i (some seq) else s).lateMaybe i flt)
         | none => .next s)
    | .fill line home host =>
      if !(s.first f) then .next s
      else
        match (s.dropFlight f.id).useLines [(home, line, host)] with
        | none => .next s
        | some t => .next (if host then t else t.fillL1 f.src [(line, home)])
    | .result d v sc fl _ =>
      if !(s.first f && s.turnPast? f.sid) then .next s
      else
        let s := s.dropFlight f.id
        match f.sid with
        | some i =>
          let s := s.acquireAt i sc
          let s := s.setSlot i ((s.slotAt i).raiseFlags fl)
          .next (s.deliver i d v)
        | none => .next s
    | _ => .next s

/-- WRITE_PERFORMED_AT_HOME of the flight State.subj (R76, R91, R386): the home applies the bytes under the next sequence
number; a tagged store's number travels back (R270). -/
def execWritePerformedAtHome (s : State) : Out :=
  match s.flight? s.subj with
  | none => .next s
  | some f =>
    match f.body with
    | .write bytes tag _ cached =>
      let held := s.hostHeld (bytes.map (fun e => e.1))
      if !(s.writable f) then .next s
      else if !held.isEmpty then .next (s.snoop held)
      else
        match s.writeHome f.dst bytes cached with
        | none => .next s
        | some t =>
          let t := (t.clearPoison bytes).dropFlight f.id
          match tag, f.dst, (bytes.head?).map (fun e => locLine e.1) with
          | some d, .slice k, some (some (line, host)) =>
            .next (t.send f.launch f.dst f.src f.sid (.result d ((t.seqOf k line host).setWidth 64) 0 0 true))
          | _, _, _ => .next t
    | _ => .next s

/-- REMOTE_REQUEST: a pinned thread's access or atomic is served at its target, and the result goes back (R54). -/
def execRemoteRequest (s : State) : Out :=
  match s.flight? s.subj with
  | none => .next s
  | some f =>
    match f.body with
    | .reqLoad d n sx src acq =>
      if !(s.first f && s.portFree f.dst) then .next s
      else
        let v := extend sx n (ofBytes (src.map s.sample))
        match (s.dropFlight f.id).useLines (srcLines src) with
        | none => .next s
        | some t => .next (t.send f.launch f.dst f.src f.sid (.result d v acq 0 false))
    | .reqAtomic d loc op sc =>
      let held := s.hostHeld [loc]
      if !(s.writable f) then .next s
      else if !held.isEmpty then .next (s.snoop held)
      else
        match s.atomicAt (clusterOf f.dst) loc op with
        | none => .next s
        | some (t, old, seq, fl) =>
          let t := (t.dropFlight f.id).send f.launch f.dst f.src f.sid (.result (d.setWidth 6) old sc.toNat fl true)
          .next (if d = 0 then t else t.send f.launch f.dst f.src f.sid (.result ((d + 1).setWidth 6) (seq.setWidth 64) 0 0 true))
    | _ => .next s

/-- REMOTE_UPDATE_APPLY: a RED's update is applied at its home (R55, R281). -/
def execRemoteUpdateApply (s : State) : Out :=
  match s.flight? s.subj with
  | none => .next s
  | some f =>
    match f.body with
    | .red loc op dword v =>
      let held := s.hostHeld [loc]
      if !(s.writable f) then .next s
      else if !held.isEmpty then .next (s.snoop held)
      else
        match s.atomicAt (clusterOf f.dst) loc (.amo op dword v) with
        | none => .next s
        | some (t, _, _, _) => .next (t.dropFlight f.id)
    | _ => .next s

/-- Eight walkers work on the first eight pending walks of a cluster (R85). -/
def ClusterSt.active (c : ClusterSt) : List Walk := c.walks.take 8

/-- A walk fails for a slot that a list names: the instruction that still waits for it gets its failure (R426). -/
def Slot.walkEnds (x : Slot) (asid : BitVec 8) (page : Nat) (level kind : BitVec 4) : Slot :=
  if x.walkWait = some ⟨asid, page, none⟩ then { x with walkWait := some ⟨asid, page, some (level, kind)⟩ } else x

/-- TLB_WALK_COMPLETE of the walk State.subj, which a walker holds: its entry enters the cluster TLB, or each waiter gets its
failure (R85, R426). The tables are read through the L2, at the homes of the frame class table (R77). -/
def execTlbWalkComplete (s : State) : Out :=
  match s.clusters.findSome? (fun e => (e.2.active.find? (fun w => w.id == s.subj)).map (fun w => (e.1, w))) with
  | none => .next s
  | some (cl, w) =>
    let va : Word := BitVec.ofNat 64 (w.page * 65536)
    match s.useLines ((walkLines s w.root va).map (fun l => (s.frameHome (l * 128), l, false))) with
    | none => .next s
    | some t =>
      let c := (t.cluster cl).endWalk w.id
      match walk s w.root va with
      | .leaf pte sh => .next (t.setCluster cl { c with tlb := tlbAdd c.tlb ⟨w.asid, w.page * 65536 / 2 ^ sh, sh, pte⟩ })
      | .fail lvl kind =>
        .next (w.waiters.foldl (fun s i => s.setSlot i ((s.slotAt i).walkEnds w.asid w.page lvl kind)) (t.setCluster cl c))

/-- WAKE_ARRIVAL of the flight State.subj (R238); a wake in the cycle of the timeout that ended the sleep is consumed (R237). -/
def execWakeArrival (s : State) : Out :=
  match s.flight? s.subj with
  | none => .next s
  | some f =>
    match f.body with
    | .wake n k =>
      if !(s.first f) then .next s
      else
      let s := s.dropFlight f.id
      let i : Sid := ⟨.core n, k⟩
      let x := s.slotAt i
      if !(s.coreLive n) ∨ !x.busy ∨ x.launch ≠ f.launch then .next s
      else
        if x.timedOut = some s.cyc then .next s
        else
          match x.asleep with
          | some ⟨_, .sleep, _⟩ => .next (s.setSlot i x.advance)
          | _ => .next (s.setSlot i { x with wake := true })
    | _ => .next s

/-- HOST_SNOOP_RESPONSE for the line State.subj: the host holds the line no longer, and the write that waits may be applied (R386). -/
def execHostSnoopResponse (s : State) : Out :=
  if s.snoops.contains s.subj then
    .next { s with snoops := s.snoops.filter (· != s.subj), snooped := s.snooped ++ [s.subj] }
  else .next s

/-- HOST_CXL_CACHE_SNOOP for the host line State.subj: its home slice gives the line up, unless a tile operation pins it
(R88, R322). -/
def execHostCxlCacheSnoop (s : State) : Out :=
  .next { s with l2 := s.l2.map (fun (e : Nat × List L2Line) =>
    (e.1, e.2.filter (fun l => !(l.hostMem && l.line == s.subj && l.pins == 0)))) }

end Sys2Proof.Machine
end

