-- ==== Sys2Proof/Machine/YardEvents.lean ====
section
/-! DEFINITION. What the Yard does of itself: the floor carriage's passes, the depot's rule, the far-task agent, fills,
refills, steals, join decrements, coupled Yards, floor relief and the all-asleep trap (R157-R180, R423, R424, R436,
R439-R443). All of a station's pass is applied when word 3 crosses it (DESIGN CHOICE, log 17). -/

namespace Sys2Proof.Machine

-- the floor carriage (R157-R159)

/-- The contents of a floor carriage. -/
structure FloorCar where
  floor : Nat
  lag : Nat
  relief : Nat
  fin : Bool
  reinject : Bool
  marks : List Nat
  counts : List Nat
  gap : Nat
  dirty : Bool
  busy : Bool
  far : Nat
  deriving DecidableEq, Repr, Inhabited

def noFar : Nat := 0x3FFFFFFF

/-- The contents of eight words. -/
def floorOf (ws : List Word) : FloorCar :=
  let w0 := recW ws 0
  let w7 := recW ws 7
  { floor := (w0.extractLsb' 0 32).toNat, lag := (w0.extractLsb' 50 14).toNat, relief := (w0.extractLsb' 46 4).toNat,
    fin := w0.getLsbD 45, reinject := w0.getLsbD 44,
    marks := (List.range 12).filter (fun j => w0.getLsbD (32 + j)),
    counts := (List.range 12).map (fun j => ((recW ws (1 + j / 2)).extractLsb' (32 * (j % 2)) 32).toNat),
    gap := (w7.extractLsb' 34 30).toNat, dirty := w7.getLsbD 33, busy := w7.getLsbD 32, far := (w7.extractLsb' 0 32).toNat }

def FloorCar.count (f : FloorCar) (j : Nat) : Nat := (f.counts[j]?).getD 0

/-- The eight words of contents. -/
def FloorCar.words (f : FloorCar) : List Word :=
  let w0 : Word := (BitVec.ofNat 14 f.lag ++ BitVec.ofNat 4 f.relief ++ BitVec.ofBool f.fin ++ BitVec.ofBool f.reinject ++
    BitVec.ofNat 12 ((f.marks.map (fun j => 2 ^ j)).sum) ++ BitVec.ofNat 32 f.floor : BitVec 64)
  let w7 : Word := (BitVec.ofNat 30 f.gap ++ BitVec.ofBool f.dirty ++ BitVec.ofBool f.busy ++ BitVec.ofNat 32 f.far : BitVec 64)
  [w0] ++ (List.range 6).map (fun k => pair32 (f.count (2 * k)) (f.count (2 * k + 1))) ++ [w7]

/-- The carriage as Umber seats it (R154). -/
def floorStart : FloorCar := ⟨0, 0, 0, false, false, [], List.replicate 12 0, noFar, true, true, 0⟩

/-- The window base. -/
def FloorCar.w (f : FloorCar) : Nat := f.floor + f.lag

def FloorCar.quiet (f : FloorCar) : Bool := f.counts.all (· == 0)

def FloorCar.mark (f : FloorCar) (j : Nat) : FloorCar := if f.marks.contains j then f else { f with marks := f.marks ++ [j] }

/-- Apply one bucket entry (R162); `w` is the window base as word 0 arrived. -/
def FloorCar.apply (f : FloorCar) (w : Nat) (e : Nat × Int) : FloorCar :=
  let j := Nat.max e.1 w % 12
  let f := { f with
    counts := f.counts.set j (((f.count j : Int) + e.2) % (2 ^ 32 : Int)).toNat, dirty := true }
  if e.2 ≤ 0 then f
  else
    let f := f.mark j
    if e.1 < f.floor then { f with floor := Nat.max e.1 (w - 16383), lag := w - Nat.max e.1 (w - 16383) } else f

/-- Apply a core's buffer (R162). -/
def FloorCar.applyBuf (f : FloorCar) (w : Nat) (d : Deltas) : FloorCar :=
  let f := d.bks.foldl (fun f e => f.apply w e) f
  if d.farN = 0 then f
  else { f with far := (f.far + d.farN) % 2 ^ 32, gap := Nat.min f.gap (d.farMin - w), dirty := true }

/-- The launch whose floor carriage is carriage c. -/
def State.floorLaunch (s : State) (c : Nat) : Option Launch := s.launches.find? (fun l => !l.finished && l.winBase == c)

def State.carWords (s : State) (l : Launch) : List Word := (s.car l.winBase).words.toList

def State.setFloor (s : State) (l : Launch) (f : FloorCar) : State :=
  s.setCar l.winBase { s.car l.winBase with words := Vector.ofFn (fun (k : Fin 8) => recW f.words k.val) }

def State.setYard (s : State) (n : Nat) (g : YardSt → YardSt) : State :=
  match s.launch? n with
  | some l => s.setLaunch { l with yard := g l.yard }
  | none => s

/-- Marks in a carriage's table of turns: a station's Yard update, and the agent's write, of the pass of this cycle. -/
def floorKey (station : Nat) : Nat := 16384 + station
def agentKey : Nat := 20000

def Carriage.did (c : Carriage) (cyc key : Nat) : Bool := tabGet 0 c.passed key == cyc + 1
def Carriage.setDid (c : Carriage) (cyc key : Nat) : Carriage := { c with passed := tabSet c.passed key (cyc + 1) }

/-- A core has work of a launch, for its station's busy (R162); a context that CTXSAVE has saved is its thread (R422). -/
def CoreSt.hasWork (c : CoreSt) (l : Nat) : Bool :=
  let d := tabGet deltasReset c.deltas l
  !d.bks.isEmpty || d.farN != 0 || c.siding.any (fun e => e.2.launch == l) || tabGet noBlock c.chains l != noBlock ||
  c.slots.any (fun e => (e.2.busy || e.2.gen.isSome) && e.2.launch == l) || c.rq.any (fun x => x.launch == l) ||
  c.recs.any (fun e => e.2.sl.launch == l)

/-- The live cores of a cluster. -/
def State.clusterCores (s : State) (cl : Nat) : List Nat := ((List.range 4).map (fun k => 4 * cl + k)).filter s.coreLive

/-- The depot's rule has been applied in this pass. -/
def Launch.depotDone (l : Launch) (cyc : Nat) : Bool := l.yard.lastDepot == cyc + 1

/-- The entries of a steal list (R175). -/
def stealList (w : Word) : List Nat :=
  ((List.range 4).map (fun k => (w.extractLsb' (12 * k) 12).toNat)).take (w.extractLsb' 48 3).toNat

/-- A core's buffer once its deltas have been taken: empty, but for the task counts while the port cannot write them (R75). -/
def State.emptied (s : State) (core launch : Nat) : Tab Deltas :=
  let t := (s.core' core).deltas
  let d := tabGet deltasReset t launch
  if s.l2Free || (d.pushed == 0 && d.executed == 0) then tabDel t launch
  else tabSet t launch { deltasReset with pushed := d.pushed, executed := d.executed }

/-- The depot's own write comes in the pass whose rule has been applied and before its cluster's deltas (R164) (DEDUCED, log 48). -/
def State.agentTurn (s : State) (l : Launch) : Bool :=
  let c := s.car l.winBase
  c.st == .seated && passes s.cyc 0 l.winBase && l.depotDone s.cyc && s.l2Free && !(c.did s.cyc (floorKey 0)) && !(c.did s.cyc agentKey)

/-- FLOOR_CARRIAGE_PASS: State.subj is launch number × 1,024 + cluster. The station takes its cores' buffers and applies them
(R162), ahead of every queued request (R160); its cores see word 0 as it leaves (R166). A core whose steal list is exhausted
may ask from its first entry again (R174). At the depot's cluster the far-task agent acts first while
reinject is 1 (R172; DEDUCED, log 48). The depot's station is busy while its far-task agent is, or a far record is in transit to a
peer or from it (R162, R180). -/
def execFloorCarriagePass (s : State) : Out :=
  let n := s.subj / 1024
  let cl := s.subj % 1024
  let st := stationOf cl
  match s.launch? n with
  | none => .next s
  | some l =>
    let c := s.car l.winBase
    if c.st ≠ .seated ∨ !(passes s.cyc st l.winBase) ∨ c.did s.cyc (floorKey st) ∨ s.deadClusters.contains cl ∨
        (st = 0 ∧ (!(l.depotDone s.cyc) ∨ ((floorOf (s.carWords l)).reinject ∧ s.agentTurn l))) then .next s
    else
      let f := floorOf c.words.toList
      let w := f.w
      let cores := s.clusterCores cl
      let bufs := cores.map (fun k => tabGet deltasReset (s.core' k).deltas n)
      let f1 := bufs.foldl (fun f d => f.applyBuf w d) f
      let busy := cores.any (fun k => (s.core' k).hasWork n) || (st == 0 && (f.reinject || !l.yard.transit.isEmpty || l.yard.inbound != 0))
      let f2 := if busy then { f1 with busy := true } else f1
      let s := s.setFloor l f2
      let s := s.setCar l.winBase ((s.car l.winBase).setDid s.cyc (floorKey st))
      let s := cores.foldl (fun s k => s.setCore k { s.core' k with
        deltas := s.emptied k n, seen := tabSet (s.core' k).seen n ⟨f2.floor, f2.w, f2.relief⟩,
        stealNext := if (stealList (s.core' k).steal).length ≤ tabGet 0 (s.core' k).stealNext n then tabDel (s.core' k).stealNext n
          else (s.core' k).stealNext }) s
      let s := if s.l2Free then (s.addInst l 32 8 ((bufs.map (·.pushed)).sum)).addInst l 24 8 ((bufs.map (·.executed)).sum) else s
      .next (if st = 0 then s.setYard n (fun y => { y with copy := f2.words }) else s)

-- the depot (R164, R165, R178)

/-- How far the floor may rise: k of R164, 12 when the window is empty. -/
def riseOf (c : FloorCar) (m : List Nat) (w : Nat) : Nat :=
  ((List.range 12).takeWhile (fun k =>
    c.count ((w + k) % 12) == 0 && !(m.contains ((w + k) % 12)) && decide (k < c.gap))).length

/-- DEPOT_PASS of the launch State.subj (R164, R165, R178, R180). -/
def execDepotPass (s : State) : Out :=
  match s.launch? s.subj with
  | none => .next s
  | some l =>
    let c := s.car l.winBase
    if c.st ≠ .seated ∨ !(passes s.cyc 0 l.winBase) ∨ l.depotDone s.cyc then .next s
    else
      let y := l.yard
      let f := floorOf c.words.toList
      let c0 := floorOf y.copy
      let w := f.w
      let empty := c0.quiet && f.marks.isEmpty
      let q := f.quiet && f.far == 0 && !f.busy && !f.dirty && !f.reinject && (!y.coupled || (y.peerQ && y.transit.isEmpty))
      let up := riseOf c0 f.marks w
      let k := if up = 12 then 0 else up
      let f1 :=
        if f.reinject then f
        else
          let f := if 0 < k then
            { f with floor := w + k, lag := 0, relief := 0, gap := if f.gap = noFar then noFar else f.gap - k } else f
          if c0.gap - k ≤ 11 ∨ (empty ∧ 0 < c0.far) then { f with reinject := true } else f
      let rose := !f.reinject && decide (0 < k)
      let relief := y.reliefDue && !rose && s.l2Free
      let f2 := { f1 with
        marks := [], busy := false, dirty := false, fin := f.fin || y.signalled, relief := if relief then f1.relief + 1 else f1.relief }
      let agent := if f.reinject then y.agent else if f2.reinject then (if empty then 2 else 1) else 0
      let s := s.setFloor l f2
      let s := if relief then s.addInst l 20 4 1 else s
      .next (s.setYard l.num (fun y => { y with
        copy := f2.words, qPrev := q, signalled := y.signalled || (q && y.qPrev), done := f2.fin,
        reliefDue := y.reliefDue && !rose && !s.l2Free, agent := agent,
        lastDepot := s.cyc + 1, peerQ := false }))

-- the far list (R171, R172)

/-- The blocks of the far list, in order; `n` bounds the walk. -/
def State.farList (s : State) (l : Launch) : Nat → Nat → List Nat
  | 0, _ => []
  | n + 1, b => if b = noBlock then [] else b :: s.farList l n (linkNext (s.link l b))

/-- Records written to a far block: 16, or fewer in its core's open block. -/
def State.farWritten (s : State) (l : Launch) (b : Nat) : Nat :=
  let c := s.core' (linkOwner (s.link l b))
  if tabFind c.farOpen l.num = some b then tabGet 0 c.farOpen (65536 + l.num) else 16

/-- The records a far block holds: the last ones written. -/
def State.farRecords (s : State) (l : Launch) (b : Nat) : List (List Word) :=
  let n := linkRecords (s.link l b)
  let w := s.farWritten l b
  (List.range n).map (fun k => s.readRec l (blockAddr l b + 64 * (w - n + k)))

/-- Keep the given records of a far block. -/
def State.keepFar (s : State) (l : Launch) (b : Nat) (rs : List (List Word)) : State :=
  let w := s.farWritten l b
  let k := s.link l b
  let s := (rs.zipIdx).foldl (fun s e => s.writeRec l (blockAddr l b + 64 * (w - rs.length + e.2)) e.1) s
  s.setLink l b (linkWord true rs.length (linkOwner k) (linkNext k))

/-- Unlink and free the far blocks that are full and empty, and link the rest (R171). -/
def State.pruneFar (s : State) (l : Launch) (bs : List Nat) : State :=
  let gone (b : Nat) : Bool := linkRecords (s.link l b) == 0 && tabFind (s.core' (linkOwner (s.link l b))).farOpen l.num != some b
  let keep := bs.filter (fun b => !(gone b))
  let t := (keep.zip (keep.tail ++ [noBlock])).foldl (fun t e =>
    t.setLink l e.1 (linkWord true (linkRecords (t.link l e.1)) (linkOwner (t.link l e.1)) e.2)) s
  let t := t.setInst l 4 4 (keep.headD noBlock)
  (bs.filter gone).foldl (fun t b => t.freeBlock l b) t

/-- Move the records of a far block that are within reach into its core's siding, which spills when it is full (R169, R172);
what finds no block stays (R441): the state and the buckets moved. -/
def State.moveFar (s : State) (l : Launch) (top b : Nat) : State × List Nat :=
  let core := linkOwner (s.link l b)
  let r := (s.farRecords l b).foldl (fun (p : State × List Nat × List (List Word)) r =>
    if top < recBucket r then (p.1, p.2.1, p.2.2 ++ [r])
    else
      match p.1.place core l r true with
      | some t => (t.1, p.2.1 ++ [recBucket r], p.2.2)
      | none => (p.1, p.2.1, p.2.2 ++ [r])) (s, [], [])
  (r.1.keepFar l b r.2.2, r.2.1)

/-- Lowest bucket of a list. -/
def lowest (l : List Nat) : Option Nat := l.foldl (fun b x => match b with
  | none => some x
  | some y => some (Nat.min x y)) none

/-- The far buckets that remain. -/
def State.farBuckets (s : State) (l : Launch) (bs : List Nat) : List Nat := bs.flatMap (fun b => (s.farRecords l b).map recBucket)

/-- Bring the instance block and the carriage's gap up to date with the far list. -/
def State.farUpdate (s : State) (l : Launch) (f : FloorCar) (bs : List Nat) (gone : Nat) : State × FloorCar :=
  let m := lowest (s.farBuckets l bs)
  let s := s.setInst l 40 4 (m.getD noBlock)
  let s := s.setInst l 16 4 (s.inst l 16 4 - gone)
  (s, { f with gap := match m with
    | some b => b - f.w
    | none => noFar })

/-- The agent's reads of the instance block, the links and the records of the far list use their lines at home (R75). -/
def State.useFar (s : State) (l : Launch) (bs : List Nat) : State :=
  bs.foldl (fun s b => (s.vUse l (linkAddr l b) 8).vUse l (blockAddr l b) 1024) (s.vUse l l.spill 48)

/-- FAR_TASK_AGENT of the launch State.subj (R171, R172, R441). The floor is raised only while no task is counted, as it is
in the pass of the decision (R168). -/
def execFarTaskAgent (s : State) : Out :=
  match s.launch? s.subj with
  | none => .next s
  | some l =>
    let f := floorOf (s.carWords l)
    if !(s.agentTurn l) ∨ !f.reinject then .next s
    else
      let f := if l.yard.agent = 2 ∧ f.quiet ∧ f.gap ≠ noFar then { f with floor := f.w + f.gap, lag := 0, gap := 0 } else f
      let w := f.w
      let bs := s.farList l l.nb (s.inst l 4 4)
      let s := s.useFar l bs
      let r := bs.foldl (fun (p : State × List Nat) b =>
        let q := p.1.moveFar l (w + 11) b
        (q.1, p.2 ++ q.2)) (s, [])
      let f := r.2.foldl (fun f b => { f.apply w (b, 1) with far := (f.far + (2 ^ 32 - 1)) % 2 ^ 32 }) f
      let u := r.1.farUpdate l f bs r.2.length
      let left := (u.1.farBuckets l bs).any (fun b => decide (b ≤ w + 11))
      let f := { u.2 with reinject := left }
      let s := (u.1.pruneFar l bs).setFloor l f
      let s := s.setCar l.winBase ((s.car l.winBase).setDid s.cyc agentKey)
      .next (s.setYard l.num (fun y => { y with copy := f.words, agent := if left then 1 else 0 }))

-- coupled Yards (R180, R402, R467)

/-- A far record that comes from outside the Yard's own cores: a far push of the depot's first core, when its port finds room
(R180, R467; DESIGN CHOICE, log 49). -/
def State.farIn (s : State) (l : Launch) (r : List Word) : Option State :=
  if !s.l2Free then none
  else
    (s.pushFar 0 l r).map (fun t =>
      let t := (t.addFar 0 l.num (recBucket r)).addInst l 16 4 1
      if recBucket r < t.inst l 40 4 then t.setInst l 40 4 (recBucket r) else t)

/-- COUPLED_YARD_TRANSFER. No words: this depot's agent sends its first far record without a footprint, or, once the coupling
is lost, takes back the first record in transit, when it finds room (R441, R467). Eight words: a record of the peer arrives.
One word: an exchange with the peer, bit 0 its Q, [31:1] how many records it acknowledges, the rest how many it announces
(R180; DESIGN CHOICE, log 49). -/
def execCoupledYardTransfer (launch : Nat) (words : List Word) (s : State) : Out :=
  match s.launch? launch with
  | none => .next s
  | some l =>
    if !l.yard.coupled then
      match words, l.yard.transit with
      | [], r :: rest => .next (((s.farIn l r).map (fun t => t.setYard launch (fun y => { y with transit := rest }))).getD s)
      | _, _ => .next s
    else
      match words with
      | [] =>
        if !(s.agentTurn l) then .next s
        else
          let bs := s.farList l l.nb (s.inst l 4 4)
          let cand := bs.findSome? (fun b => ((s.farRecords l b).find? (fun r => recFootLen r == 0)).map (fun r => (b, r)))
          match cand with
          | none => .next s
          | some (b, r) =>
            let f := floorOf (s.carWords l)
            let s := s.useFar l bs
            let t := s.keepFar l b ((s.farRecords l b).erase r)
            let f := { f with far := (f.far + (2 ^ 32 - 1)) % 2 ^ 32, dirty := true, busy := true }
            let u := t.farUpdate l f bs 1
            let s := (u.1.pruneFar l bs).setFloor l u.2
            let s := s.setCar l.winBase ((s.car l.winBase).setDid s.cyc agentKey)
            .next (s.setYard l.num (fun y => { y with copy := u.2.words, transit := y.transit ++ [r] }))
      | [x] => .next (s.setYard launch (fun y => { y with
          peerQ := x.getLsbD 0, transit := y.transit.drop (x.extractLsb' 1 31).toNat, inbound := y.inbound + (x.extractLsb' 32 32).toNat }))
      | r =>
        if r.length ≠ 8 then .next s
        else .next (((s.farIn l r).map (fun t => t.setYard launch (fun y => { y with inbound := y.inbound - 1 }))).getD s)

-- refills and steals (R170, R174)

/-- Place records in order, spilling where the siding is full (R169); none when one finds no block. -/
def State.placeAll (s : State) (core : Nat) (l : Launch) : List (List Word) → Option State
  | [] => some s
  | r :: rs =>
    match s.place core l r true with
    | some t => t.1.placeAll core l rs
    | none => none

/-- SIDING_REFILL: the most recently spilled block of a core's chain returns to its siding (R170); a record that finds the siding
full spills again (R169). -/
def execSidingRefill (core launch : Nat) (s : State) : Out :=
  match s.launch? launch with
  | none => .next s
  | some l =>
    let c := s.core' core
    let b := tabGet noBlock c.chains launch
    let k := s.link l b
    let n := linkRecords k
    if b = noBlock ∨ !s.l2Free ∨
        !(decide (c.siding.length ≤ 64) || !(c.siding.any (fun e => s.eligible core e.2))) then .next s
    else
      let rs := (List.range n).map (fun j => s.readRec l (blockAddr l b + 64 * j))
      let t := s.setCore core { c with chains := if linkNext k = noBlock then tabDel c.chains launch else tabSet c.chains launch (linkNext k) }
      match ((t.vUse l (blockAddr l b) 1024).freeBlock l b).placeAll core l rs with
      | some u => .next u
      | none => .next s

/-- A core asks for work of a launch: no eligible record of it, no spilled block, a free slot of its queue (R174). -/
def State.wantsWork (s : State) (core : Nat) (l : Launch) : Bool :=
  let c := s.core' core
  !(c.siding.any (fun e => e.2.launch == l.num && s.eligible core e.2)) && tabGet noBlock c.chains l.num == noBlock &&
  (List.range 8).any (fun k =>
    let x := tabGet slotReset c.slots k
    let o : Word := (c.owners.toList[k]?).getD 0
    !x.busy && x.gen.isNone && o.getLsbD 32 && (o.extractLsb' 24 8).toNat == l.queue)

/-- The earlier half of a launch's records at a core in the lowest bucket of those that `sel` allows (R174); while the free list
is empty, at most the `room` that the thief has (R441). -/
def State.halfOf (s : State) (victim : Nat) (l : Launch) (room : Nat) (sel : SidEnt → Bool) : List (Nat × SidEnt) :=
  let c := s.core' victim
  match bestEntry c.siding (fun e => e.launch == l.num && sel e) with
  | none => []
  | some (_, e) =>
    let m := (c.siding.filter (fun x => x.2.launch == l.num && x.2.movable && recBucket x.2.words == recBucket e.words)).insertionSort
      (fun a b => a.2.order ≤ b.2.order)
    m.take (if s.inst l 0 4 = noBlock then Nat.min ((m.length + 1) / 2) room else (m.length + 1) / 2)

/-- The entries a victim hands over to a thief (R174). -/
def State.loot (s : State) (victim : Nat) (l : Launch) (room : Nat) : List (Nat × SidEnt) :=
  s.halfOf victim l room (s.eligible victim)

/-- Records leave a siding for another, which spills when it is full (R169); what held the first core's banks may have left with them (R35, R174). -/
def State.transfer (s : State) (from' dst : Nat) (l : Launch) (got : List (Nat × SidEnt)) : State :=
  (got.foldl (fun s e => match s.place dst l e.2.words true with
    | some t => t.1.freeEntry from' e.1
    | none => s) s).bankCheck from'

/-- A pop that reaches a siding in this cycle has been served (R167): the core's slot whose cycle it is has had its turn. -/
def State.popsPast (s : State) (core : Nat) : Bool := (s.slotAt ⟨.core core, s.cyc % 8⟩).lastIssue == some s.cyc

/-- STEAL_REQUEST: the thief asks entry k of its list (R174), after the pops of the cycle (R167). With k = 4 + v, Umber moves
records from core v by the same transfer (R175) (DESIGN CHOICE, log 78). -/
def execStealRequest (thief launch k : Nat) (s : State) : Out :=
  match s.launch? launch with
  | none => .next s
  | some l =>
    let c := s.core' thief
    let room := 256 - c.siding.length
    if 4 ≤ k then
      let v := k - 4
      if !(s.coreLive thief) ∨ !(s.coreLive v) ∨ v = thief ∨ !(s.popsPast v) ∨ !s.l2Free then .next s
      else .next (s.transfer v thief l (s.halfOf v l room SidEnt.movable))
    else
      match (stealList c.steal)[k]? with
      | none => .next s
      | some v =>
        if tabGet 0 c.stealNext launch ≠ k ∨ !(s.coreLive thief) ∨ !(s.wantsWork thief l) then .next s
        else
          let got := if s.coreLive v && v != thief then s.loot v l room else []
          if !got.isEmpty ∧ (!(s.popsPast v) ∨ !s.l2Free) then .next s
          else
            let s := s.setCore thief { c with stealNext := tabSet c.stealNext launch (if got.isEmpty then k + 1 else 0) }
            .next (if got.isEmpty then s else s.transfer v thief l got)

-- joins (R177, R442)

/-- YDONE_DECREMENT of the flight State.subj, in the order of arrival, one at an entry in a cycle (R91, R177); an ended launch
keeps no records. -/
def execYdoneDecrement (s : State) : Out :=
  match s.flight? s.subj with
  | none => .next s
  | some f =>
    match f.body with
    | .ydone core ent gen num who =>
      let c := s.core' core
      let ended : Bool := match s.launch? f.launch with
        | some l => l.abort.isSome
        | none => true
      let bad : Out := .next (if ended then s.dropFlight f.id
        else ((s.dropFlight f.id).countFault f.launch 1 cCont (locWord who)).faultDetail f.launch (contHandle num.toNat gen ent core))
      if !(s.first f) ∨ ((tabFind c.siding ent).bind (fun e => e.dec)) = some s.cyc then .next s
      else
      match tabFind c.siding ent with
      | none => bad
      | some e =>
        let b := recBucket e.words
        let j := recJoin e.words
        if e.launch ≠ f.launch ∨ tabGet 0 c.sgen ent ≠ gen ∨ j = 0 ∨ !(recHeld e.words) then bad
        else
          let put (s : State) (fl : BitVec 16) : State :=
            let c := s.core' core
            (s.setCore core { c with siding := tabSet c.siding ent { e with words := recSet7 e.words (recTail b fl (j - 1)), dec := some s.cyc } }).dropFlight f.id
          if 1 < j then .next (put s (recFlags e.words))
          else
            match s.addDelta core f.launch b 1 with
            | none => .next s
            | some t => .next (put t (recFlags e.words &&& 0xFFFD))
    | _ => .next s

-- residency fills (R69, R179, R436, R439)

/-- A record waits for its fill: unheld, within reach, with a footprint (R179). -/
def State.wantsFill (s : State) (core : Nat) (e : SidEnt) : Bool :=
  e.fill.isNone && !e.ready && !(recHeld e.words) && recFootLen e.words != 0 && (match s.launch? e.launch with
    | some l => s.inReach core l (recBucket e.words)
    | none => false)

/-- The bytes of a record's footprint, or the fault of its fill: fault-detail agent 5 (R436). -/
def State.footBytes (s : State) (core : Nat) (e : SidEnt) : Except AccFault (List PByte) :=
  ({ s with cur := ⟨.core core, 0⟩ }).accessBy (s.launchRoot core e.launch) 5 false (BitVec.ofNat 64 (recFoot e.words))
    (64 * recFootLen e.words) 64

/-- FOOTPRINT_FILL of a siding entry: the fill starts, in pop order, in a free residency slot; one that meets the release of its
slot is tried again from the next rotation on. Then it completes, read from the lines' homes, and the record is eligible
(R69, R75, R179); the slot does not serve a line with an uncorrectable error (R464). -/
def execFootprintFill (core entry : Nat) (s : State) : Out :=
  let c := s.core' core
  match tabFind c.siding entry with
  | none => .next s
  | some e =>
    match e.fill with
    | none =>
      if (bestEntry c.siding (s.wantsFill core)).map (·.1) ≠ some entry ∨ s.cyc < e.retry then .next s
      else
        match c.freeRes s.cyc with
        | some r => .next (s.setCore core { c with
            siding := tabSet c.siding entry { e with fill := some r },
            res := tabSet c.res r ⟨true, false, recFoot e.words, 64 * recFootLen e.words, [], none, []⟩ })
        | none =>
          if c.relRes s.cyc then .next (s.setCore core { c with siding := tabSet c.siding entry { e with retry := (s.cyc / 8 + 1) * 8 } })
          else .next s
    | some r =>
      if e.ready then .next s
      else
        match s.footBytes core e with
        | .error _ => .next s
        | .ok bs =>
          let data := Memory.writeBytes [] 0 (bs.map (fun b => s.byteAt b.loc))
          let bad := s.badLines bs
          match s.useLines (srcLines (bs.map s.srcHome)) with
          | none => .next s
          | some s => .next (s.setCore core { c with
            siding := tabSet c.siding entry { e with ready := true },
            res := tabSet c.res r ⟨true, true, recFoot e.words, 64 * recFootLen e.words, data, none, bad⟩ })

/-- The page an address of an address space lies in, as the paging policy numbers it (DESIGN CHOICE, log 11). -/
def pageKey (root va : Word) : Nat := (asidOf root).toNat * 2 ^ 48 + va.toNat / 65536

/-- Umber records the class and argument of the frames of a leaf's page in the frame class table (R77). -/
def State.recordFrames (s : State) (pte : Word) (shift : Nat) : State :=
  if pteHost pte then s
  else (List.range (2 ^ shift / 65536)).foldl (fun s k =>
    let pa := pteFrame pte + 65536 * k
    s.agentPut ((s.devBytes (s.frameEntry pa) 4).zipIdx.map (fun e =>
      (e.1, ((natBytes 4 (pteClass pte * 2 ^ 20 + (pteArg pte).toNat))[e.2]?).getD 0, 0xFF#8)))) s

/-- Umber writes n bytes of device memory. -/
def State.devPut (s : State) (pa n v : Nat) : State :=
  s.agentPut ((s.devBytes pa n).zip (natBytes n v) |>.map (fun e => (e.1, e.2, 0xFF#8)))

/-- Umber writes the entries its policy gives for a page and records its frames, and the page's old translations go (R77, R415,
R241); none for a page it does not map. -/
def State.mapPage (s : State) (root va : Word) : Option State :=
  (tabFind s.paging (pageKey root va)).map (fun l =>
    let s := l.foldl (fun s e => s.devPut e.1 8 e.2.toNat) s
    let s := match walk s root va with
      | .leaf pte sh => s.recordFrames pte sh
      | .fail _ _ => s
    s.tlbDrop (fun e => e.asid == asidOf root && e.page == va.toNat / 2 ^ e.shift))

/-- FOOTPRINT_FILL_FAULT: a fill that fails is reported to Umber, which repairs the page and starts the fill again, or
removes the record (R436). No slot is named: those bits of the location are a free value. -/
def execFootprintFillFault (core entry : Nat) (s : State) : Out :=
  let c := s.core' core
  match tabFind c.siding entry with
  | none => .next s
  | some e =>
    match e.fill, e.ready, s.footBytes core e with
    | some r, false, .error x =>
      if !s.l2Free then .next s
      else
      match (if x.cause = cPage then s.mapPage (s.launchRoot core e.launch) x.tval else none) with
      | some t => .next t
      | none =>
        match s.addDelta core e.launch (recBucket e.words) (-1) with
        | none => .next s
        | some t =>
          let k := (Config.free t.fresh).toNat
          let t := { t.countTasks core e.launch 0 1 with fresh := t.fresh + 1 }
          let t := (t.freeRes core [r]).freeEntry core entry
          .next ((t.countFault e.launch 1 x.cause (locWord ⟨.core core, k⟩)).bankCheck core)
    | _, _, _ => .next s

-- all-asleep (R178, R423, R424, R443, R450)

/-- An arrive that is being retried (R150, R450). -/
def State.retried (s : State) (c : Cap) : Bool :=
  match c.op with
  | .arrive => c.st == .queued && (s.car c.car).st == .seated && (arriveOn (s.car c.car) .arrive c.mword).2.1 == .retry
  | _ => false

/-- The word at an address of a launch. -/
def State.wordAt (s : State) (l : Launch) (va : Word) : Word := BitVec.ofNat 64 (s.vRead l va.toNat 8)

/-- The registers that the word at the pc names, as a thread reads it: its fields, the second of a pair, SCALL's link. -/
def namedRegs (w : Word) (x : Slot) : List PReg :=
  let op := (fOp w).toNat
  ((rolesOf w).filter (fun r => !r.pr)).map (fun r => pregOf (fldEff ⟨codeOf w r.f, relOf w r.f⟩ x)) ++
  (if writesPair op then [pregOf (fldEff ⟨codeOf w .d, relOf w .d⟩ x + 1)] else []) ++ (if op = 0xF1 then [.g 10] else [])

/-- The thread waits for an arrive of its own that is being retried (R450): its instruction names a register that the arrive
holds pending, or is a CARRIVE that the arrive decides (log 18), or it is the EXIT or the departure that the arrive holds
(DEDUCED, log 89). -/
def State.blockedByArrive (s : State) (i : Sid) (l : Launch) : Bool :=
  let x := s.slotAt i
  let w := s.wordAt l x.pc
  let mine := (s.cluster (clusterOf i.pl)).caps.filter (fun c => c.sid == some i && s.retried c)
  let regs := (mine.filter (fun c => c.d != 0)).flatMap (fun c => [pregOf c.d, pregOf (c.d + 1)])
  let again (o : CarOp) : Bool := mine.any (fun c => (c.mword.extractLsb' 0 16).toNat == ((x.gr o.a).setWidth 16).toNat + o.idx.toNat)
  let runs : Bool := match decode w with
    | some d => x.pred d.g != d.gn
    | none => false
  !mine.isEmpty && x.umber.isNone &&
  (match x.hold with
   | .depart _ _ _ => true
   | _ =>
     x.stage == exitStage ||
     (runs && ((namedRegs w x).any regs.contains ||
       (match ((decode w).map (fun d => d.ins) : Option Instr) with
        | some (.carriveJoin o) => again o
        | some (.carriveArrive o) => again o
        | some (.carriveDepart o) => again o
        | _ => false))))

/-- The request of a slot's CWAIT or CPHASE has its answer. -/
def State.answered (s : State) (p : Place) (i : Option Sid) : Bool :=
  i.isSome && (s.cluster (clusterOf p)).caps.any (fun c => c.sid == i && c.op.sleeps && !c.st.waiting)

/-- A test of CWAIT or CPHASE holds on its carriage as it stands. -/
def State.testHolds (s : State) (l : Launch) (x : Slot) (o : CarOp) (op : CapOp) : Bool :=
  let n := l.winBase + ((x.gr o.a).setWidth 16).toNat + o.idx.toNat
  (applyCap (s.car n) ⟨0, 0, none, l.num, 0, n, o.w.toNat, op, 0, 0, false, 0, .queued⟩).2.1.isSome

/-- The endpoints that the word at the pc names, as often as it names them. -/
def State.chansNamed (s : State) (l : Launch) (x : Slot) : List Nat :=
  let w := s.wordAt l x.pc
  (rolesOf w).filterMap (fun r => if r.pr then none else chanOf (pregOf (fldEff ⟨codeOf w r.f, relOf w r.f⟩ x)))

/-- The value a register code has for a thread. -/
def State.codeValue (s : State) (p : Place) (x : Slot) (a : BitVec 6) : Word :=
  match rg (plain a) { s.setSlot ⟨p, 0⟩ x with cur := ⟨p, 0⟩ } with
  | .ok (v, _) => v
  | .error _ => 0

/-- What a sleeping thread waits for has happened already: issued now, its instruction would complete, or its completion
is on its way. An event that has been applied has freed such a thread, which is no longer asleep (R424). -/
def State.waitOver (s : State) (p : Place) (i : Option Sid) (x : Slot) (l : Launch) : Bool :=
  let ins : Option Instr := (decode (s.wordAt l x.pc)).map (fun d => d.ins)
  let named := s.chansNamed l x
  match x.asleep with
  | none => true
  | some z =>
    x.late.isSome ||
    match z.kind with
    | .sleep => x.wake
    | .cwait =>
      (match ins with
       | some (.cwait o cond) => s.testHolds l x o (.cwait cond (x.gr o.b))
       | _ => false) || s.answered p i
    | .cphase =>
      (match ins with
       | some (.cphase o) => s.testHolds l x o (.phase (x.gr o.b))
       | _ => false) || s.answered p i
    | .twait =>
      (match ins, p with
       | some (.twaitFill t n), .core c => decide (n.toNat ≤ ((s.core' c).tender t.toNat).filled)
       | some (.twaitFree t n), .core c =>
         let e := (s.core' c).tender t.toNat
         decide (n.toNat ≤ e.stages - (e.t - e.c).toNat)
       | _, _ => false)
    | .chalt =>
      (match ins with
       | some (.chalt _ a) =>
         let m := s.codeValue p x a
         (List.range 8).any (fun n => m.getLsbD n && (x.ep n).opened && (x.ep n).ready)
       | _ => false)
    | .chanRead => named.all (fun n => !(x.ep n).recv || decide ((named.filter (· == n)).length ≤ (x.ep n).buf.length))
    | .chanWrite => named.all (fun n => (x.ep n).recv || decide (0 < (x.ep n).allow))

/-- SLEEPER_SWAP_OUT: a thread whose wait is not over, asleep for 1,024 cycles while the run queue is not empty, on a compute core or a slice core (R53, R57). -/
def execSleeperSwapOut (pl : Place) (slot : Nat) (s : State) : Out :=
  let i : Sid := ⟨pl, slot⟩
  let x := s.slotAt i
  match x.asleep with
  | some z =>
    if x.busy ∧ z.since + 1024 ≤ s.cyc ∧ !((s.at' pl).rq.isEmpty) ∧
        !((s.launch? x.launch).any (s.waitOver pl (some i) x)) then
      if s.vacateReady i then .next (s.swapOut i) else .next s
    else .next s
  | none => .next s

/-- A thread of a slot is asleep for R423. -/
def State.threadAsleep (s : State) (i : Sid) (l : Launch) : Bool :=
  let x := s.slotAt i
  (match x.asleep with
   | some z => !(z.kind == .sleep && z.till.isSome) && !(s.waitOver i.pl (some i) x l)
   | none => false) || s.blockedByArrive i l

/-- A slot holds a generator that finds its siding full (R441). -/
def State.genStuck (s : State) (i : Sid) (l : Launch) : Bool :=
  let x := s.slotAt i
  x.gen.isSome && (s.addDelta (placeNum i.pl) l.num 0 1).isSome && ((s.runGenerator i l).slotAt i).gen == x.gen

/-- A context of a run queue is asleep for R423. -/
def State.ctxAsleep (s : State) (p : Place) (l : Launch) : Ctx → Bool
  | .arrived _ => false
  | .saved c => match c.sl.asleep with
    | some z => !(z.kind == .sleep && z.till.isSome) && !(s.waitOver p none c.sl l)
    | none => false

/-- A place is asleep for a launch (R423). -/
def State.placeAsleep (s : State) (p : Place) (l : Launch) : Bool :=
  let c := s.at' p
  c.slots.all (fun e =>
    (!e.2.busy || e.2.launch != l.num || s.threadAsleep ⟨p, e.1⟩ l) &&
    (e.2.gen.isNone || e.2.launch != l.num || s.genStuck ⟨p, e.1⟩ l)) &&
  c.rq.all (fun x => x.launch != l.num || s.ctxAsleep p l x) &&
  (match p with
   | .core n => c.siding.all (fun e => e.2.launch != l.num || (!(s.eligible n e.2) && (e.2.fill.isNone || e.2.ready)))
   | .slice _ => true)

/-- A flight that counts in its launch's packet counters (R423). -/
def FBody.counted : FBody → Bool
  | .migrate _ => true
  | .reqLoad .. => true
  | .reqAtomic .. => true
  | .red .. => true
  | .ydone .. => true
  | .exit .. => true
  | .wake .. => true
  | .chWord .. => true
  | .chGrant .. => true
  | _ => false

/-- The −1 of an exit is in a core's buffer: it counts as the exit packet does, until it is applied (R423; DEDUCED, log 58). -/
def CoreSt.exitBuffered (c : CoreSt) (l : Nat) : Bool :=
  let d := tabGet deltasReset c.deltas l
  d.executed != 0 && !d.bks.isEmpty

/-- The packet counters of a launch are zero (R423, R450); a scheduled Advance is still to be applied (R151, R424). -/
def State.countersZero (s : State) (l : Nat) : Bool :=
  !(s.cores.any (fun e => e.2.exitBuffered l)) &&
  !(s.flights.any (fun f => f.launch == l && f.body.counted)) &&
  !(s.cmds.any (fun k => k.launch == l)) &&
  !(s.clusters.any (fun e =>
    e.2.caps.any (fun c => c.launch == l && c.op.writes && !(s.retried c)) ||
    e.2.heldCaps.any (fun c => c.2.launch == l && c.2.op.writes))) &&
  !((s.launch? l).any (fun x => (List.range x.winCount).any (fun k => !(s.car (x.winBase + k)).adv.isEmpty)))

/-- The launch still holds work (R423). -/
def State.holdsWork (s : State) (l : Launch) : Bool :=
  s.cores.any (fun e =>
    e.2.slots.any (fun x => (x.2.busy || x.2.gen.isSome) && x.2.launch == l.num) || e.2.rq.any (fun x => x.launch == l.num) ||
    e.2.siding.any (fun x => x.2.launch == l.num) || tabGet noBlock e.2.chains l.num != noBlock) ||
  s.slices.any (fun e => e.2.slots.any (fun x => x.2.busy && x.2.launch == l.num) || e.2.rq.any (fun x => x.launch == l.num)) ||
  s.inst l 16 4 != 0

/-- A launch is all-asleep (R423) (DEDUCED, log 58). -/
def State.allAsleep (s : State) (l : Launch) : Bool :=
  l.abort.isNone && s.countersZero l.num && s.holdsWork l &&
  s.cores.all (fun e => s.placeAsleep (.core e.1) l) && s.slices.all (fun e => s.placeAsleep (.slice e.1) l)

/-- Relief applies: a counted task above the reach, and reach to give (R178). -/
def State.reliefApplies (s : State) (l : Launch) : Bool :=
  let f := floorOf (s.carWords l)
  let top := f.floor + l.reach + f.relief
  ((List.range 12).any (fun k => f.count ((f.w + k) % 12) != 0 && decide (top < f.w + k)) || f.far != 0) &&
  decide (l.reach + f.relief < 11)

/-- Work that the floor has yet to release (R164, R166): what the carriage counts will raise the floor, or a record is within the
reach that the carriage shows and that its core's station has not seen yet. -/
def State.floorMoving (s : State) (l : Launch) : Bool :=
  let f := floorOf (s.carWords l)
  let k := riseOf f [] f.w
  (!f.reinject && decide (0 < k) && decide (k < 12)) ||
  s.cores.any (fun e => e.2.siding.any (fun x =>
    x.2.launch == l.num && !(recHeld x.2.words) && decide (recBucket x.2.words ≤ f.floor + Nat.min (l.reach + f.relief) 11) &&
      !(s.inReach e.1 l (recBucket x.2.words))))

/-- Floor relief and the trap act on a launch that is all-asleep (R178, R424): not while the floor has work to release, which
R378 to R381 hold to in every run (DEDUCED, log 58). -/
def State.stuck (s : State) (l : Launch) : Bool := s.allAsleep l && !(s.floorMoving l)

/-- No earlier detection withholds the trap. -/
def Launch.open' (l : Launch) (cyc : Nat) : Bool :=
  match l.yard.withhold with
  | none => true
  | some t => decide (t ≤ cyc)

/-- FLOOR_RELIEF of the launch State.subj: due at the depot's next pass, and the trap is withheld for 1,024 cycles (R178). -/
def execFloorRelief (s : State) : Out :=
  match s.launch? s.subj with
  | none => .next s
  | some l =>
    if s.stuck l ∧ s.reliefApplies l ∧ l.open' s.cyc then
      .next (s.setYard l.num (fun y => { y with reliefDue := true, withhold := some (s.cyc + 1024) }))
    else .next s

/-- A buffer without its deltas: the task counts stay until they are written (R365). -/
def Deltas.tally (d : Deltas) : Deltas := { deltasReset with pushed := d.pushed, executed := d.executed }

/-- Drop what a core holds of an ended launch besides its threads: records, contexts, deltas (R395, R424). -/
def CoreSt.forget (c : CoreSt) (cyc l : Nat) : CoreSt :=
  { c with
    siding := c.siding.filter (fun e => e.2.launch != l),
    sgen := c.siding.foldl (fun t e => if e.2.launch = l then tabSet t e.1 (tabGet 0 t e.1 + 1) else t) c.sgen,
    res := c.siding.foldl (fun t e => if e.2.launch = l then (match e.2.fill with
      | some r => tabSet t r { resReset with rel := some cyc }
      | none => t) else t) c.res,
    chains := tabDel c.chains l, farOpen := tabDel (tabDel c.farOpen l) (65536 + l),
    deltas := if (tabFind c.deltas l).isSome then tabSet c.deltas l (tabGet deltasReset c.deltas l).tally else c.deltas,
    rq := c.rq.filter (fun x => x.launch != l), recs := c.recs.filter (fun e => e.2.sl.launch != l),
    slots := c.slots.map (fun (e : Nat × Slot) => if e.2.launch = l then (e.1, { e.2 with gen := none }) else e) }

/-- The slots that hold threads of a launch. -/
def State.threadsOf (s : State) (l : Nat) : List Sid :=
  s.cores.flatMap (fun c => (c.2.slots.filter (fun e => e.2.busy && e.2.launch == l)).map (fun e => (⟨.core c.1, e.1⟩ : Sid))) ++
  s.slices.flatMap (fun c => (c.2.slots.filter (fun e => e.2.busy && e.2.launch == l)).map (fun e => (⟨.slice c.1, e.1⟩ : Sid)))

/-- Task counts that no pass has collected go into the instance block (R365), once a way is free for them (R75). -/
def State.flushCounts (s : State) (l : Launch) : State :=
  let d := s.cores.map (fun e => tabGet deltasReset e.2.deltas l.num)
  if !s.l2Free then s
  else
  let s := (s.addInst l 32 8 ((d.map (·.pushed)).sum)).addInst l 24 8 ((d.map (·.executed)).sum)
  { s with cores := s.cores.map (fun (e : Nat × CoreSt) => (e.1, { e.2 with
      deltas := e.2.deltas.map (fun (x : Nat × Deltas) => if x.1 = l.num then (x.1, { x.2 with pushed := 0, executed := 0 }) else x) })) }

/-- The contexts of a launch at a place: those of its run queue, and those that CTXSAVE has saved (R415, R422). -/
def CoreSt.contexts (c : CoreSt) (l : Nat) : List Ctx :=
  c.rq.filter (fun x => x.launch == l) ++
  (c.recs.filter (fun e => e.2.sl.launch == l && !(c.rq.any (fun x => c.backing x == some e.1)))).map (fun e => .saved e.2)

/-- Umber ends the thread of a context that waits at a place (R415): its task counts as executed, its residency slot is
released, its endpoints close, its failed completions are counted and its commands run to their end unseen. -/
def State.killContext (s : State) (p : Place) (l : Nat) : Ctx → State
  | .arrived k =>
    let s := s.countTasks (placeNum p) l 0 1
    (match k.foot with
     | some r => s.freeRes k.placement.toNat [r]
     | none => s)
  | .saved c =>
    let s := s.countTasks (placeNum p) l 0 1
    let s := match c.sl.foot with
      | some r => s.freeRes c.sl.placement.toNat [r]
      | none => s
    let i : Sid := ⟨p, c.from'⟩
    let y := s.slotAt i
    let s := s.setSlot i { y with eps := Vector.ofFn (fun (n : Fin 8) =>
      if (c.sl.ep n.val).opened then { y.ep n.val with saved := false }.left else y.ep n.val) }
    let s := s.countDiscarded l i (c.sl.fifo ++ c.sl.ints ++ c.sl.heldC)
    { s with cmds := s.cmds.map (fun (k : Cmd) =>
      if Place.core k.core = p ∧ k.owner = some c.rec' then { k with owner := none, disc := true } else k) }

/-- End the threads of a launch, without poison: those whose tile operation or channel words are still under way are
stopped and end when the launch completes (R415, R424, R395). -/
def State.killThreads (s : State) (k : Launch) : State :=
  let l := k.num
  let s := (s.threadsOf l).foldl (fun s i =>
    if s.killReady i then s.killThread i false else s.setSlot i { s.slotAt i with stopped := true }) s
  let s := s.cores.foldl (fun t e => (e.2.contexts l).foldl (fun t x => t.killContext (.core e.1) l x) t) s
  let s := s.slices.foldl (fun t e => (e.2.contexts l).foldl (fun t x => t.killContext (.slice e.1) l x) t) s
  let s := s.flushCounts k
  let s := { s with
    cores := s.cores.map (fun (e : Nat × CoreSt) => (e.1, e.2.forget s.cyc l)),
    slices := s.slices.map (fun (e : Nat × CoreSt) => (e.1, e.2.forget s.cyc l)) }
  s.cores.foldl (fun s e => s.bankCheck e.1) s

/-- End a launch with a status (R395, R424, R465) (DEDUCED, log 57). -/
def State.abortLaunch (s : State) (n : Nat) (status : BitVec 32) : State :=
  match s.launch? n with
  | some l => (s.setLaunch { l with abort := some (l.abort.getD status) }).killThreads l
  | none => s

/-- The dispatcher core of a queue, and the location word of an event of a queue (R398). -/
def QueueSt.core (q : QueueSt) : Nat := ((recW q.ent 1).extractLsb' 48 12).toNat

def State.queueLoc (s : State) (q : Nat) : BitVec 32 := BitVec.ofNat 32 ((s.queueOf q).core + q % 256 * 65536)

/-- ALL_ASLEEP_TRAP of the launch State.subj (R424). -/
def execAllAsleepTrap (s : State) : Out :=
  match s.launch? s.subj with
  | none => .next s
  | some l =>
    if s.stuck l ∧ !(s.reliefApplies l) ∧ l.open' s.cyc then
      let s := s.countFault l.num 1 cAsleep 0xFFFFFFFF
      let s := s.postEvent cAsleep (s.queueLoc l.queue) (BitVec.ofNat 64 (floorOf (s.carWords l)).floor) l.lid (some l.queue)
      .next (s.abortLaunch l.num 3)
    else .next s

end Sys2Proof.Machine
end

