-- ==== Sys2Proof/Machine/Host.lean ====
section
/-! DEFINITION. The host interface: queues and packets, opening and completing launches, shares of slots, the event ring,
couplings and CXL.mem (R41-R47, R140, R141, R154, R173, R195, R385-R402, R460-R462). -/

namespace Sys2Proof.Machine

-- the queue table (R387)

def QueueSt.w (q : QueueSt) (k : Nat) : Word := recW q.ent k
def QueueSt.base (q : QueueSt) : Nat := (q.w 0).toNat
def QueueSt.size (q : QueueSt) : Nat := ((q.w 1).extractLsb' 0 32).toNat
def QueueSt.weight (q : QueueSt) : Nat := ((q.w 1).extractLsb' 32 8).toNat
def QueueSt.enabled (q : QueueSt) : Bool := (q.w 1).getLsbD 40
def QueueSt.hostRing (q : QueueSt) : Bool := (q.w 1).getLsbD 41
def QueueSt.root (q : QueueSt) : Word := q.w 4

/-- The queue fetches: served, and stopped for nothing (R387, R461, R462, R468). -/
def QueueSt.fetches (q : QueueSt) : Bool := q.served && !q.stopErr && !q.stopRing && !q.stopHeat

/-- A physical address of the queue's own words: device memory, or host memory with the ring (R387; DEDUCED, log 24). -/
def QueueSt.loc (q : QueueSt) (a : Nat) : Loc := if q.hostRing then .host a else .dev a

/-- The byte at a place that a queue names by its physical address: device memory homed by the frame class table (R77), or
host memory, which is read and written through CXL.cache (R88, R388). -/
def State.physByte (s : State) (l : Loc) : PByte :=
  match l with
  | .dev p => ⟨p, l, mapFields (s.frameMap p).1 (s.frameMap p).2, 16⟩
  | .host p => ⟨p, l, 0x30, 16⟩
  | .ls _ o => ⟨o, l, 0, 16⟩

/-- The queue's dispatcher has read n bytes at a place. -/
def State.physUse (s : State) (l : Loc) (n : Nat) : State := s.agentUse (s.physByte l) n

/-- QUEUE_ENABLE_WRITE: the host writes an entry; the last phase is the device's own word (R387). A queue stopped by a packet
error starts again when its enabled flag goes from 0 to 1 (R461). -/
def execQueueEnableWrite (queue : Nat) (words : List Word) (s : State) : Out :=
  if !s.booted ∨ 256 ≤ queue then .next s
  else
    let q := s.queueOf queue
    let w6 : Word := ((recW words 6).extractLsb' 32 32 ++ q.lastPhase : BitVec 64)
    let e := (words ++ List.replicate 8 0).take 6 ++ [w6, recW words 7]
    let q' := { q with ent := e }
    .next (s.setQueue queue { q' with stopErr := q.stopErr && !(!q.enabled && q'.enabled) })

/-- QUEUE_TABLE_READ at a refill period: enabled queues are served, and their root tables set on every core (R83, R387). -/
def execQueueTableRead (s : State) : Out :=
  if !s.booted ∨ s.cyc % 1024 ≠ 0 then .next s
  else
    let qs := s.queues.map (fun (e : Nat × QueueSt) => (e.1, { e.2 with served := e.2.enabled }))
    let roots (t : Tab Word) : Tab Word := qs.foldl (fun t e => if e.2.served then tabSet t e.1 (e.2.root &&& 0x000FFFFFFFFF00FF) else t) t
    .next { s with queues := qs, cores := s.cores.map (fun (c : Nat × CoreSt) => (c.1, { c.2 with roots := roots c.2.roots })) }

-- packets (R389, R390, R461)

def pKind (ws : List Word) : Nat := ((recW ws 0).extractLsb' 0 16).toNat
def pFlags (ws : List Word) : BitVec 16 := (recW ws 0).extractLsb' 16 16
def pPhase (ws : List Word) : BitVec 32 := (recW ws 0).extractLsb' 32 32
def pCounter (ws : List Word) : Nat := (recW ws 1).toNat
def pOverlap (ws : List Word) : Bool := (pFlags ws).getLsbD 0

/-- The reason a packet is bad in itself, 0 for none (R389, R461). -/
def packetBad (ws : List Word) : Nat :=
  let k := pKind ws
  let w (n : Nat) : Word := recW ws n
  if ws.isEmpty then 4
  else if k = 0 ∨ 5 < k then 1
  else if (pFlags ws) &&& 0x00FC ≠ 0 ∨ (pOverlap ws ∧ k ≠ 1) ∨ (pPhase ws ≠ 0 ∧ k ≠ 1 ∧ k ≠ 3) ∨
      (k = 1 ∧ ((w 6).extractLsb' 8 56 ≠ 0 ∨ w 7 ≠ 0)) ∨
      (k = 2 ∧ (w 4 ≠ 0 ∨ w 5 ≠ 0 ∨ w 6 ≠ 0 ∨ w 7 ≠ 0)) ∨
      (k = 3 ∧ (w 2 ≠ 0 ∨ w 3 ≠ 0 ∨ w 4 ≠ 0 ∨ w 5 ≠ 0 ∨ w 6 ≠ 0 ∨ w 7 ≠ 0)) ∨
      (k = 4 ∧ ((w 4).extractLsb' 40 24 ≠ 0 ∨ w 5 ≠ 0 ∨ w 6 ≠ 0 ∨ w 7 ≠ 0)) ∨
      (k = 5 ∧ (1 < (w 4).toNat ∨ w 5 ≠ 0 ∨ w 6 ≠ 0 ∨ w 7 ≠ 0)) then 2
  else if pCounter ws % 8 ≠ 0 ∨ (k = 1 ∧ ((w 2).toNat % 128 ≠ 0 ∨ (w 4).toNat % 64 ≠ 0)) ∨ ((k = 2 ∨ k = 5) ∧ (w 2).toNat % 8 ≠ 0) then 3
  else 0

/-- TAIL_MONITOR_WAKE of the queue State.subj: the dispatcher fetches the next packet below the tail and writes the head
count (R388). -/
def execTailMonitorWake (s : State) : Out :=
  let q := s.queueOf s.subj
  let tail := s.locNat (q.loc (q.w 2).toNat) 8
  if 256 ≤ s.subj ∨ s.tripped ∨ !s.l2Free ∨ !q.fetches ∨ tail ≤ q.ringHead ∨ q.pkts.any (fun p => packetBad p.words != 0) then .next s
  else
    let at' := q.loc (q.base + 64 * (q.ringHead % q.size))
    let head := q.loc (q.w 3).toNat
    let held := s.hostHeld [head]
    if !held.isEmpty then .next (s.snoop held)
    else
      let ws := if s.locPoison at' then [] else s.words64 at'
      let n := q.ringHead
      let s := (s.physUse (q.loc (q.w 2).toNat) 8).physUse at' 64
      let s := s.setQueue s.subj { q with ringHead := n + 1, pkts := q.pkts ++ [⟨n, ws, false, false, none, []⟩] }
      .next (s.agentNat (s.physByte head) 8 (n + 1))

/-- A packet may start after the one before it: that is complete, or it has started and this is a LAUNCH with overlap (R390). -/
def Pkt.after (p prev : Pkt) : Bool := prev.complete || (prev.started && pKind p.words == 1 && pOverlap p.words)

/-- The first packet that has not started, if it may start after its predecessor (R390). -/
def nextAfter : Option Pkt → List Pkt → Option Pkt
  | _, [] => none
  | prev, p :: t => if p.started then nextAfter (some p) t else if prev.all p.after then some p else none

/-- The next packet of a queue that may start; what it no longer lists is complete. -/
def nextPkt (l : List Pkt) : Option Pkt := nextAfter none l

/-- A packet starts only while its queue is not stopped: a stopped queue takes up the packets after the stop when it is
restarted (R387, R461, R462, R468) (DEDUCED, log 60). -/
def QueueSt.toStart (q : QueueSt) : Option Pkt := if q.fetches then nextPkt q.pkts else none

/-- The packet of a kind that is in progress, or is to start now. -/
def QueueSt.inProgress (q : QueueSt) (kind : Nat) : Option Pkt :=
  ((q.pkts.find? (fun p => p.started && !p.complete && pKind p.words == kind)).or q.toStart).filter
    (fun p => pKind p.words == kind && packetBad p.words == 0)

def State.setPkt (s : State) (q : Nat) (p : Pkt) : State :=
  let x := s.queueOf q
  s.setQueue q { x with pkts := (x.pkts.map (fun k => if k.n = p.n then p else k)).dropWhile (·.complete) }

/-- A byte in a queue's address space, as its dispatcher translates it (DEDUCED, log 24). -/
def State.queueByte (s : State) (q va : Nat) : Option PByte := s.portByte ((s.queueOf q).core / 4) (s.queueOf q).root va

/-- Its place. -/
def State.queuePlace (s : State) (q va : Nat) : Option Loc := (s.queueByte q va).map (fun b => b.loc)

/-- The word that a packet names; none when its access fails (R461): by its translation, for want of a home, as a write to a
read_only page, or by an error in its line. -/
def State.queueWord (s : State) (q va : Nat) (wr : Bool) : Option PByte :=
  (s.queueByte q va).filter (fun b => !(wr && pteRo b.pte) && (s.homeOf b).isSome && !(s.locPoison b.loc))

/-- The pages of some ranges of a queue's address space are in reach of its dispatcher (R85; DESIGN CHOICE, log 34). -/
def State.warmQueue (s : State) (q : Nat) (ranges : List (Nat × Nat)) : Option State :=
  s.warm ((s.queueOf q).core / 4) (s.queueOf q).root (ranges.flatMap (fun r => pagesOf r.1 r.2))

/-- The range of a packet's completion counter. -/
def counterRange (p : Pkt) : List (Nat × Nat) := if pCounter p.words = 0 then [] else [(pCounter p.words, 8)]

/-- A packet error: the queue stops fetching and event 0x0101 is posted (R461). -/
def State.packetError (s : State) (q : Nat) (p : Pkt) (reason : Nat) : State :=
  let s := s.setPkt q { p with started := true, complete := true }
  let s := s.setQueue q { s.queueOf q with stopErr := true }
  s.postEvent 0x0101 (s.queueLoc q) (BitVec.ofNat 64 (reason + p.n % 2 ^ 56 * 256)) 0 (some q)

/-- The end of a packet: the completion counter, then the MSI-X vector (R390). -/
def State.finishPacket (s : State) (q : Nat) (p : Pkt) : State :=
  let msi (s : State) : State := if (pFlags p.words).getLsbD 1 then { s with msix := s.msix ++ [((pFlags p.words).extractLsb' 8 8).toNat] } else s
  let s1 := s.setPkt q { p with started := true, complete := true }
  if pCounter p.words = 0 then msi s1
  else
    match s.queueWord q (pCounter p.words) true with
    | none => s.packetError q p 5
    | some b => msi (s1.agentNat b 8 (s.locNat b.loc 8 + 1))

/-- The lines that a packet's end writes and the host holds (R386). -/
def State.counterHeld (s : State) (q : Nat) (p : Pkt) : List Nat :=
  if pCounter p.words = 0 then [] else s.hostHeld ((s.queuePlace q (pCounter p.words)).toList)

-- the invalidations of a new phase (R110, R391)

/-- The queue's cores write back and drop their L1 lines, and their instruction caches are emptied; so is the instruction
cache of every slice core (R110; DEDUCED, log 50). -/
def State.phaseDrop (s : State) (cores : List Nat) : State :=
  let s := cores.foldl (fun s n => (s.cleanL1 (.core n) (fun _ => true)).dropL1 (.core n) (fun _ => true)) s
  { s with
    clusters := s.clusters.map (fun (e : Nat × ClusterSt) => if cores.any (fun n => n / 4 == e.1) then (e.1, { e.2 with icache := [] }) else e),
    sliceIcache := [] }

/-- No write-back of these cores is on its way. -/
def State.backsDone (s : State) (cores : List Nat) : Bool := !(s.flights.any (fun f => f.sid.isNone && cores.any (fun n => f.src == .core n) &&
  (match f.body with
  | .write .. => true
  | _ => false)))

/-- The write of the last phase into the queue's entry. -/
def State.setPhase (s : State) (q : Nat) (ph : BitVec 32) : State :=
  let x := s.queueOf q
  s.setQueue q { x with lastPhase := ph, ent := x.ent.set 6 ((x.w 6).extractLsb' 32 32 ++ ph : BitVec 64) }

/-- PHASE of the queue State.subj (R390, R391): Umber's writes of a packet wait for a free way (R75). -/
def execPhase (s : State) : Out :=
  let q := s.queueOf s.subj
  match q.inProgress 3 with
  | none => .next s
  | some p =>
    if !s.l2Free then .next s
    else if pPhase p.words ≠ q.lastPhase then
      .next (((s.phaseDrop q.cores).setPhase s.subj (pPhase p.words)).setPkt s.subj { p with started := true })
    else if !(s.backsDone q.cores) then .next s
    else
      match s.warmQueue s.subj (counterRange p) with
      | none => .next s
      | some s =>
        if !(s.counterHeld s.subj p).isEmpty then .next (s.snoop (s.counterHeld s.subj p))
        else .next (s.finishPacket s.subj p)

/-- WAIT of the queue State.subj: satisfied when the word is at least the value; it acquires at system scope (R390, R391). -/
def execWait (s : State) : Out :=
  let q := s.queueOf s.subj
  match q.inProgress 2 with
  | none => .next s
  | some p =>
    match (if s.l2Free then s.warmQueue s.subj (((recW p.words 2).toNat, 8) :: counterRange p) else none).bind
        (fun t => (t.queueWord s.subj (recW p.words 2).toNat false).map (fun b => (t, b))) with
    | none => .next s
    | some (s, b) =>
      if s.locNat b.loc 8 < (recW p.words 3).toNat then .next (s.setPkt s.subj { p with started := true })
      else if !(s.counterHeld s.subj p).isEmpty then .next (s.snoop (s.counterHeld s.subj p))
      else .next (((s.agentUse b 8).dropL1 (.core q.core) (fun _ => true)).finishPacket s.subj p)

/-- SIGNAL of the queue State.subj: a write or an add of 64 bits, performed at home (R390). -/
def execSignal (s : State) : Out :=
  let q := s.queueOf s.subj
  match q.inProgress 5 with
  | none => .next s
  | some p =>
    match (if s.l2Free then s.warmQueue s.subj (((recW p.words 2).toNat, 8) :: counterRange p) else none).bind
        (fun t => (t.queueWord s.subj (recW p.words 2).toNat true).map (fun b => (t, b))) with
    | none => .next s
    | some (s, b) =>
      let held := s.hostHeld [b.loc] ++ s.counterHeld s.subj p
      if !held.isEmpty then .next (s.snoop held)
      else
        let v := (recW p.words 3).toNat
        .next ((s.agentNat b 8 (if recW p.words 4 = 1 then s.locNat b.loc 8 + v else v)).finishPacket s.subj p)

/-- COPY of the queue State.subj: the copy engine copies up to the first byte that fails (R390, R432). -/
def execCopy (s : State) : Out :=
  let q := s.queueOf s.subj
  match q.inProgress 4 with
  | none => .next s
  | some p =>
    match s.warmQueue s.subj (((recW p.words 3).toNat, (recW p.words 4).toNat) :: ((recW p.words 2).toNat, (recW p.words 4).toNat) ::
      counterRange p) with
    | none => .next s
    | some s =>
    let root := q.root
    let t := { s with cur := ⟨.core q.core, 0⟩ }
    let r := plan (fun i =>
      match t.srcOf root (recW p.words 3 + BitVec.ofNat 64 i) with
      | .error st => .error st
      | .ok a =>
        match t.dstOf root (recW p.words 2 + BitVec.ofNat 64 i) with
        | .error st => .error st
        | .ok b => .ok (a, b)) (List.range (recW p.words 4).toNat)
    let l := s.copyBytes r.1
    let held := s.hostHeld (l.map (fun e => e.1.loc)) ++ s.counterHeld s.subj p
    if !held.isEmpty then .next (s.snoop held)
    else if !s.l2Free then .next s
    else
      match (s.useBytes (r.1.map (fun p => p.1))).bind (fun s => s.writeGroups l) with
      | none => .next s
      | some t => .next (({ t with fresh := t.fresh + l.length }).finishPacket s.subj p)

/-- The reason the next packet of a queue cannot start, 0 for none (R461): a header that does not translate is no packet error
but a rejected launch (R429) (DEDUCED, log 51). -/
def State.startError (s : State) (q : Nat) (p : Pkt) : Nat :=
  let b := packetBad p.words
  if b ≠ 0 then b
  else
    let va := (recW p.words 2).toNat
    match pKind p.words with
    | 1 => if (s.queuePlace q va).any s.locPoison then 6 else 0
    | 2 => if (s.queueWord q va false).isNone then 5 else 0
    | 5 => if (s.queueWord q va true).isNone then 5 else 0
    | _ => 0

/-- PACKET_ERROR of the queue State.subj (R461). -/
def execPacketError (s : State) : Out :=
  let q := s.queueOf s.subj
  match q.toStart.or (q.inProgress 2) with
  | none => .next s
  | some p =>
    match s.warmQueue s.subj [((recW p.words 2).toNat, if pKind p.words = 1 then 128 else 8)] with
    | none => .next s
    | some t => if t.startError s.subj p = 0 then .next s else .next (t.packetError s.subj p (t.startError s.subj p))

-- shares of slots (R393)

/-- Queues with work on a core: enabled, weight not zero, a record, a context or a thread of theirs there. -/
def State.queuesOn (s : State) (core : Nat) : List Nat :=
  let c := s.core' core
  let of (n : Nat) : Option Nat := (s.launch? n).map (·.queue)
  (List.range 256).filter (fun q =>
    (s.queueOf q).enabled && (s.queueOf q).weight != 0 &&
    (c.siding.any (fun e => of e.2.launch == some q) || c.rq.any (fun x => of x.launch == some q) ||
      c.slots.any (fun e => (e.2.busy || e.2.gen.isSome) && of e.2.launch == some q)))

/-- Tasks of a queue on a core that are eligible or run there. -/
def State.tasksOn (s : State) (core q : Nat) : Nat :=
  let c := s.core' core
  let of (n : Nat) : Bool := (s.launch? n).map (·.queue) == some q
  (c.siding.filter (fun e => of e.2.launch && s.eligible core e.2)).length +
  (c.slots.filter (fun e => (e.2.busy || e.2.gen.isSome) && of e.2.launch)).length

/-- The shares: by weight, the remaining slots to the largest remainders, lower queue first, each at most the tasks. -/
def State.shares (s : State) (core : Nat) : List (Nat × Nat) :=
  let qs := s.queuesOn core
  let w := (qs.map (fun q => (s.queueOf q).weight)).sum
  let flat := qs.map (fun q => (q, 8 * (s.queueOf q).weight / w, 8 * (s.queueOf q).weight % w))
  let extra := 8 - (flat.map (fun e => e.2.1)).sum
  let best := ((flat.insertionSort (fun a b => b.2.2 < a.2.2 ∨ (a.2.2 = b.2.2 ∧ a.1 ≤ b.1))).take extra).map (·.1)
  flat.map (fun e => (e.1, Nat.min (e.2.1 + (if best.contains e.1 then 1 else 0)) (s.tasksOn core e.1)))

def useShare (sh : List (Nat × Nat)) (q : Nat) : List (Nat × Nat) := sh.map (fun e => if e.1 = q then (q, e.2 - 1) else e)

/-- Give the slots to the shares, keeping current owners where shares allow: the queue of each slot, if any. -/
def assignSlots (owners : List Word) (sh : List (Nat × Nat)) : List (Option Nat) :=
  let r := owners.foldl (fun (p : List (Option Nat) × List (Nat × Nat)) o =>
    let q := (o.setWidth 8).toNat
    if o.getLsbD 32 && p.2.any (fun e => e.1 == q && decide (0 < e.2)) then (p.1 ++ [some q], useShare p.2 q) else (p.1 ++ [none], p.2)) ([], sh)
  (r.1.foldl (fun (p : List (Option Nat) × List (Nat × Nat)) x =>
    match x with
    | some q => (p.1 ++ [some q], p.2)
    | none =>
      match p.2.find? (fun e => decide (0 < e.2)) with
      | some e => (p.1 ++ [some e.1], useShare p.2 e.1)
      | none => (p.1 ++ [none], p.2)) ([], r.2)).1

/-- Write a core's owner registers by its shares (R393). -/
def State.writeOwners (s : State) (core : Nat) : State :=
  let c := s.core' core
  let a := assignSlots c.owners.toList (s.shares core)
  s.setCore core { c with owners := Vector.ofFn (fun (k : Fin 8) =>
    let o : Word := (c.owners.toList[k.val]?).getD 0
    match (a[k.val]?).join with
    | some q => setBits (setBits (o &&& 0xFF0000FF) 0 8 (BitVec.ofNat 64 q)) 32 1 1
    | none => o &&& 0xFF0000FF) }

/-- The steal list of a core: the other cores of its cluster, then a core of the nearest live cluster (R175, R394) (DESIGN CHOICE, log 36). -/
def State.stealFor (s : State) (core : Nat) : Word :=
  let cl := core / 4
  let mine := ((List.range 4).map (fun k => 4 * cl + k)).filter (· != core)
  let far := ((List.range 1024).filter (fun c => c != cl && !(s.deadClusters.contains c))).foldl (fun (b : Option Nat) c =>
    match b with
    | none => some c
    | some d => if meshLinks (cl % 32) (cl / 32) 1 (c % 32) (c / 32) 1 < meshLinks (cl % 32) (cl / 32) 1 (d % 32) (d / 32) 1 then some c else b) none
  let l := mine ++ (far.map (fun c => 4 * c + core % 4)).toList
  BitVec.ofNat 64 ((l.zipIdx.map (fun e => e.1 * 2 ^ (12 * e.2))).sum + l.length * 2 ^ 48)

/-- SHARE_RECOMPUTE of the core State.subj, once at a refill period: the owner registers (R393), the refill level that the
power manager gives, a free value, or 0 while it is cut (R62, R468) (DESIGN CHOICE, log 63), and at the first refill period the core's steal
list (R394; DESIGN CHOICE, log 36). -/
def execShareRecompute (s : State) : Out :=
  if !s.booted ∨ s.cyc % 1024 ≠ 0 ∨ !(s.coreLive s.subj) ∨ (s.core' s.subj).shareAt = s.cyc then .next s
  else
    let s := s.writeOwners s.subj
    let s := if (s.core' s.subj).shareAt = 0 then s.setCore s.subj { s.core' s.subj with steal := s.stealFor s.subj } else s
    let v := if s.zeroRefill then 0 else (Config.free s.fresh).setWidth 32
    .next { s.setCore s.subj { (s.core' s.subj).setRefill v with shareAt := s.cyc } with fresh := s.fresh + 1 }

-- opening a launch (R41-R47, R140, R154, R173, R195, R392-R394)

/-- The layout word is valid (R42). -/
def layoutOk (lay count : Word) : Bool :=
  let lv (k : Nat) : Nat := (lay.extractLsb' (36 + 3 * k) 3).toNat
  let kind := (lay.extractLsb' 46 2).toNat
  decide (layoutB lay 6 ≤ 64) && decide (lv 2 ≤ 6) && decide (lv 0 ≤ lv 1) && decide (lv 1 ≤ lv 2) && decide (kind ≤ 1) &&
  lay.extractLsb' 49 15 == 0 && !(lay.getLsbD 45) &&
  (kind != 0 || (decide (1 ≤ count.toNat) && (layoutB lay 6 == 64 || decide (count.toNat ≤ 2 ^ layoutB lay 6)))) &&
  (!(lay.getLsbD 48) || (decide (layoutB lay (lv 0) ≤ 3) && decide (layoutB lay (lv 1) ≤ 5)))

/-- The checks of a header (R392) (DEDUCED, log 52). -/
def headerOk (h : List Word) : Bool :=
  let w (k : Nat) : Word := recW h k
  (w 0) &&& 0xFF00000000000007 == 0 && layoutOk (w 3) (w 2) &&
  [8, 16, 24, 32].contains ((w 4).extractLsb' 0 8).toNat && decide (((w 4).extractLsb' 8 8).toNat ≤ 4) &&
  (w 4).extractLsb' 16 16 == 0 && decide (((w 4).extractLsb' 32 8).toNat ≤ 11) && (w 4).extractLsb' 40 24 == 0 &&
  (w 5).setWidth 16 == 0#16 && (w 6).setWidth 16 == 0#16 &&
  (w 7).setWidth 10 == 0#10 && decide (0 < (w 8).toNat) && decide (0 < spillNb (w 8).toNat) &&
  decide (1 ≤ ((w 9).extractLsb' 16 16).toNat) && decide (((w 9).extractLsb' 0 16).toNat + ((w 9).extractLsb' 16 16).toNat ≤ 2048) &&
  (w 9).extractLsb' 32 32 == 0 &&
  (w 10) &&& 0xFFFFFFFFFFF40000 == 0 && (w 11) &&& 0xFFFFFFFF00000000 == 0 && (w 12).setWidth 3 == 0#3 &&
  w 13 == 0 && w 14 == 0 && w 15 == 0

def yardStart : YardSt := ⟨floorStart.words, false, false, false, false, none, 0, 0, false, false, [], 0, 0⟩

/-- A launch of a number with its header. -/
def launchOf (n queue : Nat) (hdr : List Word) : Launch :=
  ⟨n, 0, queue, hdr, 0, 0, 0, 0, 0, 0, 0, 0, 0, none, none, yardStart, none, [], [], [], false, false⟩

/-- A launch with an empty header: 8 vector registers, nothing else. -/
def launchEmpty (n : Nat) : Launch := launchOf n 0 [0, 0, 0, 0, 8, 0, 0, 0, 0, 0, 0, 0, 0, 0, 0, 0]

/-- The cores a launch is placed on (R21, R394). -/
def State.placedOn (s : State) (l : Launch) (rootCore : Nat) : List Nat :=
  if l.isRoot then [rootCore] else (s.rectLive l.rect).flatMap (fun c => (List.range 4).map (fun k => 4 * c + k))

/-- Neighbours of a cluster on the mesh, and itself. -/
def near (a b : Nat) : Bool :=
  decide ((a % 32 - b % 32) + (b % 32 - a % 32) + ((a / 32 - b / 32) + (b / 32 - a / 32)) ≤ 1)

/-- The accumulator needs of the launches placed on a core (R394). -/
def State.accOn (s : State) (c : Nat) : Nat := ((s.launches.filter (fun k => !k.finished && k.cores.contains c)).map Launch.accNeed).sum

/-- What a core has to do: its threads and generators, its contexts and its siding records (R394; DESIGN CHOICE, log 35). -/
def State.load (s : State) (core : Nat) : Nat :=
  let c := s.core' core
  (c.slots.filter (fun e => e.2.busy || e.2.gen.isSome)).length + c.rq.length + c.siding.length

/-- The cores on which a root task of a queue may be placed: of the dispatcher's cluster and its neighbours, live, and with
room for its accumulators (R394). -/
def State.rootCores (s : State) (q : QueueSt) (need : Nat) : List Nat :=
  ((List.range 1024).filter (fun c => near c (q.core / 4))).flatMap (fun c =>
    ((List.range 4).map (fun k => 4 * c + k)).filter (fun n => s.coreLive n && decide (s.accOn n + need ≤ 4)))

/-- Umber's choices for an opening are allowed: a free number; a rectangle with a live cluster, or the least loaded core that
a root task may go to (R21, R46, R392, R394) (DEDUCED, log 35). -/
def State.choicesOk (s : State) (q : QueueSt) (l : Launch) (rootCore : Nat) : Bool :=
  decide (1 ≤ l.num) && decide (l.num ≤ 65535) && !(s.launches.any (fun k => !k.finished && k.num == l.num)) &&
  (if l.isRoot then (s.rootCores q l.accNeed).contains rootCore && (s.rootCores q l.accNeed).all (fun n => decide (s.load rootCore ≤ s.load n))
   else rectOk l.rect && !(s.rectLive l.rect).isEmpty)

/-- A launch waits for its window, and for accumulators on its cores (R140, R392, R394) (DEDUCED, log 21). -/
def State.mustWait (s : State) (l : Launch) (cores : List Nat) : Bool :=
  s.launches.any (fun k => !k.finished && decide (k.winBase < l.winBase + l.winCount) && decide (l.winBase < k.winBase + k.winCount)) ||
  cores.any (fun c => decide (4 < s.accOn c + l.accNeed))

/-- The instance block, the link entries and the arena header of a launch at opening (R173, R195). -/
def State.initAreas (s : State) (l : Launch) : State :=
  let s := (List.range 32).foldl (fun s k => s.setInst l (8 * k) 8 0) s
  let s := (((s.setInst l 0 4 0).setInst l 4 4 noBlock).setInst l 8 4 l.nb).setInst l 40 4 noBlock
  let s := (List.range l.nb).foldl (fun s b => s.setLink l b (linkWord false 0 0 (if b + 1 < l.nb then b + 1 else noBlock))) s
  if l.units = 0 then s
  else
    let s := (List.range 8).foldl (fun s k => s.arenaWrite l (l.arena + 8 * k) 8 0) s
    let s := s.arenaWrite l l.arena 2 1
    (List.range l.units).foldl (fun s u => s.arenaWrite l (mapAddr l u) 4 0) s

/-- The root task's record (R43). -/
def Launch.rootTask (l : Launch) : List Word := [l.h 0, l.h 1, 0, 0, 0, 0, 0, 0]

/-- The completion record (R396). -/
def recordBytes (l : Launch) (status faults tasks floor reliefs discarded : Nat) (start stop : Word) (cause loc : BitVec 32) : List Word :=
  [l.lid, pair32 status faults, start, stop, BitVec.ofNat 64 tasks, pair32 floor reliefs, pair32 cause.toNat loc.toNat, BitVec.ofNat 64 discarded]

/-- Write a completion record, then the packet completes; a record that cannot be written is a packet error (R396, R461;
DEDUCED, log 25). -/
def State.report (s : State) (l : Launch) (p : Pkt) (ws : List Word) : State :=
  match (s.queueByte l.queue l.recAddr.toNat).filter (fun b => !(pteRo b.pte) && (s.homeOf b).isSome) with
  | none => s.packetError l.queue p 5
  | some b => (s.agentPut (ws.zipIdx.flatMap (fun e =>
      (natBytes 8 e.1.toNat).zipIdx.map (fun k => (b.off (8 * e.2 + k.2), k.1, 0xFF#8))))).finishPacket l.queue p

/-- The lines that the report writes and the host holds. -/
def State.reportHeld (s : State) (l : Launch) (p : Pkt) : List Nat :=
  s.hostHeld ((s.queuePlace l.queue l.recAddr.toNat).toList) ++ s.counterHeld l.queue p

/-- A rejected launch completes with status 2; the cause, the fault count and the start time have no stated value (R392). -/
def State.reject (s : State) (l : Launch) (p : Pkt) : State :=
  let f (k : Nat) : Word := Config.free (s.fresh + k)
  ({ s with fresh := s.fresh + 3 }).report l p
    (recordBytes l 2 (f 0).toNat 0 0 0 0 (f 1) s.ns ((f 2).setWidth 32) 0xFFFFFFFF)

/-- The cores a launch is placed on take up its queue: root table value, context area and steal list; every other core that
the state lists takes the root table value, so that whoever steals a task translates by it (R87, R387, R394). -/
def State.takeUp (s : State) (l : Launch) : State :=
  let s := l.cores.foldl (fun s c => s.setCore c { s.core' c with
    steal := s.stealFor c, ctxArea := ctxPart ((s.queueOf l.queue).w 5) (.core c) }) s
  { s with cores := s.cores.map (fun (e : Nat × CoreSt) => (e.1, { e.2 with roots := tabSet e.2.roots l.queue l.root })) }

/-- Open a launch: its window EMPTY, window carriage 0 to be seated, its areas, its first record (R43, R44, R140, R154, R393,
R397). None while the first record finds no place (R441). The seating is a request of the dispatcher core, as of its slot 0; a queue
whose dispatcher core lies in a disabled cluster is served as any other (DESIGN CHOICE, log 91, 95). -/
def State.openLaunch (s : State) (l : Launch) (rootCore : Nat) (p : Pkt) : Option State :=
  let core := if l.isRoot then rootCore else s.coreFor l 0
  let s := ({ s with launches := s.launches ++ [l] }).joinCores l.queue l.cores
  let s := (List.range l.winCount).foldl (fun s k =>
    s.setCar (l.winBase + k) { (s.car (l.winBase + k)).empty with words := Vector.replicate 8 0 }) s
  let disp := (s.queueOf l.queue).core
  let s := s.submit disp ⟨0, 8 * disp, none, l.num, 0, l.winBase, 7, .store true (recW floorStart.words 7), 0, 0, false, 0, .queued⟩
  let s := s.initAreas l
  let s := s.takeUp l
  let s := { s with cores := s.cores.map (fun (e : Nat × CoreSt) =>
    (e.1, { e.2 with seen := tabDel e.2.seen l.num, stealNext := tabDel e.2.stealNext l.num })) }
  match s.addDelta core l.num 0 1 with
  | none => none
  | some s =>
    match (s.countTasks core l.num (if l.isRoot then 1 else 0) 0).place core l (if l.isRoot then l.rootTask else l.generator 0) true with
    | none => none
    | some r => some ((r.1.writeOwners core).setPkt l.queue { p with started := true, launch := some l.num })

/-- The launch header that a LAUNCH packet names. -/
def State.headerOf (s : State) (q : Nat) (p : Pkt) : List Word :=
  match s.queuePlace q (recW p.words 2).toNat with
  | some a => s.words64 a ++ s.words64 (locOff a 64)
  | none => []

/-- LAUNCH: the next packet of a queue is opened or rejected, with Umber's choices of a number, the core of a root task and
the rectangle of a grid (R391, R392); a header that does not translate is rejected (R429) (DESIGN CHOICE, log 35). -/
def execLaunch (queue number rootCore : Nat) (rect : BitVec 20) (s : State) : Out :=
  let q := s.queueOf queue
  match q.toStart with
  | none => .next s
  | some p =>
    match s.warmQueue queue (((recW p.words 2).toNat, 128) :: ((recW p.words 4).toNat, 64) :: counterRange p) with
    | none => .next s
    | some s =>
    let all := q.cores ++ s.placedOn { launchOf number queue (s.headerOf queue p) with rect := rect } rootCore
    let more := all.filter (fun c => !(p.dropped.contains c))
    if pKind p.words ≠ 1 ∨ s.startError queue p ≠ 0 ∨ 256 ≤ queue ∨ !s.l2Free then .next s
    else if pPhase p.words ≠ q.lastPhase then
      .next (((s.phaseDrop all).setPhase queue (pPhase p.words)).setPkt queue { p with dropped := all })
    else if !p.dropped.isEmpty ∧ !more.isEmpty then .next ((s.phaseDrop more).setPkt queue { p with dropped := p.dropped ++ more })
    else if !(s.backsDone all) then .next s
    else
        let h := s.headerOf queue p
        let s := match s.queueByte queue (recW p.words 2).toNat with
          | some b => s.agentUse b 128
          | none => s
        let l0 := launchOf number queue h
        let l1 := { l0 with
          lid := recW p.words 3, rect := rect, root := q.root &&& 0x000FFFFFFFFF00FF, recAddr := recW p.words 4, pkt := p.n,
          pairId := recW p.words 5, peer := (recW p.words 6).setWidth 8 }
        if !(headerOk h) then
          if !(s.reportHeld l1 p).isEmpty then .next (s.snoop (s.reportHeld l1 p)) else .next (s.reject l1 p)
        else
          let l := { l1 with cores := s.placedOn l1 rootCore }
          if !(s.choicesOk q l rootCore) ∨ s.mustWait l l.cores then .next s
          else
            match s.openLaunch l rootCore p with
            | none => .next s
            | some t => .next t

-- completion (R141, R396)

/-- Window carriages of a launch. -/
def Launch.window (l : Launch) : List Nat := (List.range l.winCount).map (fun k => l.winBase + k)

/-- A launch may complete: terminated or ended, its counters zero, no carriage RESERVED or LANDING (R396). -/
def State.mayComplete (s : State) (l : Launch) : Bool :=
  (l.yard.signalled || l.abort.isSome) && s.countersZero l.num &&
  l.window.all (fun c => (s.car c).st != .reserved && (s.car c).st != .landing)

/-- Write back the dirty lines of cores. -/
def State.backAll (s : State) (cores : List Nat) : State := cores.foldl (fun s n => s.cleanL1 (.core n) (fun _ => true)) s

/-- Forget a launch that has completed; the invalidations of its freed units are finished first (R199). -/
def State.closeLaunch (s : State) (n : Nat) : State :=
  let s := match s.launch? n with
    | some l => s.dropPending l
    | none => s
  let s := { s with
    launches := s.launches.filter (fun l => l.num != n || l.finished),
    cores := s.cores.map (fun (e : Nat × CoreSt) =>
      let c := e.2.forget s.cyc n
      (e.1, { c with deltas := tabDel c.deltas n, seen := tabDel c.seen n, stealNext := tabDel c.stealNext n })) }
  s.cores.foldl (fun s e => s.bankCheck e.1) s

/-- LAUNCH_COMPLETION of the launch State.subj (R141, R396): an ended launch's last threads go; the dirty lines are written
back; then the carriages are discarded, the record written and the packet completed. -/
def execLaunchCompletion (s : State) : Out :=
  match s.launch? s.subj with
  | none => .next s
  | some l =>
    let cores := (s.queueOf l.queue).cores
    if !(s.mayComplete l) ∨ !s.l2Free then .next s
    else if l.abort.isSome ∧ !(s.threadsOf l.num).isEmpty then .next (s.killThreads l)
    else
    match s.warmQueue l.queue ((l.recAddr.toNat, 64) :: ((s.queueOf l.queue).pkts.filter (fun p => p.n == l.pkt)).flatMap counterRange) with
    | none => .next s
    | some s =>
    if !(s.mayComplete l) then .next s
    else if !l.wb then .next ((s.backAll cores).setLaunch { l with wb := true })
    else if !(s.backsDone cores) then .next s
    else
      match (s.queueOf l.queue).pkts.find? (fun p => p.n == l.pkt) with
      | none => .next (s.closeLaunch l.num)
      | some p =>
        if !(s.reportHeld l p).isEmpty then .next (s.snoop (s.reportHeld l p))
        else
          let s := s.flushCounts l
          let gone := ((l.window.drop 1).filter (fun c => (s.car c).st == .seated)).length
          let floor := (floorOf (s.carWords l)).floor
          let st := match l.abort with
            | some v => v.toNat
            | none => if l.faults = 0 then 0 else 1
          let start := match l.start with
            | some c => BitVec.ofNat 64 (c * 10 / 33)
            | none => Config.free s.fresh
          let ws := recordBytes l st l.faults (s.inst l 24 8) floor (s.inst l 20 4) gone start s.ns l.cause
            (if l.faults = 0 then 0xFFFFFFFF else l.loc)
          let s := l.window.foldl (fun s c => s.setCar c (s.car c).empty) { s with fresh := s.fresh + 1 }
          .next ((s.report l p ws).closeLaunch l.num)

-- the host event ring (R398, R399, R462)

/-- EVENT_POST of a device event (DESIGN CHOICE, log 44). -/
def execEventPost (code : BitVec 16) (location : BitVec 32) (detail launchId : Word) (s : State) : Out :=
  .next (s.postEvent code location detail launchId none)

/-- Events held while the ring was not configured go out in order; then the summary if any was lost (R399). A summary that finds
the ring full waits, with the queues it restarts, until head reaches tail (DEDUCED, log 44). -/
def State.flushEvents (s : State) : State :=
  let s := s.ring.store.foldl State.enterEvent { s with ring := { s.ring with store := [] } }
  if s.ring.lossDue && !s.ring.full then s.ringSummary else s

/-- EVENT_RING_CONFIGURE: the host writes base and size (R399). -/
def execEventRingConfigure (base : Word) (size : BitVec 32) (s : State) : Out :=
  if !s.booted then .next s
  else
    let was := s.ring.configured
    let s := { s with ring := { s.ring with base := base, size := size } }
    .next (if s.ring.configured && !was then s.flushEvents else s)

/-- EVENT_HEAD_ADVANCE: the host advances head; at the tail the summary is written and stopped queues start (R462). -/
def execEventHeadAdvance (head : Word) (s : State) : Out :=
  if !s.booted then .next s
  else
    let s := { s with ring := { s.ring with head := head } }
    .next (if s.ring.configured && s.ring.lossDue && head == s.ring.tail then s.ringSummary else s)

/-- OVERFLOW_COUNT_CLEAR: the host writes zero to the overflow count (R462). -/
def execOverflowCountClear (s : State) : Out := if !s.booted then .next s else .next { s with ring := { s.ring with overflow := 0 } }

-- couplings (R401, R402)

/-- COUPLING_TABLE_WRITE, while no launch is open (R401). -/
def execCouplingTableWrite (deviceId group : BitVec 8) (bytes : List Byte) (s : State) : Out :=
  if !s.booted ∨ s.launches.any (fun l => !l.finished) then .next s
  else .next { s with devId := deviceId, groups := tabSet s.groups group.toNat bytes }

/-- COUPLING_START of the launch State.subj: both launches of the pair are open (R402). -/
def execCouplingStart (s : State) : Out :=
  match s.launch? s.subj with
  | none => .next s
  | some l =>
    if l.pairId = 0 ∨ s.lostCouplings.contains l.peer.toNat ∨ l.yard.done then .next s
    else .next (s.setYard l.num (fun y => { y with coupled := true }))

-- CXL.mem (R66, R109, R386, R464)

/-- What a host read of `n` bytes over CXL.mem returns: the home's bytes, which a release has brought up to date, each with the
poison indication of its line (R386, R464). -/
def State.cxlRead (s : State) (pa n : Nat) : List (Byte × Bool) :=
  (List.range n).map (fun i => (Memory.read s.mem (pa + i), s.poison.contains ((pa + i) / 128)))

/-- HOST_CXL_MEM_ACCESS of live DRAM, which starts at address 0 (R385; DESIGN CHOICE, log 90): performed at home, which uses
its lines, a write in the write order of its lines (R109); before boot it ends with an error (R469). A line that the host
reads it may hold (DEDUCED, log 54). -/
def execHostCxlMemAccess (pa n : Nat) (bytes : Option (List Byte)) (s : State) : Out :=
  let len := match bytes with
    | some l => l.length
    | none => n
  if !s.booted then .next { s with cxl := .error }
  else if s.dramBytes < pa + len then .fault .noSuchAddress
  else if !s.l2Free then .next s
  else
    match bytes with
    | none =>
      .next (({ (s.useDev pa len).getD s with cxl := .data (s.cxlRead pa len) } : State).unsnoop ((List.range len).map (fun i => .dev (pa + i))))
    | some l => .next (({ s with cxl := .data [] } : State).homePut (((s.devBytes pa len).zip l).map (fun e => (e.1, e.2, 0xFF#8))))

end Sys2Proof.Machine
end

