-- ==== Sys2Proof/Machine/Errors.lean ====
section
/-! DEFINITION. Soft errors, retirement, couplings that fail, the thermal trip, boot, firmware, attestation and the host link
(R18, R21, R26, R385, R460, R463-R470). -/

namespace Sys2Proof.Machine

-- unit identifiers (R460)

def unitKind (u : Word) : Nat := (u.extractLsb' 56 8).toNat
def unitIndex (u : Word) : Nat := (u.extractLsb' 0 16).toNat

def State.errOf (s : State) (u : Word) : ErrHist := tabGet errReset s.errs u.toNat
def State.setErr (s : State) (u : Word) (e : ErrHist) : State := { s with errs := tabSet s.errs u.toNat e }

/-- The live clusters, and those nearest a cluster or slice; which are near a channel or a lane no rule says (R460; DESIGN
CHOICE, log 55). -/
def State.liveClusters (s : State) : List Nat := (List.range 1024).filter (fun c => !(s.deadClusters.contains c))

def State.nearClusters (s : State) (u : Word) : List Nat :=
  if unitKind u ≠ 1 ∧ unitKind u ≠ 2 then s.liveClusters
  else
    let far (c : Nat) : Nat := meshLinks (c % 32) (c / 32) 1 (unitIndex u % 32) (unitIndex u / 32) 1
    let least := (s.liveClusters.map far).foldl min 64
    s.liveClusters.filter (fun c => decide (far c ≤ least))

/-- A core of some clusters: which of them is a free value (R460; DESIGN CHOICE, log 55). -/
def State.coreOf (s : State) (cs : List Nat) : BitVec 32 × State :=
  let r := (Config.free s.fresh).toNat
  (BitVec.ofNat 32 ((cs[r / 4 % cs.length]?).getD 0 * 4 + r % 4), { s with fresh := s.fresh + 1 })

/-- The live lanes of a coupling, as a mask. -/
def State.liveLanes (s : State) (c : Nat) : BitVec 16 := ~~~(tabGet 0 s.deadLanes c)

/-- Enter a unit in the retirement log, once (R466): event 0x0202; a coupling lane leaves at once, with event 0x0300 (DEDUCED, log 55). -/
def State.retire (s : State) (u : Word) : State :=
  if (s.errOf u).retired then s
  else
    let s := (s.setErr u { s.errOf u with retired := true })
    let s := { s with retireLog := s.retireLog ++ [(u, s.cyc)] }
    let r := s.coreOf s.liveClusters
    let s := r.2.postEvent 0x0202 r.1 u 0 none
    if unitKind u ≠ 4 then s
    else
      let k := unitIndex u / 16
      let s := { s with deadLanes := tabSet s.deadLanes k (tabGet 0 s.deadLanes k ||| (1#16 <<< (unitIndex u % 16))) }
      s.postEvent 0x0300 0 (BitVec.ofNat 64 (k % 256 + (s.liveLanes k).toNat * 256)) 0 none

/-- CORRECTABLE_ERROR of a unit: counted; at the sixteenth of a window event 0x0200, and in the third such window running the
unit is retired (R463, R466). -/
def execCorrectableError (unit : Word) (s : State) : Out :=
  let e := s.errOf unit
  let s := s.setErr unit { e with inWindow := e.inWindow + 1 }
  if e.inWindow + 1 ≠ 16 then .next s
  else
    let r := s.coreOf (s.nearClusters unit)
    let s := r.2.postEvent 0x0200 r.1 unit 0 none
    .next (if 2 ≤ e.windows then s.retire unit else s)

/-- The length of a window of a unit's error counter (R463). -/
def errorWindow : Nat := 2 ^ 30

/-- ERROR_COUNT_WINDOW_END of a unit: a new window of 2^30 cycles begins (R463, R466), at every multiple of 2^30 cycles
(DESIGN CHOICE, log 55). -/
def execErrorCountWindowEnd (unit : Word) (s : State) : Out :=
  let e := s.errOf unit
  if s.cyc % errorWindow ≠ 0 ∨ e.ended = s.cyc then .next s
  else .next (s.setErr unit { e with inWindow := 0, windows := if 16 ≤ e.inWindow then e.windows + 1 else 0, ended := s.cyc })

/-- Event 0x0201 of a unit: its second retires the unit (R466). -/
def State.uncorrectable (s : State) (unit : Word) (loc : BitVec 32) (det : Word) : State :=
  let e := s.errOf unit
  let s := (s.setErr unit { e with uncorr := e.uncorr + 1 }).postEvent 0x0201 loc det 0 none
  if 1 ≤ e.uncorr then s.retire unit else s

/-- The unit of a place: its cluster, or its slice (R460). -/
def unitOf : Place → Word
  | .core n => BitVec.ofNat 64 (2 ^ 56 + n / 4 % 65536)
  | .slice n => BitVec.ofNat 64 (2 ^ 57 + n % 65536)

/-- UNCORRECTABLE_ERROR: a line is poisoned, with event 0x0201 once (R464); a thread that reads the state takes the data-error
trap (R463, R407, R414), whose tval is a free value; an entry of an instruction cache or a TLB is dropped, and that counts as
correctable (R463). A line of host memory is the host's own (R461). -/
def execUncorrectableError (site : ErrorSite) (unit : Word) (s : State) : Out :=
  match site with
  | .line pa =>
    if s.poison.contains (pa / 128) then .next s
    else .next (({ s with poison := s.poison ++ [pa / 128] }).uncorrectable unit (BitVec.ofNat 32 (s.frameHome pa)) (BitVec.ofNat 64 pa))
  | .thread pl k =>
    let i : Sid := ⟨pl, k⟩
    if !(s.slotAt i).busy then .next s
    else
      let v := Config.free s.fresh
      let s := ({ s with fresh := s.fresh + 1 }).uncorrectable unit (BitVec.ofNat 32 (placeNum pl % 4096)) unit
      .next (s.lateFault i ⟨cData, v, 0xFF, none, none⟩ false)
  | .hostLine pa bad =>
    .next { s with hostBad := s.hostBad.filter (· != pa / 128) ++ (if bad then [pa / 128] else []) }
  | .icache pl n => execCorrectableError (unitOf pl) (s.setIcache pl ((s.icacheOf pl).eraseIdx n))
  | .microTlb pl n => execCorrectableError (unitOf pl) (s.setAt pl { s.at' pl with utlb := (s.at' pl).utlb.eraseIdx n })
  | .clusterTlb c n =>
    execCorrectableError (unitOf (.core (4 * c))) (s.setCluster c { s.cluster c with tlb := (s.cluster c).tlb.eraseIdx n })

/-- RING_BEAT_ERROR of the carriage State.subj, at the depot's pass: it is EMPTY and event 0x0201 is posted; a floor
carriage's launch ends, another window carriage's counts a fault (R465). The unit is the cluster of the station that found it;
which one is a free value (DEDUCED, log 53). -/
def execRingBeatError (s : State) : Out :=
  let c := s.car s.subj
  if 2048 ≤ s.subj ∨ !(passes s.cyc 0 s.subj) ∨ !s.l2Free then .next s
  else
    let r := s.coreOf s.liveClusters
    let s := (r.2.setCar s.subj c.empty).uncorrectable (unitOf (.core r.1.toNat)) r.1 (unitOf (.core r.1.toNat))
    match s.launches.find? (fun l => !l.finished && decide (l.winBase ≤ s.subj) && decide (s.subj < l.winBase + l.winCount)) with
    | none => .next s
    | some l =>
      let s := s.countFault l.num 1 cData 0xFFFFFFFF
      .next (if l.winBase = s.subj then s.abortLaunch l.num 1 else s)

/-- PATROL_SCRUB: every line is read and what can be corrected is corrected; the errors found are events of their own, and no
contents change (R464). -/
def execPatrolScrub (s : State) : Out := .next s

/-- A Yard's peer is lost: it runs uncoupled, and the records in transit are to return to its far list (R467). -/
def State.uncouple (s : State) (n : Nat) : State := s.setYard n (fun y => { y with coupled := false, inbound := 0 })

/-- COUPLING_LOST: State.subj is coupling × 256 + a device that lay across it. With no lane live it is lost: event 0x0301, once,
collectives across it end with status 5, and coupled pairs run uncoupled (R467). -/
def execCouplingLost (s : State) : Out :=
  let k := s.subj / 256
  let d := s.subj % 256
  if 8 ≤ k ∨ s.liveLanes k ≠ 0 ∨ s.lostCouplings.contains d then .next s
  else
    let s := { s with lostCouplings := s.lostCouplings ++ [d] }
    let s := if s.downCouplings.contains k then s
      else ({ s with downCouplings := s.downCouplings ++ [k] }).postEvent 0x0301 0 (BitVec.ofNat 64 k) 0 none
    .next ((s.launches.filter (fun l => !l.finished && l.yard.coupled && l.peer.toNat == d)).foldl (fun s l => s.uncouple l.num) s)

-- the thermal trip (R26, R468)

/-- Stop or restart the fetching of every queue for heat. -/
def State.heat (s : State) (b : Bool) : State :=
  { s with tripped := b, queues := s.queues.map (fun (e : Nat × QueueSt) => (e.1, { e.2 with stopHeat := b })) }

/-- THERMAL_TRIP at a package temperature, in tenths of a degree, of 105 °C or more. -/
def execThermalTrip (temp : Word) (s : State) : Out :=
  if temp.toNat < 1050 then .next s
  else
    let s := { s with temp := temp.toNat }
    if s.tripped then .next s else .next ((s.heat true).postEvent 0x0400 0 temp 0 none)

/-- THERMAL_ZERO_REFILL: at or above 115 °C every core's refill level is 0. -/
def execThermalZeroRefill (s : State) : Out :=
  if s.temp < 1150 then .next s
  else .next { s with zeroRefill := true, cores := s.cores.map (fun (e : Nat × CoreSt) => (e.1, e.2.setRefill 0)) }

/-- THERMAL_TRIP_CLEAR, below 95 °C: fetching and refills resume. -/
def execThermalTripClear (temp : Word) (s : State) : Out :=
  if !s.tripped ∨ 950 ≤ temp.toNat then .next s
  else .next (({ s.heat false with zeroRefill := false, temp := temp.toNat }).postEvent 0x0401 0 temp 0 none)

-- boot (R469)

def bootWord (image step err state : Nat) : Word := BitVec.ofNat 64 (state + err * 256 + step * 65536 + image * 2 ^ 24)

/-- The die of a cluster or slice (R11). -/
def dieOf (n : Nat) : Nat := n % 32 / 16 + n / 32 / 16 * 2

/-- Enough live units on every die, and cluster 0 live (R18, R469). -/
def unitsOk (deadC deadS : List Nat) : Bool :=
  (List.range 4).all (fun d => decide ((deadC.filter (fun c => dieOf c == d)).length ≤ 8) &&
    decide ((deadS.filter (fun c => dieOf c == d)).length ≤ 6)) && !(deadC.contains 0)

/-- The units of a kind in the retirement log. -/
def State.logged (s : State) (kind : Nat) : List Nat := (s.retireLog.filter (fun e => unitKind e.1 == kind)).map (fun e => unitIndex e.1)

/-- Where Umber puts the frame class table: the last 64 KiB frames of the DRAM of n live channels (R77) (DESIGN CHOICE,
log 9). -/
def frameTableBase (n : Nat) : Nat := n * 0x30000000 - (n * 0x30000000 / 65536 * 4 + 65535) / 65536 * 65536

/-- The lanes of each coupling that are gone, of a list of coupling × 16 + lane. -/
def laneMasks (l : List Nat) : Tab (BitVec 16) :=
  ((List.range 8).map (fun k => (k, (List.range 16).foldl (fun (m : BitVec 16) b => if l.contains (16 * k + b) then m ||| (1#16 <<< b) else m) 0))).filter
    (fun e => e.2 != 0)

/-- The units of a kind, of n, that are not live: they fail their test, the record does not enable them, or the retirement log
names them (R466, R469). -/
def State.gone (s : State) (kind n : Nat) (bad : List Nat) : List Nat :=
  (List.range n).filter (fun k =>
    bad.contains k || (s.logged kind).contains k || s.confRec.off.any (fun u => unitKind u == kind && unitIndex u == k))

/-- BOOT (R469): the first failure stops it. -/
def execBoot (flash : Bool) (badClusters badSlices : List Nat) (badLinks : BadLinks) (s : State) : Out :=
  if s.bootStatus.setWidth 8 ≠ 0#8 then .next s
  else
    let stopAt (image step err : Nat) : Out := .next { s with bootStatus := bootWord image step err 2, bootImage := image }
    let image := if s.imageA.1 then 1 else if s.imageB.1 then 2 else 0
    if !flash then stopAt 0 0 4
    else if image = 0 then stopAt 0 0 1
    else if !s.confRec.ok then stopAt image 1 2
    else
      let dc := s.gone 1 1024 badClusters
      let ds := s.gone 2 1024 badSlices
      let dch := s.gone 3 256 badLinks.channels
      if !(unitsOk dc ds) then stopAt image 4 3
      else .next { s with
        bootStatus := bootWord image 5 0 1, bootImage := image, booted := true,
        deadClusters := dc, deadSlices := ds, deadChannels := dch, deadLanes := laneMasks (s.gone 4 128 badLinks.lanes), mem := [], poison := [],
        frameTable := frameTableBase (256 - dch.length) }

/-- FIRMWARE_UPDATE: a verified image or record is written, never over the image in use (R469). -/
def execFirmwareUpdate (target : Nat) (content : FlashContent) (verifies : Bool) (s : State) : Out :=
  if !verifies then .next s
  else
    match target with
    | 0 => .next (if s.bootImage = 1 then s else { s with imageA := (true, content.digest) })
    | 1 => .next (if s.bootImage = 2 then s else { s with imageB := (true, content.digest) })
    | 2 => .next { s with confRec := ⟨true, content.digest, content.off⟩ }
    | _ => .next s

/-- ATTESTATION_REQUEST (R470): the answer, of which the first word is 0 for a report, 1 Unspecified, 2 Busy,
3 InvalidRequest. A report holds the digests of image, record and log, the live counts and its signature (DESIGN CHOICE, log 56). -/
def execAttestationRequest (valid : Bool) (s : State) : Out :=
  let st := (s.bootStatus.setWidth 8 : BitVec 8)
  if st = 2 then .next { s with attest := [1] }
  else if st = 0 then .next { s with attest := [2] }
  else if !valid then .next { s with attest := [3] }
  else
    let d := if s.bootImage = 2 then s.imageB.2 else s.imageA.2
    let report := [0, d, s.confRec.digest, Config.logDigest s.retireLog,
      1024 - s.deadClusters.length, s.divisor, 256 - s.deadChannels.length]
    .next { s with attest := report ++ [Config.signature report] }

-- what the host reads in the device's registers (R18, R21, R385, R387, R398, R400, R401, R469)

/-- Byte k of a number. -/
def numByte (v k : Nat) : Byte := BitVec.ofNat 8 (v / 256 ^ k)

/-- Byte k of the bitmap of the live units of a kind. -/
def liveByte (dead : List Nat) (k : Nat) : Byte :=
  BitVec.ofNat 8 (((List.range 8).map (fun b => if dead.contains (8 * k + b) then 0 else 2 ^ b)).sum)

/-- The unit map (R400): what the configuration record enables and the tests and the retirement log leave (R18, R21, R469). -/
def State.unitMap (s : State) (o : Nat) : Byte :=
  if o < 0x80 then liveByte s.deadClusters o
  else if o < 0x100 then liveByte s.deadSlices (o - 0x80)
  else if o < 0x104 then numByte s.divisor (o - 0x100)
  else if o < 0x108 then numByte (4 * (1024 - s.deadClusters.length)) (o - 0x104)
  else if o < 0x128 then liveByte s.deadChannels (o - 0x108)
  else if o < 0x148 then numByte (s.liveLanes ((o - 0x128) / 4)).toNat ((o - 0x128) % 4)
  else if 0x800 ≤ o ∧ o < 0x1000 then numByte (s.remap ((o - 0x800) / 2)) (o % 2)
  else 0

/-- The header of the event ring (R398). -/
def State.ringHeader (s : State) (o : Nat) : Byte :=
  let r := s.ring
  let w : List Nat := [r.base.toNat, r.size.toNat, r.head.toNat, r.tail.toNat,
    r.overflow.toNat + r.firstLost.toNat * 2 ^ 32 + r.lastLost.toNat * 2 ^ 48]
  numByte ((w[o / 8]?).getD 0) (o % 8)

/-- The coupling table (R401). -/
def State.couplingTable (s : State) (o : Nat) : Byte :=
  if o = 0 then s.devId
  else if 0x40 ≤ o then ((tabGet [] s.groups ((o - 0x40) / 64))[(o - 0x40) % 64]?).getD 0
  else 0

/-- A byte of BAR 2: the queue table, the event ring header, the unit map, the coupling table; what no table states reads as
zero (DESIGN CHOICE, log 56). No answer before the module is ready (R469). -/
def State.bar2 (s : State) (o : Nat) : Option Byte :=
  if !s.booted then none
  else if o < 0x4000 then some (numByte ((s.queueOf (o / 64)).w (o % 64 / 8)).toNat (o % 8))
  else if o < 0x5000 then some (s.ringHeader (o - 0x4000))
  else if o < 0x6000 then some (s.unitMap (o - 0x5000))
  else if o < 0xA040 then some (s.couplingTable (o - 0x6000))
  else some 0

/-- A byte of BAR 0: the boot status register (R469). -/
def State.bar0 (s : State) (o : Nat) : Byte := numByte s.bootStatus.toNat o

-- the host link (R385)

/-- HOST_LINK_TRAINING: the width and speed the link trained to. -/
def execHostLinkTraining (lanes gts : Nat) (s : State) : Out :=
  if lanes = 0 ∨ 16 < lanes ∨ gts = 0 ∨ 128 < gts then .next s else .next { s with linkLanes := lanes, linkGts := gts }

/-- IDE_KM_KEY_SET of CXL.io (0), CXL.cache (1) or CXL.mem (2), once the module is ready (R385, R470). -/
def execIdeKmKeySet (protocol : Nat) (s : State) : Out :=
  if !s.booted ∨ 2 < protocol then .next s
  else .next { s with ideKeys := s.ideKeys.filter (· != protocol) ++ [protocol] }

end Sys2Proof.Machine
end

