-- ==== Sys2Proof/Machine/Dispatch.lean ====
section
/-! DEFINITION. What each instruction and each event does: one arm for each row of the opcode table. -/

namespace Sys2Proof.Machine

def exec (i : Instr) (s : State) : Host.Outcome State Fault Refusal :=
  match i with
  | .nop => Sys2Proof.Machine.execNop s
  | .exit => Sys2Proof.Machine.execExit s
  | .trap a cause => Sys2Proof.Machine.execTrap a cause s
  | .sysc n => Sys2Proof.Machine.execSysc n s
  | .eret => Sys2Proof.Machine.execEret s
  | .uret => Sys2Proof.Machine.execUret s
  | .mfs d num => Sys2Proof.Machine.execMfs d num s
  | .mts a num => Sys2Proof.Machine.execMts a num s
  | .slotOwnerWrite n a => Sys2Proof.Machine.execSlotOwnerWrite n a s
  | .refillLevelWrite a => Sys2Proof.Machine.execRefillLevelWrite a s
  | .sleep n => Sys2Proof.Machine.execSleep n s
  | .wake a => Sys2Proof.Machine.execWake a s
  | .cfgbank m => Sys2Proof.Machine.execCfgbank m s
  | .tlbinvPage a => Sys2Proof.Machine.execTlbinvPage a s
  | .tlbinvAsid a => Sys2Proof.Machine.execTlbinvAsid a s
  | .tlbinvAll => Sys2Proof.Machine.execTlbinvAll s
  | .ctxsave o => Sys2Proof.Machine.execCtxsave o s
  | .ctxload a b => Sys2Proof.Machine.execCtxload a b s
  | .hevent a code => Sys2Proof.Machine.execHevent a code s
  | .cyc d => Sys2Proof.Machine.execCyc d s
  | .add o => Sys2Proof.Machine.execAdd o s
  | .sub o => Sys2Proof.Machine.execSub o s
  | .mul o => Sys2Proof.Machine.execMul o s
  | .mulh o => Sys2Proof.Machine.execMulh o s
  | .mulhu o => Sys2Proof.Machine.execMulhu o s
  | .div o => Sys2Proof.Machine.execDiv o s
  | .divu o => Sys2Proof.Machine.execDivu o s
  | .rem o => Sys2Proof.Machine.execRem o s
  | .remu o => Sys2Proof.Machine.execRemu o s
  | .and o => Sys2Proof.Machine.execAnd o s
  | .or o => Sys2Proof.Machine.execOr o s
  | .xor o => Sys2Proof.Machine.execXor o s
  | .andn o => Sys2Proof.Machine.execAndn o s
  | .sll o => Sys2Proof.Machine.execSll o s
  | .srl o => Sys2Proof.Machine.execSrl o s
  | .sra o => Sys2Proof.Machine.execSra o s
  | .min o => Sys2Proof.Machine.execMin o s
  | .max o => Sys2Proof.Machine.execMax o s
  | .minu o => Sys2Proof.Machine.execMinu o s
  | .maxu o => Sys2Proof.Machine.execMaxu o s
  | .addw o => Sys2Proof.Machine.execAddw o s
  | .subw o => Sys2Proof.Machine.execSubw o s
  | .addi o => Sys2Proof.Machine.execAddi o s
  | .andi o => Sys2Proof.Machine.execAndi o s
  | .ori o => Sys2Proof.Machine.execOri o s
  | .xori o => Sys2Proof.Machine.execXori o s
  | .slli o => Sys2Proof.Machine.execSlli o s
  | .srli o => Sys2Proof.Machine.execSrli o s
  | .srai o => Sys2Proof.Machine.execSrai o s
  | .muli o => Sys2Proof.Machine.execMuli o s
  | .li d imm => Sys2Proof.Machine.execLi d imm s
  | .lih d imm => Sys2Proof.Machine.execLih d imm s
  | .mov o => Sys2Proof.Machine.execMov o s
  | .clz o => Sys2Proof.Machine.execClz o s
  | .ctz o => Sys2Proof.Machine.execCtz o s
  | .popc o => Sys2Proof.Machine.execPopc o s
  | .bfx o => Sys2Proof.Machine.execBfx o s
  | .bfi o => Sys2Proof.Machine.execBfi o s
  | .sel o c => Sys2Proof.Machine.execSel o c s
  | .madd o c => Sys2Proof.Machine.execMadd o c s
  | .lea o sh => Sys2Proof.Machine.execLea o sh s
  | .widf d k => Sys2Proof.Machine.execWidf d k s
  | .cellh o c => Sys2Proof.Machine.execCellh o c s
  | .geom d c => Sys2Proof.Machine.execGeom d c s
  | .cmp p cond a b => Sys2Proof.Machine.execCmp p cond a b s
  | .cmpi p cond a imm => Sys2Proof.Machine.execCmpi p cond a imm s
  | .plog p pa pb table => Sys2Proof.Machine.execPlog p pa pb table s
  | .pset p v => Sys2Proof.Machine.execPset p v s
  | .psetPw mask => Sys2Proof.Machine.execPsetPw mask s
  | .bra off => Sys2Proof.Machine.execBra off s
  | .call d off => Sys2Proof.Machine.execCall d off s
  | .jmp d a => Sys2Proof.Machine.execJmp d a s
  | .loop d off => Sys2Proof.Machine.execLoop d off s
  | .fcmp p cond ty a b => Sys2Proof.Machine.execFcmp p cond ty a b s
  | .ld o => Sys2Proof.Machine.execLd o s
  | .st d ad sz => Sys2Proof.Machine.execSt d ad sz s
  | .lda o sc => Sys2Proof.Machine.execLda o sc s
  | .stl d ad sz sc => Sys2Proof.Machine.execStl d ad sz sc s
  | .stt d ad sz => Sys2Proof.Machine.execStt d ad sz s
  | .lsrmw d a b op dword off => Sys2Proof.Machine.execLsrmw d a b op dword off s
  | .pref ad => Sys2Proof.Machine.execPref ad s
  | .clean ad => Sys2Proof.Machine.execClean ad s
  | .inval ad => Sys2Proof.Machine.execInval ad s
  | .fenceAcq sc => Sys2Proof.Machine.execFenceAcq sc s
  | .fenceRel sc => Sys2Proof.Machine.execFenceRel sc s
  | .fenceFull sc => Sys2Proof.Machine.execFenceFull sc s
  | .fenceAck => Sys2Proof.Machine.execFenceAck s
  | .vld d ad => Sys2Proof.Machine.execVld d ad s
  | .vst d ad => Sys2Proof.Machine.execVst d ad s
  | .vgath d a b c ty => Sys2Proof.Machine.execVgath d a b c ty s
  | .vscat d a b c ty => Sys2Proof.Machine.execVscat d a b c ty s
  | .reside ad => Sys2Proof.Machine.execReside ad s
  | .unpin ad => Sys2Proof.Machine.execUnpin ad s
  | .amo op o => Sys2Proof.Machine.execAmo op o s
  | .cas o => Sys2Proof.Machine.execCas o s
  | .famo op o => Sys2Proof.Machine.execFamo op o s
  | .red op a b dword sc off => Sys2Proof.Machine.execRed op a b dword sc off s
  | .goto a => Sys2Proof.Machine.execGoto a s
  | .gotoHome a => Sys2Proof.Machine.execGotoHome a s
  | .home d a off => Sys2Proof.Machine.execHome d a off s
  | .fadd o => Sys2Proof.Machine.execFadd o s
  | .fsub o => Sys2Proof.Machine.execFsub o s
  | .fmul o => Sys2Proof.Machine.execFmul o s
  | .ffma o c => Sys2Proof.Machine.execFfma o c s
  | .fdiv o => Sys2Proof.Machine.execFdiv o s
  | .fsqrt o => Sys2Proof.Machine.execFsqrt o s
  | .fmin o => Sys2Proof.Machine.execFmin o s
  | .fmax o => Sys2Proof.Machine.execFmax o s
  | .fsgn o mode => Sys2Proof.Machine.execFsgn o mode s
  | .fclass o => Sys2Proof.Machine.execFclass o s
  | .fcvt o tgt unsT => Sys2Proof.Machine.execFcvt o tgt unsT s
  | .vadd o => Sys2Proof.Machine.execVadd o s
  | .vsub o => Sys2Proof.Machine.execVsub o s
  | .vmul o => Sys2Proof.Machine.execVmul o s
  | .vfma o => Sys2Proof.Machine.execVfma o s
  | .vmin o => Sys2Proof.Machine.execVmin o s
  | .vmax o => Sys2Proof.Machine.execVmax o s
  | .vabs o => Sys2Proof.Machine.execVabs o s
  | .vneg o => Sys2Proof.Machine.execVneg o s
  | .vdiv o => Sys2Proof.Machine.execVdiv o s
  | .vsel o => Sys2Proof.Machine.execVsel o s
  | .vand o => Sys2Proof.Machine.execVand o s
  | .vor o => Sys2Proof.Machine.execVor o s
  | .vxor o => Sys2Proof.Machine.execVxor o s
  | .vshl o => Sys2Proof.Machine.execVshl o s
  | .vshr o => Sys2Proof.Machine.execVshr o s
  | .vrcp o => Sys2Proof.Machine.execVrcp o s
  | .vrsq o => Sys2Proof.Machine.execVrsq o s
  | .vexp2 o => Sys2Proof.Machine.execVexp2 o s
  | .vlog2 o => Sys2Proof.Machine.execVlog2 o s
  | .vsqrt o => Sys2Proof.Machine.execVsqrt o s
  | .vdot4 o => Sys2Proof.Machine.execVdot4 o s
  | .vcvt o tgt unsT => Sys2Proof.Machine.execVcvt o tgt unsT s
  | .vcvtWiden o => Sys2Proof.Machine.execVcvtWiden o s
  | .vcvtNarrow o => Sys2Proof.Machine.execVcvtNarrow o s
  | .vcmp o cond => Sys2Proof.Machine.execVcmp o cond s
  | .vred o op => Sys2Proof.Machine.execVred o op s
  | .vscan o op => Sys2Proof.Machine.execVscan o op s
  | .vbcast o => Sys2Proof.Machine.execVbcast o s
  | .vext o ty => Sys2Proof.Machine.execVext o ty s
  | .vperm o => Sys2Proof.Machine.execVperm o s
  | .vcompress o p => Sys2Proof.Machine.execVcompress o p s
  | .vexpand o => Sys2Proof.Machine.execVexpand o s
  | .viota o => Sys2Proof.Machine.execViota o s
  | .vtopk o k1 norm p => Sys2Proof.Machine.execVtopk o k1 norm p s
  | .scfg n wr a off => Sys2Proof.Machine.execScfg n wr a off s
  | .sclose n => Sys2Proof.Machine.execSclose n s
  | .vseq n => Sys2Proof.Machine.execVseq n s
  | .vseqw => Sys2Proof.Machine.execVseqw s
  | .palw pal nan7f a off => Sys2Proof.Machine.execPalw pal nan7f a off s
  | .enc8 o alt => Sys2Proof.Machine.execEnc8 o alt s
  | .dec8 o alt => Sys2Proof.Machine.execDec8 o alt s
  | .fmtsetFmt v => Sys2Proof.Machine.execFmtsetFmt v s
  | .fmtsetScale v => Sys2Proof.Machine.execFmtsetScale v s
  | .mclaim acc => Sys2Proof.Machine.execMclaim acc s
  | .mclaimRel acc => Sys2Proof.Machine.execMclaimRel acc s
  | .mgeo a => Sys2Proof.Machine.execMgeo a s
  | .mma acc a b c => Sys2Proof.Machine.execMma acc a b c s
  | .mmq o => Sys2Proof.Machine.execMmq o s
  | .mmag o => Sys2Proof.Machine.execMmag o s
  | .mmpop hi d => Sys2Proof.Machine.execMmpop hi d s
  | .mzero acc i32 => Sys2Proof.Machine.execMzero acc i32 s
  | .mload acc a c => Sys2Proof.Machine.execMload acc a c s
  | .mstore acc a c => Sys2Proof.Machine.execMstore acc a c s
  | .xcpy o => Sys2Proof.Machine.execXcpy o s
  | .xgath o => Sys2Proof.Machine.execXgath o s
  | .xcoll o kind => Sys2Proof.Machine.execXcoll o kind s
  | .xpop d => Sys2Proof.Machine.execXpop d s
  | .tcfg t a => Sys2Proof.Machine.execTcfg t a s
  | .tadvFill t n => Sys2Proof.Machine.execTadvFill t n s
  | .tadvFree t n => Sys2Proof.Machine.execTadvFree t n s
  | .twaitFill t n => Sys2Proof.Machine.execTwaitFill t n s
  | .twaitFree t n => Sys2Proof.Machine.execTwaitFree t n s
  | .chopen n a => Sys2Proof.Machine.execChopen n a s
  | .chgrant n cnt => Sys2Proof.Machine.execChgrant n cnt s
  | .chalt d a => Sys2Proof.Machine.execChalt d a s
  | .chclose n => Sys2Proof.Machine.execChclose n s
  | .cload o => Sys2Proof.Machine.execCload o s
  | .cop o op => Sys2Proof.Machine.execCop o op s
  | .ccas o => Sys2Proof.Machine.execCcas o s
  | .cstore o => Sys2Proof.Machine.execCstore o s
  | .cstoreSeat o => Sys2Proof.Machine.execCstoreSeat o s
  | .cwait o cond => Sys2Proof.Machine.execCwait o cond s
  | .board a b idx => Sys2Proof.Machine.execBoard a b idx s
  | .alight a b idx => Sys2Proof.Machine.execAlight a b idx s
  | .carriveJoin o => Sys2Proof.Machine.execCarriveJoin o s
  | .carriveArrive o => Sys2Proof.Machine.execCarriveArrive o s
  | .carriveDepart o => Sys2Proof.Machine.execCarriveDepart o s
  | .cphase o => Sys2Proof.Machine.execCphase o s
  | .ypush a => Sys2Proof.Machine.execYpush a s
  | .ycont d a => Sys2Proof.Machine.execYcont d a s
  | .ydone a => Sys2Proof.Machine.execYdone a s
  | .ypop d a => Sys2Proof.Machine.execYpop d a s
  | .yfloor d => Sys2Proof.Machine.execYfloor d s
  | .yreach d a => Sys2Proof.Machine.execYreach d a s
  | .yopen d a => Sys2Proof.Machine.execYopen d a s
  | .spec d a => Sys2Proof.Machine.execSpec d a s
  | .scall a => Sys2Proof.Machine.execScall a s
  | .skeep a => Sys2Proof.Machine.execSkeep a s
  | .sfree a => Sys2Proof.Machine.execSfree a s
  | .residualUnitsFreed launch unit => Sys2Proof.Machine.execResidualUnitsFreed launch unit s
  | .taskPop core slot => Sys2Proof.Machine.execTaskPop core slot s
  | .runQueueTake pl slot => Sys2Proof.Machine.execRunQueueTake pl slot s
  | .gatherStartRelease launch cluster => Sys2Proof.Machine.execGatherStartRelease launch cluster s
  | .migrationArrival => Sys2Proof.Machine.execMigrationArrival s
  | .migrationDeparture pl slot => Sys2Proof.Machine.execMigrationDeparture pl slot s
  | .sleeperSwapOut pl slot => Sys2Proof.Machine.execSleeperSwapOut pl slot s
  | .sleepTimeout pl slot => Sys2Proof.Machine.execSleepTimeout pl slot s
  | .ownerChangeEffect core slot => Sys2Proof.Machine.execOwnerChangeEffect core slot s
  | .variableResultArrival => Sys2Proof.Machine.execVariableResultArrival s
  | .writePerformedAtHome => Sys2Proof.Machine.execWritePerformedAtHome s
  | .remoteUpdateApply => Sys2Proof.Machine.execRemoteUpdateApply s
  | .remoteRequest => Sys2Proof.Machine.execRemoteRequest s
  | .tlbWalkComplete => Sys2Proof.Machine.execTlbWalkComplete s
  | .footprintFill core entry => Sys2Proof.Machine.execFootprintFill core entry s
  | .footprintFillFault core entry => Sys2Proof.Machine.execFootprintFillFault core entry s
  | .wakeArrival => Sys2Proof.Machine.execWakeArrival s
  | .channelWordArrival => Sys2Proof.Machine.execChannelWordArrival s
  | .channelGrantArrival => Sys2Proof.Machine.execChannelGrantArrival s
  | .sequencerIssue core slot => Sys2Proof.Machine.execSequencerIssue core slot s
  | .streamPrefetch core slot n => Sys2Proof.Machine.execStreamPrefetch core slot n s
  | .cfgbankComplete => Sys2Proof.Machine.execCfgbankComplete s
  | .tileOpIssue => Sys2Proof.Machine.execTileOpIssue s
  | .tileOpComplete => Sys2Proof.Machine.execTileOpComplete s
  | .engineCompletion => Sys2Proof.Machine.execEngineCompletion s
  | .userInterruptEntry core slot => Sys2Proof.Machine.execUserInterruptEntry core slot s
  | .combiningHoldExpiry => Sys2Proof.Machine.execCombiningHoldExpiry s
  | .revolutionStart => Sys2Proof.Machine.execRevolutionStart s
  | .captureApply => Sys2Proof.Machine.execCaptureApply s
  | .captureCompletion => Sys2Proof.Machine.execCaptureCompletion s
  | .barrierAdvance => Sys2Proof.Machine.execBarrierAdvance s
  | .boardDataSeat => Sys2Proof.Machine.execBoardDataSeat s
  | .alightLanded => Sys2Proof.Machine.execAlightLanded s
  | .floorCarriagePass => Sys2Proof.Machine.execFloorCarriagePass s
  | .depotPass => Sys2Proof.Machine.execDepotPass s
  | .farTaskAgent => Sys2Proof.Machine.execFarTaskAgent s
  | .floorRelief => Sys2Proof.Machine.execFloorRelief s
  | .sidingRefill core launch => Sys2Proof.Machine.execSidingRefill core launch s
  | .stealRequest thief launch k => Sys2Proof.Machine.execStealRequest thief launch k s
  | .ydoneDecrement => Sys2Proof.Machine.execYdoneDecrement s
  | .exitPacketArrival => Sys2Proof.Machine.execExitPacketArrival s
  | .coupledYardTransfer launch words => Sys2Proof.Machine.execCoupledYardTransfer launch words s
  | .lateFaultDelivery core slot => Sys2Proof.Machine.execLateFaultDelivery core slot s
  | .sliceCoreTrapReturn slice slot => Sys2Proof.Machine.execSliceCoreTrapReturn slice slot s
  | .allAsleepTrap => Sys2Proof.Machine.execAllAsleepTrap s
  | .tailMonitorWake => Sys2Proof.Machine.execTailMonitorWake s
  | .queueTableRead => Sys2Proof.Machine.execQueueTableRead s
  | .shareRecompute => Sys2Proof.Machine.execShareRecompute s
  | .launch queue number rootCore rect => Sys2Proof.Machine.execLaunch queue number rootCore rect s
  | .wait => Sys2Proof.Machine.execWait s
  | .phase => Sys2Proof.Machine.execPhase s
  | .copy => Sys2Proof.Machine.execCopy s
  | .signal => Sys2Proof.Machine.execSignal s
  | .packetError => Sys2Proof.Machine.execPacketError s
  | .launchCompletion => Sys2Proof.Machine.execLaunchCompletion s
  | .queueEnableWrite queue words => Sys2Proof.Machine.execQueueEnableWrite queue words s
  | .eventRingConfigure base size => Sys2Proof.Machine.execEventRingConfigure base size s
  | .eventPost code location detail launchId => Sys2Proof.Machine.execEventPost code location detail launchId s
  | .eventHeadAdvance head => Sys2Proof.Machine.execEventHeadAdvance head s
  | .overflowCountClear => Sys2Proof.Machine.execOverflowCountClear s
  | .couplingTableWrite deviceId group bytes => Sys2Proof.Machine.execCouplingTableWrite deviceId group bytes s
  | .couplingStart => Sys2Proof.Machine.execCouplingStart s
  | .hostCxlMemAccess pa n bytes => Sys2Proof.Machine.execHostCxlMemAccess pa n bytes s
  | .correctableError unit => Sys2Proof.Machine.execCorrectableError unit s
  | .uncorrectableError site unit => Sys2Proof.Machine.execUncorrectableError site unit s
  | .ringBeatError => Sys2Proof.Machine.execRingBeatError s
  | .patrolScrub => Sys2Proof.Machine.execPatrolScrub s
  | .couplingLost => Sys2Proof.Machine.execCouplingLost s
  | .thermalTrip temp => Sys2Proof.Machine.execThermalTrip temp s
  | .thermalZeroRefill => Sys2Proof.Machine.execThermalZeroRefill s
  | .thermalTripClear temp => Sys2Proof.Machine.execThermalTripClear temp s
  | .boot flash badClusters badSlices badLinks => Sys2Proof.Machine.execBoot flash badClusters badSlices badLinks s
  | .firmwareUpdate target content verifies => Sys2Proof.Machine.execFirmwareUpdate target content verifies s
  | .attestationRequest valid => Sys2Proof.Machine.execAttestationRequest valid s
  | .unassignedOpcode w => Sys2Proof.Machine.execUnassignedOpcode w s
  | .hostLinkTraining lanes gts => Sys2Proof.Machine.execHostLinkTraining lanes gts s
  | .hostSnoopResponse => Sys2Proof.Machine.execHostSnoopResponse s
  | .hostCxlCacheSnoop => Sys2Proof.Machine.execHostCxlCacheSnoop s
  | .ideKmKeySet protocol => Sys2Proof.Machine.execIdeKmKeySet protocol s
  | .errorCountWindowEnd unit => Sys2Proof.Machine.execErrorCountWindowEnd unit s

end Sys2Proof.Machine
end

