-- ==== Sys2Proof/Machine/Umber.lean ====
section
/-! DEFINITION. Umber's work for a slot whose trap reached it: system calls, page repair, kills (R233, R394, R395, R415;
DESIGN CHOICE, log 6). -/

namespace Sys2Proof.Machine

/-- Return from a serviced call with a value in g1. -/
def State.serviced (s : State) (i : Sid) (v : Word) : State := s.setSlot i ((s.slotAt i).setGr 1 v).eret

/-- A service (R395). Service 1 waits until its slot can be vacated; a status of service 5 outside 16 to 255 is a free
value. -/
def State.service (s : State) (i : Sid) (n : BitVec 32) : State :=
  let x := s.slotAt i
  match n.toNat with
  | 0 => s.serviced i s.umberVersion
  | 1 =>
    let t := s.serviced i 0
    if t.vacateReady i then t.swapOut i else s
  | 2 => s.serviced i (BitVec.ofNat 64 (x.launch % 65536 + (match s.launch? x.launch with
    | some l => l.queue
    | none => 0) % 256 * 65536))
  | 3 =>
    if (x.gr 2).toNat < 0x8000 ∨ 0xFFFF < (x.gr 2).toNat then s.serviced i 1
    else (s.postEvent ((x.gr 2).setWidth 16) (eventLoc i (s.eventQueue i)) (x.gr 3) (s.lidOf i) (s.eventQueue i)).serviced i 0
  | 4 => s.serviced i s.ns
  | 5 =>
    let v := x.gr 2
    if 16 ≤ v.toNat ∧ v.toNat ≤ 255 then s.abortLaunch x.launch (v.setWidth 32)
    else ({ s with fresh := s.fresh + 1 }).abortLaunch x.launch ((Config.free s.fresh).setWidth 32)
  | _ => s.serviced i 0xFFFFFFFFFFFFFFFF

/-- Kill the thread of a slot, once its tile operation and channel words are over (R415). -/
def State.umberKill (s : State) (i : Sid) : State := if s.killReady i then s.killFor i else s

/-- A trap that Umber resolves brings it the slot's count of lost late faults (R409); once counted they are not counted again
(DEDUCED, log 84). -/
def State.countLost (s : State) (i : Sid) : State :=
  let x := s.slotAt i
  let n := (x.tcause.extractLsb' 40 8).toNat
  if n = 0 then s
  else (s.countFault x.launch n (x.tcause.extractLsb' 0 16) (locWord i)).setSlot i { x with tcause := x.tcause &&& 0xFFFF00FFFFFFFFFF }

/-- Umber acts for a slot; what it writes waits for a free way (R75). -/
def State.umberAct (s : State) (i : Sid) : State :=
  match if s.l2Free then (s.slotAt i).umber else none with
  | none => s
  | some (.service n) => (s.countLost i).service i n
  | some (.page va) =>
    match s.mapPage (s.rootOf i) va with
    | some t => (t.countLost i).setSlot i ((t.countLost i).slotAt i).eret
    | none => s.umberKill i
  | some .kill => s.umberKill i

end Sys2Proof.Machine
end

