-- ==== Sys2Proof/Machine/Due.lean ====
section
/-! DEFINITION. What must have happened before a cycle ends (R27, R31, R57, R59, R62, R65, R137, R142-R153, R160, R164, R172, R309,
R322, R339, R387, R393, R463; DESIGN CHOICE, log 3). -/

namespace Sys2Proof.Machine

/-- The places whose slots have turns to take: those that State lists. No other holds anything. -/
def State.places (s : State) : List Place := s.cores.map (fun e => .core e.1) ++ s.slices.map (fun e => .slice e.1)

/-- The turn of this cycle of a place has not been taken (R27). -/
def State.turnDue (s : State) (p : Place) : Bool := (s.slotAt ⟨p, s.cyc % 8⟩).lastIssue != some s.cyc

/-- An event that would change something now; which instruction was looked at last is nothing. -/
def State.moves (s : State) (e : Nat × Instr) : Bool :=
  let t := { s with subj := e.1 }
  match exec e.2 t with
  | .next u => { u with cur := t.cur, word := t.word } != t
  | _ => true

/-- The event that ends a thing in transit. -/
def FBody.arrival : FBody → Instr
  | .load .. => .variableResultArrival
  | .vload .. => .variableResultArrival
  | .fill .. => .variableResultArrival
  | .write .. => .writePerformedAtHome
  | .result .. => .variableResultArrival
  | .reqLoad .. => .remoteRequest
  | .reqAtomic .. => .remoteRequest
  | .red .. => .remoteUpdateApply
  | .migrate .. => .migrationArrival
  | .wake .. => .wakeArrival
  | .chWord .. => .channelWordArrival
  | .chGrant .. => .channelGrantArrival
  | .ydone .. => .ydoneDecrement
  | .exit .. => .exitPacketArrival

/-- Things in transit, walks, tile operations, commands and the transfers of captures that have taken as long as they may
(R65). -/
def State.lateEvents (s : State) : List (Nat × Instr) :=
  (s.flights.filter (fun f => decide (f.by' ≤ s.cyc))).map (fun f => (f.id, f.body.arrival)) ++
  s.clusters.flatMap (fun e => (e.2.walks.filter (fun w => decide (w.by' ≤ s.cyc))).map (fun w => (w.id, .tlbWalkComplete))) ++
  s.cores.filterMap (fun e => match e.2.running with
    | some r => if r.endAt + Config.latency r.id ≤ s.cyc then some (e.1, .tileOpComplete) else none
    | none => none) ++
  (s.cmds.filter (fun k => decide (k.pushed + 64 ≤ s.cyc))).map (fun k => (k.id, .combiningHoldExpiry)) ++
  (s.cmds.filter (fun k => decide (k.pushed + Config.latency k.id ≤ s.cyc))).map (fun k => (k.id, .engineCompletion)) ++
  s.clusters.flatMap (fun e => (e.2.caps.filter (fun k => decide (k.arrive + Config.latency k.id ≤ s.cyc))).flatMap (fun k =>
    match k.st with
    | .fetching => [(k.id, .boardDataSeat)]
    | .landing _ => [(k.id, .alightLanded)]
    | _ => []))

/-- The carriages whose word 0 crosses the depot in this cycle: one of each lane (R136, R137). -/
def atDepot (cyc : Nat) : List Nat := if cyc % 8 = 0 then (List.range 16).map (fun k => cyc % 1024 / 8 * 16 + k) else []

/-- What the ring does in this cycle (R137, R142-R153, R160, R164, R172). -/
def State.ringEvents (s : State) : List (Nat × Instr) :=
  (atDepot s.cyc).map (fun c => (c, .revolutionStart)) ++
  (s.cars.filter (fun e => !e.2.adv.isEmpty)).map (fun e => (e.1, .barrierAdvance)) ++
  (s.launches.filter (fun l => !l.finished)).flatMap (fun l =>
    (l.num, .depotPass) :: (l.num, .farTaskAgent) :: ((List.range 1024).filter (fun cl => passes s.cyc (stationOf cl) l.winBase)).map (fun cl =>
      (l.num * 1024 + cl, .floorCarriagePass))) ++
  s.clusters.flatMap (fun e => e.2.caps.flatMap (fun k =>
    match k.st with
    | .queued => [(k.id, .captureApply)]
    | .tested => [(k.id, .captureApply)]
    | .fetched _ _ => [(k.id, .boardDataSeat)]
    | .landed _ => [(k.id, .alightLanded)]
    | .done _ _ _ _ => [(k.id, .captureCompletion)]
    | _ => []))

/-- What a core or a slice core does in this cycle besides its turn (R57, R59, R309, R322, R325). -/
def State.coreEvents (s : State) : List (Nat × Instr) :=
  s.cores.flatMap (fun e =>
    (e.1, .tileOpIssue) :: (0, .sequencerIssue e.1 (s.cyc % 8)) :: (List.range 8).flatMap (fun k =>
      [(0, .sleeperSwapOut (.core e.1) k), (0, .ownerChangeEffect e.1 k)])) ++
  s.slices.flatMap (fun e => (List.range 8).map (fun k => (0, .sleeperSwapOut (.slice e.1) k)))

/-- The cluster groups that threads wait in (R47). -/
def State.gatherEvents (s : State) : List (Nat × Instr) :=
  (s.launches.filter (fun l => !l.finished && l.abort.isNone)).flatMap (fun l =>
    (s.cores.flatMap (fun c => (c.2.slots.filter (fun e => e.2.busy && e.2.launch == l.num && e.2.gatherWait)).map (fun e =>
      l.clusterGroup e.2.wid))).dedup.map (fun g => (0, .gatherStartRelease l.num g)))

/-- What the Yard and Umber do for the launches in this cycle (R47, R178, R424, R467). -/
def State.launchEvents (s : State) : List (Nat × Instr) :=
  (s.launches.filter (fun l => !l.finished && l.abort.isNone)).flatMap (fun l =>
    [(l.num, .floorRelief), (l.num, .allAsleepTrap)] ++
      (if l.yard.coupled || l.yard.transit.isEmpty then [] else [(0, .coupledYardTransfer l.num [])])) ++ s.gatherEvents

/-- What a refill period, an error window and heat bring (R62, R387, R393, R463, R468). -/
def State.periodEvents (s : State) : List (Nat × Instr) :=
  (if s.cyc % 1024 = 0 ∧ s.booted then (0, .queueTableRead) :: (List.range 4096).map (fun c => (c, .shareRecompute)) else []) ++
  (if 1150 ≤ s.temp then [(0, .thermalZeroRefill)] else []) ++
  (if s.cyc % errorWindow = 0 then s.errs.map (fun e => (0, .errorCountWindowEnd (BitVec.ofNat 64 e.1))) else [])

/-- The owner of a slot differs from the one in effect, or an owner change holds its thread (R59). -/
def State.ownerPending (s : State) (core slot : Nat) : Bool :=
  let o : Word := ((s.core' core).owners.toList[slot]?).getD 0
  o.extractLsb' 24 8 != o.setWidth 8 || (s.slotAt ⟨.core core, slot⟩).preempted

/-- What comes before a slot's turn in its cycle, so that what a core issues depends on data and arrivals alone (R31): its
sequencer's body instruction; and at a rotation boundary what Umber writes at a refill, an owner change, and the release of
a gathered group (DEDUCED, log 88). -/
def State.turnHeld (s : State) (i : Sid) : Bool :=
  match i.pl with
  | .core n =>
    ((s.slotAt i).seqr.isSome && s.moves (0, .sequencerIssue n i.k)) ||
    (decide (i.k = 0) && ((s.ownerPending n 0 && s.moves (0, .ownerChangeEffect n 0)) || s.gatherEvents.any s.moves ||
      (decide (s.cyc % 1024 = 0) && s.booted && (s.moves (0, .queueTableRead) || s.moves (n, .shareRecompute)))))
  | .slice _ => false

/-- Something must still happen in this cycle. -/
def State.due (s : State) : Bool :=
  s.places.any s.turnDue || s.ringEvents.any s.moves || s.coreEvents.any s.moves || s.launchEvents.any s.moves ||
  s.lateEvents.any s.moves || s.periodEvents.any s.moves

/-- The next cycle comes, once nothing of this one is due; its events enter the ring (R462). -/
def State.pass (s : State) : State := if s.due then s else { s.enterEvents with cyc := s.cyc + 1 }

/-- Rows of the table that happen in a turn of their slot alone (R37-R40, R237, R407, R414). -/
def turnEvent : Instr → Bool
  | .taskPop .. => true
  | .runQueueTake .. => true
  | .sleepTimeout .. => true
  | .userInterruptEntry .. => true
  | .lateFaultDelivery .. => true
  | .sliceCoreTrapReturn .. => true
  | _ => false

end Sys2Proof.Machine
end

