-- ==== Sys2Proof/Machine/Step.lean ====
section
/-! DEFINITION. One step of the machine: the next action of the schedule (DESIGN CHOICE, log 3) happens. -/

namespace Sys2Proof.Machine

/-- Take the next action: the agenda first, then the schedule. -/
def State.nextAct (s : State) : Act × State :=
  match s.agenda with
  | a :: t => (a, { s with agenda := t })
  | [] => (Config.schedule s.tick, { s with tick := s.tick + 1 })

/-- Run what a turn came to. -/
def runTurn : Turn → Out
  | .over o => o
  | .go i t => exec i t

/-- A turn of a slot, which comes in its own cycles and once in each (R27). -/
def turnStep (i : Sid) (s : State) : Out :=
  if s.cyc % 8 ≠ i.k ∨ (s.slotAt i).lastIssue = some s.cyc ∨ s.turnHeld i then .next s
  else
    let t := s.setSlot i { s.slotAt i with lastIssue := some s.cyc }
    runTurn (State.turn { t with cur := i })

/-- One step (DESIGN CHOICE, log 3, 37): the cycle ends, or something happens in it. What happens in a turn alone is no action of
its own. -/
def step (s : State) : Host.Outcome State Fault Refusal :=
  let r := s.nextAct
  match r.1 with
  | .cycle => .next r.2.pass
  | .turn pl k => turnStep ⟨pl, k⟩ r.2
  | .umber pl k => .next (r.2.umberAct ⟨pl, k⟩)
  | .ev subj i => if isEvent i && !(turnEvent i) then exec i { r.2 with subj := subj } else .next r.2

/-- `s` with a word stored where the next step fetches: slot State.cur holds a thread of a launch, its page is
translated, and its turn comes next, in a cycle of the slot (DESIGN CHOICE, log 3). -/
def State.withFetchWord (s : State) (nbits w : Nat) : State :=
  let i := s.cur
  let x := s.slotAt i
  let n := if x.busy then x.launch else 1
  let s := if (s.launch? n).isSome then s else { s with launches := launchEmpty n :: s.launches }
  let y := { x with
    busy := true, launch := n, hold := .none, asleep := none, gatherWait := false, late := none, ints := [],
    sliceTrap := none, pend := [], residual := false, stopped := false, preempted := false, gen := none, umber := none, relDone := false, stage := 0, spec := none, seqr := none,
    pc := if x.pc.toNat % 8 = 0 ∧ regionOf x.pc.toNat = .virt then x.pc else 0, lastIssue := none }
  let s := s.enter i y
  let root := s.rootOf i
  let page := y.pc.toNat / 65536
  let pa := (page % 2 ^ 36) * 65536 + y.pc.toNat % 65536
  let pte : Word := BitVec.ofNat 64 ((page % 2 ^ 36) * 65536 + 3)
  let e : TlbEntry := ⟨asidOf root, page, 16, pte⟩
  let s := match i.pl with
    | .core n => s.setCluster (n / 4) { s.cluster (n / 4) with tlb := e :: (s.cluster (n / 4)).tlb }
    | .slice _ => s.setAt i.pl { s.at' i.pl with utlb := e :: (s.at' i.pl).utlb }
  let s := s.setIcache i.pl ((s.icacheOf i.pl).filter (fun e => e.1 != pa / 128))
  let s := { s with mem := Memory.writeNat s.mem pa 8 (w % 2 ^ nbits) }
  { s with cyc := s.cyc + (i.k + 8 - s.cyc % 8) % 8, poison := s.poison.filter (fun l => l != pa / 128), agenda := .turn i.pl i.k :: s.agenda }

end Sys2Proof.Machine
end

