-- ==== Sys2Proof/Safety.lean ====
section
/-! DEFINITION. What the claims are stated in: steps that answer a state, predicates that steps keep, and the parts an
instruction is made of: its registers checked, a register read, a register written, the instruction ended. -/

namespace Sys2Proof.Machine

-- runs

/-- A step from s answers t. -/
def Steps (s t : State) : Prop := step s = .next t

/-- A predicate that every step keeps, from every state that has it. -/
def KeptBySteps (p : State → Prop) : Prop := ∀ s t, p s → Steps s t → p t

/-- A step stops nowhere: it answers a state. -/
def Goes (s : State) : Prop := ∃ t, Steps s t

/-- Every byte memory of the state is in canonical form: device and host memory, each core's local store, each residency
slot's copy. -/
def CoreSt.memOk (c : CoreSt) : Bool := Memory.wf c.ls && c.res.all (fun e => Memory.wf e.2.data)

def State.memOk (s : State) : Bool :=
  Memory.wf s.mem && Memory.wf s.hostMem && s.cores.all (fun e => e.2.memOk) && s.slices.all (fun e => e.2.memOk)

-- parts of an instruction

/-- What an action of an instruction gives, and the state it leaves; none where the instruction ends there (a turn
lost, a trap, a departure, a wait). -/
def after {α : Type} (m : M α) (s : State) : Option (α × State) :=
  match m s with
  | .ok r => some r
  | .error _ => none

/-- The registers of an instruction pass the checks of R202 and R206 and none is pending: it executes, from t. -/
def Ready (us : List Use) (s t : State) : Prop := after (prep us) s = some ((), t)

/-- The register of a general field reads v, leaving t (a channel gives up a word). -/
def Reads (f : Fld) (s : State) (v : Word) (t : State) : Prop := after (rg f) s = some (v, t)

/-- The vector register of a field reads v. -/
def ReadsVec (f : Fld) (s : State) (v : Vec) (t : State) : Prop := after (rv f) s = some (v, t)

/-- The state after the register of a general field has been written by an instruction of latency k. -/
def State.wrote (s : State) (k : Nat) (f : Fld) (v : Word) : State := ((after (wg k f v) s).map (·.2)).getD s

/-- The same for a vector register. -/
def State.wroteVec (s : State) (k : Nat) (f : Fld) (v : Vec) : State := ((after (wv k f v) s).map (·.2)).getD s

/-- The slot whose instruction is executing. -/
def State.me (s : State) : Slot := s.slotAt s.cur

/-- That slot changed. -/
def State.updMe (s : State) (f : Slot → Slot) : State := s.setSlot s.cur (f s.me)

/-- The instruction is over and the thread goes on at pc + 8 (R200). -/
def State.ended (s : State) : State := s.updMe Slot.advance

/-- The instruction is over and the thread goes on at an address. -/
def State.wentTo (s : State) (pc : Word) : State := s.updMe (fun x => x.goTo pc)

/-- The state after the trap of a cause without lane, dispatch number or fault detail (R405). -/
def State.trapped (s : State) (cause : BitVec 16) (tval : Word) : State :=
  s.raise s.cur ⟨cause, tval, 0xFF, none, none⟩

/-- The state in which a slot's turn starts: the turn is marked used, and the slot is the one that executes (R27). -/
def State.turnStart (s : State) (i : Sid) : State :=
  { s.setSlot i { s.slotAt i with lastIssue := some s.cyc } with cur := i }

/-- A thread on a slice core leaves for its origin core, the instruction not executed (R53, R229). -/
def State.sentHome (s : State) : State := s.updMe fun x =>
  { x with
    hold := .depart (.core x.origin.toNat) false none, asleep := none, relDone := false, stage := 0, walkWait := none }

/-- A check passes: the instruction goes on, from the same state. -/
def Passes (m : M Unit) (s : State) : Prop := after m s = some ((), s)

/-- A part of an instruction is done and leaves t. -/
def Does (m : M Unit) (s t : State) : Prop := after m s = some ((), t)

/-- The state after a part of an instruction that is done. -/
def State.did (s : State) (m : M Unit) : State := ((after m s).map (·.2)).getD s

/-- The bytes of an access that passes the checks of R264. -/
def Checked (agent : BitVec 3) (wr : Bool) (ea : Word) (n al : Nat) (s : State) (bs : List PByte) (t : State) : Prop :=
  after (do
    let bs ← checkAccess agent wr ea n al
    needHomes agent wr ea bs
    pure bs) s = some (bs, t)

/-- The bytes of a scalar access that is checked and need not leave for another core or wait (R264, R265, R240); `resid` when a
residency slot may serve it. -/
def Reaches (resid wr : Bool) (ea : Word) (n al : Nat) (s : State) (bs : List PByte) (t : State) : Prop :=
  after (reach resid wr ea n al) s = some (bs, t)

/-- The address of the M format (R208). -/
def State.address (s : State) (ad : MAddr) : Word :=
  s.me.gr ad.a + BitVec.ofNat 64 ((s.me.gr ad.b).toNat * 2 ^ ad.scl.toNat) + ad.off.signExtend 64

-- parts of a vector instruction

/-- The lanes of n that a mask field c leaves active: all of them for g0, else those whose mask bit is set (R293). -/
def State.lanesOn (s : State) (c : BitVec 4) (n : Nat) : List Nat :=
  (List.range n).filter (fun j => c == 0 || (s.me.gr c).getLsbD (if n ≤ 16 then j else j * 16 / n))

/-- A vector instruction issues (R293, R306, R309, R314, R406): its registers, its streams, its place in the dispatch ring and its
budget let it, the charge of `units` is made, and its vector sources read vs. -/
def Issues (op : Nat) (reads writes : List Fld) (gus : List Use) (units : Nat) (s : State) (vs : List Vec) (t : State) : Prop :=
  after (do
    let e ← threadEnv
    vprep e op reads writes gus
    vtake e op reads writes units) s = some (vs, t)

/-- The same for an instruction that also names registers without reading them (R303). -/
def IssuesNaming (names : List Fld) (op : Nat) (reads writes : List Fld) (gus : List Use) (units : Nat) (s : State) (vs : List Vec) (t : State) : Prop :=
  after (do
    let e := { (← threadEnv) with names := names }
    vprep e op reads writes gus
    vtake e op reads writes units) s = some (vs, t)

/-- The two halves of that, for an instruction that does something between them: its registers, streams and ring entry let it
issue; its charge is made and its sources are read. -/
def MayIssue (op : Nat) (reads writes : List Fld) (gus : List Use) (s t : State) : Prop :=
  Does (do vprep (← threadEnv) op reads writes gus) s t

def Takes (op : Nat) (reads writes : List Fld) (units : Nat) (s : State) (vs : List Vec) (t : State) : Prop :=
  after (do vtake (← threadEnv) op reads writes units) s = some (vs, t)

/-- The old value of a vector destination; free for a stream (R307). -/
def OldOf (d : Fld) (s : State) (v : Vec) (t : State) : Prop := after (do vold (← threadEnv) d) s = some (v, t)

/-- The state after a vector result of an instruction of latency k has been written, or pushed to a write stream (R306). -/
def State.wroteV (s : State) (k : Nat) (d : Fld) (v : Vec) : State := s.did (do vwrite k (← threadEnv) d v)

/-- Flags raised: they OR into status [4:0] (R122). -/
def State.flagged (s : State) (fl : BitVec 5) : State := s.updMe fun x => { x with status := x.status ||| fl.setWidth 32 }

/-- The low n bytes of a word, lowest first (R4). -/
def bytesOf (v : Word) (n : Nat) : List Byte := (List.range n).map (fun j => v.extractLsb' (8 * j) 8)

/-- The registers of an instruction pass the checks of R202, R206 and R212, none is pending, nor is ix where a field is
relative, none is a channel, and the shared bank, if one is in it, is the launch's on a compute core (R35, R229). -/
def Fits (us : List Use) (s : State) : Bool :=
  (fieldTrap us s.me).isNone && us.all (fun u => !(s.me.isPend (u.preg s.me))) && !(us.any Use.rel && s.me.isPend .ix) &&
  (srcChans us s.me).isEmpty && (dstChans us s.me).isEmpty &&
  (us.all (fun u => !(u.shared s.me)) ||
    ((s.at' s.cur.pl).bankLaunch == some s.me.launch && (match s.cur.pl with
      | .core _ => true
      | .slice _ => false)))

end Sys2Proof.Machine
end

