-- ==== Sys2Proof/Certificates/Slice0/Obligations.lean ====
section
/-! DEFINITION. The statements for the provers, from the numbered rules of spec/. -/

open Sys2Proof Sys2Proof.Machine

-- encoding and decoding

/-- R200-R216: the word that the encoding tables give a well-formed instruction decodes to that instruction, whatever
guard and early-binding bits stand in its header; the guard pair g = 0, gn = 1 is reserved (R201). R200-R216: decode
of encode is the instruction, for every well-formed instruction; a word of an unassigned opcode, which R438 makes a
step of its own, is among them. -/
def Obligations.EncodingRoundTrip : Prop :=
  (∀ (i : Instr) (w : Word) (g : BitVec 4) (gn : Bool) (eb : BitVec 4),
     i.wf = true → encode i = some w → unassigned (fOp w).toNat = false → ¬(g = 0 ∧ gn = true) →
     decode (w ||| (0#8 ++ g ++ BitVec.ofBool gn ++ eb ++ 0#47 : BitVec 64)) = some ⟨g, gn, eb, i⟩) ∧
  (∀ i : Instr, i.wf = true → ∀ w, encode i = some w → decode w = some ⟨0, false, 0, i⟩)

/-- R203: a word of an assigned opcode that the decoder accepts is, but for its header, exactly the word of a well-formed
instruction, and it does not carry the reserved guard pair: no unused field and no reserved value is let pass.
The model's own choices here: DEDUCED, log 66. -/
def Obligations.DecodeAcceptsOnlyEncodings : Prop :=
  ∀ (w : Word) (d : Decoded), decode w = some d → unassigned (w.extractLsb' 56 8).toNat = false →
    d.ins.wf = true ∧ encode d.ins = some (w &&& 0xFF007FFFFFFFFFFF#64) ∧
    d.g = w.extractLsb' 52 4 ∧ d.gn = w.getLsbD 51 ∧ d.eb = w.extractLsb' 47 4 ∧ ¬(d.g = 0 ∧ d.gn = true)

/-- Words written out bit by bit from the tables of 09_encoding (R204, R207-R210, R214, R215) decode to what they stand
for: one word or two of each format. -/
def Obligations.WrittenWordsDecode : Prop :=
  decode 0x10000A1060000000 = some ⟨0, false, 0, .add ⟨⟨5, false⟩, ⟨2, false⟩, ⟨3, false⟩⟩⟩ ∧
  decode 0x1320020840000A00 = some ⟨2, false, 0, .mulh ⟨⟨1, true⟩, ⟨1, true⟩, ⟨2, false⟩⟩⟩ ∧
  decode 0x30000E20FFFFFFF8 = some ⟨0, false, 0, .addi ⟨7, 4, 0xFFFFFFF8⟩⟩ ∧
  decode 0x443801FFFFFFFFFD = some ⟨3, true, 0, .bra 0x1FFFFFFFFFD⟩ ∧
  decode 0x50000A106A1FFFF0 = some ⟨0, false, 0, .ld ⟨5, ⟨2, 3, 1, 0xFFFF0⟩, 2, true⟩⟩ ∧
  decode 0x60000A1071000010 = some ⟨0, false, 0, .amo 0 ⟨5, 2, 3, true, 4, 16⟩⟩ ∧
  decode 0x8400421062000060 = some ⟨0, false, 0, .vmin ⟨⟨0x21, false⟩, ⟨2, false⟩, ⟨3, false⟩, 4, 1, true⟩⟩ ∧
  decode 0xD3000A30E1230009 = some ⟨0, false, 0, .cwait ⟨5, 6, 7, 3, 9, true, false⟩ 2⟩

-- reset

/-- R27, R35, R41, R58, R70, R137, R138, R385: the state right after reset. Nothing has booted, the cycle counter is 0, no
launch, queue, packet or thing in transit exists, every carriage is EMPTY with revolution 0, every slot is free with bit 0 of
its pw at 1 and no trap delivered (tcause lane 0xFF), and every bank is in CACHE mode.
The model's own choices here: DESIGN CHOICE, log 1, 10. -/
def Obligations.ResetState : Prop :=
  State.reset.cyc = 0 ∧ State.reset.booted = false ∧ State.reset.launches = [] ∧ State.reset.flights = [] ∧
  State.reset.cmds = [] ∧ State.reset.queues = [] ∧
  (∀ n, (State.reset.car n).st = .empty ∧ (State.reset.car n).rev = 0) ∧
  (∀ i, (State.reset.slotAt i).busy = false ∧ (State.reset.slotAt i).pw = 1 ∧
    (State.reset.slotAt i).tcause = 0x000000FF00000000) ∧
  (∀ p b, b < 5 → (State.reset.at' p).banks.toList[b]? = some .cache)

/-- Reset's byte memories are in canonical form.
The model's own choices here: DESIGN CHOICE, log 2. -/
def Obligations.ResetMemoriesCanonical : Prop := State.reset.memOk = true

/-- Every step keeps every byte memory (device, host, local stores, residency copies) in canonical form: addresses strictly
rising, no entry equal to what an unlisted address reads.
The model's own choices here: DESIGN CHOICE, log 2. -/
def Obligations.StepsKeepMemoriesCanonical : Prop := KeptBySteps (fun s => s.memOk = true)

-- a turn

/-- R27, R202: when the next action is a turn of a slot in one of its own cycles, the slot holds a thread that nothing keeps
from issuing, and the word fetched at the pc decodes to an instruction with no early-binding bit, whose guard holds, and that
the mode and the place allow, the step is exec of that instruction, in the state after the fetch with the word noted.
The model's own choices here: DESIGN CHOICE, log 3. -/
def Obligations.StepRunsFetchedInstruction : Prop :=
  ∀ (s s1 t : State) (pl : Place) (k : Nat) (w : Word) (d : Decoded),
    s.nextAct = (.turn pl k, s1) →
    let i : Sid := ⟨pl, k⟩
    let s2 := s1.turnStart i
    let x := s2.me
    s1.cyc % 8 = k → (s1.slotAt i).lastIssue ≠ some s1.cyc → s1.turnHeld i = false →
    x.busy = true → x.hold = .none → x.gatherWait = false → x.stopped = false → x.preempted = false →
    x.sliceTrap = none → x.late = none → x.ints = [] → x.asleep = none → ¬(x.residual = true ∧ x.pc = 0) →
    after fetch s2 = some (w, t) →
    decode w = some d → unassigned (fOp w).toNat = false → d.eb = 0 →
    (supervisorOnly d.ins = false ∨ x.mode = .supervisor) → x.isPend .pw = false → x.pred d.g ≠ d.gn →
    (∀ n, t.cur.pl = .slice n → sliceOpcode (fOp w).toNat = true) →
    step s = exec d.ins { t.markStart x.launch with word := w }

/-- R27: a slot's turn in a cycle that is not one of its own, or whose issue it has used, changes nothing. R202, R201,
R203, R217: the checks of an issuing slot in their order. An illegal word raises the illegal-instruction trap with the
word, and so do early-binding bits; a supervisor-only instruction in user mode raises the privilege trap; a pending pw
loses the turn; a guard that does not hold ends the turn with the pc 8 on and nothing else written. R53: one that holds, before an opcode
that a slice core does not execute, makes the thread leave the slice core for its origin core.
The model's own choices here: DEDUCED, log 19, 40, 62. -/
def Obligations.TurnsAndIssueChecks : Prop :=
  (∀ (i : Sid) (s : State), s.cyc % 8 ≠ i.k ∨ (s.slotAt i).lastIssue = some s.cyc → turnStep i s = .next s) ∧
  (∀ (s t : State) (w : Word), ¬(s.me.residual = true ∧ s.me.pc = 0) → after fetch s = some (w, t) →
     let t1 := { t.markStart s.me.launch with word := w }
     (decode w = none → runTurn (issueTurn s) = .next (t1.trapped cIllegal w)) ∧
     ∀ d, decode w = some d → unassigned (fOp w).toNat = false →
       (d.eb ≠ 0 → runTurn (issueTurn s) = .next (t1.trapped cIllegal w)) ∧
       (d.eb = 0 → supervisorOnly d.ins = true → s.me.mode = .user →
         runTurn (issueTurn s) = .next (t1.trapped cPrivilege w)) ∧
       (d.eb = 0 → (supervisorOnly d.ins = false ∨ s.me.mode = .supervisor) → s.me.isPend .pw = true →
         runTurn (issueTurn s) = .next t1) ∧
       (d.eb = 0 → (supervisorOnly d.ins = false ∨ s.me.mode = .supervisor) → s.me.isPend .pw = false →
         s.me.pred d.g = d.gn → runTurn (issueTurn s) = .next t1.ended) ∧
       (∀ n, d.eb = 0 → (supervisorOnly d.ins = false ∨ s.me.mode = .supervisor) → s.me.isPend .pw = false →
         s.me.pred d.g ≠ d.gn → t.cur.pl = .slice n → sliceOpcode (fOp w).toNat = false →
         runTurn (issueTurn s) = .next t1.sentHome))

-- registers

/-- R202, R29, R35, R206, R212: an instruction whose registers pass the checks executes from the same state; no channel is
among them here (ChannelResults covers those). -/
def Obligations.FittingRegistersAreReady : Prop := ∀ (us : List Use) (s : State), Fits us s = true → Ready us s s

/-- R202, R206, R212, R29, R35, R229: the checks of the registers an instruction names. A relative general field whose number
reaches 16, or a relative vector field whose number reaches the slot's allocation, raises the register-index trap with tval :=
ix; a private vector code at or above the allocation raises it with tval := the code. An instruction one of whose fields is
relative while ix is pending loses its turn before that, and one with a register pending after it: nothing happens. A thread that names a shared register leaves a slice core for its origin core;
on a compute core whose bank launch is another launch it takes the shared-bank trap with tval := the word. -/
def Obligations.RegisterChecks : Prop :=
  (∀ (s : State) (f : Fld), (f.rel = true → s.me.isPend .ix = false) →
    (f.rel = true → 16 ≤ f.code.toNat + s.me.ix.toNat →
      run (prep [.src f]) s = .next (s.trapped cRegIndex s.me.ix) ∧
      run (prep [.dst f]) s = .next (s.trapped cRegIndex s.me.ix)) ∧
    (f.rel = true → s.me.nalloc ≤ f.code.toNat + s.me.ix.toNat →
      run (prep [.vec f]) s = .next (s.trapped cRegIndex s.me.ix)) ∧
    (f.rel = false → f.code.toNat < 32 → s.me.nalloc ≤ f.code.toNat →
      run (prep [.vec f]) s = .next (s.trapped cRegIndex (f.code.setWidth 64)))) ∧
  (∀ (us : List Use) (s : State), (∃ u ∈ us, u.rel = true ∧ s.me.isPend .ix = true) → run (prep us) s = .next s) ∧
  (∀ (us : List Use) (s : State), fieldTrap us s.me = none →
    ((∃ u ∈ us, s.me.isPend (u.preg s.me) = true) → run (prep us) s = .next s) ∧
    ((∀ u ∈ us, s.me.isPend (u.preg s.me) = false ∧ (u.rel = true → s.me.isPend .ix = false)) → (∃ u ∈ us, u.shared s.me = true) →
      (∀ n, s.cur.pl = .slice n → run (prep us) s = .next s.sentHome) ∧
      (∀ n, s.cur.pl = .core n → (s.at' s.cur.pl).bankLaunch ≠ some s.me.launch →
        run (prep us) s = .next (s.trapped cShared s.word))))

/-- R211, R33, R206: what a general field reads and what a write to it does. c is the register's number: the field's code,
plus ix when it is relative. g0 reads 0 and a write to it is discarded; pw reads and keeps bit 0 as 1; a shared
register's write is queued for the cycle issue + k (R227). R212, R206: what a vector field reads and what a write to
it does. -/
def Obligations.FieldReadsAndWrites : Prop :=
  (∀ (f : Fld) (s : State) (c : Nat), c = (if f.rel then f.code.toNat + s.me.ix.toNat else f.code.toNat) → c < 64 →
     (c = 0 → Reads f s 0 s) ∧
     (∀ h : c < 16, c ≠ 0 → Reads f s s.me.g[c] s) ∧
     (c = 0x18 → Reads f s ((s.me.pw ||| 1).setWidth 64) s) ∧
     (c = 0x19 → Reads f s s.me.ix s) ∧
     (c = 0x1A → Reads f s s.me.wid s) ∧
     (∀ h : c - 32 < 32, 32 ≤ c → Reads f s (((s.at' s.cur.pl).settle s.cyc).s[c - 32]) s) ∧
     (∀ (k : Nat) (v : Word),
       (c = 0 → s.wrote k f v = s.updMe id) ∧
       (∀ h : c < 16, c ≠ 0 → s.wrote k f v = s.updMe (fun x => { x with g := x.g.set c v })) ∧
       (c = 0x18 → s.wrote k f v = s.updMe (fun x => { x with pw := v.setWidth 16 ||| 1 })) ∧
       (c = 0x19 → s.wrote k f v = s.updMe (fun x => { x with ix := v })) ∧
       (32 ≤ c → s.wrote k f v = s.setAt s.cur.pl { (s.at' s.cur.pl).settle s.cyc with
         sharedQ := ((s.at' s.cur.pl).settle s.cyc).sharedQ ++ [⟨s.cyc + k, s.cur.k, false, c - 32, v.setWidth 512⟩] }))) ∧
  (∀ (f : Fld) (s : State) (k : Nat) (v : Vec) (c : Nat),
     c = (if f.rel then f.code.toNat + s.me.ix.toNat else f.code.toNat) → c < 64 →
     (∀ h : c < 32, ReadsVec f s s.me.f[c] s ∧ s.wroteVec k f v = s.updMe (fun x => { x with f := x.f.set c v })) ∧
     (∀ h : c - 32 < 32, 32 ≤ c → ReadsVec f s (((s.at' s.cur.pl).settle s.cyc).c[c - 32]) s ∧
       s.wroteVec k f v = s.setAt s.cur.pl { (s.at' s.cur.pl).settle s.cyc with
         sharedQ := ((s.at' s.cur.pl).settle s.cyc).sharedQ ++ [⟨s.cyc + k, s.cur.k, true, c - 32, v⟩] }))

/-- R34: of the writes to one shared register that take effect in one cycle, the one from the lowest-numbered slot is applied last
and remains, whatever else the queue holds, so long as nothing later to that register has taken effect since and that slot
has no second write to it in that cycle. R227: an instruction of latency k that issues in cycle c writes s<n> so that instructions
that issue from c + k on read the new value and those that issue before read the old one (once the earlier writes have landed). -/
def Obligations.SharedRegisterWrites : Prop :=
  (∀ (c : CoreSt) (a cy now n : Nat) (vec : Bool) (v : Vec) (h : n < 32) (l r : List SharedWr),
    c.sharedQ = l ++ ⟨cy, a, vec, n, v⟩ :: r → cy ≤ now →
    (∀ w ∈ l ++ r, w.vec = vec → w.idx = n → w.from' ≤ now → w.from' < cy ∨ (w.from' = cy ∧ a < w.slot)) →
    (vec = false → (c.settle now).s[n] = v.setWidth 64) ∧ (vec = true → (c.settle now).c[n] = v)) ∧
  (∀ (s : State) (f : Fld) (k : Nat) (v : Word) (n : Nat) (h : n < 32) (c' : Nat),
    f.rel = false → f.code.toNat = n + 32 → (∀ w ∈ (s.at' s.cur.pl).sharedQ, w.from' ≤ s.cyc) → s.cyc ≤ c' →
    let t := s.wrote k f v
    (s.cyc + k ≤ c' → ((t.at' s.cur.pl).settle c').s[n] = v) ∧
    (c' < s.cyc + k → ((t.at' s.cur.pl).settle c').s[n] = ((s.at' s.cur.pl).settle c').s[n]))

/-- Frame of a register write and of the end of an instruction: a write to a general field that names no channel, and the
advance of the pc, leave every other part of the state as it was: of State only the places change; of the place only its
slots and, for a shared register, its shared bank; of the slots only the executing one; of that one only the register named
(any other g register, pw unless it is named, ix unless it is named, all other fields stay). -/
def Obligations.RegisterWriteFrame : Prop :=
  ∀ (s : State) (f : Fld) (k : Nat) (v : Word) (c : Nat),
    c = (if f.rel then f.code.toNat + s.me.ix.toNat else f.code.toNat) → c < 64 → (c < 16 ∨ 24 ≤ c) →
    let t := (s.wrote k f v).ended
    { t with cores := s.cores, slices := s.slices } = s ∧
    (∀ l, t.byteAt l = s.byteAt l) ∧
    (∀ j, j ≠ s.cur → t.slotAt j = s.slotAt j) ∧
    (∀ p, p ≠ s.cur.pl → t.at' p = s.at' p) ∧
    { t.at' s.cur.pl with
      slots := (s.at' s.cur.pl).slots, s := (s.at' s.cur.pl).s, c := (s.at' s.cur.pl).c,
      sharedQ := (s.at' s.cur.pl).sharedQ } = s.at' s.cur.pl ∧
    (c < 32 → (t.at' s.cur.pl).s = (s.at' s.cur.pl).s ∧ (t.at' s.cur.pl).c = (s.at' s.cur.pl).c) ∧
    (∀ r : BitVec 4, r.toNat ≠ c → t.me.gr r = s.me.gr r) ∧
    (c ≠ 0x18 → t.me.pw = s.me.pw) ∧ (c ≠ 0x19 → t.me.ix = s.me.ix) ∧
    { t.me with
      g := s.me.g, pw := s.me.pw, ix := s.me.ix, pc := s.me.pc, asleep := s.me.asleep, hold := s.me.hold,
      relDone := s.me.relDone, stage := s.me.stage, spec := s.me.spec, walkWait := s.me.walkWait } = s.me ∧
    t.me.pc = s.me.pc + 8

-- integers, predicates, branches

/-- R246, R227: the register-register integer operations. With its registers ready, and x and y the values of a and b, each
writes d as the table of R246 says, with the latency of R227, and the thread goes on at pc + 8; the divisions do so when
y ≠ 0 (DivisionByZeroTraps says what they do otherwise). -/
def Obligations.RegisterIntegerResults : Prop :=
  ∀ (o : DAB) (s s1 s2 s3 : State) (x y : Word),
    Ready [.dst o.d, .src o.a, .src o.b] s s1 → Reads o.a s1 x s2 → Reads o.b s2 y s3 →
    let gives (i : Instr) (k : Nat) (v : Word) := exec i s = .next (s3.wrote k o.d v).ended
    gives (.add o) 4 (x + y) ∧ gives (.sub o) 4 (x - y) ∧
    gives (.mul o) 6 (BitVec.ofNat 64 (x.toNat * y.toNat)) ∧
    gives (.mulh o) 6 (BitVec.ofInt 64 (x.toInt * y.toInt / 2 ^ 64)) ∧
    gives (.mulhu o) 6 (BitVec.ofNat 64 (x.toNat * y.toNat / 2 ^ 64)) ∧
    (y ≠ 0 → gives (.div o) 7 (BitVec.ofInt 64 (x.toInt.tdiv y.toInt)) ∧
      gives (.divu o) 7 (BitVec.ofNat 64 (x.toNat / y.toNat)) ∧
      gives (.rem o) 7 (BitVec.ofInt 64 (x.toInt - y.toInt * x.toInt.tdiv y.toInt)) ∧
      gives (.remu o) 7 (BitVec.ofNat 64 (x.toNat - y.toNat * (x.toNat / y.toNat)))) ∧
    gives (.and o) 4 (x &&& y) ∧ gives (.or o) 4 (x ||| y) ∧ gives (.xor o) 4 (x ^^^ y) ∧
    gives (.andn o) 4 (x &&& ~~~y) ∧
    gives (.sll o) 4 (BitVec.ofNat 64 (x.toNat * 2 ^ (y.toNat % 64))) ∧
    gives (.srl o) 4 (BitVec.ofNat 64 (x.toNat / 2 ^ (y.toNat % 64))) ∧
    gives (.sra o) 4 (BitVec.ofInt 64 (x.toInt / 2 ^ (y.toNat % 64))) ∧
    gives (.min o) 4 (BitVec.ofInt 64 (Min.min x.toInt y.toInt)) ∧
    gives (.max o) 4 (BitVec.ofInt 64 (Max.max x.toInt y.toInt)) ∧
    gives (.minu o) 4 (BitVec.ofNat 64 (Min.min x.toNat y.toNat)) ∧
    gives (.maxu o) 4 (BitVec.ofNat 64 (Max.max x.toNat y.toNat)) ∧
    gives (.addw o) 4 (((x + y).setWidth 32).signExtend 64) ∧
    gives (.subw o) 4 (((x - y).setWidth 32).signExtend 64) ∧
    (∀ sh : BitVec 2, gives (.lea o sh) 4 (x + BitVec.ofNat 64 (y.toNat * 2 ^ sh.toNat)))

/-- R247: DIV, DIVU, REM and REMU with y = 0 raise the integer-divide trap, with tval := x, and write nothing (the state is
the one in which the instruction was tried: no channel word is taken); DIV of -2^63 by -1 writes -2^63 and REM of the same
pair writes 0, without a trap. -/
def Obligations.DivisionByZeroTraps : Prop :=
  ∀ (o : DAB) (s s1 s2 s3 : State) (x y : Word),
    Ready [.dst o.d, .src o.a, .src o.b] s s1 → Reads o.a s1 x s2 → Reads o.b s2 y s3 →
    (y = 0 → exec (.div o) s = .next (s1.trapped cDivide x) ∧ exec (.divu o) s = .next (s1.trapped cDivide x) ∧
      exec (.rem o) s = .next (s1.trapped cDivide x) ∧ exec (.remu o) s = .next (s1.trapped cDivide x)) ∧
    (x = 0x8000000000000000 → y = 0xFFFFFFFFFFFFFFFF →
      exec (.div o) s = .next (s3.wrote 7 o.d 0x8000000000000000).ended ∧
      exec (.rem o) s = .next (s3.wrote 7 o.d 0).ended)

/-- R248, R249, R250: the immediate and one-source operations. -/
def Obligations.ImmediateAndUnaryResults : Prop :=
  (∀ (o : IOp) (s s1 s2 : State) (x : Word), Ready [.dst (plain o.d), .src (plain o.a)] s s1 →
    Reads (plain o.a) s1 x s2 →
    let i := o.imm.signExtend 64
    let gives (n : Instr) (k : Nat) (v : Word) := exec n s = .next (s2.wrote k (plain o.d) v).ended
    gives (.addi o) 4 (x + i) ∧ gives (.andi o) 4 (x &&& i) ∧ gives (.ori o) 4 (x ||| i) ∧ gives (.xori o) 4 (x ^^^ i) ∧
    gives (.muli o) 6 (x * i)) ∧
  (∀ (o : IShift) (s s1 s2 : State) (x : Word), Ready [.dst (plain o.d), .src (plain o.a)] s s1 →
    Reads (plain o.a) s1 x s2 →
    let gives (n : Instr) (v : Word) := exec n s = .next (s2.wrote 4 (plain o.d) v).ended
    gives (.slli o) (BitVec.ofNat 64 (x.toNat * 2 ^ o.sh.toNat)) ∧
    gives (.srli o) (BitVec.ofNat 64 (x.toNat / 2 ^ o.sh.toNat)) ∧
    gives (.srai o) (BitVec.ofInt 64 (x.toInt / 2 ^ o.sh.toNat))) ∧
  (∀ (d : BitVec 6) (imm : BitVec 32) (s s1 : State), Ready [.dst (plain d)] s s1 →
    exec (.li d imm) s = .next (s1.wrote 4 (plain d) (imm.signExtend 64)).ended) ∧
  (∀ (d : BitVec 6) (imm : BitVec 32) (s s1 s2 : State) (x : Word), Ready [.dst (plain d), .src (plain d)] s s1 →
    Reads (plain d) s1 x s2 →
    exec (.lih d imm) s = .next (s2.wrote 4 (plain d) (BitVec.ofNat 64 (imm.toNat * 2 ^ 32 + x.toNat % 2 ^ 32))).ended) ∧
  (∀ (o : DA) (s s1 s2 : State) (x : Word), Ready [.dst o.d, .src o.a] s s1 → Reads o.a s1 x s2 →
    let gives (n : Instr) (v : Word) := exec n s = .next (s2.wrote 4 o.d v).ended
    gives (.mov o) x ∧
    (∀ n : Nat, n ≤ 64 → (∀ j, 64 - n ≤ j → j < 64 → x.getLsbD j = false) → (n < 64 → x.getLsbD (63 - n) = true) →
      gives (.clz o) (BitVec.ofNat 64 n)) ∧
    (∀ n : Nat, n ≤ 64 → (∀ j, j < n → x.getLsbD j = false) → (n < 64 → x.getLsbD n = true) →
      gives (.ctz o) (BitVec.ofNat 64 n)) ∧
    gives (.popc o) (BitVec.ofNat 64 ((List.range 64).countP (fun j => x.getLsbD j))))

/-- R251, R252, R253, R255: bit fields (a field that ends beyond bit 63 is illegal), selection, multiply-add, cell keys.
R41, R254, R256: WIDF gives field k of the work identifier, and GEOM the clip limits beside the tile's indices, with
the predicate of whether the tile is inside; the layout is word 3 of the launch header. -/
def Obligations.FieldSelectAndWorkIdentifierResults : Prop :=
  ((∀ (o : BitField) (s s1 s2 : State) (x : Word), o.pos.toNat + o.width1.toNat + 1 ≤ 64 →
     (Ready [.dst o.d, .src o.a] s s1 → Reads o.a s1 x s2 →
       exec (.bfx o) s =
         .next (s2.wrote 4 o.d (BitVec.ofNat 64 (x.toNat / 2 ^ o.pos.toNat % 2 ^ (o.width1.toNat + 1)))).ended) ∧
     (∀ (s3 : State) (y : Word), Ready [.dst o.d, .src o.a, .src o.d] s s1 → Reads o.a s1 x s2 → Reads o.d s2 y s3 →
       ∃ v : Word, exec (.bfi o) s = .next (s3.wrote 4 o.d v).ended ∧
         ∀ j, j < 64 → v.getLsbD j =
           if o.pos.toNat ≤ j ∧ j ≤ o.pos.toNat + o.width1.toNat then x.getLsbD (j - o.pos.toNat) else y.getLsbD j)) ∧
   (∀ (o : BitField) (s : State), 64 < o.pos.toNat + o.width1.toNat + 1 →
     exec (.bfx o) s = .next (s.trapped cIllegal s.word) ∧ exec (.bfi o) s = .next (s.trapped cIllegal s.word)) ∧
   (∀ (o : DAB) (c : BitVec 4) (s s1 s2 s3 : State) (x y : Word),
     Ready [.dst o.d, .src o.a, .src o.b, .pw] s s1 → Reads o.a s1 x s2 → Reads o.b s2 y s3 →
     exec (.sel o c) s = .next (s3.wrote 4 o.d (if c = 0 ∨ s1.me.pw.getLsbD c.toNat = true then x else y)).ended) ∧
   (∀ (o : DAB) (c : BitVec 6) (s s1 s2 s3 s4 : State) (x y z : Word),
     Ready [.dst o.d, .src o.a, .src o.b, .src (plain c)] s s1 → Reads o.a s1 x s2 → Reads o.b s2 y s3 →
     Reads (plain c) s3 z s4 →
     exec (.madd o c) s = .next (s4.wrote 6 o.d (x * y + z)).ended ∧
     exec (.cellh o c) s = .next (s4.wrote 4 o.d (z + cellKey x y)).ended)) ∧
  ((∀ (d : Fld) (k : BitVec 3) (s s1 : State) (l : Launch) (lay : Word), Ready [.dst d] s s1 → k.toNat ≤ 5 →
     s1.launch? s1.me.launch = some l → l.hdr[3]? = some lay →
     let w (j : Nat) := lay.toNat / 2 ^ (6 * j) % 64
     let b := ((List.range k.toNat).map w).sum
     exec (.widf d k) s =
       .next (s1.wrote 4 d (BitVec.ofNat 64 (s1.me.wid.toNat / 2 ^ b % 2 ^ w k.toNat))).ended) ∧
   (∀ (d : Fld) (c : BitVec 4) (s s1 : State), Ready [.dst d, .pw] s s1 →
     let g := s1.me.mgeo
     let field (n : BitVec 8) := fieldOf (s1.hdrWord s1.cur 3) s1.me.wid n.toNat
     let ti := field (g.extractLsb' 48 8)
     let tj := field (g.extractLsb' 56 8)
     exec (.geom d c) s =
       .next (((s1.wrote 4 d (g.extractLsb' 32 16 ++ 0#16 ++ tj.setWidth 16 ++ ti.setWidth 16 : BitVec 64)).updMe
         (fun x => x.setPred c (decide (ti.toNat < (g.extractLsb' 0 16).toNat) &&
           decide (tj.toNat < (g.extractLsb' 16 16).toNat)))).ended)))

/-- R216: what each condition code tests. -/
def Sys2Proof.Machine.conditionHolds (code : Nat) (x y : Word) : Prop :=
  (code = 0 ∧ x = y) ∨ (code = 1 ∧ x ≠ y) ∨ (code = 2 ∧ x.toInt < y.toInt) ∨ (code = 3 ∧ y.toInt ≤ x.toInt) ∨
  (code = 4 ∧ y.toInt < x.toInt) ∨ (code = 5 ∧ x.toInt ≤ y.toInt) ∨ (code = 6 ∧ x.toNat < y.toNat) ∨
  (code = 7 ∧ y.toNat < x.toNat)

/-- R216, R257, R258, R259, R33: compares, predicate logic and predicate writes. Each writes the predicate named, p0
excepted, and nothing else but the pc. R209, R260, R261, R262: BRA, CALL, JMP and LOOP. The target of the B format is
pc + 8 x off; CALL and JMP write pc + 8 to their link register, JMP after its target has been read; a JMP to an
address that is no multiple of 8 raises the access-violation trap with tval := the address and the misaligned kind in the fault detail (R425); LOOP counts down and
branches while the count is not 0. -/
def Obligations.PredicateAndBranchResults : Prop :=
  ((∀ (p : BitVec 4) (cond : BitVec 3) (a b : Fld) (s s1 s2 s3 : State) (x y : Word),
     Ready [.pw, .src a, .src b] s s1 → Reads a s1 x s2 → Reads b s2 y s3 →
     ∃ v, exec (.cmp p cond a b) s = .next (s3.updMe (fun z => z.setPred p v)).ended ∧
       (v = true ↔ conditionHolds cond.toNat x y)) ∧
   (∀ (p : BitVec 4) (cond : BitVec 3) (a : BitVec 6) (imm : BitVec 32) (s s1 s2 : State) (x : Word),
     Ready [.pw, .src (plain a)] s s1 → Reads (plain a) s1 x s2 →
     ∃ v, exec (.cmpi p cond a imm) s = .next (s2.updMe (fun z => z.setPred p v)).ended ∧
       (v = true ↔ conditionHolds cond.toNat x (imm.signExtend 64))) ∧
   (∀ (p pa pb table : BitVec 4) (s s1 : State), Ready [.pw] s s1 →
     exec (.plog p pa pb table) s = .next (s1.updMe (fun z => z.setPred p
       (table.getLsbD ((if z.pred pa then 2 else 0) + (if z.pred pb then 1 else 0))))).ended) ∧
   (∀ (p : BitVec 4) (v : Bool) (s s1 : State), Ready [.pw] s s1 →
     exec (.pset p v) s = .next (s1.updMe (fun z => z.setPred p v)).ended) ∧
   (∀ (mask : BitVec 16) (s s1 : State), Ready [.pw] s s1 →
     exec (.psetPw mask) s = .next (s1.updMe (fun z => { z with pw := mask ||| 1 })).ended) ∧
   (∀ (z : Slot) (p q : BitVec 4) (v : Bool),
     (z.setPred p v).pred q = (if q = 0 then true else if q = p then v else z.pred q) ∧
     { z.setPred p v with pw := z.pw } = z)) ∧
  ((∀ (off : BitVec 41) (s : State), exec (.bra off) s = .next (s.wentTo (s.me.pc + 8 * off.signExtend 64))) ∧
   (∀ (d : BitVec 4) (off : BitVec 41) (s s1 : State), Ready [.dst (gf d)] s s1 →
     exec (.call d off) s =
       .next ((s1.wrote 4 (gf d) (s1.me.pc + 8)).wentTo (s1.me.pc + 8 * off.signExtend 64))) ∧
   (∀ (d a : Fld) (s s1 s2 : State) (x : Word), Ready [.dst d, .src a] s s1 → Reads a s1 x s2 →
     (x.toNat % 8 = 0 → exec (.jmp d a) s = .next ((s2.wrote 4 d (s2.me.pc + 8)).wentTo x)) ∧
     (x.toNat % 8 ≠ 0 → exec (.jmp d a) s = .next (s2.raise s2.cur ⟨cAccess, x, 0xFF, none, some 0xF5⟩))) ∧
   (∀ (d : BitVec 4) (off : BitVec 41) (s s1 s2 : State) (n : Word), Ready [.dst (gf d), .src (gf d)] s s1 →
     Reads (gf d) s1 n s2 →
     exec (.loop d off) s = .next ((s2.wrote 4 (gf d) (n - 1)).wentTo
       (if n = 1 then s2.me.pc + 8 else s2.me.pc + 8 * off.signExtend 64))))

/-- The integer, compare and branch instructions with the general register each writes, if any. -/
def Sys2Proof.Machine.registerInstr : Instr → Option (Option Fld)
  | .add o | .sub o | .mul o | .mulh o | .mulhu o | .div o | .divu o | .rem o | .remu o | .and o | .or o | .xor o
  | .andn o | .sll o | .srl o | .sra o | .min o | .max o | .minu o | .maxu o | .addw o | .subw o | .lea o _ | .sel o _
  | .madd o _ | .cellh o _ => some (some o.d)
  | .addi o | .andi o | .ori o | .xori o | .muli o => some (some (plain o.d))
  | .slli o | .srli o | .srai o => some (some (plain o.d))
  | .li d _ | .lih d _ => some (some (plain d))
  | .mov o | .clz o | .ctz o | .popc o => some (some o.d)
  | .bfx o | .bfi o => some (some o.d)
  | .widf d _ | .geom d _ => some (some d)
  | .cmp _ _ _ _ | .cmpi _ _ _ _ | .plog _ _ _ _ | .pset _ _ | .psetPw _ | .bra _ => some none
  | .call d _ | .loop d _ => some (some (gf d))
  | .jmp d _ => some (some d)
  | _ => none

/-- Frame of the integer, compare and branch instructions, whatever they come to (done, a turn lost, a wait, a trap, a
departure): no byte of device or host memory or of any local store changes; no other slot changes; of the executing slot no g
register but the destination, no vector register, no status bit, shadow, membership, stream, bucket or handler address
changes; no accumulator, palette, tender or L2 line changes. -/
def Obligations.RegisterInstructionsFrame : Prop :=
  ∀ (i : Instr) (d : Option Fld) (s t : State), registerInstr i = some d → exec i s = .next t →
    t.mem = s.mem ∧ t.hostMem = s.hostMem ∧ (∀ l, t.byteAt l = s.byteAt l) ∧
    (∀ j, j ≠ s.cur → t.slotAt j = s.slotAt j) ∧
    (∀ r : BitVec 4, (∀ f, d = some f → (fldEff f s.me).toNat ≠ r.toNat) → t.me.gr r = s.me.gr r) ∧
    t.me.f = s.me.f ∧ t.me.status = s.me.status ∧ t.me.fshadow = s.me.fshadow ∧ t.me.sshadow = s.me.sshadow ∧
    t.me.member = s.me.member ∧ t.me.bucket = s.me.bucket ∧ t.me.wid = s.me.wid ∧ t.me.utvec = s.me.utvec ∧
    t.me.uivec = s.me.uivec ∧ t.me.streams = s.me.streams ∧
    (∀ p, (t.at' p).acc = (s.at' p).acc ∧ (t.at' p).pal = (s.at' p).pal ∧ (t.at' p).tenders = (s.at' p).tenders) ∧
    t.l2 = s.l2 ∧ t.cars = s.cars ∧ t.launches = s.launches

-- exceptions

/-- The thread x of a core's slot leaves the counts as at its EXIT: a delta of -1 at its bucket, one task executed (R231, R415). -/
def Sys2Proof.Machine.CountedOut (s t : State) (n : Nat) (x : Slot) : Prop :=
  let d := tabGet deltasReset (s.core' n).deltas x.launch
  let e := tabGet deltasReset (t.core' n).deltas x.launch
  d.add x.bucket.toNat (-1) = some { e with executed := d.executed } ∧ e.executed = d.executed + 1

/-- R404, R405, R407, R410, R411, R413, R414, R425: what taking an exception on a compute core does to the slot. The trap registers are
written (tcause with its lost count kept, tval, tpc, tseq) and tpc is the pc. If status.utrap_en is 1, utvec is not 0, the cause is deliverable, no
user handler runs and the mode is user, the handler becomes trap and the pc utvec. Otherwise sepc is tpc (the address after
it for a system call), smode the mode, the mode supervisor and the pc svec, and Umber has the trap. R233, R395, R409, R415: what Umber
then does, as an action of the device, once it can write. It services a system call and returns with the service's value in g1; it
maps the page of a page fault where its policy does, drops the page's old translations and returns; for every other trap, and a page it does not map, it kills
the thread once its tile operation and channel words are over: 1 + lost faults are counted, its barriers poisoned, its task
counted out, its residency slots released, and its slot is free.
The model's own choices here: DESIGN CHOICE, log 6, 11; DEDUCED, log 14, 84, 86. -/
def Obligations.TrapEntry : Prop :=
  (∀ (pl : Place) (k : Nat) (rest : List Act) (s : State), s.agenda = .umber pl k :: rest →
    step s = .next (({ s with agenda := rest } : State).umberAct ⟨pl, k⟩)) ∧
  (∀ (s : State) (n k : Nat),
    let i : Sid := ⟨.core n, k⟩
    let x := s.slotAt i
    let lost := (x.tcause.extractLsb' 40 8).toNat
    let kills : Prop := s.killReady i = true → ∀ l, s.launch? x.launch = some l → ∃ (t : State) (l' : Launch), s.umberAct i = t ∧
      t.slotAt i = { slotReset with
        budget := x.budget, tags := x.tags, lastIssue := x.lastIssue, lastSeq := x.lastSeq, eps := x.eps.map Endpoint.left } ∧
      Sys2Proof.Machine.CountedOut s t n x ∧ t.launch? x.launch = some l' ∧
      l'.faults = l.faults + 1 + lost + ((x.fifo ++ x.ints ++ x.heldC).filter (fun c => c.status != 0)).length ∧
      (l.faults = 0 → l'.cause = (x.tcause.extractLsb' 0 16).setWidth 32 ∧ l'.loc = locWord i) ∧
      (∀ w ∈ x.member.toList, w.getLsbD 16 = true → ∃ c : Cap, (c ∈ (t.cluster (n / 4)).caps ∨ (n, c) ∈ (t.cluster (n / 4)).heldCaps) ∧
        c.op = .poison ∧ c.car = l.winBase + (w.extractLsb' 0 16).toNat ∧ c.key = n * 8 + k ∧ c.sid = none) ∧
      (∀ r, x.foot = some r → tabGet resReset (t.core' x.placement.toNat).res r = { resReset with rel := some s.cyc }) ∧
      (∀ r ∈ x.reside, tabGet resReset (t.core' n).res r = { resReset with rel := some s.cyc }) ∧
      (∀ a ∈ (t.core' n).acc.toList, a.owner ≠ some k) ∧ (∀ e ∈ (t.core' n).qlo ++ (t.core' n).qhi, e.slot ≠ k)
    (s.l2Free = false ∨ x.umber = none → s.umberAct i = s) ∧
    (s.l2Free = true →
      (x.umber = some .kill → kills ∧ (s.killReady i = false → s.umberAct i = s)) ∧
      (∀ va, x.umber = some (.page va) →
        (tabFind s.paging (pageKey (s.rootOf i) va) = none → kills ∧ (s.killReady i = false → s.umberAct i = s)) ∧
        (∀ l, tabFind s.paging (pageKey (s.rootOf i) va) = some l → lost = 0 →
          (s.umberAct i).slotAt i = { x.goTo x.sepc with mode := x.smode, umber := none, lateRun := x.lateRun && x.handler == .trap } ∧
          ∀ cl, ∀ e ∈ ((s.umberAct i).cluster cl).tlb, ¬(e.asid = asidOf (s.rootOf i) ∧ e.page = va.toNat / 2 ^ e.shift))) ∧
      (∀ (num : BitVec 32) (l : Launch), x.umber = some (.service num) → lost = 0 → s.launch? x.launch = some l →
        let back (v : Word) : Slot := { (x.setGr 1 v).goTo x.sepc with
          mode := x.smode, umber := none, lateRun := x.lateRun && x.handler == .trap }
        let a := x.g[2]
        (num = 0 → s.umberAct i = s.setSlot i (back s.umberVersion)) ∧
        (num = 2 → s.umberAct i = s.setSlot i (back (BitVec.ofNat 64 (x.launch % 65536 + l.queue % 256 * 65536)))) ∧
        (num = 3 → a.toNat < 0x8000 ∨ 0xFFFF < a.toNat → s.umberAct i = s.setSlot i (back 1)) ∧
        (num = 3 → 0x8000 ≤ a.toNat → a.toNat ≤ 0xFFFF → s.umberAct i =
          (s.postEvent (a.setWidth 16) (eventLoc i (s.eventQueue i)) x.g[3] (s.lidOf i) (s.eventQueue i)).setSlot i (back 0)) ∧
        (num = 4 → s.umberAct i = s.setSlot i (back s.ns)) ∧
        (num = 5 → 16 ≤ a.toNat → a.toNat ≤ 255 → l.abort = none → ∃ l', (s.umberAct i).launch? x.launch = some l' ∧
          l'.abort = some (a.setWidth 32)) ∧
        (6 ≤ num.toNat → s.umberAct i = s.setSlot i (back 0xFFFFFFFFFFFFFFFF))))) ∧
  ∀ (s : State) (n k : Nat) (t : Trap),
    let i : Sid := ⟨.core n, k⟩
    let x := s.slotAt i
    let y := (s.raise i t).slotAt i
    let user := x.status.getLsbD 8 = true ∧ x.utvec ≠ 0 ∧ t.cause ≠ 0x17 ∧ t.cause ≠ 0x18 ∧ t.cause ≠ 0x20 ∧
      x.handler = .none ∧ x.mode = .user
    y.tcause.extractLsb' 0 16 = t.cause ∧ y.tcause.extractLsb' 16 15 = 0 ∧ y.tcause.getLsbD 31 = t.seq.isSome ∧
    y.tcause.extractLsb' 32 8 = t.lane ∧ y.tcause.extractLsb' 40 8 = x.tcause.extractLsb' 40 8 ∧
    y.tcause.extractLsb' 48 16 = 0 ∧
    y.tval = t.tval ∧ y.tpc = x.pc ∧
    (t.seq = none → y.tseq = 0) ∧ (∀ q, t.seq = some q → y.tseq = 0x10000 + q.setWidth 64) ∧
    (t.cause = 4 ∨ t.cause = 5 ∨ t.cause = 6 → y.fdetail = t.detail.getD 0xF0) ∧
    (user → y.handler = .trap ∧ y.pc = x.utvec ∧ y.mode = x.mode ∧ y.sepc = x.sepc ∧ y.smode = x.smode) ∧
    (¬user → y.handler = x.handler ∧ y.pc = (s.at' i.pl).svec ∧ y.mode = .supervisor ∧ y.smode = x.mode ∧
      y.sepc = (if t.cause = 0x17 then x.pc + 8 else x.pc) &&& 0xFFFFFFFFFFFFFFF8 ∧
      y.umber = some (if t.cause = 0x17 then .service (t.tval.setWidth 32) else if t.cause = 6 then .page t.tval else .kill))

/-- Frame of taking an exception: nothing but the slot changes; in it no general or vector register, predicate, status bit,
membership or bucket; a trap raised on a slice core makes the thread leave for its origin core, the trap with it (R414). -/
def Obligations.TrapEntryFrame : Prop :=
  ∀ (s : State) (i : Sid) (t : Trap),
    let s' := s.raise i t
    let x := s.slotAt i
    let y := s'.slotAt i
    { s' with cores := s.cores, slices := s.slices } = s ∧ (∀ l, s'.byteAt l = s.byteAt l) ∧
    (∀ j, j ≠ i → s'.slotAt j = s.slotAt j) ∧
    { s'.at' i.pl with slots := (s.at' i.pl).slots } = s.at' i.pl ∧ (∀ p, p ≠ i.pl → s'.at' p = s.at' p) ∧
    { y with
      tcause := x.tcause, tval := x.tval, tpc := x.tpc, tseq := x.tseq, fdetail := x.fdetail, asleep := x.asleep,
      hold := x.hold, relDone := x.relDone, stage := x.stage, walkWait := x.walkWait, handler := x.handler, pc := x.pc,
      sepc := x.sepc, smode := x.smode, mode := x.mode, umber := x.umber, spec := x.spec } = x ∧
    (∀ n, i.pl = .slice n → y.pc = x.pc ∧ y.mode = x.mode ∧ y.tcause = x.tcause ∧
      y.hold = .depart (.core x.origin.toNat) false (some ⟨t.cause, t.tval, t.detail.getD 0xF0, false⟩))

/-- R232, R233, R438, R230, R245, R29: TRAP raises its cause with the value of its register; with the system-call cause it goes
back to the origin core and there asks no service: Umber is to kill the thread. SYSC raises the system-call cause with its
number once none of g1 to g9 is pending, an unassigned opcode the illegal-instruction trap with the word; NOP only advances the pc; CYC writes the count of
the cycle.
The model's own choices here: DESIGN CHOICE, log 6; DEDUCED, log 85. -/
def Obligations.TrapsAndPlainSystemResults : Prop :=
  (∀ (a : BitVec 6) (cause : BitVec 16) (s s1 s2 : State) (v : Word), Ready [.src (plain a)] s s1 →
    Reads (plain a) s1 v s2 →
    (cause ≠ 0x17 → exec (.trap a cause) s = .next (s1.trapped cause v)) ∧
    (∀ n, s.cur.pl = .core n → exec (.trap a 0x17) s = .next ((s1.trapped 0x17 v).updMe fun y =>
      { y with sepc := s1.me.pc &&& 0xFFFFFFFFFFFFFFF8, umber := some .kill }))) ∧
  (∀ (a : BitVec 6) (s : State) (n : Nat), s.cur.pl = .slice n → exec (.trap a 0x17) s = .next s.sentHome) ∧
  (∀ (n : BitVec 32) (s : State),
    ((∀ r, 1 ≤ r → r ≤ 9 → s.me.isPend (.g r) = false) → exec (.sysc n) s = .next (s.trapped 0x17 (n.setWidth 64))) ∧
    (∀ r, 1 ≤ r → r ≤ 9 → s.me.isPend (.g r) = true → exec (.sysc n) s = .next s)) ∧
  (∀ (w : Word) (s : State), exec (.unassignedOpcode w) s = .next (s.trapped 0x1 w)) ∧
  (∀ s : State, exec .nop s = .next s.ended) ∧
  (∀ (d : BitVec 6) (s s1 : State), Ready [.dst (plain d)] s s1 →
    exec (.cyc d) s = .next (s1.wrote 4 (plain d) (BitVec.ofNat 64 s1.cyc)).ended)

/-- R234, R235, R413, R217: the returns. ERET in supervisor mode sets the pc to sepc and the mode to smode, in user mode it
raises the privilege trap; URET restores g11 to g15, pw and the pc of an interrupt, once none of these registers is pending
(R29), or goes to tpc after a trap, and raises the illegal-instruction trap when no handler runs. -/
def Obligations.ReturnsFromExceptions : Prop :=
  ∀ s : State,
    let x := s.me
    (x.mode = .supervisor → exec .eret s = .next (s.updMe fun x =>
      { x with
        pc := x.sepc, mode := x.smode, umber := none, lateRun := x.lateRun && x.handler == .trap, asleep := none, hold := .none,
        relDone := false, stage := 0, spec := none, walkWait := none })) ∧
    (x.mode = .user → exec .eret s = .next (s.trapped 0x2 s.word)) ∧
    (x.handler = .interrupt → (x.isPend .pw = true ∨ ∃ r, 11 ≤ r ∧ r ≤ 15 ∧ x.isPend (.g r) = true) →
      exec .uret s = .next s) ∧
    (x.handler = .interrupt → x.isPend .pw = false → (∀ r, 11 ≤ r → r ≤ 15 → x.isPend (.g r) = false) →
      ∃ y, exec .uret s = .next (s.updMe fun _ => y) ∧
      y.pc = x.savedPc ∧ y.pw = x.savedPw ∧ y.handler = .none ∧
      (∀ r : BitVec 4, y.gr r = if h : 11 ≤ r.toNat then x.savedG[r.toNat - 11]'(by omega) else x.gr r) ∧
      { y with
        pc := x.pc, pw := x.pw, handler := x.handler, g := x.g, asleep := x.asleep, hold := x.hold, relDone := x.relDone,
        stage := x.stage, spec := x.spec, walkWait := x.walkWait } = x) ∧
    (x.handler = .trap → exec .uret s = .next (s.updMe fun x => { x.goTo x.tpc with handler := .none, lateRun := false })) ∧
    (x.handler = .none → exec .uret s = .next (s.trapped 0x1 s.word))

/-- R218: the value of each special register, by number. -/
def Sys2Proof.Machine.specialValue (s : State) : List (Nat × Word) :=
  let x := s.me
  let c := s.at' s.cur.pl
  let hdr (n : Nat) : Word := s.hdrWord s.cur n
  [(0x000, x.status.setWidth 64), (0x001, x.wid), (0x002, hdr 3), (0x003, hdr 2), (0x004, x.mgeo), (0x005, x.ix),
   (0x006, x.fshadow), (0x007, x.sshadow), (0x008, BitVec.ofNat 64 (s.coreId s.cur)), (0x009, BitVec.ofNat 64 s.cur.k),
   (0x010, x.utvec), (0x011, x.uivec), (0x012, x.tcause), (0x013, x.tval), (0x014, x.tpc), (0x015, x.tseq),
   (0x020, x.budget.setWidth 64), (0x030, BitVec.ofNat 64 x.launch), (0x031, x.bucket.setWidth 64), (0x040, hdr 5),
   (0x050, ((hdr 9).setWidth 32).setWidth 64), (0x100, c.owners[0]), (0x101, c.owners[1]), (0x102, c.owners[2]),
   (0x103, c.owners[3]), (0x104, c.owners[4]), (0x105, c.owners[5]), (0x106, c.owners[6]), (0x107, c.owners[7]),
   (0x110, c.refill.setWidth 64), (0x120, s.rootOf s.cur), (0x130, c.steal), (0x140, x.sepc),
   (0x141, if x.smode = .supervisor then 1 else 0), (0x142, c.svec), (0x150, c.ctxArea), (0x160, x.fdetail)]

/-- R121, R124, R218, R219, R236, R404, R413: what MTS to each writable register changes; the reserved bits of a layout stay
zero, utvec, uivec, sepc and svec drop bits [2:0], and a read-only register ignores the write. -/
def Sys2Proof.Machine.specialWritten (s : State) (num : Nat) (v : Word) : State :=
  let c := s.at' s.cur.pl
  if num = 0x000 then s.updMe fun x => { x with status := v.setWidth 32 &&& 0x1FF }
  else if num = 0x004 then s.updMe fun x => { x with mgeo := v }
  else if num = 0x005 then s.updMe fun x => { x with ix := v }
  else if num = 0x006 then s.updMe fun x => { x with fshadow := v &&& 0xBFFFF }
  else if num = 0x007 then s.updMe fun x => { x with sshadow := v &&& 0xFFFFFFFF }
  else if num = 0x010 then s.updMe fun x => { x with utvec := v &&& ~~~7#64 }
  else if num = 0x011 then s.updMe fun x => { x with uivec := v &&& ~~~7#64 }
  else if num = 0x012 then s.updMe fun x => { x with tcause := v &&& 0x0000FFFF8000FFFF }
  else if num = 0x013 then s.updMe fun x => { x with tval := v }
  else if num = 0x014 then s.updMe fun x => { x with tpc := v }
  else if num = 0x120 then s.setAt s.cur.pl { c with roots := tabSet c.roots (s.queueKey s.cur) (v &&& 0x000FFFFFFFFF00FF) }
  else if num = 0x130 then s.setAt s.cur.pl { c with steal := v &&& 0x0007FFFFFFFFFFFF }
  else if num = 0x140 then s.updMe fun x => { x with sepc := v &&& ~~~7#64 }
  else if num = 0x141 then s.updMe fun x => { x with smode := if v.getLsbD 0 = true then .supervisor else .user }
  else if num = 0x142 then s.setAt s.cur.pl { c with svec := v &&& ~~~7#64 }
  else if num = 0x150 then s.setAt s.cur.pl { c with ctxArea := v &&& ~~~0x1FFF#64 }
  else s

/-- R218, R219, R236, R217: MFS writes the special register to d. From 0x100 on it raises the privilege trap in user mode;
a number that no chapter defines raises the illegal-instruction trap. R236, R219, R58, R62, R217: MTS, and the rows of
its own for a slot owner (whose reserved bits stay) and for the refill level (which also sets the eight budget
counters); the supervisor numbers raise the privilege trap in user mode.
The model's own choices here: DEDUCED, log 14, 30, 65. -/
def Obligations.SpecialRegisterResults : Prop :=
  (∀ (d : BitVec 6) (num : BitVec 9) (s s1 : State) (v : Word),
     (0x100 ≤ num.toNat → s.me.mode = .user → exec (.mfs d num) s = .next (s.trapped 0x2 s.word)) ∧
     ((num.toNat < 0x100 ∨ s.me.mode = .supervisor) → (∀ v, (num.toNat, v) ∉ specialValue s) →
       exec (.mfs d num) s = .next (s.trapped 0x1 s.word)) ∧
     ((num.toNat < 0x100 ∨ s.me.mode = .supervisor) → (∃ v, (num.toNat, v) ∈ specialValue s) →
       Ready (if num.toNat = 5 then [.dst (plain d), .src (plain 0x19)] else [.dst (plain d)]) s s1 →
       (num.toNat, v) ∈ specialValue s1 →
       exec (.mfs d num) s = .next (s1.wrote 4 (plain d) v).ended)) ∧
  ((∀ (a : BitVec 6) (num : BitVec 9) (s s1 s2 : State) (v : Word),
     (0x100 ≤ num.toNat → s.me.mode = .user → exec (.mts a num) s = .next (s.trapped 0x2 s.word)) ∧
     ((num.toNat < 0x100 ∨ s.me.mode = .supervisor) → (∀ v, (num.toNat, v) ∉ specialValue s) →
       exec (.mts a num) s = .next (s.trapped 0x1 s.word)) ∧
     (mtsPlain num = true → (num.toNat < 0x100 ∨ s.me.mode = .supervisor) →
       Ready (if num.toNat = 5 then [.src (plain a), .dst (plain 0x19)] else [.src (plain a)]) s s1 →
       Reads (plain a) s1 v s2 → exec (.mts a num) s = .next (specialWritten s2 num.toNat v).ended)) ∧
   (∀ (n : BitVec 3) (a : BitVec 6) (s s1 s2 : State) (v : Word),
     (s.me.mode = .user → exec (.slotOwnerWrite n a) s = .next (s.trapped 0x2 s.word) ∧
       exec (.refillLevelWrite a) s = .next (s.trapped 0x2 s.word)) ∧
     (s.me.mode = .supervisor → Ready [.src (plain a)] s s1 → Reads (plain a) s1 v s2 →
       (let c := s2.at' s2.cur.pl
        exec (.slotOwnerWrite n a) s = .next (s2.setAt s2.cur.pl { c with
          owners := c.owners.set n.toNat ((v &&& 0x3000000FF) ||| (c.owners[n.toNat] &&& 0xFF000000)) }).ended) ∧
       ∃ t : State, exec (.refillLevelWrite a) s = .next t.ended ∧ (t.at' s2.cur.pl).refill = v.setWidth 32 ∧
         (∀ k, k < 8 → t.slotAt ⟨s2.cur.pl, k⟩ = { s2.slotAt ⟨s2.cur.pl, k⟩ with budget := v.setWidth 32 }) ∧
         { t.at' s2.cur.pl with slots := (s2.at' s2.cur.pl).slots, refill := (s2.at' s2.cur.pl).refill } =
           s2.at' s2.cur.pl ∧
         { t with cores := s2.cores, slices := s2.slices } = s2)))

/-- R237, R238: SLEEP completes at once, clearing the wake bit, when it is set; otherwise the thread is asleep from then
on, until imm cycles later when imm is not 0, and a retried SLEEP ends when that cycle has come. WAKE sends a wake to
the core and the slot its register names and goes on. R241, R244, R217: TLBINV drops, in every micro-TLB and cluster
TLB, the translations it names and no other; HEVENT posts an event. Both raise the privilege trap in user mode.
The model's own choices here: DESIGN CHOICE, log 31; DEDUCED, log 15. -/
def Obligations.SleepWakeAndTranslationResults : Prop :=
  ((∀ (n : BitVec 32) (s : State),
     (s.me.asleep = none → s.me.wake = true →
       exec (.sleep n) s = .next (s.updMe fun x => { x with wake := false }).ended) ∧
     (s.me.asleep = none → s.me.wake = false →
       exec (.sleep n) s = .next (s.updMe fun x =>
         { x with asleep := some ⟨s.cyc, .sleep, if n = 0 then none else some (s.cyc + n.toNat)⟩ })) ∧
     (∀ z t, s.me.asleep = some z → z.till = some t →
       exec (.sleep n) s =
         .next (if t ≤ s.cyc then (s.updMe fun x => { x with timedOut := some s.cyc }).ended else s)) ∧
     (∀ z, s.me.asleep = some z → z.till = none → exec (.sleep n) s = .next s)) ∧
   (∀ (a : BitVec 6) (s s1 s2 : State) (v : Word), Ready [.src (plain a)] s s1 → Reads (plain a) s1 v s2 →
     exec (.wake a) s = .next (s2.send s2.me.launch s2.cur.pl (.core (v.toNat % 4096)) (some s2.cur)
       (.wake (v.toNat % 4096) (v.toNat / 4096 % 8))).ended)) ∧
  ((∀ (a : Fld) (s s1 s2 : State) (v : Word), s.me.mode = .supervisor → Ready [.src a] s s1 → Reads a s1 v s2 →
     let root := s2.rootOf s2.cur
     exec (.tlbinvPage a) s =
       .next (s2.tlbDrop (fun e => e.asid == asidOf root && e.page == v.toNat / 2 ^ e.shift)).ended ∧
     exec (.tlbinvAsid a) s = .next (s2.tlbDrop (fun e => e.asid == v.setWidth 8)).ended) ∧
   (∀ s : State, s.me.mode = .supervisor → exec .tlbinvAll s = .next (s.tlbDrop (fun _ => true)).ended) ∧
   (∀ (s : State) (f : TlbEntry → Bool) (p : Place) (n : Nat),
     ((s.tlbDrop f).at' p).utlb = (s.at' p).utlb.filter (fun e => !f e) ∧
     ((s.tlbDrop f).cluster n).tlb = (s.cluster n).tlb.filter (fun e => !f e)) ∧
   (∀ (a : BitVec 6) (code : BitVec 16) (s s1 s2 : State) (v : Word), s.me.mode = .supervisor →
     Ready [.src (plain a)] s s1 → Reads (plain a) s1 v s2 →
     exec (.hevent a code) s =
       .next (s2.postEvent code (eventLoc s2.cur (s2.eventQueue s2.cur)) v (s2.lidOf s2.cur) (s2.eventQueue s2.cur)).ended) ∧
   (∀ (a : Fld) (b : BitVec 6) (code : BitVec 16) (s : State), s.me.mode = .user →
     ∀ i ∈ [Instr.tlbinvPage a, .tlbinvAsid a, .tlbinvAll, .hevent b code], exec i s = .next (s.trapped 0x2 s.word)))

-- scalar floating point

/-- The value a scalar floating-point operand has: the low bits of its register in the format of the type, a subnormal read as
a zero under ftz (R205, R285, R123). -/
def Sys2Proof.Machine.fpIn (s : State) (ty : BitVec 2) (w : Word) : Fl :=
  (fmtOf ty).input (s.me.status.getLsbD 7) (w.toNat % 2 ^ (fmtOf ty).bits)

/-- The end of a scalar floating-point instruction: the flags OR into status [4:0], the code goes to the low bits of d with
zeros above it, the thread goes on (R122, R285). -/
def Sys2Proof.Machine.State.fpEnd (s : State) (k : Nat) (d : Fld) (r : Nat × BitVec 5) : State :=
  ((s.updMe fun x => { x with status := x.status ||| r.2.setWidth 32 }).wrote k d (BitVec.ofNat 64 r.1)).ended

/-- A value rounded into the format of a type as an arithmetic result, by status.round and status.ftz (R117, R118, R123). -/
def Sys2Proof.Machine.fpRound (s : State) (ty : BitVec 2) (r : Fl × BitVec 5) : Nat × BitVec 5 :=
  let p := (fmtOf ty).conv (s.me.status.extractLsb' 5 2).toNat (s.me.status.getLsbD 7) .ieee r.1
  (p.1, r.2 ||| p.2)

/-- R285, R286, R287, R288, R289, R290, R291, R292: what each scalar floating-point instruction writes once its registers are
ready, with its latency; the exact operations are those that ExactSumsAndProducts and FloatSpecialCases describe.
The model's own choices here: DEDUCED, log 27. -/
def Obligations.ScalarFloatResults : Prop :=
  (∀ (o : FOp) (s s1 s2 s3 : State) (x y : Word), Ready [.dst o.d, .src o.a, .src o.b] s s1 → Reads o.a s1 x s2 →
    Reads o.b s2 y s3 →
    let mode := (s3.me.status.extractLsb' 5 2).toNat
    let vx := fpIn s3 o.ty x
    let vy := fpIn s3 o.ty y
    let gives (i : Instr) (k : Nat) (r : Fl × BitVec 5) := exec i s = .next (s3.fpEnd k o.d (fpRound s3 o.ty r))
    gives (.fadd o) 4 (sumFl mode [vx, vy]) ∧ gives (.fsub o) 4 (sumFl mode [vx, vy.negate]) ∧
    gives (.fmul o) 6 (mulFl vx vy) ∧ gives (.fdiv o) 8 (divFl vx vy) ∧
    gives (.fmin o) 4 (minFl vx vy, 0) ∧ gives (.fmax o) 4 (maxFl vx vy, 0) ∧
    (∀ mode : BitVec 2, mode ≠ 3 →
      let f := fmtOf o.ty
      let cx := x.toNat % 2 ^ f.bits
      let sx := f.sign cx
      let sy := f.sign (y.toNat % 2 ^ f.bits)
      exec (.fsgn o mode) s = .next (s3.wrote 4 o.d (BitVec.ofNat 64 (f.code
        (if mode = 0 then sy else if mode = 1 then !sy else sx ^^ sy)
        (if f.val cx = .nan then f.canonNan else f.mag cx)))).ended)) ∧
  (∀ (o : FOp) (c : BitVec 6) (s s1 s2 s3 s4 : State) (x y z : Word),
    Ready [.dst o.d, .src o.a, .src o.b, .src (plain c)] s s1 → Reads o.a s1 x s2 → Reads o.b s2 y s3 →
    Reads (plain c) s3 z s4 →
    let p := mulFl (fpIn s4 o.ty x) (fpIn s4 o.ty y)
    let r := sumFl (s4.me.status.extractLsb' 5 2).toNat [p.1, fpIn s4 o.ty z]
    exec (.ffma o c) s = .next (s4.fpEnd 6 o.d (fpRound s4 o.ty (r.1, p.2 ||| r.2)))) ∧
  (∀ (o : FUn) (s s1 s2 : State) (x : Word), Ready [.dst o.d, .src o.a] s s1 → Reads o.a s1 x s2 →
    let f := fmtOf o.ty
    let cx := x.toNat % 2 ^ f.bits
    let round := (s2.me.status.extractLsb' 5 2).toNat
    exec (.fsqrt o) s = .next (s2.fpEnd 8 o.d (fpRound s2 o.ty (sqrtFl (fpIn s2 o.ty x)))) ∧
    (∀ n : Nat,
      ((n = 8 ∧ f.val cx = .nan) ∨ (n = 7 ∧ f.val cx = .inf false) ∨ (n = 0 ∧ f.val cx = .inf true) ∨
        (∃ sg m e, f.val cx = .fin sg m e ∧
          n = (if m = 0 then (if sg then 3 else 4) else if f.expo cx = 0 then (if sg then 2 else 5)
            else (if sg then 1 else 6)))) →
      exec (.fclass o) s = .next (s2.wrote 4 o.d (BitVec.ofNat 64 (2 ^ n))).ended) ∧
    (∀ (tgt : BitVec 3) (u : Bool), tgt.toNat < 4 →
      let w := 64 / 2 ^ tgt.toNat
      let r := toInt round (if u then 0 else -2 ^ (w - 1)) (if u then 2 ^ w - 1 else 2 ^ (w - 1) - 1) (fpIn s2 o.ty x)
      exec (.fcvt o tgt u) s =
        .next ((s2.updMe fun y => { y with status := y.status ||| r.2.setWidth 32 }).wrote 4 o.d (BitVec.ofInt 64 r.1)).ended) ∧
    (∀ (tgt : BitVec 3) (u : Bool), 4 ≤ tgt.toNat →
      exec (.fcvt o tgt u) s = .next (s2.fpEnd 4 o.d ((fmtOf (tgt.setWidth 2)).convert round (s2.me.status.getLsbD 7)
        (s2.me.fshadow.getLsbD 19) (fpIn s2 o.ty x))))) ∧
  (∀ (p : BitVec 4) (cond : BitVec 3) (ty : BitVec 2) (a b : Fld) (s s1 s2 s3 : State) (x y : Word),
    Ready [.pw, .src a, .src b] s s1 → Reads a s1 x s2 → Reads b s2 y s3 →
    let r := fltCond cond (fpIn s3 ty x) (fpIn s3 ty y)
    exec (.fcmp p cond ty a b) s = .next (s3.updMe fun z =>
      Slot.setPred { z with status := z.status ||| r.2.setWidth 32 } p r.1).ended)

/-- The number that a finite value is. -/
def Sys2Proof.Machine.Fl.number : Fl → Option ℚ
  | .fin s m e => some ((if s then -1 else 1) * m * (2 : ℚ) ^ e)
  | _ => none

/-- A value stands for an exact number where it is that number, or an odd multiple of a unit, of more than 60 bits, between whose
neighbouring even multiples the number lies: every format rounds the two alike (RoundingAndPacking). -/
def Sys2Proof.Machine.Fl.StandsFor (r : Fl) (x : ℝ) : Prop :=
  ∃ (s : Bool) (m : Nat) (e : Int), r = .fin s m e ∧ (x ≠ 0 → (s = true ↔ x < 0)) ∧
    (|x| = (m : ℝ) * (2 : ℝ) ^ e ∨
      (m % 2 = 1 ∧ 2 ^ 60 ≤ m ∧ ((m : ℝ) - 1) * (2 : ℝ) ^ e < |x| ∧ |x| < ((m : ℝ) + 1) * (2 : ℝ) ^ e))

/-- R287, R288, R292, R296: on finite values the sum, the product, the smaller, the larger and the comparisons are the exact ones, and
raise no flag; the quotient, the reciprocal, the root and the reciprocal root stand for the exact ones, which their one rounding
rounds, and raise none. -/
def Obligations.ExactSumsAndProducts : Prop :=
  ∀ (mode : Nat) (x y : Fl) (a b : ℚ), x.number = some a → y.number = some b →
    (b ≠ 0 → (divFl x y).1.StandsFor ((a : ℝ) / b) ∧ (divFl x y).1.neg = (x.neg ^^ y.neg) ∧ (divFl x y).2 = 0 ∧
      (rcpFl y).1.StandsFor (1 / (b : ℝ)) ∧ (rcpFl y).2 = 0) ∧
    (0 < a → (sqrtFl x).1.StandsFor (Real.sqrt a) ∧ (sqrtFl x).2 = 0 ∧
      (rsqFl x).1.StandsFor (1 / Real.sqrt a) ∧ (rsqFl x).2 = 0) ∧
    (sumFl mode [x, y]).1.number = some (a + b) ∧ (sumFl mode [x, y]).2 = 0 ∧
    (mulFl x y).1.number = some (a * b) ∧ (mulFl x y).2 = 0 ∧
    (sumFl mode [x, y.negate]).1.number = some (a - b) ∧
    (minFl x y).number = some (min a b) ∧ (maxFl x y).number = some (max a b) ∧
    ((fltCond 0 x y).1 = true ↔ a = b) ∧ ((fltCond 1 x y).1 = true ↔ a ≠ b) ∧ ((fltCond 2 x y).1 = true ↔ a < b) ∧
    ((fltCond 3 x y).1 = true ↔ a ≤ b) ∧ ((fltCond 4 x y).1 = true ↔ b < a) ∧ ((fltCond 5 x y).1 = true ↔ b ≤ a) ∧
    (fltCond 6 x y).1 = false ∧ (∀ c, (fltCond c x y).2 = 0)

/-- R296, R304: the exponential and the logarithm of the codes of a floating-point format. Where the model decides a result (DEDUCED,
log 7), it is the rounding, with its flags, of every value that stands for the exact one: 2^a and log2 a of VEXP2 and VLOG2, and the
exp(-t) of VTOPK's terms. -/
def Obligations.ExponentialAndLogarithmValues : Prop :=
  (∀ (f g : Fmt) (mode : Nat) (ftz : Bool) (c : Nat) (a : ℚ) (p : Nat × BitVec 5) (r : Fl),
    (f = .fp64 ∨ f = .fp32 ∨ f = .fp16 ∨ f = .bf16) → (g = .fp64 ∨ g = .fp32 ∨ g = .fp16 ∨ g = .bf16) → mode < 4 →
    (f.val c).number = some a →
    (exp2Fl (g.conv mode ftz .ieee) (f.val c) = some p → r.StandsFor ((2 : ℝ) ^ (a : ℝ)) → p = g.conv mode ftz .ieee r) ∧
    (0 < a → log2Fl (g.conv mode ftz .ieee) (f.val c) = some p → r.StandsFor (Real.logb 2 a) → p = g.conv mode ftz .ieee r)) ∧
  (∀ (c d m : Nat) (e : Int) (p : Nat × BitVec 5) (r : Fl) (a b : ℚ), (Fmt.fp32.val c).number = some a →
    (Fmt.fp32.val d).number = some b → 0 < m → a - b = m * (2 : ℚ) ^ e →
    expNegFin (Fmt.fp32.conv 0 false .ieee) m e = some p → r.StandsFor (Real.exp (b - a)) →
    p = Fmt.fp32.conv 0 false .ieee r)

/-- R287, R288, R292, R296: the special cases. A finite non-zero value over zero is an infinity of the XOR of the signs and raises
divide-by-zero; 0 / 0, inf / inf, 0 x inf, inf - inf and the root of a value below -0 are the canonical NaN and raise invalid; a NaN operand
gives the NaN and raises nothing, but beside both infinities in one sum invalid stays raised; the root of -0 is -0; an exact zero sum is +0, toward minus infinity -0, and -0 when both terms are -0
(two terms +0 are left out: DEDUCED, log 26); FMIN and FMAX give the other operand for one NaN and order -0 below +0; a compare with a NaN is true
only for .ne and .uo, and raises invalid for .lt, .le, .gt and .ge. The special inputs of the reciprocal, the reciprocal root, the
exponential and the logarithm are those of R296's table.
The model's own choices here: DEDUCED, log 26, 27. -/
def Obligations.FloatSpecialCases : Prop :=
  (∀ (s : Bool) (e : Int), rcpFl (.fin s 0 e) = (.inf s, 2) ∧ rsqFl (.fin s 0 e) = (.inf s, 2) ∧
    (rcpFl (.inf s)).1.number = some 0 ∧ (rcpFl (.inf s)).1.neg = s ∧ (rcpFl (.inf s)).2 = 0) ∧
  (∀ (m : Nat) (e : Int), m ≠ 0 → rsqFl (.fin true m e) = (.nan, 1)) ∧ rsqFl (.inf true) = (.nan, 1) ∧
  (rsqFl (.inf false)).1.number = some 0 ∧ (rsqFl (.inf false)).1.neg = false ∧ (rsqFl (.inf false)).2 = 0 ∧
  sqrtFl (.inf false) = (.inf false, 0) ∧ rcpFl .nan = (.nan, 0) ∧ rsqFl .nan = (.nan, 0) ∧
  (∀ f : Fl → Nat × BitVec 5,
    exp2Fl f .nan = some (f .nan) ∧ exp2Fl f (.inf false) = some (f (.inf false)) ∧
    exp2Fl f (.inf true) = some (f (.fin false 0 0)) ∧ (∀ (s : Bool) (e : Int), exp2Fl f (.fin s 0 e) = some (f (.fin false 1 0))) ∧
    log2Fl f .nan = some (f .nan) ∧ log2Fl f (.inf false) = some (f (.inf false)) ∧
    log2Fl f (.inf true) = some ((f .nan).1, 1) ∧ (∀ (s : Bool) (e : Int), log2Fl f (.fin s 0 e) = some ((f (.inf true)).1, 2)) ∧
    (∀ (m : Nat) (e : Int), m ≠ 0 → log2Fl f (.fin true m e) = some ((f .nan).1, 1))) ∧
  (∀ (s t : Bool) (m : Nat) (e f : Int), m ≠ 0 → divFl (.fin s m e) (.fin t 0 f) = (.inf (s ^^ t), 2)) ∧
  (∀ (s t : Bool) (e f : Int), divFl (.fin s 0 e) (.fin t 0 f) = (.nan, 1)) ∧
  (∀ s t : Bool, divFl (.inf s) (.inf t) = (.nan, 1)) ∧
  (∀ (s t : Bool) (e : Int), mulFl (.fin s 0 e) (.inf t) = (.nan, 1) ∧ mulFl (.inf t) (.fin s 0 e) = (.nan, 1)) ∧
  (∀ (mode : Nat) (s : Bool), sumFl mode [.inf s, .inf (!s)] = (.nan, 1) ∧ sumFl mode [.inf s, .nan, .inf (!s)] = (.nan, 1)) ∧
  (∀ (m : Nat) (e : Int), m ≠ 0 → sqrtFl (.fin true m e) = (.nan, 1)) ∧ sqrtFl (.inf true) = (.nan, 1) ∧
  (∀ (s : Bool) (e : Int), (sqrtFl (.fin s 0 e)).1.number = some 0 ∧ (sqrtFl (.fin s 0 e)).1.neg = s ∧
    (sqrtFl (.fin s 0 e)).2 = 0) ∧
  (∀ (mode : Nat) (x : Fl), sumFl mode [.nan, x] = (.nan, 0) ∧ sumFl mode [x, .nan] = (.nan, 0) ∧
    mulFl .nan x = (.nan, 0) ∧ mulFl x .nan = (.nan, 0) ∧ divFl .nan x = (.nan, 0) ∧ divFl x .nan = (.nan, 0) ∧
    sqrtFl .nan = (.nan, 0)) ∧
  (∀ (mode : Nat) (x y : Fl) (a : ℚ), x.number = some a → y.number = some (-a) →
    (a ≠ 0 ∨ (x.neg ≠ y.neg) ∨ x.neg = true) →
    (sumFl mode [x, y]).1.neg = (if a = 0 ∧ x.neg = true ∧ y.neg = true then true else decide (mode = 3))) ∧
  (∀ x : Fl, minFl .nan x = x ∧ minFl x .nan = x ∧ maxFl .nan x = x ∧ maxFl x .nan = x) ∧
  (∀ e f : Int, minFl (.fin false 0 e) (.fin true 0 f) = .fin true 0 f ∧ minFl (.fin true 0 e) (.fin false 0 f) = .fin true 0 e ∧
    maxFl (.fin false 0 e) (.fin true 0 f) = .fin false 0 e ∧ maxFl (.fin true 0 e) (.fin false 0 f) = .fin false 0 f) ∧
  (∀ (c : BitVec 3) (x : Fl), c ≠ 7 → ∀ p ∈ [(Fl.nan, x), (x, Fl.nan)],
    (fltCond c p.1 p.2).1 = decide (c = 1 ∨ c = 6) ∧
    (fltCond c p.1 p.2).2 = if c = 2 ∨ c = 3 ∨ c = 4 ∨ c = 5 then 1 else 0)

/-- R112, R117: packing is exact where it can be: the value of a code (of any format, in any rounding mode, under either
overflow rule) packs back into that code, and raises no flag. R117, R118: a result is rounded to a neighbour of the
exact value: toward zero never away from it, toward plus infinity never below it, toward minus infinity never above
it, and to nearest with an error of at most half the distance of the two neighbours; the inexact flag says whether it
differs. R287, R296: two values that stand for one number round alike. R120: a conversion to an integer is the nearest in the mode's
sense, saturated to the target's range with invalid alone, a NaN being 0. -/
def Obligations.RoundingAndPacking : Prop :=
  (∀ (f : Fmt) (mode : Nat) (ftz : Bool) (o : Ovf) (r q : Fl) (x : ℝ), mode < 4 → x ≠ 0 → r.StandsFor x → q.StandsFor x →
    f.conv mode ftz o r = f.conv mode ftz o q) ∧
  (∀ (mode : Nat) (lo hi : Int), lo ≤ 0 → 0 < hi → mode < 4 →
    toInt mode lo hi .nan = (0, 1) ∧ toInt mode lo hi (.inf false) = (hi, 1) ∧ toInt mode lo hi (.inf true) = (lo, 1) ∧
    (∀ (x : Fl) (a : ℚ), x.number = some a → ∃ n : Int,
      (mode = 0 → |a - n| ≤ 1 / 2 ∧ (|a - n| = 1 / 2 → n % 2 = 0)) ∧
      (mode = 1 → n = if a < 0 then ⌈a⌉ else ⌊a⌋) ∧ (mode = 2 → n = ⌈a⌉) ∧ (mode = 3 → n = ⌊a⌋) ∧
      toInt mode lo hi x = if n < lo then (lo, 1) else if hi < n then (hi, 1) else (n, if a = n then 0 else 16))) ∧
  (∀ (f : Fmt) (mode : Nat) (o : Ovf) (c : Nat) (s : Bool) (m : Nat) (e : Int),
     c < 2 ^ f.bits → c % 2 ^ f.low = 0 → f.val c = .fin s m e → f.pack mode false o s m e = (c, 0)) ∧
  (∀ (neg : Bool) (m k : Nat),
     let q (mode : Nat) := (roundShift mode neg m k).1 * 2 ^ k
     (∀ mode, mode < 4 → q mode < m + 2 ^ k ∧ m < q mode + 2 ^ k ∧
       ((roundShift mode neg m k).2 = true ↔ m % 2 ^ k ≠ 0) ∧ (m % 2 ^ k = 0 → q mode = m)) ∧
     q 1 ≤ m ∧ (if neg then q 2 ≤ m else m ≤ q 2) ∧ (if neg then m ≤ q 3 else q 3 ≤ m) ∧
     2 * q 0 ≤ 2 * m + 2 ^ k ∧ 2 * m ≤ 2 * q 0 + 2 ^ k ∧
     (2 * (m % 2 ^ k) = 2 ^ k → (roundShift 0 neg m k).1 % 2 = 0))

-- memory

/-- R66, R67, R68, R70, R264, R266, R425: the address and alignment checks. In program use of the own local store, in a
bank in SCRATCH mode and in the local store of any live core, an aligned access touches its n bytes there; an access
of which the first byte is elsewhere beyond the translated range takes the access-violation trap, and one in the
translated range that its alignment fails takes the alignment trap, each with tval := EA and the fault detail of
agent, write, level 0xF and kind. R85, R264, R425, R426: translation. An access within one 64 KiB page whose
translation is in the micro-TLB touches the n bytes of the page's frame; a write through a read_only leaf takes the
page-fault trap with kind 2 at the leaf's level; with no translation cached the thread loses its turn and one walk for
the page is in progress, the thread among those that wait for it, or, where 64 walks are pending already, waits behind the misses
that wait; an instruction to which the failure of the walk it waited for has been reported takes the page-fault trap with that level
and kind, whatever the TLBs hold by then.
The model's own choices here: DEDUCED, log 65. -/
def Obligations.AccessChecks : Prop :=
  (∀ (agent : BitVec 3) (wr : Bool) (ea : Word) (n al m k off : Nat) (s : State), 0 < n → 0 < al → s.cur = ⟨.core m, k⟩ →
     let bytes (c : Nat) : List PByte := (List.range n).map (fun i => ⟨ea.toNat + i, .ls c (off + i), 0, 0⟩)
     let fails (cause : BitVec 16) (kind : BitVec 4) : Prop :=
       run (do let _ ← checkAccess agent wr ea n al; pure ()) s =
         .next (s.raise s.cur ⟨cause, ea, 0xFF, none, some (0#52 ++ agent ++ BitVec.ofBool wr ++ 0xF#4 ++ kind : BitVec 64)⟩)
     let backed (p : Place) : Prop := off + n ≤ 0x14000 ∨
       ∃ b : Fin 5, (s.at' p).banks[b] = .scratch ∧ 0x20000 + b.val * 0x10000 ≤ off ∧ off + n ≤ 0x30000 + b.val * 0x10000
     (ea.toNat = 0x00E0000000000000 + off → ea.toNat % al = 0 → backed (.core m) → Checked agent wr ea n al s (bytes m) s) ∧
     (∀ c, s.coreLive c = true → ea.toNat = 0x00F0000000000000 + c * 0x100000 + off → ea.toNat % al = 0 → backed (.core c) →
       Checked agent wr ea n al s (bytes c) s) ∧
     (0x0100000000000000 ≤ ea.toNat → fails 0x4 4) ∧
     (ea.toNat = 0x00E0000000000000 + off → 0x14000 ≤ off → off < 0x20000 → fails 0x4 4) ∧
     (∀ b : Fin 5, (s.at' (.core m)).banks[b] ≠ .scratch → ea.toNat = 0x00E0000000000000 + 0x20000 + b.val * 0x10000 + off →
       off < 0x10000 → fails 0x4 4) ∧
     (0x00E0000000070000 ≤ ea.toNat → ea.toNat < 0x00F0000000000000 → fails 0x4 4) ∧
     (∀ c, s.coreLive c = false → c < 4096 → ea.toNat = 0x00F0000000000000 + c * 0x100000 + off → off < 0x100000 →
       fails 0x4 4) ∧
     (ea.toNat + n ≤ 0x00E0000000000000 → ea.toNat % al ≠ 0 → fails 0x5 5)) ∧
  (∀ (agent : BitVec 3) (wr : Bool) (ea : Word) (n : Nat) (s : State), 0 < n →
     ea.toNat % 65536 + n ≤ 65536 → ea.toNat + n ≤ 0x00E0000000000000 →
     let asid := (s.rootOf s.cur).setWidth 8
     let cl := s.cluster (clusterOf s.cur.pl)
     let faults (level kind : BitVec 4) : Prop :=
       run (do let _ ← checkAccess agent wr ea n 1; pure ()) s =
         .next (s.raise s.cur ⟨0x6, ea, 0xFF, none, some (0#52 ++ agent ++ BitVec.ofBool wr ++ level ++ kind : BitVec 64)⟩)
     let waits (r : Option (BitVec 4 × BitVec 4)) : WalkWait := ⟨asid, ea.toNat / 65536, r⟩
     let unfailed : Prop := ∀ r, s.me.walkWait ≠ some (waits (some r))
     (∀ level kind, s.me.walkWait = some (waits (some (level, kind))) → faults level kind) ∧
     (∀ e, unfailed → tlbFind (s.at' s.cur.pl).utlb asid ea = some e →
       let pa := (e.pte.extractLsb' 16 36).toNat * 65536 + ea.toNat % 2 ^ e.shift
       let bs : List PByte := (List.range n).map (fun i =>
         ⟨ea.toNat + i, if e.pte.getLsbD 4 then .host (pa + i) else .dev (pa + i), e.pte, e.shift⟩)
       ((wr = false ∨ e.pte.getLsbD 2 = false) → (∀ b ∈ bs, (s.homeOf b).isSome = true) → Checked agent wr ea n 1 s bs s) ∧
       (wr = true → e.pte.getLsbD 2 = true →
         faults (if e.shift = 30 then 1 else if e.shift = 21 then 2 else 3) 2)) ∧
     (unfailed → tlbFind (s.at' s.cur.pl).utlb asid ea = none → tlbFind cl.tlb asid ea = none → ∃ t,
         run (do let _ ← checkAccess agent wr ea n 1; pure ()) s = .next t ∧
         (let c := t.cluster (clusterOf s.cur.pl)
          let mine (w : Walk) : Prop := w.asid = asid ∧ w.page = ea.toNat / 65536 ∧ s.cur ∈ w.waiters
          let other (w : Walk) : Prop := ¬(w.asid = asid ∧ w.page = ea.toNat / 65536)
          (∃ w ∈ c.walks ++ c.walkQ, mine w) ∧
          (cl.walks.length < 64 → cl.walkQ = [] → c.walkQ = [] ∧ c.walks.length ≤ 64) ∧
          (64 ≤ cl.walks.length → (∀ w ∈ cl.walks ++ cl.walkQ, other w) →
            c.walks = cl.walks ∧ ∃ w, c.walkQ = cl.walkQ ++ [w] ∧ mine w)) ∧
         { t with clusters := s.clusters, nextId := s.nextId } = s.updMe fun x => { x with walkWait := some (waits none) }))

/-- R83, R84, R425: what a walk finds. The entry of each level is at the table's base plus 8 times the address bits of the
level; an entry whose bit 0 is clear ends the walk with kind 1 at its level, a leaf that R84 allows is the result, and
any other entry that is no table entry with zeros ends it with kind 3. R77: the frame class table holds the class and the argument
of a device frame in its 4-byte entry in device memory. R78, R79, R80: the home of a line. Modulo
class: the live slice whose place in the rising list of live slices is the line's number modulo their count.
Region-local class: the same over the live slices beneath the rectangle, and no home when there is none. Tensor-map
class: the slice at the grid position that the page offset gives, wrapping at 32 columns and rows; a dead slice's
lines go to the first live one of its neighbours at x + 1, x - 1, y + 1 and y - 1.
The model's own choices here: DESIGN CHOICE, log 9; DEDUCED, log 34. -/
def Obligations.WalksAndHomes : Prop :=
  (∀ (s : State) (pa : Nat) (e : BitVec 32),
     e = BitVec.ofNat 32 (Memory.readNat s.mem (s.frameTable + 4 * (pa / 65536)) 4) →
     mapOk (e.extractLsb' 20 2).toNat (e.setWidth 20) false = true →
     ((e.extractLsb' 20 2).toNat = 1 → s.rectSlices (e.setWidth 20) ≠ []) →
     s.frameMap pa = ((e.extractLsb' 20 2).toNat, e.setWidth 20)) ∧
  (∀ (s : State) (root va : Word) (p0 p1 p2 p3 : Word), s.poison = [] →
     let at' (base sh w : Nat) : Word := BitVec.ofNat 64 (Memory.readNat s.mem (base + 8 * (va.toNat / 2 ^ sh % 2 ^ w)) 8)
     let next (p : Word) : Nat := (p.extractLsb' 8 44).toNat * 256
     let table (p : Word) : Prop := p.getLsbD 0 = true ∧ (p.extractLsb' 1 7) = 0 ∧ p.extractLsb' 52 12 = 0
     let leaf (sh : Nat) (p : Word) : Prop := p.getLsbD 0 = true ∧ p.getLsbD 1 = true ∧ p.extractLsb' 16 (sh - 16) = 0 ∧
       (p.getLsbD 3 = true → p.getLsbD 2 = true) ∧ p.extractLsb' 6 2 = 0 ∧ p.extractLsb' 8 8 = 0 ∧ p.extractLsb' 52 12 = 0
     p0 = at' ((root.extractLsb' 16 36).toNat * 65536) 43 13 → p1 = at' (next p0) 30 13 → p2 = at' (next p1) 21 9 →
     p3 = at' (next p2) 16 5 →
     (p0.getLsbD 0 = false → walk s root va = .fail 0 1) ∧
     (p0.getLsbD 0 = true → ¬table p0 → walk s root va = .fail 0 3) ∧
     (table p0 → (leaf 30 p1 → walk s root va = .leaf p1 30) ∧ (p1.getLsbD 0 = false → walk s root va = .fail 1 1) ∧
       (table p1 → (leaf 21 p2 → walk s root va = .leaf p2 21) ∧ (p2.getLsbD 0 = false → walk s root va = .fail 2 1) ∧
         (table p2 → (leaf 16 p3 → walk s root va = .leaf p3 16) ∧ (p3.getLsbD 0 = false → walk s root va = .fail 3 1) ∧
           (p3.getLsbD 0 = true → p3.getLsbD 1 = false → walk s root va = .fail 3 3))))) ∧
  (∀ (s : State) (arg : BitVec 20) (pa pofs : Nat), s.deadSlices.Pairwise (· < ·) → (∀ d ∈ s.deadSlices, d < 1024) →
     let live := (List.range 1024).filter (fun n => !(s.deadSlices.contains n))
     let under := live.filter (fun n =>
       decide ((arg.extractLsb' 0 5).toNat ≤ n % 32) && decide (n % 32 ≤ (arg.extractLsb' 0 5).toNat + (arg.extractLsb' 10 5).toNat) &&
       decide ((arg.extractLsb' 5 5).toNat ≤ n / 32) && decide (n / 32 ≤ (arg.extractLsb' 5 5).toNat + (arg.extractLsb' 15 5).toNat))
     let sh := 9 + (arg.extractLsb' 10 2).toNat
     let x := ((arg.extractLsb' 0 5).toNat + pofs / 2 ^ sh % 32) % 32
     let y := ((arg.extractLsb' 5 5).toNat + pofs / 2 ^ (sh + 5) % 32) % 32
     (live ≠ [] → s.homeBy 0 arg pa pofs = live[pa / 128 % live.length]?) ∧
     (rectOk arg = true → s.homeBy 1 arg pa pofs = under[pa / 128 % under.length]?) ∧
     (32 * y + x ∈ live → s.homeBy 2 arg pa pofs = some (32 * y + x)) ∧
     (32 * y + x ∉ live → ∀ i, i = 32 * y + x →
       (x < 31 → i + 1 ∈ live → s.homeBy 2 arg pa pofs = some (i + 1)) ∧
       (¬(x < 31 ∧ i + 1 ∈ live) → 0 < x → i - 1 ∈ live → s.homeBy 2 arg pa pofs = some (i - 1)) ∧
       (¬(x < 31 ∧ i + 1 ∈ live) → ¬(0 < x ∧ i - 1 ∈ live) → y < 31 → i + 32 ∈ live →
         s.homeBy 2 arg pa pofs = some (i + 32)) ∧
       (¬(x < 31 ∧ i + 1 ∈ live) → ¬(0 < x ∧ i - 1 ∈ live) → ¬(y < 31 ∧ i + 32 ∈ live) → 0 < y → i - 32 ∈ live →
         s.homeBy 2 arg pa pofs = some (i - 32))))

/-- R265, R267: what a load does once its bytes are known. `src` says of each byte whether it is fixed at issue. -/
def Sys2Proof.Machine.LoadsAs (d : BitVec 6) (sx resid clean : Bool) (acq : Nat) (bs : List PByte) (s : State) (out : Out) :
    Prop :=
  let src := s.srcs resid clean bs
  let value (l : List Byte) : Word := extend sx bs.length (ofBytes l)
  let u := s.did (touchL1 bs)
  (∀ l : List Byte, s.fixedLoad resid bs = true → src = l.map .val →
    out = .next (s.wrote 4 (plain d) (value l)).ended) ∧
  (∀ l : List Byte, s.fixedLoad resid bs = false → s.me.pend.length < 8 → src = l.map .val →
    out = .next (u.wrote 6 (plain d) (value l)).ended) ∧
  (∀ (l : Loc) (h : Place) (c : Bool), s.fixedLoad resid bs = false → s.me.pend.length < 8 → .at l h c ∈ src →
    out = .next ((u.did (claimDst (plain d))).send s.me.launch s.cur.pl (s.homeFirst bs) (some s.cur)
      (if bs.any (fun b => match b.loc with | .ls n _ => decide (s.cur.pl ≠ .core n) | _ => false)
        then .reqLoad d bs.length sx src acq
        else .load d bs.length sx src ((u.did (claimDst (plain d))).fillsOf src) acq)).ended)

/-- R267, R269, R265: LD and LDA. A load served by the own port or a residency slot writes d at once (k = 4), one whose
bytes L1 holds writes it by the slot's next turn, and any other marks d pending and sends for its bytes. LDA acquires
first, reads no residency slot and, at cluster scope and wider, no clean L1 byte. The value is zero- or sign-extended.
R89, R93, R94, R265, R269: where a load's byte comes from; a clean byte of L1 serves only where L1 holds every byte of the access in
the aligned 8 bytes around it, so that no 8-byte write is read in part, and no earlier read of the core is still on its way to one of
them.
The model's own choices here: DEDUCED, log 42, 67, 69. -/
def Obligations.LoadResultsAndSources : Prop :=
  ((∀ (o : MOp) (s s1 s2 : State) (bs : List PByte), Ready (.dst (plain o.d) :: adUses o.ad) s s1 → Passes accessGate s1 →
     Reaches true false (s1.address o.ad) (2 ^ o.sz.toNat) 1 s1 bs s2 →
     LoadsAs o.d o.sx true true 0 bs s2 (exec (.ld o) s)) ∧
   (∀ (o : MOp) (sc : BitVec 3) (s s1 s2 s3 : State) (bs : List PByte), Ready (.dst (plain o.d) :: adUses o.ad) s s1 →
     Passes accessGate s1 → Reaches false false (s1.address o.ad) (2 ^ o.sz.toNat) (2 ^ o.sz.toNat) s1 bs s2 →
     Does (acquire sc.toNat) s2 s3 →
     LoadsAs o.d o.sx false (decide (sc.toNat < 2)) (if 2 ≤ sc.toNat then sc.toNat else 0) bs s3 (exec (.lda o sc) s)) ∧
   (∀ (n : Nat) (v : BitVec (8 * n)), n = 1 ∨ n = 2 ∨ n = 4 ∨ n = 8 →
     extend true n v.toNat = v.signExtend 64 ∧ extend false n v.toNat = v.setWidth 64) ∧
   (∀ (d : BitVec 6) (s : State), d.toNat < 16 →
     s.did (claimDst (plain d)) = s.updMe (fun x => { x with pend := x.pend ++ [.g d.toNat] }))) ∧
  (∀ (s : State) (resid clean : Bool) (bs : List PByte) (b : PByte),
     let home : BSrc := .at b.loc ((s.homeOf b).getD (.slice 0))
       (match b.loc with | .dev _ => true | .host _ => b.pte.getLsbD 5 | .ls _ _ => false)
     (∀ n o, b.loc = .ls n o → s.cur.pl = .core n → s.srcByte resid clean bs b = .val (s.byteAt b.loc)) ∧
     (∀ n o, b.loc = .ls n o → s.cur.pl ≠ .core n → s.srcByte resid clean bs b = home) ∧
     (∀ v, resid = true → (∀ n o, b.loc ≠ .ls n o) → s.resByte s.cur b.va = some v → s.srcByte resid clean bs b = .val v) ∧
     ((resid = false ∨ s.resByte s.cur b.va = none) →
       (∀ p, b.loc = .host p → s.srcByte resid clean bs b = home) ∧
       (∀ p, b.loc = .dev p →
         (s.usesL1 s.cur.pl = false → s.srcByte resid clean bs b = home) ∧
         (s.usesL1 s.cur.pl = true →
           (l1Find (s.at' s.cur.pl) (p / 128) = none → s.srcByte resid clean bs b = home) ∧
           (∀ ln, l1Find (s.at' s.cur.pl) (p / 128) = some ln →
             (ln.dirty.getLsbD (p % 128) = true →
               s.srcByte resid clean bs b = .val (ln.data.extractLsb' (8 * (p % 128)) 8)) ∧
             (ln.dirty.getLsbD (p % 128) = false → clean = true → ln.have'.getLsbD (p % 128) = true →
               s.srcByte resid clean bs b =
                 if (∀ k ∈ bs, k.va / 8 = b.va / 8 → (s.at' s.cur.pl).l1Has k = true ∧ s.readPending s.cur.pl k.loc = false)
                 then .val (ln.data.extractLsb' (8 * (p % 128)) 8) else home) ∧
             (ln.dirty.getLsbD (p % 128) = false → clean = false ∨ ln.have'.getLsbD (p % 128) = false →
               s.srcByte resid clean bs b = home))))))

/-- R29, R75, R91, R93, R267, R272, R54: the results of loads, prefetches and remote requests arrive, each in its turn behind
what left its place for the same home before it. A byte that was not fixed at issue is what its home holds now; d is ready again
and holds the value; no byte of memory changes. A line that comes into L1 holds every byte but those to which the core has a
write on its way.
The model's own choices here: DEDUCED, log 68, 69. -/
def Obligations.ResultArrivals : Prop :=
  ∀ (s : State) (f : Flight) (i : Sid), s.flight? s.subj = some f → f.sid = some i →
    (∀ d n sx src fill acq, f.body = .load d n sx src fill acq → s.first f = false → exec .variableResultArrival s = .next s) ∧
    (∀ d n sx src fill acq, f.body = .load d n sx src fill acq → s.first f = true → s.turnPast i = true →
      (∀ h ∈ f.homes, s.portFree h = true) → (s.useLines (srcLines src)).isSome = true → s.srcPoison src = false →
      ∃ t : State, exec .variableResultArrival s = .next (t.deliver i d (extend sx n (ofBytes (src.map s.sample)))) ∧
        t.slotAt i = s.slotAt i ∧ (∀ l, t.byteAt l = s.byteAt l)) ∧
    (∀ d src q fill, f.body = .vload d src q none fill → s.srcPoison src = false →
      ((s.loadArrives f src fill).bind (fun u => u.warmLoad (some i) d)).isSome = true →
      ∃ t : State, exec .variableResultArrival s = .next (t.deliverLoad i d (bytesVec (src.map s.sample)) q) ∧
        t.slotAt i = (s.slotAt i).markRec q 2 ∧ (∀ l, t.byteAt l = s.byteAt l)) ∧
    (∀ line home host, f.body = .fill line home host → s.first f = true → (s.useLines [(home, line, host)]).isSome = true →
      ∃ t writeBack, exec .variableResultArrival s = .next t ∧
      t.flights = s.flights.filter (fun g => g.id != f.id) ++ writeBack ∧ (∀ l, t.byteAt l = s.byteAt l) ∧
      (host = true → (t.at' f.src).l1 = (s.at' f.src).l1) ∧
      (host = false → s.usesL1 f.src = true → (s.at' f.src).l1Busy = false → line ∉ s.poison →
        ∃ ln, l1Find (t.at' f.src) line = some ln ∧
          ∀ k, k < 128 → (ln.have'.getLsbD k = true ↔ s.writePending f.src (.dev (line * 128 + k)) = false ∨
            ∃ o, l1Find (s.at' f.src) line = some o ∧ o.dirty.getLsbD k = true))) ∧
    (∀ d v ack, f.body = .result d v 0 0 ack → s.first f = true → s.turnPast i = true → ∃ t : State, exec .variableResultArrival s = .next (t.deliver i d v) ∧
      t.slotAt i = s.slotAt i ∧ (∀ l, t.byteAt l = s.byteAt l)) ∧
    (∀ (t : State) (d : BitVec 6) (v : Word), 0 < d.toNat → d.toNat < 16 →
      (t.deliver i d v).slotAt i =
        ((t.slotAt i).clearPend (.g d.toNat)).setGr (d.setWidth 4) v) ∧
    (∀ d n sx src acq t, f.body = .reqLoad d n sx src acq → s.first f = true → s.portFree f.dst = true →
      (s.dropFlight f.id).useLines (srcLines src) = some t →
      exec .remoteRequest s = .next (t.send f.launch f.dst f.src f.sid
        (.result d (extend sx n (ofBytes (src.map s.sample))) acq 0 false)))

/-- R268, R269, R270, R98: ST, STL and STT. Each stores the low bytes of its data register to the bytes of its address and
ends; STL after its release, and posted; STT posted, with d pending until the line's number comes back, never to an
aperture or to a host page that is not coherent. R91, R268, R67: what a store does to memory. To the own local store:
the bytes at once, and no others. To translated memory through L1: no byte of any memory changes, and the thread's
loads find the bytes of the line. Posted, or without L1: no byte of any memory changes yet, and writes of exactly
these bytes, in order, are on their way, each to leave after the loads of the thread that were in flight (R103 d).
The model's own choices here: DEDUCED, log 67. -/
def Obligations.StoreResultsAndEffects : Prop :=
  (∀ (d : BitVec 6) (ad : MAddr) (sz : BitVec 2),
     let n := 2 ^ sz.toNat
     (∀ (s s1 s2 s3 : State) (bs : List PByte) (v : Word), Ready (.src (plain d) :: adUses ad) s s1 → Passes accessGate s1 →
       Reaches false true (s1.address ad) n 1 s1 bs s2 → Reads (plain d) s2 v s3 →
       exec (.st d ad sz) s = .next (s3.store s3.cur (bs.zip (bytesOf v n)) false none none).ended) ∧
     (∀ (sc : BitVec 3) (s s1 s2 s3 s4 : State) (bs : List PByte) (v : Word), Ready (.src (plain d) :: adUses ad) s s1 →
       Passes accessGate s1 → Reaches false true (s1.address ad) n n s1 bs s2 → Does (release sc.toNat) s2 s3 →
       Reads (plain d) s3 v s4 →
       exec (.stl d ad sz sc) s = .next (s4.store s4.cur (bs.zip (bytesOf v n)) true none none).ended) ∧
     (∀ (s s1 s2 s3 : State) (bs : List PByte) (v : Word), Ready (.src (plain d) :: .dst (plain d) :: adUses ad) s s1 →
       Passes accessGate s1 → Checked 0 true (s1.address ad) n n s1 bs s2 → Reads (plain d) s2 v s3 →
       (bs.any noSequence = true →
         exec (.stt d ad sz) s = .next (s2.raise s2.cur ⟨0x4, s1.address ad, 0xFF, none, some (detail 0 true 0xF 4)⟩)) ∧
       (bs.any noSequence = false → Passes (cfgGate false bs) s2 → s2.me.pend.length < 8 →
         exec (.stt d ad sz) s = .next
           ((s3.did (claimDst (plain d))).store s3.cur (bs.zip (bytesOf v n)) true (some d) none).ended))) ∧
  (∀ (s : State) (posted : Bool) (tag : Option (BitVec 6)) (stream : Option Nat),
     let i := s.cur
     (∀ (n off va : Nat) (l : List Byte), i.pl = .core n →
       let t := s.store i ((List.range l.length).map (fun j => (⟨va + j, .ls n (off + j), 0, 0⟩, l.getD j 0))) posted tag stream
       (∀ j, j < l.length → t.byteAt (.ls n (off + j)) = l.getD j 0) ∧
       (∀ p, (∀ j, j < l.length → p ≠ .ls n (off + j)) → t.byteAt p = s.byteAt p) ∧
       { t with cores := s.cores } = s) ∧
     (∀ l : List (PByte × Byte), (∀ e ∈ l, ∀ n o, e.1.loc = .ls n o → i.pl ≠ .core n) →
       let t := s.store i l posted tag stream
       (∀ p, t.byteAt p = s.byteAt p) ∧
       (posted = true ∨ s.usesL1 i.pl = false →
         ∃ new, t.flights = s.flights ++ new ∧
           (∀ f ∈ new, f.src = i.pl ∧ f.sid = some i ∧ f.launch = s.me.launch ∧ f.after = s.loadsOut i ∧
             ∃ bytes cached, f.body = .write bytes tag stream cached ∧ bytes ≠ []) ∧
           (new.flatMap (fun f => match f.body with
             | .write bytes _ _ _ => bytes
             | _ => [])) = l.map (fun e => (e.1.loc, e.2, 0xFF)))) ∧
     (∀ (va pa sh h : Nat) (pte : Word) (l : List Byte), s.usesL1 i.pl = true → pa % 128 + l.length ≤ 128 →
       (∀ j, j < l.length → s.homeOf ⟨va + j, .dev (pa + j), pte, sh⟩ = some (.slice h)) →
       ∀ j bs, j < l.length →
         (s.store i ((List.range l.length).map (fun j => (⟨va + j, .dev (pa + j), pte, sh⟩, l.getD j 0))) false tag
           stream).srcByte false false bs ⟨va + j, .dev (pa + j), pte, sh⟩ = .val (l.getD j 0)))

/-- R76, R91, R270: a write performed at its home. Each byte it names takes the written bits of its mask, every other byte of
every memory stays, the line's number rises by one, the write is no longer on its way, and a tagged store's number goes back
to its register. A write to what no slice caches (a local store, a host page that is not coherent) has no number. -/
def Obligations.WritesPerformedAtHome : Prop :=
  (∀ (s : State) (f : Flight) (bytes : List (Loc × Byte × Byte)) (tag : Option (BitVec 6)) (stream : Option Nat)
    (k line : Nat) (host : Bool), s.flight? s.subj = some f → f.body = .write bytes tag stream true → f.dst = .slice k →
    s.writable f = true → s.hostHeld (bytes.map (·.1)) = [] → (tabGet [] s.l2 k).length < 16 →
    (bytes.map (·.1)).Nodup → bytes ≠ [] →
    (∀ e ∈ bytes, ∃ o, o < 128 ∧ e.1 = (if host then .host (128 * line + o) else .dev (128 * line + o))) →
    ∃ t, exec .writePerformedAtHome s = .next t ∧
      (∀ e ∈ bytes, t.byteAt e.1 = (s.byteAt e.1 &&& ~~~e.2.2) ||| (e.2.1 &&& e.2.2)) ∧
      (∀ l, (∀ e ∈ bytes, e.1 ≠ l) → t.byteAt l = s.byteAt l) ∧
      t.seqOf k line host = s.seqOf k line host + 1 ∧
      (tag = none → t.flights = s.flights.filter (fun g => g.id != f.id)) ∧
      (∀ d, tag = some d → ∃ after by', t.flights = s.flights.filter (fun g => g.id != f.id) ++
        [⟨s.nextId, f.launch, f.dst, f.src, f.sid, .result d ((s.seqOf k line host + 1).setWidth 64) 0 0 true, after, by'⟩])) ∧
  (∀ (s : State) (f : Flight) (bytes : List (Loc × Byte × Byte)) (stream : Option Nat),
    s.flight? s.subj = some f → f.body = .write bytes none stream false → s.writable f = true →
    s.hostHeld (bytes.map (·.1)) = [] → (bytes.map (·.1)).Nodup →
    ∃ t, exec .writePerformedAtHome s = .next t ∧
      (∀ e ∈ bytes, t.byteAt e.1 = (s.byteAt e.1 &&& ~~~e.2.2) ||| (e.2.1 &&& e.2.2)) ∧
      (∀ l, (∀ e ∈ bytes, e.1 ≠ l) → t.byteAt l = s.byteAt l) ∧
      t.l2 = s.l2 ∧ t.flights = s.flights.filter (fun g => g.id != f.id))

/-- R95, R96, R98, R99, R103: a release at slot or core scope does nothing; a wider one first writes back the dirty lines whose
home its scope covers and is done only when no store of the thread to a covered home is outstanding and its loads have returned,
the thread being held until then. An acquire at slot or core scope does nothing; a wider one leaves in L1, of the lines whose home its scope covers, their
dirty bytes alone. Neither changes a byte of memory.
The model's own choices here: DEDUCED, log 67. -/
def Obligations.ReleaseAndAcquire : Prop :=
  ∀ (sc : Nat) (s : State),
    (sc < 2 → Passes (release sc) s ∧ Passes (acquire sc) s) ∧
    (2 ≤ sc →
      (∀ t, Does (release sc) s t → t.storesOut t.cur (t.covers t.cur sc) = false ∧ t.loadsOut t.cur = [] ∧
        (∀ l, t.byteAt l = s.byteAt l) ∧
        (s.me.relDone = false →
          ∀ ln ∈ (t.at' s.cur.pl).l1, s.covers s.cur sc (.slice ln.home) = true → ln.dirty = 0)) ∧
      (s.me.relDone = false →
        (∀ ln ∈ (s.at' s.cur.pl).l1, s.covers s.cur sc (.slice ln.home) = true → ln.dirty = 0) →
        (s.storesOut s.cur (s.covers s.cur sc) = false → s.loadsOut s.cur = [] → ∃ t, Does (release sc) s t) ∧
        (s.storesOut s.cur (s.covers s.cur sc) = true ∨ s.loadsOut s.cur ≠ [] →
          ∃ t, run (release sc) s = .next t ∧ t.me = { s.me with hold := .held, relDone := true })) ∧
      (∃ t, Does (acquire sc) s t ∧ (∀ l, t.byteAt l = s.byteAt l) ∧
        (∀ ln ∈ (t.at' s.cur.pl).l1, s.covers s.cur sc (.slice ln.home) = true → ln.have' = ln.dirty ∧ ln.dirty ≠ 0) ∧
        (∀ ln, s.covers s.cur sc (.slice ln.home) = false →
          (ln ∈ (t.at' s.cur.pl).l1 ↔ ln ∈ (s.at' s.cur.pl).l1))))

/-- R271, R272, R273, R98, R99, R100, R265: the local-store atomic (an address outside the own local store and scratch banks
takes the access-violation trap; a thread on a slice core goes back first), the cache-control instructions, and the fences with the
release and the acquire they are made of; FENCE.ACQ waits for the thread's loads in flight. R69, R93, R276: RESIDE copies the
4 KiB block of its address from its home, with what the core's L1 holds dirty, into a free residency slot once no write and no read
of the core to the block is on its way, or does nothing when the thread holds four blocks, holds this one, or no slot is free, and
takes the access-violation trap for an aperture or a host-system page; UNPIN gives the block up, or does nothing.
The model's own choices here: DESIGN CHOICE, log 38; DEDUCED, log 67. -/
def Obligations.LocalAtomicCacheFenceAndResidencyResults : Prop :=
  ((∀ (d a b : BitVec 6) (op : BitVec 4) (dword : Bool) (off : BitVec 20) (n o : Nat) (s s1 s2 s3 : State) (x v : Word),
     s.cur.pl = .core n → Ready [.dst (plain d), .src (plain a), .src (plain b)] s s1 → Passes accessGate s1 →
     Reads (plain a) s1 x s2 → Reads (plain b) s2 v s3 →
     let size := if dword then 8 else 4
     let ea := x + off.signExtend 64
     let loc : Loc := .ls n o
     (∀ j, j < size → apertureByte s1 (ea.toNat + j) = some (.ls n (o + j))) →
     (ea.toNat % size = 0 → Passes (cfgGate false [⟨ea.toNat, loc, 0, 0⟩]) s1 →
       let old : Word := BitVec.ofNat 64 (s3.readLoc loc size)
       exec (.lsrmw d a b op dword off) s =
         .next ((s3.writeLoc loc size (sizedOp op.toNat dword old v).toNat).wrote 4 (plain d) old).ended) ∧
     (ea.toNat % size ≠ 0 →
       exec (.lsrmw d a b op dword off) s = .next (s1.raise s1.cur ⟨0x5, ea, 0xFF, none, some (detail 0 true 0xF 5)⟩))) ∧
   (∀ (d a b : BitVec 6) (op : BitVec 4) (dword : Bool) (off : BitVec 20) (n : Nat) (s s1 s2 : State) (x : Word),
     (s.cur.pl = .slice n → exec (.lsrmw d a b op dword off) s = .next s.sentHome) ∧
     (s.cur.pl = .core n → Ready [.dst (plain d), .src (plain a), .src (plain b)] s s1 → Passes accessGate s1 →
       Reads (plain a) s1 x s2 →
       let ea := x + off.signExtend 64
       (∃ j, j < (if dword then 8 else 4) ∧ ∀ o, apertureByte s1 (ea.toNat + j) ≠ some (.ls n o)) →
       exec (.lsrmw d a b op dword off) s = .next (s1.raise s1.cur ⟨0x4, ea, 0xFF, none, some (detail 0 true 0xF 4)⟩))) ∧
   (∀ (ad : MAddr) (s s1 s2 : State), Ready (adUses ad) s s1 → Does (lookPage (s1.address ad)) s1 s2 →
     (s2.quietByte (s1.address ad) = none → exec (.pref ad) s = .next s2.ended) ∧
     (∀ b p h, s2.quietByte (s1.address ad) = some b → b.loc = .dev p → s2.homeOf b = some (.slice h) →
       (s2.at' s2.cur.pl).l1Busy = false →
       exec (.pref ad) s = .next (s2.send s2.me.launch s2.cur.pl (.slice h) (some s2.cur) (.fill (p / 128) h false)).ended) ∧
     (∀ b p h, s2.quietByte (s1.address ad) = some b → b.loc = .host p → s2.homeOf b = some (.slice h) →
       exec (.pref ad) s = .next (if b.pte.getLsbD 5 = true
         then (s2.send s2.me.launch s2.cur.pl (.slice h) (some s2.cur) (.fill (p / 128) h true)).ended else s2.ended)) ∧
     (∀ b p, s2.quietByte (s1.address ad) = some b → b.loc = .dev p → (s2.at' s2.cur.pl).l1Busy = false →
       (∃ t : State, exec (.clean ad) s = .next t.ended ∧ (∀ l, t.byteAt l = s2.byteAt l) ∧
         ∀ ln ∈ (t.at' s2.cur.pl).l1, ln.line = p / 128 → ln.dirty = 0) ∧
       (∃ t : State, exec (.inval ad) s = .next t.ended ∧ (∀ l, t.byteAt l = s2.byteAt l) ∧
         ∀ ln ∈ (t.at' s2.cur.pl).l1, ln.line ≠ p / 128)) ∧
     ((s1.address ad).toNat < 0x00E0000000000000 → s2.quietByte (s1.address ad) = none →
       exec (.clean ad) s = .next s2.ended ∧ exec (.inval ad) s = .next s2.ended) ∧
     (0x0100000000000000 ≤ (s1.address ad).toNat →
       let t := s1.raise s1.cur ⟨0x4, s1.address ad, 0xFF, none, some (detail 0 false 0xF 4)⟩
       exec (.clean ad) s = .next t ∧ exec (.inval ad) s = .next t)) ∧
   (∀ (sc : BitVec 3) (s t u : State),
     (Does (acquire sc.toNat) s t → sc.toNat < 2 ∨ s.loadsOut s.cur = [] → exec (.fenceAcq sc) s = .next t.ended) ∧
     (2 ≤ sc.toNat → s.loadsOut s.cur ≠ [] → exec (.fenceAcq sc) s = .next (s.updMe fun x => { x with hold := .held })) ∧
     (Does (release sc.toNat) s t → exec (.fenceRel sc) s = .next t.ended) ∧
     (Does (release sc.toNat) s t → Does (acquire sc.toNat) t u → exec (.fenceFull sc) s = .next u.ended)) ∧
   (∀ s : State,
     (s.storesOut s.cur (fun _ => true) = false → exec .fenceAck s = .next s.ended) ∧
     (s.storesOut s.cur (fun _ => true) = true → exec .fenceAck s = .next (s.updMe fun x => { x with hold := .held })))) ∧
  (∀ (ad : MAddr) (n : Nat) (s s1 : State), s.cur.pl = .core n → Ready (adUses ad) s s1 →
     let ea := s1.address ad
     let va := ea.toNat / 4096 * 4096
     let holds (t : State) (r : Nat) : Prop := r ∈ t.me.reside ∧ (tabGet resReset (t.at' (.core n)).res r).va = va
     (∀ (s2 : State) (b : PByte) (p : Nat), Passes accessGate s1 → Checked 0 false ea 1 1 s1 [b] s2 → b.loc = .dev p →
       (4 ≤ s2.me.reside.length ∨ (∃ r, holds s2 r) ∨
           (∀ r, r < 8 → (tabGet resReset (s2.at' (.core n)).res r).used = true) →
         exec (.reside ad) s = .next s2.ended) ∧
       (∀ r, s2.me.reside.length < 4 → (∀ k, ¬holds s2 k) → (s2.at' (.core n)).freeRes s2.cyc = some r →
         (∃ j, j < 4096 ∧ s2.quietAt (.core n) (.dev (p / 4096 * 4096 + j)) = false) →
         exec (.reside ad) s = .next (s2.updMe fun x => { x with hold := .held })) ∧
       (∀ r, s2.me.reside.length < 4 → (∀ k, ¬holds s2 k) → (s2.at' (.core n)).freeRes s2.cyc = some r →
         (∀ j, j < 4096 → s2.quietAt (.core n) (.dev (p / 4096 * 4096 + j)) = true) →
         (s2.useLines (srcLines (s2.srcs false false b.block))).isSome = true →
         ∃ t, exec (.reside ad) s = .next t ∧ holds t r ∧ t.me.reside = s2.me.reside ++ [r] ∧ t.me.pc = s2.me.pc + 8 ∧
           (∀ j, j < 4096 → Memory.read (tabGet resReset (t.at' (.core n)).res r).data j =
             let a := p / 4096 * 4096 + j
             match l1Find (s2.at' (.core n)) (a / 128) with
             | some ln =>
               if s2.usesL1 (.core n) = true ∧ ln.dirty.getLsbD (a % 128) = true then ln.data.extractLsb' (8 * (a % 128)) 8
               else Memory.read s2.mem a
             | none => Memory.read s2.mem a) ∧
           (tabGet resReset (t.at' (.core n)).res r).used = true ∧ (tabGet resReset (t.at' (.core n)).res r).full = true ∧
           (∀ l, t.byteAt l = s2.byteAt l))) ∧
     (∀ (s2 : State) (b : PByte), Passes accessGate s1 → Checked 0 false ea 1 1 s1 [b] s2 → (∀ p, b.loc ≠ .dev p) →
       exec (.reside ad) s = .next (s2.raise s2.cur ⟨0x4, ea, 0xFF, none, some (detail 0 false 0xF 4)⟩)) ∧
     (∀ (s2 : State) (bs : List PByte), after (checkAccess 0 false ea 1 1) s1 = some (bs, s2) →
       ((∀ r, ¬holds s2 r) → exec (.unpin ad) s = .next s2.ended) ∧
       (∀ r, s2.me.reside.find? (fun r => (tabGet resReset (s2.at' (.core n)).res r).va == va) = some r →
         ∃ t, exec (.unpin ad) s = .next t ∧ t.me.reside = s2.me.reside.erase r ∧ t.me.pc = s2.me.pc + 8 ∧
           (tabGet resReset (t.at' (.core n)).res r).used = false ∧ (∀ l, t.byteAt l = s2.byteAt l))))

/-- R278: the value that operation op writes over old. -/
def Sys2Proof.Machine.opResult {w : Nat} (op : Nat) (old v r : BitVec w) : Prop :=
  (op = 0 ∧ r = old + v) ∨ (op = 1 ∧ r = old &&& v) ∨ (op = 2 ∧ r = old ||| v) ∨ (op = 3 ∧ r = old ^^^ v) ∨
  (op = 4 ∧ r = BitVec.ofInt w (Min.min old.toInt v.toInt)) ∨ (op = 5 ∧ r = BitVec.ofInt w (Max.max old.toInt v.toInt)) ∨
  (op = 6 ∧ r = BitVec.ofNat w (Min.min old.toNat v.toNat)) ∨ (op = 7 ∧ r = BitVec.ofNat w (Max.max old.toNat v.toNat)) ∨
  (op = 8 ∧ r = v)

/-- R76, R277, R278, R279, R280: an atomic performed at its home is one event. The old value is what the home holds, the new
value is that of the operation's table, the line's number rises by one even when nothing changes, and no byte beyond the
operand's changes.
The model's own choices here: DEDUCED, log 8. -/
def Obligations.AtomicsAtHome : Prop :=
  (∀ (s : State) (k line : Nat) (host : Bool) (l : Loc) (r : ReqOp), locLine l = some (line, host) →
    (tabGet [] s.l2 k).length < 16 →
    let old : Word := BitVec.ofNat 64 (ofBytes ((List.range r.size).map (fun j => s.byteAt (l.off j))))
    ∃ t, s.atomicAt k l r = some (t, old, s.seqOf k line host + 1, (r.new old).2) ∧
      (∀ j, j < r.size → t.byteAt (l.off j) = (r.new old).1.extractLsb' (8 * j) 8) ∧
      (∀ p, (∀ j, j < r.size → p ≠ l.off j) → t.byteAt p = s.byteAt p) ∧
      t.seqOf k line host = s.seqOf k line host + 1 ∧ { t with mem := s.mem, hostMem := s.hostMem, cores := s.cores, l2 := s.l2, snooped := s.snooped } = s) ∧
  (∀ (op : BitVec 4) (old v : Word) (r : Word), opResult op.toNat old v r →
    (ReqOp.amo op true v).size = 8 ∧ (ReqOp.amo op true v).new old = (r, 0)) ∧
  (∀ (op : BitVec 4) (old v r : BitVec 32) (u : Word), opResult op.toNat old v r → u.setWidth 32 = v →
    (ReqOp.amo op false u).size = 4 ∧ (ReqOp.amo op false u).new (old.setWidth 64) = (r.setWidth 64, 0)) ∧
  (∀ (old cmp v : Word),
    (ReqOp.cas true cmp v).size = 8 ∧ (ReqOp.cas true cmp v).new old = (if old = cmp then v else old, 0)) ∧
  (∀ (old : BitVec 32) (cmp v : Word), (ReqOp.cas false cmp v).size = 4 ∧
    (ReqOp.cas false cmp v).new (old.setWidth 64) =
      ((if old = cmp.setWidth 32 then (v.setWidth 32 : BitVec 32) else old).setWidth 64, 0)) ∧
  (∀ (dword : Bool) (v old : Word) (status : BitVec 32),
    let f : Fmt := if dword then .fp64 else .fp32
    let mode := (status.extractLsb' 5 2).toNat
    let ftz := status.getLsbD 7
    let input (w : Word) : Fl := f.input ftz (w.toNat % 2 ^ f.bits)
    let sum := sumFl mode [input old, input v]
    let p := f.conv mode ftz .ieee sum.1
    (ReqOp.famo 0 dword v status).new old = (BitVec.ofNat 64 p.1, sum.2 ||| p.2) ∧
    (∀ x y : Fl, f.val (old.toNat % 2 ^ f.bits) = x → f.val (v.toNat % 2 ^ f.bits) = y → x = .nan → y = .nan →
      (ReqOp.famo 1 dword v status).new old = (BitVec.ofNat 64 f.canonNan, 0) ∧
      (ReqOp.famo 2 dword v status).new old = (BitVec.ofNat 64 f.canonNan, 0)))

/-- What an atomic of the thread does once its operands are ready (R54, R101, R277): mk builds its operation from Gpr(d), the
operand and the status. At its home it is performed, once the host has answered the snoop of a line it may hold (R88, R386), between the release and the acquire of its scope, with the old value and
the line's number in d and g(d + 1), neither when d is 0; a pinned thread elsewhere sends a request, both registers pending; any
other thread leaves for the home. -/
def Sys2Proof.Machine.PerformsAtomic (i : Instr) (o : AtomicOp) (readsD : Bool) (mk : Word → Word → BitVec 32 → ReqOp) : Prop :=
  ∀ (s s1 r1 s2 s3 s4 s5 : State) (bs : List PByte) (b : PByte) (x y v : Word),
    Ready ((if o.d = 0 then [] else [.dst (gf o.d), .dst (gf (o.d + 1))]) ++ [.src (plain o.a), .src (plain o.b)] ++
      (if readsD then [.src (gf o.d)] else [])) s s1 →
    Passes accessGate s1 → Reads (plain o.a) s1 x r1 →
    let n := if o.dword then 8 else 4
    let ea := x + o.off.signExtend 64
    Checked 0 true ea n n s1 (b :: bs) s2 →
    let home := s2.homeFirst (b :: bs)
    (((b :: bs).any noSequence = true) →
      exec i s = .next (s2.raise s2.cur ⟨0x4, ea, 0xFF, none, some (detail 0 true 0xF 4)⟩)) ∧
    ((b :: bs).any noSequence = false → s2.me.pend.length + (if o.d = 0 then 0 else 2) ≤ 8 → Does (release o.sc.toNat) s2 s3 →
      let s3' := if home = s2.cur.pl then s3.noteHost (b :: bs) else s3
      let held := s3'.hostHeld ((List.range n).map b.loc.off)
      (home = s2.cur.pl → s2.portBusy s2.cur = false → held ≠ [] → exec i s = .next (s3'.snoop held)) ∧
      (Reads (plain o.a) s3' y s4 → Reads (plain o.b) s4 v s5 →
      let op := mk (s5.me.gr o.d) v s5.me.status
      (∀ (t u : State) (old : Word) (q : BitVec 16) (fl : BitVec 5), home = s2.cur.pl → s2.portBusy s2.cur = false → held = [] →
        s5.atomicAt (clusterOf home) b.loc op = some (t, old, q, fl) →
        Does (acquire o.sc.toNat) (t.updMe (fun z =>
          let w := { z with status := z.status ||| fl.setWidth 32 }
          if o.d = 0 then w else (w.setGr o.d old).setGr (o.d + 1) (q.setWidth 64))) u →
        exec i s = .next u.ended) ∧
      (home ≠ s2.cur.pl → s2.pinned s2.cur = true → (s2.at' s2.cur.pl).l1Busy = false →
        exec i s = .next (((((s5.noteHost (b :: bs)).pushLine s5.cur.pl b.loc).updMe (fun z =>
          { z with pend := z.pend ++ (if o.d = 0 then [] else [.g o.d.toNat, .g (o.d + 1).toNat]) })).send
            s5.me.launch s5.cur.pl home (some s5.cur) (.reqAtomic o.d b.loc op o.sc)).ended)))) ∧
    ((b :: bs).any noSequence = false → home ≠ s2.cur.pl → s2.pinned s2.cur = false →
      exec i s = .next (s2.updMe fun z =>
        { z with hold := .depart home false none, asleep := none, relDone := false, stage := 0, walkWait := none }))

/-- R54, R55, R277, R281: AMO, CAS, FAMO and RED as instructions, and the requests and updates they send, served at the home.
The model's own choices here: DEDUCED, log 8, 29. -/
def Obligations.AtomicResults : Prop :=
  (∀ (op : BitVec 4) (o : AtomicOp), PerformsAtomic (.amo op o) o false (fun _ v _ => .amo op o.dword v)) ∧
  (∀ o : AtomicOp, PerformsAtomic (.cas o) o true (fun cmp v _ => .cas o.dword cmp v)) ∧
  (∀ (op : BitVec 2) (o : AtomicOp), PerformsAtomic (.famo op o) o false (fun _ v st => .famo op o.dword v st)) ∧
  (∀ (op sc : BitVec 3) (a b : BitVec 6) (dword : Bool) (off : BitVec 20) (s s1 r1 s2 s3 s4 s5 : State) (bs : List PByte)
    (c : PByte) (x y v : Word), Ready [.src (plain a), .src (plain b)] s s1 → Passes accessGate s1 →
    Reads (plain a) s1 x r1 →
    let n := if dword then 8 else 4
    Checked 0 true (x + off.signExtend 64) n n s1 (c :: bs) s2 → (c :: bs).any noSequence = false →
    (s2.at' s2.cur.pl).l1Busy = false → Does (release sc.toNat) s2 s3 → Reads (plain a) s3 y s4 → Reads (plain b) s4 v s5 →
    exec (.red op a b dword sc off) s = .next (((s5.noteHost (c :: bs)).pushLine s5.cur.pl c.loc).send s5.me.launch s5.cur.pl
      (s2.homeFirst (c :: bs)) (some s5.cur) (.red c.loc (op.setWidth 4) dword v)).ended) ∧
  (∀ (s : State) (f : Flight), s.flight? s.subj = some f → s.writable f = true →
    (∀ (d : BitVec 4) (loc : Loc) (op : ReqOp) (sc : BitVec 3) (t : State) (old : Word) (q : BitVec 16) (fl : BitVec 5),
      f.body = .reqAtomic d loc op sc → s.hostHeld [loc] = [] →
      s.atomicAt (clusterOf f.dst) loc op = some (t, old, q, fl) →
      let u := (t.dropFlight f.id).send f.launch f.dst f.src f.sid (.result (d.setWidth 6) old sc.toNat fl true)
      exec .remoteRequest s = .next (if d = 0 then u
        else u.send f.launch f.dst f.src f.sid (.result ((d + 1).setWidth 6) (q.setWidth 64) 0 0 true))) ∧
    (∀ (loc : Loc) (op : BitVec 4) (dword : Bool) (v : Word) (t : State) (old : Word) (q : BitVec 16) (fl : BitVec 5),
      f.body = .red loc op dword v → s.hostHeld [loc] = [] →
      s.atomicAt (clusterOf f.dst) loc (.amo op dword v) = some (t, old, q, fl) →
      exec .remoteUpdateApply s = .next (t.dropFlight f.id)))

/-- R12, R54, R282, R283: GOTO in both forms and HOME. A GOTO to the thread's own place completes at once; a pinned thread takes
the pinned-migration trap; any other leaves, to go on after the GOTO; a dead target takes the access-violation trap. HOME gives
the links crossed, the class and the place, and sends nobody away: on a slice core an own alias names the origin core.
The model's own choices here: DEDUCED, log 28, 39. -/
def Obligations.MigrationByInstruction : Prop :=
  (∀ (a : BitVec 6) (s s1 s2 : State) (v : Word), Ready [.src (plain a)] s s1 → Reads (plain a) s1 v s2 →
    let goesFrom (u w : State) (i : Instr) (p : Place) : Prop :=
      (p = u.cur.pl → exec i s = .next w.ended) ∧
      (p ≠ u.cur.pl → u.pinned u.cur = true → exec i s = .next (u.trapped 0x9 v)) ∧
      (p ≠ u.cur.pl → u.pinned u.cur = false → exec i s = .next (w.updMe fun x =>
        { x with hold := .depart p true none, asleep := none, relDone := false, stage := 0, walkWait := none }))
    let failsFrom (u : State) (i : Instr) : Prop :=
      exec i s = .next (u.raise u.cur ⟨0x4, v, 0xFF, none, some (detail 0 false 0xF 4)⟩)
    let goes := goesFrom s1 s2
    let fails := failsFrom s1
    let n := (v.extractLsb' 0 12).toNat
    (n / 4 ∉ s1.deadClusters → goes (.goto a) (.core n)) ∧ (n / 4 ∈ s1.deadClusters → fails (.goto a)) ∧
    (∀ u w, v.toNat < 0x00E0000000000000 → Does (lookPage v) s1 u → Reads (plain a) u v w →
      (u.quietByte v = none → failsFrom u (.gotoHome a)) ∧
      (∀ b p, u.quietByte v = some b → u.homeOf b = some p → goesFrom u w (.gotoHome a) p)) ∧
    (∀ c o, c < 4096 → c / 4 ∉ s1.deadClusters → v.toNat = 0x00F0000000000000 + c * 0x100000 + o → o < 0x14000 →
      goes (.gotoHome a) (.core c)) ∧
    (∀ c o, (s1.cur.pl = .core c ∨ (∃ m, s1.cur.pl = .slice m ∧ s1.me.origin.toNat = c)) →
      v.toNat = 0x00E0000000000000 + o → (o < 0x14000 → goes (.gotoHome a) (.core c)) ∧
        (0x14000 ≤ o → o < 0x20000 → fails (.gotoHome a))) ∧
    (0x0100000000000000 ≤ v.toNat → fails (.gotoHome a))) ∧
  (∀ (d a : BitVec 6) (off : BitVec 20) (s s1 r1 s2 s3 : State) (x y : Word) (b : PByte), Ready [.dst (plain d), .src (plain a)] s s1 →
    Reads (plain a) s1 x r1 → Checked 0 false (x + off.signExtend 64) 1 1 s1 [b] s2 → Reads (plain a) s2 y s3 →
    ∃ w : Word, exec (.home d a off) s = .next (s3.wrote 4 (plain d) w).ended ∧
      (∀ (cl cr : Nat), clusterOf s1.cur.pl = 32 * cr + cl → cl < 32 → cr < 32 →
        let links (hc hr : Nat) : Nat := (if hc ≤ cl then cl - hc else hc - cl) + (if hr ≤ cr then cr - hr else hr - cr)
        let onCore : Bool := match s1.cur.pl with
          | .core _ => true
          | .slice _ => false
        (∀ h hc hr, s2.homeOf b = some (.slice h) → h = 32 * hr + hc → hc < 32 → hr < 32 →
          w.toNat = (links hc hr + (if onCore then 1 else 0)) * 65536 +
            (match b.loc with
              | .dev _ => (b.pte.extractLsb' 6 2).toNat
              | _ => 0) * 16384 + h) ∧
        (∀ n o hc hr, b.loc = .ls n o → n < 4096 → n / 4 = 32 * hr + hc → hc < 32 → hr < 32 →
          w.toNat = (links hc hr + (if onCore then 0 else 1)) * 65536 + 3 * 16384 + 4096 + n))) ∧
  (∀ (d a : BitVec 6) (off : BitVec 20) (s s1 r1 : State) (x : Word) (m o : Nat), Ready [.dst (plain d), .src (plain a)] s s1 →
    Reads (plain a) s1 x r1 → s1.cur.pl = .slice m → (x + off.signExtend 64).toNat = 0x00E0000000000000 + o → o < 0x14000 →
    ∃ w : Word, exec (.home d a off) s = .next (r1.wrote 4 (plain d) w).ended ∧
      w.toNat % 65536 = 3 * 16384 + 4096 + s1.me.origin.toNat)

-- vectors

/-- R293: a vector result lane by lane. Lane j of w bits takes what f gives where it is active and keeps its old bits
elsewhere; the bits above the n lanes are zero; the flags are those of the active lanes together. -/
def Sys2Proof.Machine.LaneByLane (w n : Nat) (act : List Nat) (old : Vec) (f : Nat → Nat × BitVec 5) (r : Vec) (fl : BitVec 5) :
    Prop :=
  (∀ j, j < n → r.toNat / 2 ^ (w * j) % 2 ^ w =
    if j ∈ act then (f j).1 % 2 ^ w else old.toNat / 2 ^ (w * j) % 2 ^ w) ∧ r.toNat < 2 ^ (w * n) ∧
  (∀ b, fl.getLsbD b = true ↔ ∃ j ∈ act, (f j).2.getLsbD b = true)

/-- A lane as an integer, signed or not. -/
def Sys2Proof.Machine.laneInt (w : Nat) (uns : Bool) (c : Nat) : Int :=
  if uns = false ∧ 2 ^ (w - 1) ≤ c then (c : Int) - 2 ^ w else c

/-- An integer that wraps into a lane, with no flag. -/
def Sys2Proof.Machine.laneWrap (w : Nat) (z : Int) : Nat × BitVec 5 := ((z % 2 ^ w).toNat, 0)

/-- A lane as a floating-point input, a subnormal as zero under ftz (R123, R293). -/
def Sys2Proof.Machine.laneFloat (s : State) (ty : BitVec 3) (c : Nat) : Fl := (tyFmt ty).input (s.me.status.getLsbD 7) c

/-- A value rounded into the lane's format (R117, R118, R123). -/
def Sys2Proof.Machine.laneRound (s : State) (ty : BitVec 3) (r : Fl × BitVec 5) : Nat × BitVec 5 :=
  let p := (tyFmt ty).conv (s.me.status.extractLsb' 5 2).toNat (s.me.status.getLsbD 7) .ieee r.1
  (p.1, r.2 ||| p.2)

/-- An element-wise instruction (R293, R295, R314): once it issues under its charge, each active lane j takes what f gives
for lane j of its first and second source and of the old destination; `reads` are the fields it reads. -/
def Sys2Proof.Machine.Elementwise (i : Instr) (op k per : Nat) (ty : BitVec 3) (d : Fld) (reads : List Fld) (c : BitVec 4)
    (f : State → Nat → Nat → Nat → Nat × BitVec 5) : Prop :=
  ∀ (s t u : State) (vs : List Vec) (old : Vec),
    let w := tyBits ty
    let n := 512 / w
    let act := s.lanesOn c n
    Issues op reads [d] [.src (gf c)] (8 + per * ((act.length * w + 31) / 32)) s vs t → OldOf d t old u →
    ∃ r fl, LaneByLane w n act old
        (fun j => f u ((vs.getD 0 0).toNat / 2 ^ (w * j) % 2 ^ w) ((vs.getD 1 0).toNat / 2 ^ (w * j) % 2 ^ w)
          (old.toNat / 2 ^ (w * j) % 2 ^ w)) r fl ∧
      exec i s = .next ((u.flagged fl).wroteV k d r).ended

/-- R205, R293, R295, R314: the element-wise instructions on integer lanes. -/
def Obligations.IntegerLaneResults : Prop :=
  (∀ o : V3, o.ty.toNat < 4 →
    let w := tyBits o.ty
    let z (c : Nat) := laneInt w false c
    let u (c : Nat) := laneInt w o.uns c
    let gives (i : Instr) (op per : Nat) (f : Nat → Nat → Int) : Prop :=
      Elementwise i op 6 per o.ty o.d [o.a, o.b] o.c (fun _ x y _ => laneWrap w (f x y))
    gives (.vadd o) 0x80 3 (fun x y => z x + z y) ∧ gives (.vsub o) 0x81 3 (fun x y => z x - z y) ∧
    gives (.vmul o) 0x82 5 (fun x y => z x * z y) ∧
    gives (.vmin o) 0x84 2 (fun x y => Min.min (u x) (u y)) ∧ gives (.vmax o) 0x85 2 (fun x y => Max.max (u x) (u y)) ∧
    gives (.vshl o) 0x94 3 (fun x y => x * 2 ^ (y % w)) ∧ gives (.vshr o) 0x95 3 (fun x y => u x / 2 ^ (y % w))) ∧
  (∀ o : V3,
    let gives (i : Instr) (op : Nat) (f : Nat → Nat → Nat) : Prop :=
      Elementwise i op 6 2 o.ty o.d [o.a, o.b] o.c (fun _ x y _ => (f x y, 0))
    gives (.vand o) 0x91 (fun x y => x &&& y) ∧ gives (.vor o) 0x92 (fun x y => x ||| y) ∧
    gives (.vxor o) 0x93 (fun x y => x ^^^ y) ∧
    (∀ (s t u : State) (vs : List Vec) (old : Vec),
      let w := tyBits o.ty
      let n := 512 / w
      let act := s.lanesOn o.c n
      Issues 0x90 [o.a, o.b] [o.d] [.src (gf o.c)] (8 + 2 * ((act.length * w + 31) / 32)) s vs t → OldOf o.d t old u →
      ∃ r, LaneByLane w n act (vs.getD 1 0) (fun j => ((vs.getD 0 0).toNat / 2 ^ (w * j) % 2 ^ w, 0)) r 0 ∧
        exec (.vsel o) s = .next ((u.flagged 0).wroteV 6 o.d r).ended)) ∧
  (∀ o : V2, o.ty.toNat < 4 →
    let w := tyBits o.ty
    let gives (i : Instr) (op : Nat) (f : Nat → Int) : Prop :=
      Elementwise i op 6 2 o.ty o.d [o.a] o.c (fun _ x _ _ => laneWrap w (f x))
    gives (.vabs o) 0x86 (fun x => |laneInt w false x|) ∧ gives (.vneg o) 0x87 (fun x => -laneInt w false x)) ∧
  (∀ (o : V3) (s t : State) (vs : List Vec),
    let w := tyBits o.ty
    let n := 512 / w
    let act := s.lanesOn o.c n
    let x (j : Nat) : Nat := (vs.getD 0 0).toNat / 2 ^ (w * j) % 2 ^ w
    let y (j : Nat) : Nat := (vs.getD 1 0).toNat / 2 ^ (w * j) % 2 ^ w
    let old : Vec := vs.getD 2 0
    Issues 0x83 [o.a, o.b, o.d] [o.d] [.src (gf o.c)] (8 + 7 * ((act.length * w + 31) / 32)) s vs t → o.ty.toNat < 4 →
    ∃ r, LaneByLane w n act old (fun j => laneWrap w (x j * y j + (old.toNat / 2 ^ (w * j) % 2 ^ w : Nat))) r 0 ∧
      exec (.vfma o) s = .next ((t.flagged 0).wroteV 6 o.d r).ended) ∧
  (∀ (o : V3) (s t : State) (vs : List Vec),
    let act := s.lanesOn o.c 16
    let x (j : Nat) : Int := laneInt 8 o.uns ((vs.getD 0 0).toNat / 2 ^ (8 * j) % 2 ^ 8)
    let y (j : Nat) : Int := laneInt 8 o.uns ((vs.getD 1 0).toNat / 2 ^ (8 * j) % 2 ^ 8)
    let old : Vec := vs.getD 2 0
    Issues 0x96 [o.a, o.b, o.d] [o.d] [.src (gf o.c)] (8 + 7 * ((act.length * 32 + 31) / 32)) s vs t →
    ∃ r, LaneByLane 32 16 act old (fun j => laneWrap 32 ((old.toNat / 2 ^ (32 * j) % 2 ^ 32 : Nat) +
        (x (4 * j) * y (4 * j) + x (4 * j + 1) * y (4 * j + 1) + x (4 * j + 2) * y (4 * j + 2) + x (4 * j + 3) * y (4 * j + 3)))) r 0 ∧
      exec (.vdot4 o) s = .next ((t.flagged 0).wroteV 6 o.d r).ended)

/-- R293, R295, R296, R314: the element-wise instructions on floating-point lanes; each completes whenever it issues, and VABS
and VNEG of a NaN give the canonical NaN, positive or with the inverted sign. VEXP2 and VLOG2 say their value where one
is decided (DEDUCED, log 7).
The model's own choices here: DEDUCED, log 7, 27. -/
def Obligations.FloatLaneResults : Prop :=
  (∀ o : V3, 4 ≤ o.ty.toNat →
    let v (s : State) (c : Nat) := laneFloat s o.ty c
    let mode (s : State) : Nat := (s.me.status.extractLsb' 5 2).toNat
    let gives (i : Instr) (op k per : Nat) (f : State → Nat → Nat → Fl × BitVec 5) : Prop :=
      Elementwise i op k per o.ty o.d [o.a, o.b] o.c (fun s x y _ => laneRound s o.ty (f s x y))
    gives (.vadd o) 0x80 6 5 (fun s x y => sumFl (mode s) [v s x, v s y]) ∧
    gives (.vsub o) 0x81 6 5 (fun s x y => sumFl (mode s) [v s x, (v s y).negate]) ∧
    gives (.vmul o) 0x82 6 7 (fun s x y => mulFl (v s x) (v s y)) ∧
    gives (.vmin o) 0x84 6 5 (fun s x y => (minFl (v s x) (v s y), 0)) ∧
    gives (.vmax o) 0x85 6 5 (fun s x y => (maxFl (v s x) (v s y), 0)) ∧
    gives (.vdiv o) 0x8C 8 14 (fun s x y => divFl (v s x) (v s y)) ∧
    (∀ (s t : State) (vs : List Vec),
      let w := tyBits o.ty
      let n := 512 / w
      let act := s.lanesOn o.c n
      let at' (k j : Nat) : Fl := v t ((vs.getD k 0).toNat / 2 ^ (w * j) % 2 ^ w)
      Issues 0x83 [o.a, o.b, o.d] [o.d] [.src (gf o.c)] (8 + 7 * ((act.length * w + 31) / 32)) s vs t →
      ∃ r fl, LaneByLane w n act (vs.getD 2 0) (fun j => laneRound t o.ty
          (let p := mulFl (at' 0 j) (at' 1 j)
           let q := sumFl (mode t) [p.1, at' 2 j]
           (q.1, p.2 ||| q.2))) r fl ∧
        exec (.vfma o) s = .next ((t.flagged fl).wroteV 6 o.d r).ended)) ∧
  (∀ o : V2, 4 ≤ o.ty.toNat →
    let w := tyBits o.ty
    let v (s : State) (c : Nat) := laneFloat s o.ty c
    let gives (i : Instr) (op : Nat) (f : Fl → Fl × BitVec 5) : Prop :=
      Elementwise i op 8 14 o.ty o.d [o.a] o.c (fun s x _ _ => laneRound s o.ty (f (v s x)))
    gives (.vrcp o) 0x88 rcpFl ∧ gives (.vrsq o) 0x89 rsqFl ∧ gives (.vsqrt o) 0x8D sqrtFl ∧
    (let nan (x : Nat) : Bool := (tyFmt o.ty).val x == .nan
     let neg (x : Nat) : Bool := decide (2 ^ (w - 1) ≤ x)
     let canon : Nat := (tyFmt o.ty).canonNan
     Elementwise (.vabs o) 0x86 6 2 o.ty o.d [o.a] o.c (fun _ x _ _ => (if nan x then canon else x % 2 ^ (w - 1), 0)) ∧
     Elementwise (.vneg o) 0x87 6 2 o.ty o.d [o.a] o.c (fun _ x _ _ =>
       (if nan x then (if neg x then canon else canon + 2 ^ (w - 1)) else x + 2 ^ (w - 1), 0))) ∧
    (∀ (i : Instr) (op : Nat) (g : (Fl → Nat × BitVec 5) → Fl → Option (Nat × BitVec 5)),
      (i = .vexp2 o ∧ op = 0x8A ∧ g = exp2Fl) ∨ (i = .vlog2 o ∧ op = 0x8B ∧ g = log2Fl) →
      ∀ (s t u : State) (vs : List Vec) (old : Vec),
        let n := 512 / w
        let act := s.lanesOn o.c n
        Issues op [o.a] [o.d] [.src (gf o.c)] (8 + 14 * ((act.length * w + 31) / 32)) s vs t → OldOf o.d t old u →
        let q (j : Nat) := g ((tyFmt o.ty).conv (u.me.status.extractLsb' 5 2).toNat (u.me.status.getLsbD 7) .ieee)
          (v u ((vs.getD 0 0).toNat / 2 ^ (w * j) % 2 ^ w))
        ∃ r fl x, exec i s = .next { (u.flagged fl).wroteV 8 o.d r with fresh := x }.ended ∧
          (∀ j p, j < n → j ∈ act → q j = some p → r.toNat / 2 ^ (w * j) % 2 ^ w = p.1 % 2 ^ w ∧ fl ||| p.2 = fl) ∧
          (∀ j, j < n → j ∉ act → r.toNat / 2 ^ (w * j) % 2 ^ w = old.toNat / 2 ^ (w * j) % 2 ^ w) ∧
          (∀ f, (∀ j ∈ act, q j = some (f j)) → LaneByLane w n act old f r fl)))

/-- R301: what a reduction makes of lanes l: the wrapped sum, the smallest, the largest, AND, OR and XOR of integers; the
exact sum rounded once, the smallest and the largest of floats; for no lane the value that changes nothing, +0 for a sum. -/
def Sys2Proof.Machine.Combines (s : State) (o : V2) (op : Nat) (l : List Nat) (r : Nat) (fl : BitVec 5) : Prop :=
  let w := tyBits o.ty
  let z (c : Nat) := laneInt w o.uns c
  let v (c : Nat) := laneFloat s o.ty c
  (o.ty.toNat < 4 → fl = 0 ∧
    (op = 0 → r % 2 ^ w = l.sum % 2 ^ w) ∧
    (op = 1 → (l = [] → r = if o.uns then 2 ^ w - 1 else 2 ^ (w - 1) - 1) ∧ (l ≠ [] → r ∈ l ∧ ∀ c ∈ l, z r ≤ z c)) ∧
    (op = 2 → (l = [] → r = if o.uns then 0 else 2 ^ (w - 1)) ∧ (l ≠ [] → r ∈ l ∧ ∀ c ∈ l, z c ≤ z r)) ∧
    (op = 3 → ∀ b, b < w → (r.testBit b = true ↔ ∀ c ∈ l, c.testBit b = true)) ∧
    (op = 4 → ∀ b, b < w → (r.testBit b = true ↔ ∃ c ∈ l, c.testBit b = true)) ∧
    (op = 5 → ∀ b, b < w → (r.testBit b = true ↔ l.countP (fun c => c.testBit b) % 2 = 1))) ∧
  (4 ≤ o.ty.toNat →
    (op = 0 → (l = [] → r = 0 ∧ fl = 0) ∧
      (l ≠ [] → (r, fl) = laneRound s o.ty (sumFl (s.me.status.extractLsb' 5 2).toNat (l.map v)))) ∧
    (op = 1 → fl = 0 ∧ (l = [] → (tyFmt o.ty).val r = .inf false) ∧
      (∀ x t, l = x :: t → r = ((tyFmt o.ty).conv 0 false .ieee ((t.map v).foldl minFl (v x))).1)) ∧
    (op = 2 → fl = 0 ∧ (l = [] → (tyFmt o.ty).val r = .inf true) ∧
      (∀ x t, l = x :: t → r = ((tyFmt o.ty).conv 0 false .ieee ((t.map v).foldl maxFl (v x))).1)))

/-- R298, R299, R300, R301, R302, R303, R304, R312, R314: conversions, packed elements, compares, reductions, scans and lane
movement; an element format that is invalid, or a palette selection of 2 or 3, is the invalid-format trap. VTOPK's terms, weights and
predicate are those of R304, a term where the exponential is decided.
The model's own choices here: DEDUCED, log 7, 22; DESIGN CHOICE, log 73. -/
def Obligations.LaneMovementResults : Prop :=
  (∀ (o : V2) (s : State),
    let w := tyBits o.ty
    let n := 512 / w
    let act := s.lanesOn o.c n
    let issues (op per bits m : Nat) (reads : List Fld) (gus : List Use) (vs : List Vec) (t : State) : Prop :=
      Issues op reads [o.d] (.src (gf o.c) :: gus) (8 + per * (((s.lanesOn o.c m).length * bits + 31) / 32)) s vs t
    let src (vs : List Vec) (j : Nat) : Nat := (vs.getD 0 0).toNat / 2 ^ (w * j) % 2 ^ w
    (∀ (tgt : BitVec 3) (u : Bool) (vs : List Vec) (t x : State) (old : Vec),
      let wt := tyBits tgt
      let m := Min.min n (512 / wt)
      issues 0x8E 5 (Max.max w wt) m [o.a] [] vs t → OldOf o.d t old x →
      let val (j : Nat) : Fl := if o.ty.toNat < 4 then .ofInt (laneInt w o.uns (src vs j)) else laneFloat x o.ty (src vs j)
      let round := (x.me.status.extractLsb' 5 2).toNat
      ∃ r fl, LaneByLane wt m (s.lanesOn o.c m) old (fun j =>
          if 4 ≤ tgt.toNat then (tyFmt tgt).convert round (x.me.status.getLsbD 7) (x.me.fshadow.getLsbD 19) (val j)
          else
            let i := toInt round (if u then 0 else -2 ^ (wt - 1)) (if u then 2 ^ wt - 1 else 2 ^ (wt - 1) - 1) (val j)
            ((i.1 % 2 ^ wt).toNat, if o.ty.toNat < 4 then 0 else i.2)) r fl ∧
        exec (.vcvt o tgt u) s = .next ((x.flagged fl).wroteV 6 o.d r).ended) ∧
    (∀ (op : BitVec 3) (vs : List Vec) (t x : State) (old : Vec), op.toNat ≤ 5 → (4 ≤ o.ty.toNat → op.toNat ≤ 2) →
      (issues 0x97 6 w n [o.a] [] vs t → OldOf o.d t old x → ∃ r fl, Combines x o op.toNat (act.map (src vs)) r fl ∧
        exec (.vred o op) s = .next ((x.flagged fl).wroteV 8 o.d (BitVec.ofNat 512 (r % 2 ^ w))).ended) ∧
      (issues 0x98 6 w n [o.a] [] vs t → OldOf o.d t old x → ∃ r fl f, LaneByLane w n act old f r fl ∧
        (∀ j, j < n → Combines x o op.toNat ((act.filter (fun k => decide (k ≤ j))).map (src vs)) (f j).1 (f j).2) ∧
        exec (.vscan o op) s = .next ((x.flagged fl).wroteV 8 o.d r).ended)) ∧
    (∀ (vs : List Vec) (t x y : State) (old : Vec) (v : Word), issues 0x99 2 w n [] [.src o.a] vs t → OldOf o.d t old x →
      Reads o.a x v y → ∃ r, LaneByLane w n act old (fun _ => (v.toNat, 0)) r 0 ∧
        exec (.vbcast o) s = .next (y.wroteV 6 o.d r).ended) ∧
    (∀ (vs : List Vec) (t x : State) (old : Vec),
      let before (j : Nat) : Nat := (act.filter (fun k => decide (k < j))).length
      (issues 0x9D 2 w n [o.a] [] vs t → OldOf o.d t old x → ∃ r, LaneByLane w n act old (fun j => (src vs (before j), 0)) r 0 ∧
        exec (.vexpand o) s = .next ((x.flagged 0).wroteV 6 o.d r).ended) ∧
      (IssuesNaming [o.a] 0x9F [] [o.d] [.src (gf o.c)] (8 + 2 * ((act.length * w + 31) / 32)) s vs t → OldOf o.d t old x →
        ∃ r, LaneByLane w n act old (fun j => (before j, 0)) r 0 ∧
          exec (.viota o) s = .next ((x.flagged 0).wroteV 6 o.d r).ended)) ∧
    (∀ (core : Nat) (v : Word), s.cur.pl = .core core → s.me.seqr = none → s.me.isPend .ix = false →
      fieldTrap [.vec o.d, .name o.a] s.me = some v → exec (.viota o) s = .next (s.trapped cRegIndex v)) ∧
    (∀ (p : BitVec 4) (vs : List Vec) (t : State), issues 0x9C 2 w n [o.a] [.dst (gf o.c), .pw] vs t →
      ∃ r : Vec, (∀ j, j < n → r.toNat / 2 ^ (w * j) % 2 ^ w = ((act[j]?).map (src vs)).getD 0) ∧
        exec (.vcompress o p) s = .next ((t.wroteV 6 o.d r).updMe (fun x =>
          (x.setGr o.c (BitVec.ofNat 64 act.length)).setPred p act.isEmpty)).ended) ∧
    (∀ (k1 : BitVec 3) (norm : Bool) (p : BitVec 4) (vs : List Vec) (t : State),
      let on := s.lanesOn o.c 16
      let score (j : Nat) : Fl := Fmt.fp32.val ((vs.getD 0 0).toNat / 2 ^ (32 * j) % 2 ^ 32)
      issues 0x9E 12 32 16 [o.a] [.pw] vs t →
      let inf (j : Nat) : Prop := score j = .inf false
      let one : Nat := 0x3F800000
      let div (a b : Nat) : Nat := (Fmt.fp32.conv 0 false .ieee (divFl (Fmt.fp32.val a) (Fmt.fp32.val b)).1).1
      ∃ (r : Vec) (low : Bool) (win es : List Nat) (x : Nat),
        -- the terms, their rounded sum and the weights
        es.length = win.length ∧
        (∀ i j e : Nat, win[i]? = some j → es[i]? = some e →
          ((norm = true ∧ ∃ k ∈ win, inf k) ∨ (norm = false ∧ ∃ k, win.head? = some k ∧ inf k) →
            (inf j → e = one) ∧ (¬inf j → e = 0)) ∧
          (norm = true → (∀ k ∈ win, ¬inf k) →
            (∀ a : ℚ, (score j).number = some a → 0 < a → e = (vs.getD 0 0).toNat / 2 ^ (32 * j) % 2 ^ 32) ∧
            ((score j = .nan ∨ ∀ a : ℚ, (score j).number = some a → a ≤ 0) → e = 0)) ∧
          (norm = false → ∀ k, win.head? = some k → ¬inf k → (score j = .nan ∨ score j = .inf true → e = 0) ∧
           ∀ a, (score k).number = some a →
            ((score j).number = some a → e = one) ∧
            (∀ (b : ℚ) (m : Nat) (z : Int) (p : Nat × BitVec 5), (score j).number = some b → a - b = m * (2 : ℚ) ^ z → 0 < m →
              (∀ (m' : Nat) (z' : Int), a - b = m' * (2 : ℚ) ^ z' → expNegFin (Fmt.fp32.conv 0 false .ieee) m' z' = some p) → e = p.1))) ∧
        (let sum := (Fmt.fp32.conv 0 false .ieee (sumFl 0 (es.map Fmt.fp32.val)).1).1
         low = decide (sum < 0x00800000) ∧
         ∀ i e : Nat, es[i]? = some e → r.toNat / 2 ^ (32 * i) % 2 ^ 32 =
           if low then (Fmt.fp32.conv 0 false .ieee (divFl (.fin false 1 0) (.ofInt win.length)).1).1 else div e sum) ∧
        exec (.vtopk o k1 norm p) s =
          .next (({ t with fresh := x }.wroteV 8 o.d r).updMe (fun x => x.setPred p (low || on.isEmpty))).ended ∧
        win.length = Min.min (k1.toNat + 1) on.length ∧ win.Nodup ∧ (∀ j ∈ win, j ∈ on) ∧
        win.Pairwise (fun i j => ranksHigher (score j) (score i) = false ∧ (ranksHigher (score i) (score j) = true ∨ i < j)) ∧
        (∀ i ∈ win, ∀ j ∈ on, j ∉ win → ranksHigher (score j) (score i) = false) ∧
        (∀ j, j < 8 → r.toNat / 2 ^ (32 * (8 + j)) % 2 ^ 32 = if k1.toNat < j then 0 else (win[j]?).getD 0xFFFFFFFF) ∧
        (∀ j, j < 8 → win.length ≤ j → r.toNat / 2 ^ (32 * j) % 2 ^ 32 = 0)) ∧
    (∀ (el : Elem) (vs : List Vec) (t x : State) (old : Vec), fmtElem s.me.inFmt = some el → (el = .pal → s.me.palSel < 2) →
      issues 0x8E 5 32 16 [o.a] [] vs t → OldOf o.d t old x →
      ∃ r, LaneByLane 32 16 (s.lanesOn o.c 16) old (fun j => ((Fmt.fp32.conv 0 false .ieee
          (el.dec (x.palette x.me.palSel) (elemAt el.bits (vecBytes (vs.getD 0 0)) j))).1, 0)) r 0 ∧
        exec (.vcvtWiden o) s = .next ((x.flagged 0).wroteV 6 o.d r).ended) ∧
    (∀ (el : Elem) (vs : List Vec) (t x : State) (old : Vec), fmtElem s.me.outFmt = some el → (el = .pal → s.me.palSel < 2) →
      issues 0x8E 5 32 16 [o.a] [] vs t → OldOf o.d t old x →
      let code (j : Nat) : Nat := (vs.getD 0 0).toNat / 2 ^ (32 * j) % 2 ^ 32
      ∃ r fl, LaneByLane el.bits 16 (s.lanesOn o.c 16) old (fun j =>
          el.enc (x.palette x.me.palSel) (x.me.status.extractLsb' 5 2).toNat (x.me.status.getLsbD 7) (x.me.fshadow.getLsbD 19)
            (if el = .pal then Fmt.fp32.val (code j) else Fmt.fp32.input (x.me.status.getLsbD 7) (code j))) r fl ∧
        exec (.vcvtNarrow o) s = .next ((x.flagged fl).wroteV 6 o.d r).ended) ∧
    (∀ (t : State) (alt : Bool),
      let bad (code : Nat) : Prop := fmtElem code = none ∨ (fmtElem code = some .pal ∧ 2 ≤ t.me.palSel)
      let may (op : Nat) : Prop := MayIssue op [o.a] [o.d] [.src (gf o.c)] s t
      (may 0x8E → bad t.me.inFmt → exec (.vcvtWiden o) s = .next (t.trapped cFormat (BitVec.ofNat 64 t.me.inFmt))) ∧
      (may 0x8E → bad t.me.outFmt → exec (.vcvtNarrow o) s = .next (t.trapped cFormat (BitVec.ofNat 64 t.me.outFmt))) ∧
      (may 0xA5 → 2 ≤ t.me.palSel → exec (.enc8 o alt) s = .next (t.trapped cFormat (BitVec.ofNat 64 t.me.palSel))) ∧
      (may 0xA6 → 2 ≤ t.me.palSel → exec (.dec8 o alt) s = .next (t.trapped cFormat (BitVec.ofNat 64 t.me.palSel)))) ∧
    (∀ (alt : Bool) (vs : List Vec) (t x : State) (old : Vec), s.me.palSel < 2 → OldOf o.d t old x →
      let pal := x.palette (if alt then 1 - x.me.palSel else x.me.palSel)
      (issues 0xA5 4 32 16 [o.a] [] vs t →
        ∃ r fl, LaneByLane 8 16 (s.lanesOn o.c 16) old (fun j =>
            pal.enc (Fmt.fp32.val ((vs.getD 0 0).toNat / 2 ^ (32 * j) % 2 ^ 32))) r fl ∧
          exec (.enc8 o alt) s = .next ((x.flagged fl).wroteV 6 o.d r).ended) ∧
      (issues 0xA6 4 32 16 [o.a] [] vs t →
        ∃ r, LaneByLane 32 16 (s.lanesOn o.c 16) old (fun j =>
            ((Fmt.fp32.conv 0 false .ieee (pal.dec ((vs.getD 0 0).toNat / 2 ^ (8 * j) % 2 ^ 8))).1, 0)) r 0 ∧
          exec (.dec8 o alt) s = .next ((x.flagged 0).wroteV 6 o.d r).ended))) ∧
  (∀ (o : V3) (s t x : State) (vs : List Vec) (old : Vec),
    let w := tyBits o.ty
    let n := 512 / w
    let act := s.lanesOn o.c n
    let src (k j : Nat) : Nat := (vs.getD k 0).toNat / 2 ^ (w * j) % 2 ^ w
    (Issues 0x9B [o.a, o.b] [o.d] [.src (gf o.c)] (8 + 2 * ((act.length * w + 31) / 32)) s vs t → OldOf o.d t old x →
      ∃ r, LaneByLane w n act old (fun j => (src 0 (src 1 j % n), 0)) r 0 ∧
        exec (.vperm o) s = .next ((x.flagged 0).wroteV 6 o.d r).ended) ∧
    (∀ cond : BitVec 3, (4 ≤ o.ty.toNat → cond ≠ 7) →
      Issues 0x8F [o.a, o.b] [] [.dst o.d, .src (gf o.c)]
        (8 + (if 4 ≤ o.ty.toNat then 5 else 3) * ((act.length * w + 31) / 32)) s vs t →
      let z (c : Nat) := laneInt w o.uns c
      let a (j : Nat) := z (src 0 j)
      let b (j : Nat) := z (src 1 j)
      let fl (j : Nat) := fltCond cond (laneFloat t o.ty (src 0 j)) (laneFloat t o.ty (src 1 j))
      ∃ (m : Nat) (f : BitVec 5), exec (.vcmp o cond) s = .next ((t.flagged f).wrote 6 o.d (BitVec.ofNat 64 m)).ended ∧
        m < 2 ^ n ∧
        (∀ j, j < n → (m.testBit j = true ↔ j ∈ act ∧
          (if 4 ≤ o.ty.toNat then (fl j).1 = true
            else (cond = 0 ∧ a j = b j) ∨ (cond = 1 ∧ a j ≠ b j) ∨ (cond = 2 ∧ a j < b j) ∨ (cond = 3 ∧ b j ≤ a j) ∨
              (cond = 4 ∧ b j < a j) ∨ (cond = 5 ∧ a j ≤ b j) ∨ (cond = 6 ∧ src 0 j < src 1 j) ∨ (cond = 7 ∧ src 1 j < src 0 j)))) ∧
        (∀ k, f.getLsbD k = true ↔ 4 ≤ o.ty.toNat ∧ ∃ j ∈ act, (fl j).2.getLsbD k = true))) ∧
  (∀ (o : DAB) (ty : BitVec 3) (s t x : State) (vs : List Vec) (v : Word),
    let w := tyBits ty
    let n := 512 / w
    Issues 0x9A [o.a] [] [.dst o.d, .src o.b] (8 + 2 * ((n * w + 31) / 32)) s vs t → Reads o.b t v x →
    let c := (vs.getD 0 0).toNat / 2 ^ (w * (v.toNat % n)) % 2 ^ w
    exec (.vext o ty) s = .next (x.wrote 6 o.d (if 4 ≤ ty.toNat then BitVec.ofNat 64 c else BitVec.ofInt 64 (laneInt w false c))).ended)

-- vector memory, streams, the sequencer, palettes, shadows

/-- The lanes of a gather or scatter that are performed, and the fault of the first that is not (R275): `B j` is where the
access of lane j goes. -/
def Sys2Proof.Machine.LanesGo (s : State) (wr : Bool) (ty : BitVec 3) (base : Word) (idx : Vec) (q : BitVec 16) (act pre : List Nat)
    (B : Nat → List PByte) (flt : Option LateFault) : Prop :=
  let w := tyBits ty
  let e := w / 8
  let at' (j : Nat) : Word := base + BitVec.ofInt 64 (laneInt w false (idx.toNat / 2 ^ (w * j) % 2 ^ w) * e)
  (∀ j ∈ pre, s.laneAccess wr ty (at' j) = .ok (B j)) ∧
  ((pre = act ∧ flt = none) ∨ ∃ j post f, act = pre ++ j :: post ∧ s.laneAccess wr ty (at' j) = .error f ∧
    flt = some ⟨f.cause, f.tval, BitVec.ofNat 8 j, some q, some f.detail⟩)

/-- R266, R274, R275: the vector loads and stores. VLD and VGATH write their register at once when every byte is fixed at issue
and mark it pending otherwise; VST and VSCAT store their lanes, in order; a lane that fails stops a gather or scatter there, its
fault delivered late.
The model's own choices here: DEDUCED, log 32. -/
def Obligations.VectorMemoryResults : Prop :=
  (∀ (d : BitVec 6) (ad : MAddr) (s s1 s2 s3 : State) (bs : List PByte) (vs : List Vec),
    (MayIssue 0x5A [] [plain d] (adUses ad) s s1 → Passes accessGate s1 → Checked 0 false (s1.address ad) 64 8 s1 bs s2 →
      Passes (cfgGate true bs) s2 → s2.fixedLoad true bs = true ∨ s2.me.pend.length < 8 → Takes 0x5A [] [plain d] 24 s2 vs s3 →
      let src := s2.srcs true true bs
      let u := s3.did (touchL1 bs)
      let q := s3.me.dseq - 1
      (∀ l : List Byte, src = l.map .val →
        exec (.vld d ad) s = .next (u.wroteV (if s2.fixedLoad true bs then 4 else 6) (plain d) (bytesVec l)).ended) ∧
      (∀ (l : Loc) (h : Place) (k : Bool), .at l h k ∈ src → ∃ fill, exec (.vld d ad) s = .next (((u.updMe fun x =>
        { x.markRec q 1 with pend := x.pend ++ [vregOf d] }).send u.me.launch u.cur.pl (u.homeFirst bs) (some u.cur)
          (.vload d src q none fill)).ended))) ∧
    (MayIssue 0x5B [plain d] [] (adUses ad) s s1 → Passes accessGate s1 → Checked 0 true (s1.address ad) 64 8 s1 bs s2 →
      Passes (cfgGate false bs) s2 → Takes 0x5B [plain d] [] 24 s2 vs s3 →
      exec (.vst d ad) s = .next (s3.store s3.cur
        (bs.zip ((List.range 64).map (fun j => (vs.getD 0 0).extractLsb' (8 * j) 8))) false none none).ended)) ∧
  (∀ (d a b : Fld) (c : BitVec 4) (ty : BitVec 3) (s s1 r1 s2 s3 s4 : State) (vs : List Vec) (old : Vec) (base : Word)
    (pre : List Nat) (B : Nat → List PByte) (flt : Option LateFault), ty.toNat = 0 ∨ ty.toNat = 1 ∨ ty.toNat = 4 ∨ ty.toNat = 5 →
    let w := tyBits ty
    let e := w / 8
    let act := s.lanesOn c (512 / w)
    let units := 8 + 6 * ((act.length * w + 31) / 32)
    let q := s2.me.dseq - 1
    (MayIssue 0x5C [b] [d] [.src a, .src (gf c)] s s1 → Passes accessGate s1 → s1.me.pend.length < 8 →
      (∃ t, Reads a s1 base t) → (∃ t, Takes 0x5C [b] [d] units s1 vs t) → Does (lanesGate false ty act base (vs.getD 0 0)) s1 r1 →
      Takes 0x5C [b] [d] units r1 vs s2 → OldOf d s2 old s3 → Reads a s3 base s4 →
      LanesGo s4 false ty base (vs.getD 0 0) q act pre B flt →
      let src : List BSrc := (List.range 64).map (fun k =>
        if k / e ∈ pre then (((B (k / e))[k % e]?).map (s4.srcByte true true (B (k / e)))).getD (.val 0)
        else .val (old.extractLsb' (8 * k) 8))
      let u := s4.did (touchL1 (pre.flatMap B))
      (∀ l : List Byte, src = l.map .val →
        exec (.vgath d a b c ty) s = .next ((u.wroteV 6 d (bytesVec l)).lateMaybe s.cur flt).ended) ∧
      (∀ (l : Loc) (h : Place) (k : Bool), .at l h k ∈ src → ∃ fill, exec (.vgath d a b c ty) s = .next (((u.updMe fun x =>
        { x.markRec q 1 with pend := x.pend ++ [vregOf (fldEff d u.me)] }).send u.me.launch u.cur.pl
          (u.homeFirst (pre.flatMap B)) (some u.cur) (.vload (fldEff d u.me) src q flt fill)).ended))) ∧
    (MayIssue 0x5D [d, b] [] [.src a, .src (gf c)] s s1 → Passes accessGate s1 →
      (∃ t, Reads a s1 base t) → (∃ t, Takes 0x5D [d, b] [] units s1 vs t) → Does (lanesGate true ty act base (vs.getD 1 0)) s1 r1 →
      Takes 0x5D [d, b] [] units r1 vs s2 → Reads a s2 base s3 → LanesGo s3 true ty base (vs.getD 1 0) q act pre B flt →
      exec (.vscat d a b c ty) s = .next (((pre.foldl (fun t j => t.store t.cur ((B j).zip
        ((List.range e).map (fun k => (vs.getD 0 0).extractLsb' (w * j + 8 * k) 8))) false none none) s3).lateMaybe s.cur flt).ended)))

/-- R305, R306, R307, R308, R309, R310, R311, R313: streams, the sequencer, palettes and format shadows.
The model's own choices here: DESIGN CHOICE, log 4; DEDUCED, log 20. -/
def Obligations.StreamAndSequencerResults : Prop :=
  -- SCFG and PALW
  (∀ (a : BitVec 6) (off : BitVec 20) (n : Nat) (s s1 r1 s2 v s3 : State) (bs : List PByte) (raw : List Byte) (x y : Word),
    s.cur.pl = .core n → s.me.seqr = none → Ready [.src (plain a)] s s1 → Passes accessGate s1 → Reads (plain a) s1 x r1 →
    Passes (cfgGate true bs) s2 → after (readNow bs) s2 = some (raw, v) → Reads (plain a) v y s3 →
    let ea := x + off.signExtend 64
    let byte (j : Nat) : Byte := raw.getD j 0
    let field (o k : Nat) : Nat := ofBytes ((List.range k).map (fun j => byte (o + j)))
    (∀ (k : BitVec 2) (wr : Bool), 32 ≤ s1.me.nalloc → Checked 4 false ea 64 64 s1 bs s2 →
      (∀ o ∈ [0, 8, 16, 24], field o 8 % 8 = 0) →
      exec (.scfg k wr a off) s = .next (s3.updMe (fun z => z.setStream k.toNat (some
        ⟨ea, wr, BitVec.ofNat 64 (field 0 8), BitVec.ofNat 64 (field 8 8), BitVec.ofNat 64 (field 16 8),
          BitVec.ofNat 64 (field 24 8), field 32 4, field 36 4, field 40 4, 0, []⟩))).ended) ∧
    (∀ pal nan7f : Bool, (s1.at' (.core n)).bankLaunch = some s1.me.launch → Checked 4 false ea 512 64 s1 bs s2 →
      (∀ r, (s2.at' (.core n)).running = some r → r.pals.contains pal.toNat = false) →
      let entry (j : Nat) : Nat := field (4 * j) 4
      (∀ i, palFault ((List.range 128).map entry) nan7f = some i →
        exec (.palw pal nan7f a off) s = .next (v.trapped cFormat (BitVec.ofNat 64 i))) ∧
      (palFault ((List.range 128).map entry) nan7f = none →
        exec (.palw pal nan7f a off) s = .next (s3.setAt s3.cur.pl { s3.at' s3.cur.pl with
          pal := (s3.at' s3.cur.pl).pal.setIfInBounds pal.toNat
            ⟨Vector.ofFn (fun (i : Fin 128) => BitVec.ofNat 32 (entry i.val)), nan7f⟩ }).ended))) ∧
  -- bytes that an instruction reads at once: after what the core has on its way to them, each line used at its home, a data error late
  (∀ (bs : List PByte) (s : State),
    ((∀ b ∈ bs, s.quietAt s.cur.pl b.loc = true) → ∀ u, s.useLines (srcLines (s.srcs true true bs)) = some u →
      (s.srcPoison (s.srcs true true bs) = false → after (readNow bs) s = some ((s.srcs true true bs).map s.sample, u)) ∧
      (s.srcPoison (s.srcs true true bs) = true → ∃ w, after (readNow bs) s = some ((s.srcs true true bs).map s.sample,
        ({ u with fresh := u.fresh + 1 } : State).updMe (fun x => x.noteLate ⟨cData, w, 0xFF, none, none⟩)))) ∧
    ((∃ b ∈ bs, s.quietAt s.cur.pl b.loc = false) ∨ s.useLines (srcLines (s.srcs true true bs)) = none →
      run (do let _ ← readNow bs) s = .next s)) ∧
  -- SCLOSE, FMTSET, VSEQW
  (∀ (n : Nat) (s : State), s.cur.pl = .core n →
    (s.me.seqr = none →
      (∀ k : BitVec 2, s.me.streams[k.toNat] = none → exec (.sclose k) s = .next s.ended) ∧
      (∀ k : BitVec 2, s.me.streams[k.toNat] ≠ none → ∃ (v : Vec) (fresh : Nat), exec (.sclose k) s =
        .next { s.updMe (fun x => { x with streams := x.streams.set k.toNat none, f := x.f.set (28 + k.toNat) v }) with
          fresh := fresh }.ended) ∧
      (∀ v : BitVec 20, exec (.fmtsetFmt v) s =
        .next (s.updMe fun x => { x with fshadow := v.setWidth 64 &&& 0xBFFFF }).ended) ∧
      (∀ v : BitVec 32, exec (.fmtsetScale v) s = .next (s.updMe fun x => { x with sshadow := v.setWidth 64 }).ended) ∧
      exec .vseqw s = .next s.ended) ∧
    (s.me.seqr ≠ none → exec .vseqw s = .next (s.updMe fun x => { x with hold := .held }))) ∧
  -- VSEQ
  (∀ (n : BitVec 5) (m : Nat) (s s1 s2 s3 : State) (ws : List Word)
    (ops : List ((VEnv → M Unit) × List Fld × BitVec 4 × Option Fld)) (bcs : List Word) (cnt : Nat),
    s.cur.pl = .core m → s.me.seqr = none →
    let addrs := (List.range n.toNat).map (fun i => s.me.pc + BitVec.ofNat 64 (8 * (i + 1)))
    after (addrs.mapM fetchAt) s = some (ws, s1) →
    List.Forall₂ (fun w r => ∃ d, decode w = some d ∧ d.eb = 0 ∧ seqOp d.ins = some r ∧
      (∀ f ∈ r.2.1, f.rel = true → f.code.toNat + s.me.ix.toNat < s.me.nalloc) ∧
      (∀ f, r.2.2.2 = some f → f.rel = true → f.code.toNat + s.me.ix.toNat < 16)) ws ops →
    Ready (.pw :: .src (plain 0x19) :: ops.flatMap (fun r => .src (gf r.2.2.1) :: (r.2.2.2.toList.map (fun f => .src f)))) s1 s2 →
    Passes accessGate s2 → after (ops.mapM (fun r => match r.2.2.2 with
      | some f => rg f
      | none => pure 0)) s2 = some (bcs, s3) →
    let named := ops.flatMap (fun r => r.2.1.filterMap (fun f => s.me.stream? (fldEff f s.me)))
    named ≠ [] → (∀ k ∈ named, cnt ≤ k.2.total - k.2.next) → (∃ k ∈ named, cnt = k.2.total - k.2.next) →
    exec (.vseq n) s = .next ((s3.updMe fun x => { x with seqr := if cnt = 0 then none else some (SeqBody.mk
      ((ws.zip addrs).zipWith (fun p b => (p.1, p.2, b)) bcs) s.me.ix (s.me.pw ||| 1) s.me.g cnt 0 0) }).wentTo
        (s.me.pc + BitVec.ofNat 64 (8 * (n.toNat + 1))))) ∧
  -- the sequencer and the prefetch of streams
  (∀ (core slot : Nat) (s : State) (b : SeqBody), (s.slotAt ⟨.core core, slot⟩).seqr = some b → s.cyc % 8 = slot →
    (s.slotAt ⟨.core core, slot⟩).busy = true → (s.slotAt ⟨.core core, slot⟩).lastSeq ≠ some s.cyc →
    (s.slotAt ⟨.core core, slot⟩).lastIssue ≠ some s.cyc →
    let i : Sid := ⟨.core core, slot⟩
    let rest := if b.pos + 1 < b.words.length then some { b with pos := b.pos + 1 }
      else if b.iter + 1 < b.n then some { b with iter := b.iter + 1, pos := 0 } else none
    let s1 : State := { s.setSlot i { s.slotAt i with lastSeq := some s.cyc } with cur := i }
    ∀ (w a bc : Word) (d : Decoded) r, b.words[b.pos]? = some (w, a, bc) → decode w = some d → seqOp d.ins = some r →
      (((d.g = 0 ∨ b.pw.getLsbD d.g.toNat = true) ↔ d.gn = true) →
        exec (.sequencerIssue core slot) s = .next (s1.updMe fun x => { x with seqr := rest })) ∧
      (¬((d.g = 0 ∨ b.pw.getLsbD d.g.toNat = true) ↔ d.gn = true) → ∀ t, Does (r.1 ⟨true, b.ix, b.gs, bc, w, a, []⟩) s1 t →
        exec (.sequencerIssue core slot) s = .next (t.updMe fun x => { x with seqr := if x.seqr = some b then rest else x.seqr }))) ∧
  (∀ (core slot : Nat) (k : BitVec 2) (s : State) (t : Stream) (p : Prefetched) (bs : List PByte),
    let i : Sid := ⟨.core core, slot⟩
    let s1 : State := { s with cur := i }
    (s.slotAt i).streams[k.toNat] = some t → t.wr = false → (s.slotAt i).busy = true →
    (t.ahead = [p] ∧ p.got < 8 ∧ p.fault = none) ∨ (t.ahead = [] ∧ t.next < t.total ∧ p = ⟨t.next, 0, 0, none⟩) →
    ∀ v : State, s1.warmVector t p.idx = some v → v.quietAccess 2 false (t.addr p.idx) 64 8 = .ok bs →
    let part := (bs.drop (8 * p.got)).take 8
    part.any v.bytePoison = false → (∀ b ∈ part, v.quietAt v.cur.pl b.loc = true) →
    ∀ u, v.useLines (srcLines (v.srcs true true part)) = some u →
    exec (.streamPrefetch core slot k) s = .next (u.updMe fun x => { x with streams := x.streams.set k.toNat (some { t with
      ahead := [{ p with
        got := p.got + 1, val := p.val ||| (BitVec.ofNat 512 (ofBytes ((v.srcs true true part).map v.sample))
          <<< (64 * p.got)) }] }) })) ∧
  (∀ (t : Stream) (i0 i1 i2 : Nat), i0 < t.b0 → i1 < t.b1 →
    t.addr (i0 + t.b0 * (i1 + t.b1 * i2)) =
      t.base + BitVec.ofNat 64 i0 * t.s0 + BitVec.ofNat 64 i1 * t.s1 + BitVec.ofNat 64 i2 * t.s2)

-- the matrix unit

/-- R316, R317, R318, R320, R324, R325, R328, R330, R331, R332: the matrix instructions on a compute core. An accumulator is
claimed and released; the queued forms append an entry of their slot to a tile queue and are numbered, wait while it is full,
and trap at the turn of the append without the claim; MMA, MZERO, MLOAD and MSTORE trap without the claim; MMA holds its thread
until its entry has left the queue; MMPOP takes the oldest completion of its slot, 0 with none outstanding, or waits for one in
a pending register; MZERO, MLOAD and MSTORE act on an accumulator that no operation of the slot uses, the last two once no write
of the core to what they read is on its way (R91, R93).
The model's own choices here: DEDUCED, log 33. -/
def Obligations.MatrixResults : Prop :=
  ∀ (n : Nat) (s : State), s.cur.pl = .core n →
    let k := s.cur.k
    let c := s.at' s.cur.pl
    let owner (t : State) (acc : BitVec 2) : Option Nat := ((t.at' (.core n)).acc[acc.toNat]).owner
    let free (t : State) (acc : BitVec 2) : Prop := owner t acc = some k ∧ t.me.ringBusy = false ∧
      ∀ e ∈ (t.at' (.core n)).qlo ++ (t.at' (.core n)).qhi, e.slot = k → e.acc = acc.toNat → e.done ≠ none
    let numbered (t : State) (op : Nat) (st : BitVec 3) : State := t.updMe (fun x => x.dispatch op st x.pc)
    (∀ acc : BitVec 2,
      (owner s acc = some k → exec (.mclaim acc) s = .next s.ended) ∧
      (owner s acc ≠ some k → (∃ b : BitVec 2, owner s b = some k) →
        exec (.mclaim acc) s = .next (s.trapped cAcc (acc.setWidth 64))) ∧
      ((∀ b : BitVec 2, owner s b ≠ some k) → owner s acc ≠ none → exec (.mclaim acc) s = .next s) ∧
      ((∀ b : BitVec 2, owner s b ≠ some k) → owner s acc = none → exec (.mclaim acc) s =
        .next (s.setAt s.cur.pl { c with acc := c.acc.set acc.toNat { c.acc[acc.toNat] with owner := some k } }).ended) ∧
      (owner s acc ≠ some k → exec (.mclaimRel acc) s = .next s.ended) ∧
      (owner s acc = some k → (∀ e ∈ c.qlo ++ c.qhi, e.slot = k → e.acc = acc.toNat → e.done ≠ none) →
        exec (.mclaimRel acc) s =
          .next (s.setAt s.cur.pl { c with acc := c.acc.set acc.toNat { c.acc[acc.toNat] with owner := none } }).ended) ∧
      (∀ i32 : Bool, owner s acc ≠ some k →
        exec (.mzero acc i32) s = .next (s.trapped cAcc (acc.setWidth 64))) ∧
      (∀ i32 : Bool, free s acc → ∃ t : State, exec (.mzero acc i32) s = .next t.ended ∧ t.me.dseq = s.me.dseq + 1 ∧
        (t.at' s.cur.pl).acc = c.acc.set acc.toNat
          { c.acc[acc.toNat] with elems := Vector.replicate 1024 0, i32 := i32, flags := 0, srcs := none } ∧
        (∀ l, t.byteAt l = s.byteAt l))) ∧
    (∀ (a : BitVec 6) (s1 s2 : State) (v : Word), Ready [.src (plain a)] s s1 → Reads (plain a) s1 v s2 →
      exec (.mgeo a) s = .next (s2.updMe fun x => { x with mgeo := v }).ended) ∧
    (∀ (acc : BitVec 2) (a b d : BitVec 6) (s1 s2 s3 s4 : State) (va vb vd : Word),
      (s.me.stage = 1 → (∀ e ∈ c.qhi, ¬(e.slot = k ∧ e.mma = true)) → exec (.mma acc a b d) s = .next s.ended) ∧
      (s.me.stage ≠ 1 → Ready [.src (plain a), .src (plain b), .src (plain d)] s s1 → Passes accessGate s1 →
        owner s1 acc ≠ some k → exec (.mma acc a b d) s = .next (s1.trapped cAcc (acc.setWidth 64))) ∧
      (s.me.stage ≠ 1 → Ready [.src (plain a), .src (plain b), .src (plain d)] s s1 → Passes accessGate s1 →
        owner s1 acc = some k → s1.me.ringBusy = false → (s1.at' (.core n)).qhi.length < 8 → Reads (plain a) s1 va s2 →
        Reads (plain b) s2 vb s3 → Reads (plain d) s3 vd s4 →
        ∃ t : State, exec (.mma acc a b d) s = .next t ∧ t.me.hold = .held ∧ t.me.stage = 1 ∧ t.me.pc = s4.me.pc ∧
          t.me.dseq = s4.me.dseq + 1 ∧ (t.at' (.core n)).qhi = (s4.at' (.core n)).qhi ++
            [⟨s4.nextId, k, acc.toNat, va, vb, vd, 0, 0, false, true, s4.me.dseq, 1, false, none⟩])) ∧
    (∀ (i : Instr) (mmag : Bool) (o : TileOp) (s1 s2 s3 s4 : State) (va vb vd : Word),
      (i = .mmq o ∧ mmag = false) ∨ (i = .mmag o ∧ mmag = true) →
      Ready ([.src (plain o.a), .src (plain o.b), .src (plain o.c)] ++ (if o.trg = 0 then [] else [.src (gf o.gt)])) s s1 →
      Passes accessGate s1 → owner s1 o.acc = some k → s1.me.ringBusy = false → ((s1.at' (.core n)).tq o.hi).length < 8 →
      let w := if o.trg = 0 then 0 else s1.me.gr o.gt
      Passes (trigCheck o.trg w) s1 → Reads (plain o.a) s1 va s2 → Reads (plain o.b) s2 vb s3 → Reads (plain o.c) s3 vd s4 →
      ∃ t : State, exec i s = .next t.ended ∧ t.me.dseq = s4.me.dseq + 1 ∧ (t.me.rec' s4.me.dseq).st = 1 ∧
        (t.at' (.core n)).tq o.hi = (s4.at' (.core n)).tq o.hi ++
          [⟨s4.nextId, k, o.acc.toNat, va, vb, vd, w, o.trg, mmag, false, s4.me.dseq, if o.trg = 0 then 1 else 0, false, none⟩] ∧
        (∀ l, t.byteAt l = s4.byteAt l)) ∧
    (∀ (i : Instr) (o : TileOp) (s1 : State), i = .mmq o ∨ i = .mmag o →
      Ready ([.src (plain o.a), .src (plain o.b), .src (plain o.c)] ++ (if o.trg = 0 then [] else [.src (gf o.gt)])) s s1 →
      Passes accessGate s1 → s1.me.ringBusy = false →
      (8 ≤ ((s1.at' (.core n)).tq o.hi).length → exec i s = .next s1) ∧
      (((s1.at' (.core n)).tq o.hi).length < 8 → owner s1 o.acc ≠ some k →
        exec i s = .next (s1.trapped cAcc (o.acc.setWidth 64)))) ∧
    (∀ (hi : Bool) (d : BitVec 6) (s1 : State), Ready [.dst (plain d)] s s1 → s1.me.ringBusy = false →
      let q := (s1.at' s1.cur.pl).tq hi
      let mine := q.filter (fun e => e.slot == k && !e.mma)
      (∀ e w, mine.find? (fun e => e.done.isSome) = some e → e.done = some w →
        exec (.mmpop hi d) s = .next (((numbered s1 0xB3 2).setAt s1.cur.pl (((numbered s1 0xB3 2).at' s1.cur.pl).setTq hi
          (q.filter (fun o => o.id != e.id)))).wrote 4 (plain d) w).ended) ∧
      (mine = [] → exec (.mmpop hi d) s = .next ((numbered s1 0xB3 2).wrote 4 (plain d) 0).ended) ∧
      (mine ≠ [] → (∀ e ∈ mine, e.done = none) → s1.me.pend.length < 8 →
        exec (.mmpop hi d) s = .next (((numbered s1 0xB3 2).did (claimDst (plain d))).updMe
          (fun x => { x with mmpopWait := x.mmpopWait ++ [(hi, d)] })).ended)) ∧
    (∀ (acc : BitVec 2) (a d : BitVec 6) (s1 : State), Ready [.src (plain a), .src (plain d)] s s1 → Passes accessGate s1 →
      owner s1 acc ≠ some k → ∀ i ∈ [Instr.mload acc a d, .mstore acc a d],
        exec i s = .next (s1.trapped cAcc (acc.setWidth 64))) ∧
    (∀ (acc : BitVec 2) (a d : BitVec 6) (s1 s2 s3 : State) (va vd : Word), Ready [.src (plain a), .src (plain d)] s s1 →
      Passes accessGate s1 → free s1 acc → s1.l2Free = true → Reads (plain a) s1 va s2 → Reads (plain d) s2 vd s3 →
      let co (t : State) : CoreSt := t.at' s3.cur.pl
      ∀ (load : Bool) (s4 : State), (load = false → (co s1).l1Busy = false) →
      s3.warmMove load (co s3).acc[acc.toNat] va vd = some s4 →
      let clear (b : Bool) : Prop := load = b ∧ s4.linesPending s4.cur.pl (s4.moveLines b (co s4).acc[acc.toNat] va vd) = false
      let u := numbered (s4.useRecord va) 0xB6 2
      let v := numbered (s4.useRecord va) 0xB5 2
      (∀ l, clear true → u.loadTile va vd = .ok l →
        let w := (u.useKeys l.2).getD u
        exec (.mload acc a d) s = .next (w.setAt w.cur.pl { co w with
        acc := (co w).acc.set acc.toNat { (co w).acc[acc.toNat] with
          elems := Vector.ofFn (fun (j : Fin 1024) => (l.1[j.val]?).getD 0), i32 := false, flags := 0, srcs := none } }).ended) ∧
      (∀ e, clear true → u.loadTile va vd = .error e → ∃ lf fresh, exec (.mload acc a d) s =
        .next ({ u.ended with fresh := fresh }.lateFault s3.cur lf false) ∧ lf.seq = some s3.me.dseq) ∧
      (∀ l fl bad, clear false → v.storeTile v.me (co v).acc[acc.toNat] va vd = .ok (l, fl, bad) →
        let w := ((((v.postOver v.cur.pl l).post v.cur l none none).dropL1 v.cur.pl (fun ln =>
          l.any (fun e => match e.1.loc with
            | .dev p => p / 128 == ln.line
            | _ => false))).flagged fl).ended
        (bad = none → exec (.mstore acc a d) s = .next w) ∧
        (bad ≠ none → ∃ lf fresh, exec (.mstore acc a d) s = .next ({ w with fresh := fresh }.lateFault s3.cur lf false) ∧
          lf.seq = some s3.me.dseq)) ∧
      (∀ e, clear false → v.storeTile v.me (co v).acc[acc.toNat] va vd = .error e → ∃ lf fresh, exec (.mstore acc a d) s =
        .next ({ v.ended with fresh := fresh }.lateFault s3.cur lf false) ∧ lf.seq = some s3.me.dseq))

/-- R130, R131, R322, R323, R327, R328: a tile operation starts when its core runs none, on the entry that the queues give,
once no write of the core to what it reads is on its way (R91, R93), with its accumulator's elements as they then are, and
completes when its time has come: the accumulator takes the elements, the flags OR, the entry holds the MMPOP word. The product: in
increasing order of the segments, element (i, j) takes row 32 ti + i of A against column 32 tj + j of B over the segment's 32 K
indices, both values zero from either K extent on, with their group scales (in the weight-only pairing B's scale goes into the
dequantisation, R129); the elements outside the tensors, and the rows below the first, stay. An integer segment adds 32 exact products and saturates; a
floating-point one rounds the exact sum times both scales to FP32, adds it, and rounds again (R131).
The model's own choices here: DESIGN CHOICE, log 4, 17; DEDUCED, log 33. -/
def Obligations.TileOperationResults : Prop :=
  (∀ (s t u : State) (hi : Bool) (e : TEntry) (o : TileOut), t = s.testHeads s.subj →
    (t.core' s.subj).running = none → (t.core' s.subj).pickHead = some (hi, e) →
    ∀ v, ({ t with cur := ⟨.core s.subj, e.slot⟩ } : State).warmTile e ((t.core' s.subj).acc' e.acc) = some v →
    v.tileOp e ((t.core' s.subj).acc' e.acc) = .ok o → v.linesPending (.core s.subj) (v.opLines e (.ok o)) = false →
    (v.useKeys (v.recordKeys e ++ o.used)).bind (fun w => w.pinLines o.pins) = some u →
    ∃ x : State, exec .tileOpIssue s = .next x ∧ (x.core' s.subj).running = some ⟨hi, e.id, u.cyc + o.cycles, o.outcome,
        BitVec.ofNat 32 o.rows, o.elems, o.flags, if o.outcome = 1 then some (e.a, e.b) else none, o.pins, o.pals, none⟩ ∧
      (x.core' s.subj).acc = (t.core' s.subj).acc ∧ (∀ l, x.byteAt l = s.byteAt l)) ∧
  (∀ (s : State) (r : Running) (e : TEntry), (s.core' s.subj).running = some r → r.endAt ≤ s.cyc → r.late = none →
    ((s.core' s.subj).tq r.hi).find? (fun e => e.id == r.id) = some e → e.mma = false →
    (s.slotAt ⟨.core s.subj, e.slot⟩).mmpopWait = [] → e.acc < 4 →
    ∃ x : State, exec .tileOpComplete s = .next x ∧ (x.core' s.subj).running = none ∧
      (r.outcome ≠ 1 → (x.core' s.subj).acc = (s.core' s.subj).acc) ∧
      (∀ (h : e.acc < 4) (j : Nat) (hj : j < 1024), r.outcome = 1 →
        ((x.core' s.subj).acc[e.acc]).elems[j] = (r.elems[j]?).getD 0 ∧
        ((x.core' s.subj).acc[e.acc]).flags = ((s.core' s.subj).acc[e.acc]).flags ||| r.flags ∧
        ((x.core' s.subj).acc[e.acc]).owner = ((s.core' s.subj).acc[e.acc]).owner) ∧
      (∀ d ∈ (x.core' s.subj).tq r.hi, d.id = r.id →
        d.done = some (r.rows ++ 0#22 ++ BitVec.ofNat 2 e.acc ++ r.flags ++ r.outcome : BitVec 64)) ∧
      ((x.slotAt ⟨.core s.subj, e.slot⟩).rec' e.seq).st = 2 ∧ (∀ l, x.byteAt l = s.byteAt l)) ∧
  (∀ (old : BitVec 32) (l : List (Int × Int)) (ga gb : Fl),
    let x := old.toInt + (l.map (fun p => p.1 * p.2)).sum
    let r := segStep true old (l.map (fun p => Fl.ofInt p.1)) (l.map (fun p => Fl.ofInt p.2)) ga gb
    r.1.toInt = Max.max (-2147483648) (Min.min x 2147483647) ∧
    (r.2 = if -2147483648 ≤ x ∧ x ≤ 2147483647 then 0 else 4)) ∧
  (∀ (old : BitVec 32) (l : List (Fl × Fl)) (q : List (ℚ × ℚ)) (ga gb w u : Fl) (x y a b : ℚ),
    l.map (fun p => (p.1.number, p.2.number)) = q.map (fun p => (some p.1, some p.2)) → ga.number = some x → gb.number = some y →
    let sum := (q.map (fun p => p.1 * p.2)).sum * x * y
    let round (v : Fl) : Nat × BitVec 5 := Fmt.fp32.conv 0 false .ieee v
    sum ≠ 0 → w.number = some sum → (Fmt.fp32.val (round w).1).number = some b →
    (Fmt.fp32.val old.toNat).number = some a → a + b ≠ 0 → u.number = some (a + b) →
    segStep false old (l.map (fun p => p.1)) (l.map (fun p => p.2)) ga gb =
      (BitVec.ofNat 32 (round u).1, (round w).2 ||| (round u).2)) ∧
  (∀ (v : State) (e : TEntry) (acc : Acc) (o : TileOut) (ta tb : Tensor) (ra : Nat),
    v.tensor e.a = .ok ta → v.tensor e.b = .ok tb →
    (if e.mmag = true ∧ ta.flags.getLsbD 2 = true then v.tileNat ta.ind 4 1 = .ok ra else ra = ta.rows) →
    v.tileOp e acc = .ok o →
    let ti := (e.c.extractLsb' 0 16).toNat
    let tj := (e.c.extractLsb' 16 16).toNat
    let k0 := (e.c.extractLsb' 32 16).toNat
    let kc := if e.mmag then (e.c.extractLsb' 48 8).toNat else (e.c.extractLsb' 48 16).toNat
    let lo := if e.mmag then Nat.min (e.c.extractLsb' 56 8).toNat 32 else 0
    let da := if ta.flags.getLsbD 1 then (ta.cols, ra) else (ra, ta.cols)
    let db := if tb.flags.getLsbD 1 then (tb.cols, tb.rows) else (tb.rows, tb.cols)
    let wo : Prop := ta.code = 0x08 ∧ (tb.code = 0x2F ∨ tb.code = 0x33 ∨ tb.code = 0x23)
    let old (i j : Nat) : BitVec 32 := acc.elems.toList.getD (32 * i + j) 0
    (kc = 0 ∨ da.1 ≤ 32 * ti + lo ∨ db.2 ≤ 32 * tj → o.outcome = 2 ∧ o.elems = acc.elems.toList) ∧
    (¬(kc = 0 ∨ da.1 ≤ 32 * ti + lo ∨ db.2 ≤ 32 * tj) → o.outcome = 1 ∧ ∀ i j, i < 32 → j < 32 →
      (i < lo ∨ da.1 ≤ 32 * ti + i ∨ db.2 ≤ 32 * tj + j → o.elems[32 * i + j]? = some (old i j)) ∧
      (lo ≤ i → 32 * ti + i < da.1 → 32 * tj + j < db.2 → ∃ x y ga gb : Nat → Fl,
        (∀ k, 32 * k0 ≤ k → k < 32 * (k0 + kc) →
          (Nat.min da.2 db.1 ≤ k → x k = zeroFl ∧ y k = zeroFl) ∧
          (k < Nat.min da.2 db.1 → ∃ p q : Nat × List Nat, ∃ g : Fl × List Nat,
            v.element ta (v.blockSh ta) (32 * ti + i) k = .ok p ∧ v.element tb (v.blockSh tb) k (32 * tj + j) = .ok q ∧
            v.groupScale tb (32 * tj + j) (k / 32) db.1 = .ok g ∧ x k = v.valueOf ta p.1 ∧
            (wo → y k = (dequant (v.valueOf tb q.1) g.1).1) ∧ (¬wo → y k = v.valueOf tb q.1))) ∧
        (∀ seg, k0 ≤ seg → seg < k0 + kc → ∃ f g : List Nat, v.groupScale ta (32 * ti + i) seg da.2 = .ok (ga seg, f) ∧
          (wo → gb seg = oneFl) ∧ (¬wo → v.groupScale tb (32 * tj + j) seg db.1 = .ok (gb seg, g))) ∧
        o.elems[32 * i + j]? = some ((List.range kc).foldl (fun acc' q =>
          (segStep (int32Kind ta tb) acc' ((List.range 32).map (fun k => x (32 * (k0 + q) + k)))
            ((List.range 32).map (fun k => y (32 * (k0 + q) + k))) (ga (k0 + q)) (gb (k0 + q))).1) (old i j)))))

-- engines, tenders, channels

/-- R333, R335, R336, R337, R339, R432, R433: the engine instructions push one command each, after a release at device scope, and
write its tag; XPOP takes the oldest completion word, 0 with none to come, or waits. A copy whose bytes are all reachable
writes every destination byte and no other byte of device memory, and its completion reaches the thread. A held copy starts;
a completion that interrupts enters the user handler.
The model's own choices here: DESIGN CHOICE, log 4, 43, 47. -/
def Obligations.EngineResults : Prop :=
  (∀ (i : Instr) (op : Nat) (kind : BitVec 3) (o : EngineOp) (n : Nat) (s s1 s2 s3 s4 s5 : State) (a b c : Word),
    (i = .xcpy o ∧ op = 1 ∧ kind = 0) ∨ (i = .xgath o ∧ op = 2 ∧ kind = 0) ∨ (i = .xcoll o kind ∧ op = 3) →
    s.cur.pl = .core n → Ready [.dst (plain o.d), .src (plain o.a), .src (plain o.b), .src (plain o.c)] s s1 →
    Passes accessGate s1 → s1.engineUse s1.cur < 16 → (o.ntf = 1 → Passes (tenderUsable o.tnd.toNat) s1) →
    Does (release 4) s1 s2 → Reads (plain o.a) s2 a s3 → Reads (plain o.b) s3 b s4 → Reads (plain o.c) s4 c s5 →
    let tag := if s5.me.tags = 0xFFFF then 1 else s5.me.tags + 1
    ∃ t : State, exec i s = .next (t.wrote 4 (plain o.d) (tag.setWidth 64)).ended ∧ t.me = { s5.me with tags := tag } ∧
      t.cmds = s5.cmds ++ [⟨s5.nextId, s5.me.launch, n, some s5.cur.k, op, kind, a, b, c, tag, o.ntf, o.tnd, s5.cyc, 0, [],
        op != 1, false, if op = 3 then tabGet 0 s5.matches' (c.extractLsb' 32 8).toNat else 0, none, false⟩] ∧
      (∀ l, t.byteAt l = s5.byteAt l)) ∧
  (∀ (d : BitVec 6) (n : Nat) (s s1 : State), s.cur.pl = .core n → Ready [.dst (plain d)] s s1 → Passes accessGate s1 →
    let outstanding : Prop := ∃ c ∈ s1.cmds, c.core = n ∧ c.slot = some s1.cur.k ∧ c.ntf = 0 ∧ c.disc = false
    (∀ c cs, s1.me.fifo = c :: cs → exec (.xpop d) s = .next (((s1.updMe fun x => { x with fifo := cs }).acquireOf s1.cur c).wrote
      4 (plain d) (c.bytes ++ c.status ++ c.tag : BitVec 64)).ended) ∧
    (s1.me.fifo = [] → ¬outstanding → exec (.xpop d) s = .next (s1.wrote 4 (plain d) 0).ended) ∧
    (s1.me.fifo = [] → outstanding → s1.me.pend.length < 8 → exec (.xpop d) s =
      .next ((s1.did (claimDst (plain d))).updMe fun x => { x with xpopWait := x.xpopWait ++ [d] }).ended)) ∧
  (∀ (s t : State) (k : Cmd) (m : Nat) (l : List (PByte × PByte)), s.cmds.find? (fun c => c.id == s.subj) = some k →
    k.started = true → (∀ c ∈ s.cmds, k.id ∉ c.merge) → k.merge = [] → k.op = 1 → k.malformed = false → k.cutBank = false →
    k.ntf = 0 → k.disc = false → k.owner = none → k.slot = some m →
    let i : Sid := ⟨.core k.core, m⟩
    ∀ v, ({ s with cur := i } : State).warmCmd k = some v →
    v.cmdPlan k = (l, 0) → v.hostHeld (l.map (fun p => p.2.loc)) = [] →
    (v.useBytes (l.map (fun p => p.1))).bind (fun w => w.writeGroups (v.copyBytes l)) = some t →
    (s.slotAt i).xpopWait = [] → (∀ c ∈ s.cmds, c.id = k.id → s.popPast c = true) →
    ∃ u : State, exec .engineCompletion s = .next u ∧ (∀ c ∈ u.cmds, c.id ≠ k.id) ∧
      (u.slotAt i).fifo = (s.slotAt i).fifo ++
        [⟨k.tag, 0, BitVec.ofNat 40 (k.mark + l.length), 0, k.dst, k.mark + l.length⟩] ∧
      ((l.map (fun p => p.2.loc)).Nodup → (∀ p ∈ l, ∀ q ∈ l, p.1.loc ≠ q.2.loc) →
        ∀ p ∈ l, ∀ q, p.2.loc = .dev q → u.byteAt (.dev q) = s.byteAt p.1.loc) ∧
      (∀ q, (∀ p ∈ l, p.2.loc ≠ .dev q) → u.byteAt (.dev q) = s.byteAt (.dev q))) ∧
  (∀ (s : State) (k : Cmd), s.cmds.find? (fun c => c.id == s.subj) = some k → k.started = false → k.op = 1 →
    ∃ (t : State) (ps : List Nat), exec .combiningHoldExpiry s = .next t ∧ { t with cmds := s.cmds } = s ∧
      (∀ j, j ∈ ps ↔ ∃ c ∈ s.cmds, c.id = j ∧ c.id ≠ k.id ∧ s.partners k c = true) ∧
      t.cmds = s.cmds.map (fun c => if c.id = k.id then { c with started := true, merge := ps }
        else if c.id ∈ ps then { c with started := true } else c)) ∧
  (∀ (core slot : Nat) (s : State) (c : Completion) (cs : List Completion),
    let i : Sid := ⟨.core core, slot⟩
    let x := s.slotAt i
    x.ints = c :: cs → s.atTurn i = true → x.handler = .none → x.isPend .pw = false → x.uivec ≠ 0 →
    ∃ t : State, exec (.userInterruptEntry core slot) s = .next t ∧
      let y := t.slotAt i
      y.pc = x.uivec ∧ y.handler = .interrupt ∧ y.savedPc = x.pc ∧ y.savedPw = x.pw ∧ y.ints = cs ∧
      (∀ j (h : j < 5), y.savedG[j] = x.g[11 + j]) ∧ y.g = x.g.set 11 (c.bytes ++ c.status ++ c.tag : BitVec 64) ∧
      y.mode = x.mode ∧ (∀ l, t.byteAt l = s.byteAt l))

/-- R340, R341, R342, R435: tenders. TCFG sets one up with all counts 0, or raises the tender fault for a descriptor that breaks
its rules; TADV advances T or C, or raises it when more stages would be filled than there are, or freed than are filled; TWAIT
goes on with an acquire once the count is reached, and sleeps before. tval is the tender with a reason in [11:8]. -/
def Obligations.TenderResults : Prop :=
  ∀ (t : BitVec 4) (n : Nat) (s : State), s.cur.pl = .core n →
    let tender (s : State) : Tender := (s.at' s.cur.pl).tenders[t.toNat]
    let put (s : State) (x : Tender) : State := s.setAt s.cur.pl { s.at' s.cur.pl with
      tenders := (s.at' s.cur.pl).tenders.set t.toNat x }
    let faults (i : Instr) (u : State) (reason : Nat) : Prop :=
      exec i s = .next (u.trapped 0xE (BitVec.ofNat 64 (t.toNat + reason * 256)))
    (∀ (a : BitVec 6) (s1 r1 s2 v s3 : State) (bs : List PByte) (raw : List Byte) (x y : Word), Ready [.src (plain a)] s s1 →
      (s1.at' s1.cur.pl).bankLaunch = some s1.me.launch → Passes accessGate s1 → Reads (plain a) s1 x r1 →
      Checked 4 false x 16 16 s1 bs s2 → Passes (cfgGate true bs) s2 → after (readNow bs) s2 = some (raw, v) →
      Reads (plain a) v y s3 →
      let field (o k : Nat) : Nat := ofBytes ((List.range k).map (fun j => raw.getD (o + j) 0))
      let base : Word := BitVec.ofNat 64 (field 0 8)
      let good : Prop := base.toNat % 64 = 0 ∧ field 8 4 % 64 = 0 ∧ 0 < field 8 4 ∧ field 8 4 ≤ 65536 ∧ 0 < field 12 2 ∧
        field 12 2 ≤ 256 ∧ (field 14 1 = 1 ∨ field 14 1 = 2) ∧ field 15 1 = 0 ∧
        (v.at' v.cur.pl).stagesOk base (field 8 4 * field 12 2) = true
      (¬good → faults (.tcfg t a) v 1) ∧
      (good → (tender v).broken = false → s1.tenderBusy n t.toNat = true → faults (.tcfg t a) v 2) ∧
      (good → ((tender v).broken = true ∨ s1.tenderBusy n t.toNat = false) → exec (.tcfg t a) s =
        .next (put s3 ⟨true, false, base, field 8 4, field 12 2, field 14 1, 0, 0, 0, 0⟩).ended)) ∧
    (Passes accessGate s →
      (∀ c : BitVec 8, ((tender s).conf = false → ∀ i ∈ [Instr.tadvFill t c, .tadvFree t c, .twaitFill t c, .twaitFree t c],
          faults i s 6) ∧
        ((tender s).conf = true → (tender s).broken = true →
          ∀ i ∈ [Instr.tadvFill t c, .tadvFree t c, .twaitFill t c, .twaitFree t c], faults i s 5)) ∧
      ((tender s).conf = true → (tender s).broken = false →
        let x := tender s
        let filled := Min.min (x.t - x.c).toNat (x.e - x.c).toNat
        (∀ (c : BitVec 8) (u : State), Does (release 4) s u →
          let tt := x.t + c.setWidth 32
          ((tt - x.c).toNat ≤ x.stages → exec (.tadvFill t c) s =
            .next (put u { x with t := tt, e := if x.quota = 1 then x.e + c.setWidth 32 else x.e }).ended) ∧
          (x.stages < (tt - x.c).toNat → faults (.tadvFill t c) u 3) ∧
          (c.toNat ≤ filled → x.owed = 0 → exec (.tadvFree t c) s =
            .next (put u { x with c := x.c + c.setWidth 32 }).ended) ∧
          (filled < c.toNat → faults (.tadvFree t c) u 3)) ∧
        (∀ (c : BitVec 8) (u : State), Does (acquire 4) s u →
          (c.toNat ≤ x.stages → c.toNat ≤ filled → exec (.twaitFill t c) s = .next u.ended) ∧
          (c.toNat ≤ x.stages - (x.t - x.c).toNat → exec (.twaitFree t c) s = .next u.ended) ∧
          (x.stages < c.toNat → faults (.twaitFill t c) s 4 ∧ faults (.twaitFree t c) s 4) ∧
          (c.toNat ≤ x.stages → filled < c.toNat → ∃ z : Slot, exec (.twaitFill t c) s = .next (s.updMe fun _ => z) ∧
            (∃ sl, z.asleep = some sl) ∧ z.pc = s.me.pc))))

/-- R343, R344, R345, R346, R347, R455, R456: channels. What the channel codes read and write as operands, what the channel
instructions do, and what words and grants do when they arrive. -/
def Obligations.ChannelResults : Prop :=
  -- operands
  (∀ (s : State) (k : Fin 8) (f : Fld), f.rel = false → f.code.toNat = 16 + k.val → s.me.isPend (.ch k.val) = false →
    Passes accessGate s →
    let e := s.me.eps[k]
    let fault : Out := .next (s.trapped 0xF (BitVec.ofNat 64 (s.cur.k * 8 + k.val + 4 * 256)))
    ((e.opened = false ∨ e.recv = false) → run (prep [.src f]) s = fault) ∧
    ((e.opened = false ∨ e.recv = true) → run (prep [.dst f]) s = fault) ∧
    let room : Prop := s.me.pend.length < 8 ∧ (s.at' s.cur.pl).recvBusy = false
    (e.opened = true → e.recv = true → room → ∀ v l, e.buf = v :: l → Ready [.src f] s s ∧
      Reads f s v ((s.updMe fun x => { x with eps := x.eps.set k { e with buf := l, outst := e.outst - 1 } }).did (acquire 4))) ∧
    (e.opened = true → e.recv = true → 8 ≤ s.me.pend.length ∨ (s.at' s.cur.pl).recvBusy = true →
      run (prep [.src f]) s = .next s) ∧
    (e.opened = true → e.recv = true → room → e.buf = [] → ∃ z : Slot, run (prep [.src f]) s = .next (s.updMe fun _ => z) ∧
      (∃ sl, z.asleep = some sl) ∧ z.pc = s.me.pc) ∧
    (e.opened = true → e.recv = false → 0 < e.allow → ∀ t, Does (release 4) (s.updMe fun x => { x with asleep := none }) t →
      Ready [.dst f] s t ∧
      ∀ (lat : Nat) (v : Word), t.wrote lat f v = (t.updMe fun x => { x with
        eps := x.eps.set k { t.me.eps[k] with allow := t.me.eps[k].allow - 1 } }).chanSend t.cur k.val v) ∧
    (e.opened = true → e.recv = false → e.allow = 0 → ∃ z : Slot, run (prep [.dst f]) s = .next (s.updMe fun _ => z) ∧
      (∃ sl, z.asleep = some sl) ∧ z.pc = s.me.pc)) ∧
  -- instructions
  (∀ (n : BitVec 3) (c : Nat) (s : State), s.cur.pl = .core c →
    let fault (i : Instr) (u : State) (reason : Nat) : Prop :=
      exec i s = .next (u.trapped 0xF (BitVec.ofNat 64 (s.cur.k * 8 + n.toNat + reason * 256)))
    let ep (u : State) : Endpoint := u.me.eps[n.toNat]
    let put (u : State) (e : Endpoint) : State := u.updMe fun x => { x with eps := x.eps.set n.toNat e }
    (∀ (a : BitVec 6) (s1 s2 : State) (w : Word), Ready [.src (plain a)] s s1 → s1.me.isPend (.ch n.toNat) = false →
      Reads (plain a) s1 w s2 →
      let bad : Prop := w.extractLsb' 19 45 ≠ 0 ∨ (w.extractLsb' 0 12).toNat / 4 ∈ s1.deadClusters
      ((ep s1).saved = true → fault (.chopen n a) s1 6) ∧
      ((ep s1).saved = false → (ep s1).opened = true → fault (.chopen n a) s1 1) ∧
      ((ep s1).saved = false → (ep s1).opened = false → bad → fault (.chopen n a) s1 2) ∧
      ((ep s1).saved = false → (ep s1).opened = false → ¬bad → exec (.chopen n a) s = .next (put s2 ⟨true, w.setWidth 19,
        if w.getLsbD 18 then 0
          else (((ep s1).kept.filter (fun k => k.1 == w.setWidth 18)).map (fun k => k.2)).sum, [], 0, [], false⟩).ended)) ∧
    (s.me.isPend (.ch n.toNat) = false →
      (∀ cnt : BitVec 16,
        let g := Min.min cnt.toNat ((s.at' s.cur.pl).grantRoom - (ep s).outst)
        let peer : Nat := ((ep s).peer.extractLsb' 0 12).toNat
        (((ep s).opened = false ∨ (ep s).recv = false) → fault (.chgrant n cnt) s 3) ∧
        ((ep s).opened = true → (ep s).recv = true → g = 0 → exec (.chgrant n cnt) s = .next s.ended) ∧
        ((ep s).opened = true → (ep s).recv = true → g ≠ 0 → exec (.chgrant n cnt) s =
          .next ((put s { ep s with outst := (ep s).outst + g }).send s.me.launch s.cur.pl (.core peer) (some s.cur)
            (.chGrant peer (((ep s).peer.extractLsb' 12 3).toNat * 8 + ((ep s).peer.extractLsb' 15 3).toNat)
              (BitVec.ofNat 18 (c + s.cur.k * 4096 + n.toNat * 32768)) g)).ended)) ∧
      ((ep s).opened = false → exec (.chclose n) s = .next s.ended) ∧
      ((ep s).opened = true → ((ep s).recv = true ∨ s.epWordsOut s.cur n.toNat = false) → exec (.chclose n) s =
        .next (put s { ep s with opened := false, peer := 0, allow := 0, buf := [], outst := 0 }).ended)) ∧
    (∀ (d a : BitVec 6) (s1 s2 : State) (m : Word) (j : Nat), Ready [.dst (plain d), .src (plain a)] s s1 →
      Reads (plain a) s1 m s2 →
      let on (k : Nat) : Prop := m.getLsbD k = true ∧ ∃ e, s1.me.eps[k]? = some e ∧ e.opened = true ∧
        (if e.recv then e.buf ≠ [] else 0 < e.allow)
      j < 8 → on ((s1.me.chLast + 1 + j) % 8) → (∀ k, k < j → ¬on ((s1.me.chLast + 1 + k) % 8)) →
      exec (.chalt d a) s = .next ((s2.updMe fun x => { x with chLast := (s1.me.chLast + 1 + j) % 8 }).wrote 4 (plain d)
        (BitVec.ofNat 64 ((s1.me.chLast + 1 + j) % 8))).ended)) ∧
  -- arrivals
  (∀ (s : State) (f : Flight) (core k : Nat) (n : Fin 8) (src : BitVec 18), s.flight? s.subj = some f →
    s.first f = true → s.cleared f = true → s.turnPast ⟨.core core, k⟩ = true →
    let i : Sid := ⟨.core core, k⟩
    let x := s.slotAt i
    let e := x.eps[n]
    let put (e : Endpoint) : Slot := { x with eps := x.eps.set n e }
    (∀ v, f.body = .chWord core (k * 8 + n.val) src v →
      (e.opened = true → x.busy = true → x.launch = f.launch → e.recv = true → e.peer.extractLsb' 0 18 = src →
        ∃ t : State, exec .channelWordArrival s = .next t ∧ t.slotAt i = put { e with buf := e.buf ++ [v] } ∧
          ∃ w, t.flights = s.flights.filter (fun g => g.id != f.id) ++ w) ∧
      (e.opened = false → e.saved = false → ∃ t : State, exec .channelWordArrival s = .next t ∧ t.slotAt i = x)) ∧
    (∀ g, f.body = .chGrant core (k * 8 + n.val) src g → ∃ t : State, exec .channelGrantArrival s = .next t ∧
      (e.opened = true → e.recv = false → e.peer.extractLsb' 0 18 = src → t.slotAt i = put { e with allow := e.allow + g }) ∧
      (e.opened = false → e.saved = false → t.slotAt i = put { e with kept := e.kept ++ [(src, g)] })))

-- the Coach Ring

/-- R142, R144, R351, R352: a carriage instruction of a thread on a compute core. Its window index is the low half of Gpr(a) plus
idx; one at or beyond the window, or 0 for a writer, raises the window trap with the index. Otherwise, after the release that
the mark asks for, the request goes to the cluster's station: the two result registers are pending, or the thread sleeps. -/
def Sys2Proof.Machine.Requests (i : Instr) (o : CarOp) (us : List Use) (writes sleeps : Bool) (op : Slot → CapOp) : Prop :=
  ∀ (n : Nat) (s s1 s2 : State) (l : Launch), s.cur.pl = .core n → o.d.toNat < 15 →
    Ready ((if o.d = 0 then [] else [.dst (gf o.d), .dst (gf (o.d + 1))]) ++ [.src (gf o.a)] ++ us) s s1 →
    Passes accessGate s1 →
    (∀ k ∈ (s1.cluster (n / 4)).caps, ¬(k.sid = some s1.cur ∧ k.op.sleeps = true)) →
    (∀ k ∈ (s1.cluster (n / 4)).heldCaps, ¬(k.2.sid = some s1.cur ∧ k.2.op.sleeps = true)) →
    s1.launch? s1.me.launch = some l →
    let idx := (s1.me.gr o.a).toNat % 65536 + o.idx.toNat
    ((l.winCount ≤ idx ∨ (writes = true ∧ idx = 0)) → exec i s = .next (s1.trapped 0xC (BitVec.ofNat 64 idx))) ∧
    (idx < l.winCount → (writes = true → idx ≠ 0) → (o.d ≠ 0 → s1.me.pend.length + 2 ≤ 8) →
      (o.rel = true → Does (release 4) s1 s2) → (o.rel = false → s2 = s1) →
      let c : Cap := ⟨0, n * 8 + s.cur.k, some s.cur, s2.me.launch, o.d.setWidth 6, l.winBase + idx, o.w.toNat, op s1.me, 0, 0, o.acq, 0, .queued⟩
      (sleeps = false → exec i s = .next (((s2.updMe fun x => { x with
        pend := x.pend ++ (if o.d = 0 then [] else [.g o.d.toNat, .g (o.d + 1).toNat]) }).submit n c).ended)) ∧
      (sleeps = true → ∃ z : Slot, exec i s = .next ((s2.submit n c).updMe fun _ => z) ∧ (∃ sl, z.asleep = some sl) ∧
        z.pc = s2.me.pc))

/-- R142, R349, R351, R352, R353, R354, R355, R356: the carriage instructions. BOARD and ALIGHT name the 64 bytes at Gpr(a); a
CARRIVE names the membership of its index, a join the first free one, and raises the barrier fault when there is none or one
already; it waits for another CARRIVE of its thread that decides what it finds. A request reaches its station in four cycles, or
is held at its core while the station has 64.
The model's own choices here: DESIGN CHOICE, log 18. -/
def Obligations.CarriageInstructionResults : Prop :=
  (∀ o : CarOp, Requests (.cload o) o [] false false (fun _ => .load) ∧
    (∀ op : BitVec 4, Requests (.cop o op) o [.src (gf o.b)] true false (fun x => .cop op (x.gr o.b))) ∧
    Requests (.ccas o) o [.src (gf o.b), .src (gf o.d)] true false (fun x => .ccas (x.gr o.d) (x.gr o.b)) ∧
    Requests (.cstore o) o [.src (gf o.b)] true false (fun x => .store false (x.gr o.b)) ∧
    Requests (.cstoreSeat o) o [.src (gf o.b)] true false (fun x => .store true (x.gr o.b)) ∧
    (∀ cond : BitVec 3, Requests (.cwait o cond) o [.src (gf o.b)] false true (fun x => .cwait cond (x.gr o.b))) ∧
    Requests (.cphase o) o [.src (gf o.b)] false true (fun x => .phase (x.gr o.b))) ∧
  (∀ (a b : BitVec 4) (idx : BitVec 16) (wr : Bool) (n : Nat) (s s1 s2 s3 : State) (l : Launch) (p : PByte) (bs : List PByte),
    s.cur.pl = .core n → Ready [.src (gf a), .dst (gf a), .src (gf b)] s s1 → Passes accessGate s1 →
    s1.launch? s1.me.launch = some l →
    let i := if wr then Instr.alight a b idx else .board a b idx
    let k := (s1.me.gr b).toNat % 65536 + idx.toNat
    ((l.winCount ≤ k ∨ k = 0) → exec i s = .next (s1.trapped 0xC (BitVec.ofNat 64 k))) ∧
    (k < l.winCount → k ≠ 0 → Checked 4 wr (s1.me.gr a) 64 64 s1 (p :: bs) s2 → (p :: bs).any noSequence = false →
      (a ≠ 0 → s2.me.pend.length < 8) → (wr = true → Does (release 4) s2 s3) → (wr = false → s3 = s2) →
      exec i s = .next (((s3.updMe fun x => { x with pend := x.pend ++ (if a = 0 then [] else [.g a.toNat]) }).submit n
        ⟨0, n * 8 + s.cur.k, some s.cur, s3.me.launch, a.setWidth 6, l.winBase + k, 0,
          if wr then .alight p.loc (s3.homeFirst (p :: bs)) else .board p.loc (s3.homeFirst (p :: bs)), 0, 0, !wr, 0,
          .queued⟩).ended))) ∧
  (∀ (o : CarOp) (i : Instr) (op : CapOp) (n : Nat) (s s1 s2 : State) (l : Launch) (mem : Nat) (mw : Word),
    (i = .carriveJoin o ∧ op = .join) ∨ (i = .carriveArrive o ∧ op = .arrive) ∨ (i = .carriveDepart o ∧ op = .depart) →
    s.cur.pl = .core n → o.d.toNat < 15 →
    Ready ((if o.d = 0 then [] else [.dst (gf o.d), .dst (gf (o.d + 1))]) ++ [.src (gf o.a)]) s s1 → Passes accessGate s1 →
    s1.launch? s1.me.launch = some l →
    let idx := (s1.me.gr o.a).toNat % 65536 + o.idx.toNat
    let names (w : Word) : Prop := w.getLsbD 16 = true ∧ (w.extractLsb' 0 16).toNat = idx
    let m0 := s1.me.member[0]
    let m1 := s1.me.member[1]
    let fault (reason : Nat) : Prop := exec i s = .next (s1.trapped 0xD (BitVec.ofNat 64 (reason + idx * 65536)))
    ((l.winCount ≤ idx ∨ idx = 0) → exec i s = .next (s1.trapped 0xC (BitVec.ofNat 64 idx))) ∧
    (idx < l.winCount → idx ≠ 0 → s1.carriveBusy s1.cur (op == .join) idx = true → exec i s = .next s1) ∧
    (idx < l.winCount → idx ≠ 0 → s1.carriveBusy s1.cur (op == .join) idx = false →
      (op = .join → names m0 ∨ names m1 → fault 1) ∧
      (op = .join → ¬names m0 → ¬names m1 → m0.getLsbD 16 = true → m1.getLsbD 16 = true → fault 2) ∧
      (op ≠ .join → ¬names m0 → ¬names m1 → fault 4) ∧
      ((op = .join ∧ ¬names m0 ∧ ¬names m1 ∧ mw = BitVec.ofNat 64 idx ∧
          ((m0.getLsbD 16 = false ∧ mem = 0) ∨ (m0.getLsbD 16 = true ∧ m1.getLsbD 16 = false ∧ mem = 1))) ∨
        (op ≠ .join ∧ ((names m0 ∧ mem = 0 ∧ mw = m0) ∨ (¬names m0 ∧ names m1 ∧ mem = 1 ∧ mw = m1))) →
        (o.d ≠ 0 → s1.me.pend.length + 2 ≤ 8) → (o.rel = true → Does (release 4) s1 s2) → (o.rel = false → s2 = s1) →
        exec i s = .next (((s2.updMe fun x => { x with
          pend := x.pend ++ (if o.d = 0 then [] else [.g o.d.toNat, .g (o.d + 1).toNat]) }).submit n
            ⟨0, n * 8 + s.cur.k, some s.cur, s2.me.launch, o.d.setWidth 6, l.winBase + idx, 0, op, mem, mw, o.acq, 0, .queued⟩).ended)))) ∧
  (∀ (s : State) (n : Nat) (c : Cap),
    let t := s.submit n c
    let d : Cap := { c with id := s.nextId, arrive := s.cyc + 4 }
    { t with clusters := s.clusters, nextId := s.nextId } = s ∧
    ((s.cluster (n / 4)).caps.length < 64 → (∀ k, k ∈ (t.cluster (n / 4)).caps ↔ k = d ∨ k ∈ (s.cluster (n / 4)).caps)) ∧
    (64 ≤ (s.cluster (n / 4)).caps.length → (t.cluster (n / 4)).heldCaps = (s.cluster (n / 4)).heldCaps ++ [(n, d)]))

/-- R148, R150, R152, R353, R354: what a capture does to its carriage in its pass. Reads and writes of a word act on a SEATED
carriage and answer indication 1 on any other; .seat takes an EMPTY one, zero but for the word, and answers 2 otherwise; CWAIT
and CPHASE answer once their test holds; a poisoned barrier answers 4; a join adds a member and gives the epoch it may arrive
in; an arrive counts in its phase, too late it answers 3, two ahead it waits; a depart takes back what its member still owes.
A count that reaches the members it waits for schedules an advance.
The model's own choices here: DESIGN CHOICE, log 17; DEDUCED, log 61. -/
def Obligations.CaptureEffects : Prop :=
  ∀ (c : Carriage) (k : Cap) (w : Fin 8), k.w = w.val →
    let word := c.words[w]
    let gives (c' : Carriage) (v : Word) (ind : Nat) : Prop := applyCap c k = (c', some (.done v ind), false)
    let wrote (v : Word) : Carriage := { c with words := c.words.set w v }
    ((∀ op v, k.op = .cop op v → c.st = .seated → ∀ r, opResult op.toNat word v r → gives (wrote r) word 0) ∧
      (k.op = .load → c.st = .seated → gives c word 0) ∧
      (∀ x v, k.op = .ccas x v → c.st = .seated → gives (if word = x then wrote v else c) word 0) ∧
      (∀ v, k.op = .store false v → c.st = .seated → gives (wrote v) word 0) ∧
      (∀ v, k.op = .store true v → (c.st = .empty → gives { c with
          st := .seated, adv := [], words := (Vector.replicate 8 (0 : Word)).set w v } 0 0) ∧
        (c.st ≠ .empty → gives c 0 2)) ∧
      (∀ cond v, k.op = .cwait cond v → c.st = .seated →
        (conditionHolds cond.toNat word v → gives c word 0) ∧
        (¬conditionHolds cond.toNat word v → applyCap c k = (c, none, false))) ∧
      ((k.op = .load ∨ (∃ op v, k.op = .cop op v) ∨ (∃ x v, k.op = .ccas x v) ∨ (∃ v, k.op = .store false v) ∨
        (∃ cond v, k.op = .cwait cond v) ∨ (∃ t, k.op = .phase t) ∨ k.op = .join ∨ k.op = .arrive ∨ k.op = .depart) →
        c.st ≠ .seated → gives c 0 1)) ∧
    (c.st = .seated →
      let w0 := c.words[0]
      let w1 := c.words[1]
      let e := (w0.extractLsb' 0 32).toNat
      let x := (w0.extractLsb' 32 16).toNat
      let adv := w1.getLsbD 33
      let m := (k.mword.extractLsb' 32 32).toNat
      let count (c : Carriage) (p : Nat) : BitVec 16 := if p % 2 = 0 then c.words[1].extractLsb' 0 16 else c.words[1].extractLsb' 16 16
      let becomes (v : Nat) (x' : Nat) (cnt : Nat → BitVec 16) : Prop :=
        ∃ c' up, applyCap c k = (c', some (.done (BitVec.ofNat 64 v) 0), up) ∧
          (up = true ↔ adv = false ∧ 0 < x' ∧ (cnt e).toNat = x') ∧
          (c'.words[0].extractLsb' 0 32).toNat = e ∧ (c'.words[0].extractLsb' 32 16).toNat = x' ∧
          count c' 0 = cnt 0 ∧ count c' 1 = cnt 1 ∧ (c'.words[1].getLsbD 33 = (adv || up)) ∧ c'.words[1].getLsbD 32 = false ∧
          (∀ j (h : j < 8), 2 ≤ j → c'.words[j] = c.words[j]) ∧ c'.st = .seated
      (w1.getLsbD 32 = true → (k.op = .join ∨ k.op = .arrive ∨ k.op = .depart ∨ ∃ t, k.op = .phase t) →
        gives c (BitVec.ofNat 64 e) 4) ∧
      (w1.getLsbD 32 = false →
        (∀ t, k.op = .phase t →
          let p := (t.extractLsb' 0 32).toNat
          (p + 2 ≤ e → gives c (BitVec.ofNat 64 e) 3) ∧ (p + 1 = e → gives c (BitVec.ofNat 64 e) 0) ∧
          (e ≤ p → applyCap c k = (c, none, false))) ∧
        (k.op = .join → (x = 65535 → gives c (BitVec.ofNat 64 e) 8) ∧
          (x < 65535 → becomes (e + (if adv then 1 else 0)) (x + 1) (count c))) ∧
        (k.op = .arrive → (e + 2 ≤ m → applyCap c k = (c, some .retry, false)) ∧ (m < e → gives c (BitVec.ofNat 64 e) 3) ∧
          (e ≤ m → m < e + 2 → becomes m x (fun p => if p % 2 = m % 2 then count c p + 1 else count c p))) ∧
        (k.op = .depart → becomes 0 (x - 1) (fun p =>
          if (p % 2 = e % 2 ∧ e < m) ∨ (p % 2 = (e + 1) % 2 ∧ e + 1 < m) then count c p - 1 else count c p))))

/-- R135, R137, R143, R144, R146, R147, R151: the events of the ring. A word crosses a station once in 1,024 cycles. A request
is applied in a pass (when word 3 of its carriage crosses), its result due four cycles after its last word leaves, a barrier advances at the next pass, a carriage counts its revolutions at the depot, boarding seats the 64
bytes it read, alighting writes them home, and a completed request gives its thread both result registers.
The model's own choices here: DESIGN CHOICE, log 17; DEDUCED, log 61. -/
def Obligations.RingEventResults : Prop :=
  (∀ (cyc st c w : Nat), w < 8 → c < 2048 → st < 1024 →
    (crosses cyc st c w = true ↔ ∃ k, cyc + 1024 * k = st + 8 * (c / 16) + w ∨ cyc = st + 8 * (c / 16) + w + 1024 * k)) ∧
  (∀ (s : State) (cl : Nat) (k : Cap), s.findCap s.subj = some (cl, k) → k.st.waiting = true → s.capReady cl k = true →
    let c := s.car k.car
    let due := s.cyc + lastWord k + 1
    ((∀ l h, k.op ≠ .board l h) → (∀ l h, k.op ≠ .alight l h) → ∀ c' v ind up, applyCap c k = (c', some (.done v ind), up) →
      ∃ t : State, exec .captureApply s = .next t ∧ (t.car k.car).words = c'.words ∧ (t.car k.car).st = c'.st ∧
        (t.car k.car).adv = c'.adv ++ (if up then [(stationOf cl, s.cyc)] else []) ∧
        (∀ d ∈ (t.cluster cl).caps, d.id = k.id → d = { k with st := .done v ind (c.passRev s.cyc (stationOf cl)) due }) ∧
        (∀ j, j ≠ k.car → t.car j = s.car j) ∧ (∀ l, t.byteAt l = s.byteAt l)) ∧
    (∀ l h, k.op = .board l h → c.st = .empty → ∃ t : State, exec .captureApply s = .next t ∧ (t.car k.car).st = .reserved ∧
      ∀ d ∈ (t.cluster cl).caps, d.id = k.id → d.st = .fetching) ∧
    (∀ l h, k.op = .alight l h → c.st = .seated → ∃ t : State, exec .captureApply s = .next t ∧ (t.car k.car).st = .landing ∧
      ∀ d ∈ (t.cluster cl).caps, d.id = k.id → d.st = .landing c.words.toList)) ∧
  (∀ (s : State) (st t : Nat), (s.car s.subj).adv.find? (fun a => passes s.cyc a.1 s.subj && decide (a.2 < s.cyc)) = some (st, t) →
    (s.car s.subj).st = .seated →
    let c := s.car s.subj
    let e := (c.words[0].extractLsb' 0 32).toNat
    ∃ u : State, exec .barrierAdvance s = .next u ∧
      let d := u.car s.subj
      (d.words[0].extractLsb' 0 32) = BitVec.ofNat 32 (e + 1) ∧ d.words[0].extractLsb' 32 16 = c.words[0].extractLsb' 32 16 ∧
      (if e % 2 = 0 then d.words[1].extractLsb' 0 16 = 0 ∧ d.words[1].extractLsb' 16 16 = c.words[1].extractLsb' 16 16
        else d.words[1].extractLsb' 16 16 = 0 ∧ d.words[1].extractLsb' 0 16 = c.words[1].extractLsb' 0 16) ∧
      (∀ j (h : j < 8), 2 ≤ j → d.words[j] = c.words[j])) ∧
  (∀ s : State, s.subj < 2048 → crosses s.cyc 0 s.subj 0 = true → (s.car s.subj).lastRev ≠ some s.cyc →
    exec .revolutionStart s =
      .next (s.setCar s.subj { s.car s.subj with rev := (s.car s.subj).rev + 1, lastRev := some s.cyc })) ∧
  (∀ (s : State) (cl : Nat) (k : Cap), s.findCap s.subj = some (cl, k) →
    let passing : Prop := passes s.cyc (stationOf cl) k.car = true
    let rev := (s.car k.car).passRev s.cyc (stationOf cl)
    (∀ l h t, k.op = .board l h → k.st = .fetching → s.locPoison l = false → s.useLines (useOf l h) = some t →
      exec .boardDataSeat s = .next (t.putCap cl { k with st := .fetched (s.words64 l) s.cyc })) ∧
    (∀ ws t, k.st = .fetched ws t → ws.length = 8 → passing → t + 3 < s.cyc → ∃ u : State, exec .boardDataSeat s = .next u ∧
      (u.car k.car).st = .seated ∧ (u.car k.car).words.toList = ws ∧
      ∀ d ∈ (u.cluster cl).caps, d.id = k.id → d.st = .done 0 0 rev (s.cyc + 8)) ∧
    (∀ (p : Nat) (ws : List Word) (slice : Nat), k.op = .alight (.dev p) (.slice slice) → k.st = .landing ws → ws.length = 8 →
      p % 64 = 0 → s.hostHeld [.dev p] = [] → (tabGet [] s.l2 slice).length < 16 →
      ∃ u : State, exec .alightLanded s = .next u ∧
        (∀ j, j < 64 → u.byteAt (.dev (p + j)) = (ws.getD (j / 8) 0).extractLsb' (8 * (j % 8)) 8) ∧
        (∀ q, (∀ j, j < 64 → q ≠ .dev (p + j)) → u.byteAt q = s.byteAt q) ∧
        ∀ d ∈ (u.cluster cl).caps, d.id = k.id → d.st = .landed s.cyc) ∧
    (∀ t, k.st = .landed t → passing → t + 3 < s.cyc → ∃ u : State, exec .alightLanded s = .next u ∧
      (u.car k.car).st = .empty ∧ ∀ d ∈ (u.cluster cl).caps, d.id = k.id → d.st = .done 0 0 rev (s.cyc + 8)) ∧
    (∀ (v : Word) (ind due : Nat) (rev : BitVec 16) (i : Sid) (d : BitVec 4), k.st = .done v ind rev due → due ≤ s.cyc → ind < 8 →
      k.sid = some i → s.turnPast i = true → k.op = .load ∨ (∃ op v, k.op = .cop op v) ∨ (∃ x v, k.op = .ccas x v) ∨ (∃ b v, k.op = .store b v) →
      k.d = d.setWidth 6 → 0 < d.toNat → d.toNat < 15 → k.acq = false →
      ∃ u : State, exec .captureCompletion s = .next u ∧ (∀ l, u.byteAt l = s.byteAt l) ∧
        (u.slotAt i) = (((((s.slotAt i).clearPend (.g d.toNat)).setGr d v).clearPend (.g (d.toNat + 1))).setGr (d + 1)
          (BitVec.ofNat 64 (ind * 65536 + rev.toNat)))))

-- the Yard

/-- The record that the bytes of a checked access hold (R155). -/
def Sys2Proof.Machine.State.recordIn (s : State) (bs : List PByte) : List Word :=
  (List.range 8).map (fun k => BitVec.ofNat 64 (ofBytes (((bs.drop (8 * k)).take 8).map (fun b => s.byteAt b.loc))))

/-- What a buffer of deltas holds at a bucket. -/
def Sys2Proof.Machine.Deltas.atBucket (d : Deltas) (b : Nat) : Int := ((d.bks.find? (fun e => e.1 == b)).map (fun e => e.2)).getD 0

/-- What a core's buffer holds of a launch. -/
def Sys2Proof.Machine.State.deltasOf (s : State) (n launch : Nat) : Deltas := tabGet deltasReset (s.core' n).deltas launch

/-- The buffer takes a delta at a bucket: it has an entry there, or fewer than sixteen (R162). -/
def Sys2Proof.Machine.Deltas.takes (d : Deltas) (b : Nat) : Prop := (∃ e ∈ d.bks, e.1 = b) ∨ d.bks.length < 16

/-- From s to t the buffer of one core and launch gained k at a bucket, p tasks pushed and q tasks executed, and no other
buffer of that core changed. -/
def Sys2Proof.Machine.Buffers (s t : State) (n launch b : Nat) (k : Int) (p q : Nat) : Prop :=
  let d := s.deltasOf n launch
  let e := t.deltasOf n launch
  e.atBucket b = d.atBucket b + k ∧ (∀ c, c ≠ b → e.atBucket c = d.atBucket c) ∧ e.farN = d.farN ∧ e.farMin = d.farMin ∧
  e.pushed = d.pushed + p ∧ e.executed = d.executed + q ∧ ∀ m, m ≠ launch → t.deltasOf n m = s.deltasOf n m

/-- A result of variable latency of a Yard instruction is on its way to register d, which is pending; none for g0 (R29, R360, R362). -/
def Sys2Proof.Machine.State.yardResulted (s : State) (d : BitVec 4) (v : Word) : State :=
  if d = 0 then s
  else
    let u := s.did (claimDst (gf d))
    u.send u.me.launch u.cur.pl u.cur.pl (some u.cur) (.result (d.setWidth 6) v 0 0 false)

/-- R359, R360, R361, R362, R363, R364, R365, R163, R440: the Yard instructions of a thread on a compute core. YPUSH and YCONT
read a record after a release; a malformed one raises the record fault with its address, a bucket out of range its own fault, a
record that finds no place the siding fault. A near push enters the first free entry and counts +1; while the siding is full it
spills one block of its launch, the sixteen records of highest bucket and latest arrival, itself perhaps among them (R169); a far
push joins the far entry of the buffer. A continuation is held, not counted, and its handle names it. YDONE checks the handle and sends one
decrement. YPOP adopts the earliest record of the lowest eligible bucket and stores it, or writes all ones. YFLOOR and YREACH
write what the core last saw; YOPEN writes the core's own figures, and loads those of the instance block.
The model's own choices here: DESIGN CHOICE, log 16. -/
def Obligations.YardInstructionResults : Prop :=
  ∀ (n : Nat) (l : Launch) (s : State), s.cur.pl = .core n →
    -- records pushed
    (∀ (a : BitVec 4) (s1 s2 c s3 : State) (bs : List PByte), Ready [.src (gf a)] s s1 → Passes accessGate s1 →
      Does (release 4) s1 s2 → Checked 4 false (s2.me.gr a) 64 64 s2 bs c → c.l2Free = true →
      c.srcPoison (bs.map c.srcHome) = false →
      c.useLines (srcLines (bs.map c.srcHome)) = some s3 → s3.launch? s3.me.launch = some l →
      let r := s3.recordIn bs
      let b := recBucket r
      let w := ((s3.core' n).seenOf l.num).w
      let good : Prop := recBad r = false ∧ recFlags r = 0 ∧ recJoin r = 0
      let d := s3.deltasOf n l.num
      (¬good → exec (.ypush a) s = .next (s3.trapped 0x15 (s2.me.gr a))) ∧
      (good → w + 0x3FFFFFFE < b → exec (.ypush a) s = .next (s3.trapped 0x14 (BitVec.ofNat 64 b))) ∧
      (good → b ≤ w + 11 → d.takes b →
        (∀ k, (s3.core' n).freeEntry = some k → ∃ t : State, exec (.ypush a) s = .next t.ended ∧ Buffers s3 t n l.num b 1 1 0 ∧
          (∃ ds, t = s3.setCore n { s3.core' n with
            siding := tabSet (s3.core' n).siding k ⟨r, l.num, (s3.core' n).sorder, none, recFootLen r == 0, none, 0⟩,
            sorder := (s3.core' n).sorder + 1, deltas := ds })) ∧
        (∀ (u : State) (blk : Nat), (s3.core' n).freeEntry = none → (∀ p ∈ (s3.core' n).siding, p.1 < 256) →
          s3.allocBlock l = some (u, blk) →
          let new : SidEnt := ⟨r, l.num, (s3.core' n).sorder, none, recFootLen r == 0, none, 0⟩
          let old (k : Nat) (e : SidEnt) : Prop := (k, e) ∈ (s3.core' n).siding ∧ e.launch = l.num ∧ recHeld e.words = false ∧ e.fill = none
          let may (p : Option Nat × SidEnt) : Prop := p = (none, new) ∨ ∃ k, p.1 = some k ∧ old k p.2
          ∃ (t : State) (out : List (Option Nat × SidEnt)), exec (.ypush a) s = .next t.ended ∧ Buffers s3 t n l.num b 1 1 0 ∧
            out.length ≤ 16 ∧ (∀ p ∈ out, may p) ∧ (out.length < 16 → ∀ p, may p → p ∈ out) ∧
            (∀ p ∈ out, ∀ q, may q → q ∉ out → recBucket q.2.words < recBucket p.2.words ∨
              (recBucket q.2.words = recBucket p.2.words ∧ q.2.order ≤ p.2.order)) ∧
            tabGet 0xFFFFFFFF (t.core' n).chains l.num = blk ∧
            (∀ x, t.byteAt x = (out.zipIdx.foldl (fun v p => v.writeRec l (blockAddr l blk + 64 * p.2) p.1.2.words)
              (u.setLink l blk (linkWord false out.length n (tabGet 0xFFFFFFFF (s3.core' n).chains l.num)))).byteAt x) ∧
            let left (j : Nat) : Option SidEnt :=
              if some j ∈ out.map (fun p => p.1) then none else tabFind (s3.core' n).siding j
            ((none, new) ∈ out → ∀ j, tabFind (t.core' n).siding j = left j) ∧
            ((none, new) ∉ out → ∃ k, some k ∈ out.map (fun p => p.1) ∧ tabFind (t.core' n).siding k = some new ∧
              ∀ j, j ≠ k → tabFind (t.core' n).siding j = left j)) ∧
        ((s3.core' n).freeEntry = none → s3.inst l 0 4 = 0xFFFFFFFF → exec (.ypush a) s = .next (s3.trapped 0x16 2))) ∧
      (good → w + 11 < b → b ≤ w + 0x3FFFFFFE →
        (∀ u, s3.pushFar n l r = some u → ∃ t : State, exec (.ypush a) s = .next t.ended ∧
          (t.deltasOf n l.num).farN = d.farN + 1 ∧ (t.deltasOf n l.num).farMin = (if d.farN = 0 then b else Nat.min d.farMin b) ∧
          (t.deltasOf n l.num).bks = d.bks ∧ (t.deltasOf n l.num).pushed = d.pushed + 1 ∧
          (t.core' n).siding = (s3.core' n).siding ∧ ∀ m, m ≠ n → t.core' m = s3.core' m) ∧
        (tabFind (s3.core' n).farOpen l.num = none → s3.inst l 0 4 = 0xFFFFFFFF → exec (.ypush a) s = .next (s3.trapped 0x16 3)))) ∧
    -- continuations
    (∀ (d a : BitVec 4) (s1 : State), Ready [.dst (gf d), .src (gf a)] s s1 → Passes accessGate s1 → d ≠ 0 →
      8 ≤ s1.me.pend.length → exec (.ycont d a) s = .next s1 ∧ exec (.ypop d a) s = .next s1) ∧
    (∀ (d a : BitVec 4) (s1 s2 c s3 : State) (bs : List PByte), Ready [.dst (gf d), .src (gf a)] s s1 → Passes accessGate s1 →
      (d ≠ 0 → s1.me.pend.length < 8) →
      Does (release 4) s1 s2 → Checked 4 false (s2.me.gr a) 64 64 s2 bs c → c.l2Free = true →
      c.srcPoison (bs.map c.srcHome) = false →
      c.useLines (srcLines (bs.map c.srcHome)) = some s3 → s3.launch? s3.me.launch = some l →
      let r := s3.recordIn bs
      let good : Prop := recBad r = false ∧ recFlags r &&& 7 = 0 ∧ recJoin r ≠ 0
      (¬good → exec (.ycont d a) s = .next (s3.trapped 0x15 (s2.me.gr a))) ∧
      (∀ k, good → (s3.core' n).freeEntry = some k →
        exec (.ycont d a) s = .next ((s3.setCore n { s3.core' n with
          siding := tabSet (s3.core' n).siding k ⟨recSet7 r (recTail (recBucket r) (recFlags r ||| 3) (recJoin r)), l.num,
            (s3.core' n).sorder, none, recFootLen r == 0, none, 0⟩, sorder := (s3.core' n).sorder + 1 }).yardResulted d
          (BitVec.ofNat 64 (n % 4096 + k * 2 ^ 12 + (tabGet 0 (s3.core' n).sgen k).toNat * 2 ^ 20 +
            l.num % 65536 * 2 ^ 36))).ended) ∧
      (good → (s3.core' n).freeEntry = none → s3.inst l 0 4 = 0xFFFFFFFF → exec (.ycont d a) s = .next (s3.trapped 0x16 1))) ∧
    (∀ (a : BitVec 4) (s1 s2 : State), Ready [.src (gf a)] s s1 → Passes accessGate s1 → s1.launch? s1.me.launch = some l →
      let h := s1.me.gr a
      let core := (h.extractLsb' 0 12).toNat
      let good : Prop := h.extractLsb' 52 12 = 0 ∧ (h.extractLsb' 36 16).toNat = l.num % 65536 ∧ s1.coreLive core = true
      (¬good → exec (.ydone a) s = .next (s1.trapped 0x13 h)) ∧
      (good → Does (release 4) s1 s2 → exec (.ydone a) s = .next ((s2.send l.num s2.cur.pl (.core core) (some s2.cur)
        (.ydone core (h.extractLsb' 12 8).toNat (h.extractLsb' 20 16) (h.extractLsb' 36 16) s2.cur)).ended))) ∧
    -- a record popped
    (∀ (d a : BitVec 4) (s1 : State), Ready [.dst (gf d), .src (gf a)] s s1 → Passes accessGate s1 →
      (d ≠ 0 → s1.me.pend.length < 8) → s1.launch? s1.me.launch = some l →
      let z := (s1.core' n).seenOf l.num
      let may (e : SidEnt) : Prop := e.launch = l.num ∧ recHeld e.words = false ∧ e.ready = true ∧ recGen e.words = false ∧
        recFootLen e.words = 0 ∧ recBucket e.words ≤ z.floor + Min.min (l.reach + z.relief) 11
      ((∀ p ∈ (s1.core' n).siding, ¬may p.2) → exec (.ypop d a) s = .next (s1.yardResulted d 0xFFFFFFFFFFFFFFFF).ended) ∧
      (∀ (k : Nat) (e : SidEnt) (s2 : State) (bs : List PByte), (k, e) ∈ (s1.core' n).siding → may e →
        (∀ p ∈ (s1.core' n).siding, may p.2 → p = (k, e) ∨
          recBucket e.words < recBucket p.2.words ∨ (recBucket e.words = recBucket p.2.words ∧ e.order < p.2.order)) →
        Checked 0 true (s1.me.gr a) 64 64 s1 bs s2 → Passes (cfgGate false bs) s2 →
        (s2.deltasOf n l.num).takes s2.me.bucket.toNat →
        let s3 := match s2.me.foot with
          | some r => s2.freeRes s2.me.placement.toNat [r]
          | none => s2
        ∃ u : State, Buffers s3 u n l.num s2.me.bucket.toNat (-1) 0 1 ∧
          (∃ ds, u = s3.setCore n { s3.core' n with
            siding := tabDel (s3.core' n).siding k, sgen := tabSet (s3.core' n).sgen k (tabGet 0 (s3.core' n).sgen k + 1),
            deltas := ds }) ∧
          exec (.ypop d a) s = .next ((((u.store u.cur (bs.zip ((List.range 8).flatMap (fun i => bytesOf (recW e.words i) 8))) false
            none none).updMe fun x => { x with
              bucket := BitVec.ofNat 32 (recBucket e.words), placement := BitVec.ofNat 12 n, foot := none }).yardResulted d
            (BitVec.ofNat 64 (recBucket e.words))).ended))) ∧
    -- figures
    (∀ (d a : BitVec 4) (s1 : State), s1.launch? s1.me.launch = some l →
      let z := (s1.core' n).seenOf l.num
      let reach := Min.min (l.reach + z.relief) 11
      let mine := (s1.core' n).siding.filter (fun e => e.2.launch == l.num)
      (Ready [.dst (gf d)] s s1 → exec (.yfloor d) s =
        .next (s1.wrote 4 (gf d) (BitVec.ofNat 64 (z.floor % 2 ^ 32 + reach * 2 ^ 32 + z.relief % 16 * 2 ^ 36))).ended) ∧
      (Ready [.dst (gf d), .src (gf a)] s s1 →
        exec (.yreach d a) s = .next (s1.wrote 4 (gf d) (BitVec.ofInt 64 (((s1.me.gr a).extractLsb' 0 32).toNat - (z.floor + reach : Int)))).ended ∧
        let sel := ((s1.me.gr a).extractLsb' 0 4).toNat
        (∀ off k : Nat, (sel, off, k) ∈ [(0, 32, 8), (1, 24, 8), (2, 16, 4), (3, 20, 4), (4, 12, 4)] →
          (8 ≤ s1.me.pend.length → exec (.yopen d a) s = .next s1) ∧
          (s1.me.pend.length < 8 → s1.portByte 0 l.root (l.spill + off) = none →
            exec (.yopen d a) s = .next (s1.wrote 6 (gf d) 0).ended) ∧
          (∀ b, s1.me.pend.length < 8 → s1.portByte 0 l.root (l.spill + off) = some b →
            let u := s1.did (claimDst (gf d))
            exec (.yopen d a) s = .next ((u.send l.num u.cur.pl (u.homeFirst [b]) (some u.cur)
              (.load (gf d).code k false ((List.range k).map (fun i => s1.srcHome (b.off i))) [] 0)).ended))) ∧
        (sel = 5 → exec (.yopen d a) s = .next (s1.wrote 4 (gf d) (BitVec.ofNat 64 mine.length)).ended) ∧
        (sel = 6 → exec (.yopen d a) s =
          .next (s1.wrote 4 (gf d) (BitVec.ofNat 64 (mine.filter (fun e => recHeld e.2.words)).length)).ended) ∧
        (6 < sel → exec (.yopen d a) s = .next (s1.wrote 4 (gf d) 0).ended)))

/-- R162, R164, R165, R172, R174, R177, R178, R179, R180, R424, R436: what the Yard does of itself. A station applies its cores'
buffers and shows them the floor; the depot raises the floor past buckets seen empty and signals termination; the far-task agent
moves records within reach; a refill, a steal, a decrement, a fill, a relief and the all-asleep trap.
The model's own choices here: DESIGN CHOICE, log 16, 17, 36, 49; DEDUCED, log 48, 58, 59. -/
def Obligations.YardEventResults : Prop :=
  (∀ (n cl : Nat) (l : Launch) (s : State), cl < 1024 → s.subj = n * 1024 + cl → s.launch? n = some l → (s.car l.winBase).st = .seated →
    passes s.cyc (stationOf cl) l.winBase = true → (s.car l.winBase).did s.cyc (floorKey (stationOf cl)) = false →
    cl ∉ s.deadClusters → (stationOf cl = 0 → l.yard.lastDepot = s.cyc + 1 ∧
      ((floorOf (s.carWords l)).reinject = true → s.agentTurn l = false)) →
    let f := floorOf (s.carWords l)
    let w := f.w
    let d (k : Nat) : Deltas := s.deltasOf (4 * cl + k) n
    let up (k : Nat) (e : Nat × Int) : Prop := k < 4 ∧ e ∈ (d k).bks ∧ 0 < e.2
    ∃ t : State, exec .floorCarriagePass s = .next t ∧
      let g := floorOf (t.carWords l)
      (∀ j, j < 12 → (g.count j : Int) = ((f.count j : Int) + ((List.range 4).map (fun k =>
        (((d k).bks.filter (fun e => Nat.max e.1 w % 12 == j)).map (fun e => e.2)).sum)).sum) % 4294967296) ∧
      (∀ j, j ∈ g.marks ↔ j ∈ f.marks ∨ ∃ k e, up k e ∧ j = Nat.max e.1 w % 12) ∧
      g.w = w ∧ (∀ k e, up k e → e.1 < f.floor → g.floor ≤ Nat.max e.1 (w - 16383)) ∧
      (g.floor = f.floor ∨ ∃ k e, up k e ∧ e.1 < f.floor ∧ g.floor = Nat.max e.1 (w - 16383)) ∧
      g.far = (f.far + ((List.range 4).map (fun k => (d k).farN)).sum) % 2 ^ 32 ∧ g.gap ≤ f.gap ∧
      (∀ k, k < 4 → (d k).farN ≠ 0 → g.gap ≤ (d k).farMin - w) ∧
      (g.gap = f.gap ∨ ∃ k, k < 4 ∧ (d k).farN ≠ 0 ∧ g.gap = (d k).farMin - w) ∧
      (g.dirty = true ↔ f.dirty = true ∨ ∃ k, k < 4 ∧ ((d k).bks ≠ [] ∨ (d k).farN ≠ 0)) ∧
      (g.busy = true ↔ f.busy = true ∨ (∃ k, k < 4 ∧ (s.core' (4 * cl + k)).hasWork n = true) ∨
        (stationOf cl = 0 ∧ (f.reinject = true ∨ l.yard.transit ≠ [] ∨ l.yard.inbound ≠ 0))) ∧ g.relief = f.relief ∧ g.fin = f.fin ∧ g.reinject = f.reinject ∧
      (∀ k, k < 4 → t.deltasOf (4 * cl + k) n =
          (if s.l2Free then deltasReset else { deltasReset with pushed := (d k).pushed, executed := (d k).executed }) ∧
        (t.core' (4 * cl + k)).seenOf n = ⟨g.floor, g.w, g.relief⟩) ∧ (∀ m, m / 4 ≠ cl → t.core' m = s.core' m)) ∧
  (∀ (l : Launch) (k : Nat) (s : State), s.launch? s.subj = some l → (s.car l.winBase).st = .seated →
    passes s.cyc 0 l.winBase = true → l.yard.lastDepot ≠ s.cyc + 1 →
    let f := floorOf (s.carWords l)
    let c := floorOf l.yard.copy
    let clear (j : Nat) : Prop := c.count ((f.w + j) % 12) = 0 ∧ (f.w + j) % 12 ∉ f.marks ∧ j < c.gap
    (k < 12 ∧ (∀ j, j < k → clear j) ∧ ¬clear k) ∨ ((∀ j, j < 12 → clear j) ∧ k = 0) → f.w + 12 < 2 ^ 32 → f.relief < 15 →
    ∃ t : State, exec .depotPass s = .next t ∧
      let g := floorOf (t.carWords l)
      let still : Prop := g.floor = f.floor ∧ g.lag = f.lag ∧ g.gap = f.gap ∧ g.relief = f.relief + (if l.yard.reliefDue && s.l2Free then 1 else 0)
      g.marks = [] ∧ g.busy = false ∧ g.dirty = false ∧ g.counts = f.counts ∧ g.far = f.far ∧
      g.fin = (f.fin || l.yard.signalled) ∧ (f.reinject = true → still ∧ g.reinject = true) ∧
      (f.reinject = false → (k = 0 → still) ∧
        (0 < k → g.floor = f.w + k ∧ g.lag = 0 ∧ g.relief = 0 ∧ g.gap = if f.gap = 0x3FFFFFFF then f.gap else f.gap - k) ∧
        (g.reinject = true ↔ c.gap - k ≤ 11 ∨ ((∀ j, j < 12 → c.count j = 0) ∧ f.marks = [] ∧ 0 < c.far))) ∧
      ∃ l', t.launch? s.subj = some l' ∧ l'.yard.copy = t.carWords l ∧ (l.yard.coupled = false →
        (l'.yard.qPrev = true ↔ (∀ j, j < 12 → f.count j = 0) ∧ f.far = 0 ∧ f.busy = false ∧ f.dirty = false ∧ f.reinject = false) ∧
        (l'.yard.signalled = true ↔ l.yard.signalled = true ∨ (l'.yard.qPrev = true ∧ l.yard.qPrev = true)))) ∧
  (∀ (l : Launch) (s : State), s.launch? s.subj = some l → s.agentTurn l = true →
    let f := floorOf (s.carWords l)
    let rises : Prop := l.yard.agent = 2 ∧ (∀ j, j < 12 → f.count j = 0) ∧ f.gap ≠ 0x3FFFFFFF
    f.reinject = true → f.w + f.gap < 2 ^ 32 →
    ∃ (t : State) (moved : List Nat), exec .farTaskAgent s = .next t ∧
      let g := floorOf (t.carWords l)
      (rises → g.w = f.w + f.gap) ∧ (¬rises → g.w = f.w) ∧ (∀ b ∈ moved, b ≤ g.w + 11) ∧
      (∀ j, j < 12 → g.count j = (f.count j + (moved.filter (fun b => Nat.max b g.w % 12 == j)).length) % 2 ^ 32) ∧
      g.far = (f.far + moved.length * (2 ^ 32 - 1)) % 2 ^ 32 ∧
      (s.inst l 4 4 = 0xFFFFFFFF → moved = [] ∧ g.reinject = false ∧ g.gap = 0x3FFFFFFF) ∧
      (∀ c, c ≠ l.winBase → t.car c = s.car c)) ∧
  (∀ (n : Nat) (l : Launch) (s : State), s.launch? n = some l → l.yard.coupled = true →
    (∀ x : Word, ∃ t : State, exec (.coupledYardTransfer n [x]) s = .next t ∧ t.launch? n = some
      { l with yard := { l.yard with
          peerQ := x.getLsbD 0, transit := l.yard.transit.drop (x.extractLsb' 1 31).toNat,
          inbound := l.yard.inbound + (x.extractLsb' 32 32).toNat } }) ∧
    (∀ r u, r.length = 8 → s.l2Free = true → s.pushFar 0 l r = some u → ∃ t l', exec (.coupledYardTransfer n r) s = .next t ∧
      (t.deltasOf 0 n).farN = (s.deltasOf 0 n).farN + 1 ∧ (t.deltasOf 0 n).bks = (s.deltasOf 0 n).bks ∧
      t.launch? n = some l' ∧ l'.yard.inbound = l.yard.inbound - 1)) ∧
  (∀ (n : Nat) (l : Launch) (s u : State) (r : List Word) (rest : List (List Word)), s.launch? n = some l → l.yard.coupled = false →
    l.yard.transit = r :: rest → s.l2Free = true → s.pushFar 0 l r = some u → ∃ t l', exec (.coupledYardTransfer n []) s = .next t ∧
      (t.deltasOf 0 n).farN = (s.deltasOf 0 n).farN + 1 ∧ t.launch? n = some l' ∧ l'.yard.transit = rest) ∧
  (∀ (core n : Nat) (l : Launch) (s : State), s.launch? n = some l →
    let c := s.core' core
    let b := tabGet 0xFFFFFFFF c.chains n
    let m := ((s.link l b).extractLsb' 44 5).toNat
    b ≠ 0xFFFFFFFF → s.l2Free = true → c.siding.length + m ≤ 256 → c.siding.length ≤ 64 ∨ (∀ e ∈ c.siding, s.eligible core e.2 = false) →
    ∃ t : State, exec (.sidingRefill core n) s = .next t ∧ (t.core' core).siding.length = c.siding.length + m ∧
      tabGet 0xFFFFFFFF (t.core' core).chains n = ((s.link l b).extractLsb' 0 32).toNat ∧
      ∀ j, j < m → ∃ k e, tabFind (t.core' core).siding k = some e ∧ e.launch = l.num ∧
        e.words = s.readRec l (blockAddr l b + 64 * j)) ∧
  (∀ (thief n k : Nat) (l : Launch) (s : State), s.launch? n = some l →
    let c := s.core' thief
    let v := (c.steal.extractLsb' (12 * k) 12).toNat
    k < 4 → k < (c.steal.extractLsb' 48 3).toNat → tabGet 0 c.stealNext n = k → s.coreLive thief = true → s.wantsWork thief l = true →
    let got := s.loot v l (256 - c.siding.length)
    (s.coreLive v = false ∨ v = thief ∨ got = [] → exec (.stealRequest thief n k) s =
      .next (s.setCore thief { c with stealNext := tabSet c.stealNext n (k + 1) })) ∧
    (s.coreLive v = true → v ≠ thief → got ≠ [] → s.popsPast v = false → exec (.stealRequest thief n k) s = .next s) ∧
    (s.coreLive v = true → v ≠ thief → got ≠ [] → s.popsPast v = true → s.l2Free = true →
      c.siding.length + got.length ≤ 256 → ∃ t : State, exec (.stealRequest thief n k) s = .next t ∧
      tabGet 0 (t.core' thief).stealNext n = 0 ∧ (t.core' thief).siding.length = c.siding.length + got.length ∧
      ∀ p ∈ got, p ∈ (s.core' v).siding ∧ p.2.launch = l.num ∧ recHeld p.2.words = false ∧ p.2.fill = none ∧
        (∀ q ∈ (s.core' v).siding, q.2.launch = l.num → s.eligible v q.2 = true → recBucket p.2.words ≤ recBucket q.2.words) ∧
        tabFind (t.core' v).siding p.1 = none ∧ ∃ j e, tabFind (t.core' thief).siding j = some e ∧ e.words = p.2.words)) ∧
  (∀ (s : State) (f : Flight) (l : Launch) (core ent : Nat) (gen x : BitVec 16) (who : Sid), s.flight? s.subj = some f →
    f.body = .ydone core ent gen x who → s.launch? f.launch = some l → l.abort = none → s.first f = true →
    let c := s.core' core
    (tabFind c.siding ent).bind (fun e => e.dec) ≠ some s.cyc →
    let good (e : SidEnt) : Prop := e.launch = f.launch ∧ tabGet 0 c.sgen ent = gen ∧ recJoin e.words ≠ 0 ∧ recHeld e.words = true
    let left (e : SidEnt) (fl : BitVec 16) : SidEnt :=
      { e with words := recSet7 e.words (recTail (recBucket e.words) fl (recJoin e.words - 1)), dec := some s.cyc }
    let put (t : State) (e : SidEnt) (fl : BitVec 16) : State := (t.setCore core
      { t.core' core with siding := tabSet (t.core' core).siding ent (left e fl) }).dropFlight f.id
    ((∀ e, tabFind c.siding ent = some e → ¬good e) → exec .ydoneDecrement s =
      .next (((s.dropFlight f.id).countFault f.launch 1 0x13 (locWord who)).faultDetail f.launch
        (BitVec.ofNat 64 (core % 4096 + ent % 256 * 2 ^ 12 + gen.toNat * 2 ^ 20 + x.toNat * 2 ^ 36)))) ∧
    (∀ e, tabFind c.siding ent = some e → good e →
      (1 < recJoin e.words → exec .ydoneDecrement s = .next (put s e (recFlags e.words))) ∧
      (recJoin e.words = 1 → (s.deltasOf core f.launch).takes (recBucket e.words) → ∃ u : State,
        Buffers s u core f.launch (recBucket e.words) 1 0 0 ∧ (∃ ds, u = s.setCore core { c with deltas := ds }) ∧
        exec .ydoneDecrement s = .next (put u e (recFlags e.words &&& 0xFFFD))))) ∧
  (∀ (core entry r : Nat) (s : State) (e : SidEnt), tabFind (s.core' core).siding entry = some e →
    let c := s.core' core
    (e.fill = none → bestEntry c.siding (s.wantsFill core) = some (entry, e) → e.retry ≤ s.cyc → c.freeRes s.cyc = none →
      c.relRes s.cyc = true → exec (.footprintFill core entry) s = .next (s.setCore core
        { c with siding := tabSet c.siding entry { e with retry := s.cyc - s.cyc % 8 + 8 } })) ∧
    (e.fill = none → bestEntry c.siding (s.wantsFill core) = some (entry, e) → e.retry ≤ s.cyc → c.freeRes s.cyc = some r →
      exec (.footprintFill core entry) s = .next (s.setCore core
        { c with siding := tabSet c.siding entry { e with fill := some r },
                 res := tabSet c.res r ⟨true, false, recFoot e.words, 64 * recFootLen e.words, [], none, []⟩ })) ∧
    (e.fill = some r → e.ready = false →
      (∀ bs u, s.footBytes core e = .ok bs → s.useLines (srcLines (bs.map s.srcHome)) = some u →
        ∃ t : State, exec (.footprintFill core entry) s = .next t ∧
        tabFind (t.core' core).siding entry = some { e with ready := true } ∧
        (∀ j, j < bs.length → Memory.read (tabGet resReset (t.core' core).res r).data j =
          ((bs[j]?).map (fun b => s.byteAt b.loc)).getD 0) ∧ ∀ x, t.byteAt x = s.byteAt x) ∧
      (∀ (x : AccFault) (l : Launch), s.footBytes core e = .error x → x.cause ≠ 6 → s.launch? e.launch = some l →
        s.l2Free = true → (s.deltasOf core e.launch).takes (recBucket e.words) →
        ∃ t : State, exec (.footprintFillFault core entry) s = .next t ∧ tabFind (t.core' core).siding entry = none ∧
          tabGet resReset (t.core' core).res r = { resReset with rel := some s.cyc } ∧ ∃ l', t.launch? e.launch = some l' ∧ l'.faults = l.faults + 1 ∧
            (l.faults = 0 → l'.cause = x.cause.setWidth 32)))) ∧
  (∀ (l : Launch) (s : State), s.launch? s.subj = some l → s.stuck l = true → (∀ c, l.yard.withhold = some c → c ≤ s.cyc) →
    (s.reliefApplies l = true → ∃ t : State, exec .floorRelief s = .next t ∧ t.launch? s.subj = some
      { l with yard := { l.yard with reliefDue := true, withhold := some (s.cyc + 1024) } }) ∧
    (s.reliefApplies l = false → ∃ (t : State) (l' : Launch), exec .allAsleepTrap s = .next t ∧ t.launch? s.subj = some l' ∧
      l'.abort = some 3 ∧ l.faults + 1 ≤ l'.faults ∧ (l.faults = 0 → l'.cause = 0x18 ∧ l'.loc = 0xFFFFFFFF)))

-- the Mordant

/-- A handle names a block of a launch's arena (R197). -/
def Sys2Proof.Machine.State.names (s : State) (l : Launch) (h : Word) : Prop :=
  let u := (h.extractLsb' 1 32).toNat
  let nu := (l.h 6).toNat / 64
  let entry : BitVec 32 := BitVec.ofNat 32 (s.vRead l ((l.h 5).toNat + 64 + 4 * u) 4)
  h.getLsbD 0 = true ∧ h.extractLsb' 33 15 = 0 ∧ (64 + 4 * nu + 63) / 64 ≤ u ∧ u < nu ∧ entry.getLsbD 0 = true ∧
  entry.extractLsb' 16 16 = h.extractLsb' 48 16

/-- What a SPEC of a handle or a routine address starts from (R184): the routine, the bound mask, the values known at the start. -/
def Sys2Proof.Machine.StartsFrom (s : State) (l : Launch) (h : Word) (hd : RHeader) (routine : Word) (b : BitVec 16)
    (val : Nat → Option Word) : Prop :=
  let va := (l.h 5).toNat + 64 * (h.extractLsb' 1 32).toNat
  let old : BitVec 16 := BitVec.ofNat 16 (s.vRead l (va + 16) 2)
  let own (k : Nat) : Word := s.me.gr (BitVec.ofNat 4 (k + 1))
  (h.getLsbD 0 = false ∧ routine = h ∧ b = hd.early &&& ~~~hd.stage2 ∧
    ∀ k, k < 10 → val k = if b.getLsbD k then some (own k) else none) ∨
  (s.names l h ∧ routine = BitVec.ofNat 64 (s.vRead l (va + 8) 8) ∧ b = hd.early ∧
    ∀ k, k < 10 → val k = if b.getLsbD k then
      some (if old.getLsbD k then BitVec.ofNat 64 (s.vRead l (va + 24 + 8 * k) 8) else own k) else none)

/-- The Mordant takes the SPEC of the thread up now, as request r (R192). -/
def Sys2Proof.Machine.State.TakesUp (s : State) (r : SpecRun) : Prop :=
  let q := s.me.spec.getD ⟨s.cyc, none, false, none, none⟩
  r = { q with began := some s.cyc } ∧ s.mordantTurn s.cur q = true ∧ s.l2Free = true

/-- The thread holds a request at its Mordant. -/
def Sys2Proof.Machine.State.asked (s : State) (r : SpecRun) : State := s.updMe fun y => { y with spec := some r }

/-- A SPEC fails `cost` cycles on: at once, or when the thread has been out of the rotation, and the Mordant busy, for them
(R192). -/
def Sys2Proof.Machine.SpecFails (i : Instr) (s z : State) (r : SpecRun) (cause : BitVec 16) (tval : Word) (d : Option Word)
    (cost : Nat) : Prop :=
  let cl := clusterOf z.cur.pl
  (cost = 0 → exec i s = .next (z.raise z.cur ⟨cause, tval, 0xFF, none, d⟩)) ∧
  (0 < cost → exec i s = .next ((z.setCluster cl { z.cluster cl with mordantFree := z.cyc + cost }).updMe fun y =>
    { y with hold := .untilCyc (z.cyc + cost), spec := some { r with stop := some (cause, tval, d.getD noDetail) } }))

/-- The code w of a walk is placed (R195, R196, R199, R453): in the first run of free units that is long enough, with the handle
in d, the thread out of the rotation and the Mordant busy until the walk's cycles are over; with no such run, once more when the
releases that are pending are made, and then with the arena's fault. -/
def Sys2Proof.Machine.SpecPlaces (d : BitVec 4) (i : Instr) (s z : State) (n : Nat) (l : Launch) (r : SpecRun) (w : Residual) : Prop :=
  let ends := r.began.getD z.cyc + w.cycles
  (r.waits = true → l.pendFree ≠ [] → exec i s = .next (z.updMe fun y => { y with hold := .held })) ∧
  (r.waits = false ∨ l.pendFree = [] →
    let need := (128 + 8 * w.out.length + 63) / 64
    let m0 := (64 + 4 * l.units + 63) / 64
    (z.firstFit l need (l.units - m0) m0 0 = none →
      (l.pendFree = [] → SpecFails i s z r 0x11 0xFFFFFFFF00000103 none (ends - z.cyc)) ∧
      (l.pendFree ≠ [] → exec i s = .next (z.updMe fun y => { y with spec := some { r with waits := true }, hold := .held }))) ∧
    (∀ u, z.firstFit l need (l.units - m0) m0 0 = some u →
      let blk := z.writeBlock l u need (w.code ((l.h 5).toNat + 64 * u + 128)) w.routine w.bound w.vals
      let t := (blk.1.wrote 1 (gf d) (BitVec.ofNat 64 (z.vRead l (l.h 5).toNat 2 * 2 ^ 48 + u * 2 + 1))).ended
      let till := Nat.max z.cyc ends
      exec i s = .next ((t.setCluster (n / 4) { t.cluster (n / 4) with mordantFree := till }).updMe fun y =>
        { y with hold := .untilCyc till })))

/-- R183, R184, R192, R195, R196, R197, R199, R366, R367, R368, R452: the Mordant. A walk keeps its bounds and emits no word with
an early mark; a block takes the first run of free units that is long enough; SPEC waits for its turn at the Mordant, writes the
block and its handle and waits for the cycles of the walk, or raises the walk's fault after its cycles and allocates nothing; SCALL goes to the code of the block that its handle
names; SKEEP and SFREE count references, and the last SFREE makes every handle stale; a stale handle raises its fault.
The model's own choices here: DESIGN CHOICE, log 16; DEDUCED, log 23, 45. -/
def Obligations.MordantResults : Prop :=
  (∀ (e : WEnv) (routine : Word) (g : List (Option Word)) (x : Walker), WEnv.run e routine g = .ok x →
    x.out.length ≤ 4096 ∧ x.steps ≤ 65536 ∧ x.forks ≤ 64 ∧ ∀ w ∈ x.out, w.extractLsb' 47 4 = 0) ∧
  (∀ (s : State) (l : Launch) (need n u : Nat), 0 < need →
    let run (v : Nat) : Prop := u ≤ v ∧ v + need ≤ u + n ∧ ∀ k, k < need → s.unitFree l (v + k) = true
    (∀ v, s.firstFit l need n u 0 = some v → run v ∧ ∀ w, run w → v ≤ w) ∧
    (s.firstFit l need n u 0 = none → ∀ v, ¬run v)) ∧
  (∀ (d a : BitVec 4) (n : Nat) (l : Launch) (s s1 s2 : State) (hd : RHeader) (routine : Word) (b : BitVec 16)
      (val : Nat → Option Word) (v : Nat), s.cur.pl = .core n → Ready [.dst (gf d), .src (gf a)] s s1 →
    let h := s1.me.gr a
    (∀ e, s1.me.spec.bind (fun q => q.stop) = some e →
      exec (.spec d a) s = .next (s1.raise s1.cur ⟨e.1, e.2.1, 0xFF, none, some e.2.2⟩)) ∧
    (s1.me.spec.bind (fun q => q.stop) = none → s1.launch? s1.me.launch = some l →
      (∀ r w, s1.me.spec = some r → r.walk = some w →
        (s1.l2Free = false → exec (.spec d a) s = .next (s1.updMe fun y => { y with hold := .held })) ∧
        (s1.l2Free = true → SpecPlaces d (.spec d a) s s1 n l r w)) ∧
      (s1.me.spec.bind (fun q => q.walk) = none → ∀ r, s1.TakesUp r →
        (h.getLsbD 0 = true → ¬s1.names l h → exec (.spec d a) s = .next ((s1.asked r).trapped 0x10 h)) ∧
        (h.getLsbD 0 = false → h.extractLsb' 0 4 ≠ 0 →
          exec (.spec d a) s = .next ((s1.asked r).trapped 0x11 0xFFFFFFFF00000101))) ∧
      (s1.me.spec.bind (fun q => q.walk) = none →
        StartsFrom s1 l h hd routine b val → routine.extractLsb' 0 4 = 0 → WEnv.read ⟨s1, s1.cur, hd⟩ routine 16 0xFFFFFFFF = .ok v →
        parseHeader (BitVec.ofNat 128 v) = some hd → Ready (boundUses b) s1 s2 →
        let known : List (Option Word) := (List.range 11).map (fun k => if k = 0 then none else val (k - 1))
        let walk := WEnv.run ⟨s2, s2.cur, hd⟩ routine known
        let first : SpecRun := s2.me.spec.getD ⟨s2.cyc, none, false, none, none⟩
        ((s2.mordantTurn s2.cur first && s2.l2Free) = false →
          exec (.spec d a) s = .next ((s2.asked first).updMe fun y => { y with hold := .held })) ∧
        (∀ r, s2.TakesUp r →
          let used (x : Walker) : State := ((s2.asked r).useLines x.used).getD (s2.asked r)
          (∀ e x, walk = .error (e, x) → SpecFails (.spec d a) s (used x) r e.cause e.tval e.detail (x.cycles + x.stepCost)) ∧
          (∀ x, walk = .ok x →
            let w : Residual := ⟨routine, b, (List.range 9).map (fun k => (val k).getD 0), x.out, x.relocs, x.cycles⟩
            let r' : SpecRun := { r with walk := some w }
            SpecPlaces d (.spec d a) s ((used x).asked r') n l r' w))))) ∧
  (∀ (a : BitVec 4) (n : Nat) (l : Launch) (s s1 : State), s.cur.pl = .core n → s1.launch? s1.me.launch = some l →
    let h := s1.me.gr a
    let u := (h.extractLsb' 1 32).toNat
    let va := (l.h 5).toNat + 64 * u
    let c := s1.vRead l va 4
    let z := s1.handleUse l h
    s1.l2Free = true →
    (Ready [.dst (gf 10), .src (gf a)] s s1 →
      (s1.names l h → exec (.scall a) s =
        .next ((z.wrote 1 (gf 10) (z.me.pc + 8)).wentTo (BitVec.ofNat 64 (va + 128)))) ∧
      (¬s1.names l h → exec (.scall a) s = .next (z.trapped 0x10 h))) ∧
    (Ready [.src (gf a)] s s1 →
      (¬s1.names l h ∨ c = 0 → ∀ i ∈ [Instr.skeep a, .sfree a], exec i s = .next (s1.trapped 0x10 h)) ∧
      (s1.names l h → c = 0xFFFFFFFF → exec (.skeep a) s = .next (s1.trapped 0x12 h)) ∧
      (s1.names l h → 0 < c → c < 0xFFFFFFFF → exec (.skeep a) s = .next (s1.arenaWrite l va 4 (c + 1)).ended) ∧
      (s1.names l h → 1 < c → exec (.sfree a) s = .next (s1.arenaWrite l va 4 (c - 1)).ended) ∧
      (s1.names l h → c = 1 →
        let us := (List.range (s1.vRead l (va + 18) 2)).map (fun k => u + k)
        exec (.sfree a) s = .next ((us.foldl (fun t k => t.arenaWrite l ((l.h 5).toNat + 64 + 4 * k) 4 0)
          (s1.arenaWrite l va 4 0)).setLaunch { l with pendFree := l.pendFree ++ us }).ended))) ∧
  (∀ (n u : Nat) (l : Launch) (s : State) (pte : Word) (sh : Nat), s.launch? n = some l → u ∈ l.pendFree →
    let va : Word := BitVec.ofNat 64 ((l.h 5).toNat + 64 * u)
    regionOf ((l.h 5).toNat + 64 * u) = .virt → s.xlate 0 l.root va = .leaf pte sh → pteHost pte = false →
    ∃ t : State, exec (.residualUnitsFreed n u) s = .next t ∧
      t.launch? n = some { l with pendFree := l.pendFree.filter (fun k => k != u) } ∧
      (∀ c ∈ t.clusters, ∀ e ∈ c.2.icache, e.1 ≠ pteAddr pte sh va / 128) ∧
      (∀ c ∈ t.sliceIcache, ∀ e ∈ c.2, e.1 ≠ pteAddr pte sh va / 128) ∧ (∀ x, t.byteAt x = s.byteAt x))

-- the life of a thread

/-- What a task's thread starts with (R38), but for its vector registers and what the slot keeps. -/
def Sys2Proof.Machine.Slot.startsAs (x : Slot) (l : Launch) (core : Nat) (r : List Word) (fs ss : Word) : Prop :=
  x.busy = true ∧ x.launch = l.num ∧ x.mode = .user ∧ x.pc = recW r 0 ∧ x.wid = recW r 2 ∧ x.pw = 1 ∧
  (∀ k (h : k < 16), x.g[k] = if 1 ≤ k ∧ k ≤ 4 then recW r k else 0) ∧ x.fshadow = fs &&& 0xBFFFF ∧ x.sshadow = ss &&& 0xFFFFFFFF ∧ x.utvec = l.h 12 ∧
  x.status = (if l.h 12 = 0 then 0 else 0x100) ∧ x.ix = 0 ∧ x.uivec = 0 ∧ x.mgeo = 0 ∧ x.handler = .none ∧ x.wake = false ∧
  x.tcause = 0x000000FF00000000 ∧ x.tval = 0 ∧ x.tpc = 0 ∧ x.tseq = 0 ∧ x.bucket = BitVec.ofNat 32 (recBucket r) ∧
  x.placement = BitVec.ofNat 12 core ∧ x.origin = BitVec.ofNat 12 core ∧ x.nalloc = l.vecs ∧
  (∀ k (h : k < 32), x.f[k] = 0) ∧ (∀ k (h : k < 2), x.member[k] = 0) ∧ (∀ k (h : k < 4), x.streams[k] = none) ∧ x.pend = [] ∧
  x.asleep = none ∧ x.hold = .none

/-- The thread as a record shows it: reserved bits read zero, a late fault that awaits delivery stands in the trap registers, and
what only a user interrupt's handler holds is zero without one (R3, R417, R422). -/
def Sys2Proof.Machine.Slot.shown (x : Slot) : Slot :=
  let y := x.recorded
  { y with
    fshadow := y.fshadow &&& 0xBFFFF, sshadow := y.sshadow &&& 0xFFFFFFFF, status := y.status &&& 0x1FF,
    utvec := y.utvec &&& 0xFFFFFFFFFFFFFFF8, uivec := y.uivec &&& 0xFFFFFFFFFFFFFFF8, tcause := y.tcause &&& 0x0000FFFF8000FFFF,
    tseq := y.tseq &&& 0x1FFFF,
    savedG := if y.handler = .interrupt then y.savedG else Vector.replicate 5 0,
    savedPw := if y.handler = .interrupt then y.savedPw else 0, savedPc := if y.handler = .interrupt then y.savedPc else 0 }

/-- What a record gives back of the thread it was written from (R417). -/
def Sys2Proof.Machine.Slot.sameAs (x y : Slot) : Prop :=
  y.pc = x.pc ∧ y.wid = x.wid ∧ y.fshadow = x.fshadow ∧ y.sshadow = x.sshadow ∧ y.status = x.status ∧ y.utvec = x.utvec ∧
  (∀ k (h : k < 16), 1 ≤ k → y.g[k] = x.g[k]) ∧ y.member = x.member ∧ y.origin = x.origin ∧ y.placement = x.placement ∧
  y.bucket = x.bucket ∧ y.ix = x.ix ∧ y.mgeo = x.mgeo ∧ y.uivec = x.uivec ∧ y.tcause = x.tcause ∧ y.tval = x.tval ∧ y.tpc = x.tpc ∧
  y.tseq = x.tseq ∧ y.handler = x.handler ∧ y.savedG = x.savedG ∧ y.savedPw = x.savedPw ∧ y.savedPc = x.savedPc ∧
  y.nalloc = x.nalloc ∧ y.wake = x.wake ∧ y.ring = x.ring ∧ y.dseq = x.dseq ∧ (∀ k (h : k < 32), k < x.nalloc → y.f[k] = x.f[k])

/-- R37, R38, R47, R50, R51, R52, R57, R59, R74, R231, R237, R238, R239, R242, R243, R407, R414, R417, R421: how a thread starts,
moves, waits and ends. EXIT queues its departs, then ends it and counts its task out; a departing packet carries it; a free slot takes a context before a
task; a popped task starts as R38 says; CTXSAVE and CTXLOAD move it to and from a record that gives back what it held; CFGBANK
gives banks their modes, and a bank that changes reads as zero.
The model's own choices here: DESIGN CHOICE, log 4, 13, 16, 64; DEDUCED, log 40, 46, 62. -/
def Obligations.ThreadLifeResults : Prop :=
  -- the end of a thread
  (∀ (s : State) (n : Nat), s.cur.pl = .core n → s.exitReady s.cur = true → s.me.stage ≠ 8 →
    (∃ w ∈ s.me.member.toList, w.getLsbD 16 = true) → ∃ t : State, exec .exit s = .next t ∧ t.me = { s.me with stage := 8, hold := .held }) ∧
  (∀ (s : State) (n : Nat), s.cur.pl = .core n → s.exitReady s.cur = true →
    s.me.stage = 8 ∨ (∀ w ∈ s.me.member.toList, w.getLsbD 16 = false) → s.departsOut n s.cur.k = false →
    (s.deltasOf n s.me.launch).takes s.me.bucket.toNat →
    ∃ t : State, exec .exit s = .next t ∧ Buffers s t n s.me.launch s.me.bucket.toNat (-1) 0 1 ∧
      t.slotAt s.cur = { slotReset with
        budget := s.me.budget, tags := s.me.tags, lastIssue := s.me.lastIssue, lastSeq := s.me.lastSeq, eps := s.me.eps.map Endpoint.left } ∧
      (∀ a ∈ (t.core' n).acc.toList, a.owner ≠ some s.cur.k) ∧
      (∀ e ∈ (t.core' n).qlo ++ (t.core' n).qhi, e.slot ≠ s.cur.k) ∧
      (∀ r, s.me.foot = some r → tabGet resReset (t.core' s.me.placement.toNat).res r = { resReset with rel := some s.cyc })) ∧
  (∀ (s : State) (n : Nat), s.cur.pl = .slice n → s.exitReady s.cur = true →
    ∃ t : State, exec .exit s = .next t ∧ (t.slotAt s.cur).busy = false ∧ t.flights = s.flights ++ [⟨s.nextId, s.me.launch, s.cur.pl,
      .core s.me.origin.toNat, none, .exit s.me.origin.toNat s.me.bucket s.me.placement s.me.member s.me.foot, [], s.cyc + Config.latency s.nextId⟩]) ∧
  (∀ (s : State) (f : Flight) (n : Nat) (b : BitVec 32) (p : BitVec 12) (m : Vector Word 2) (foot : Option Nat),
    s.flight? s.subj = some f → f.body = .exit n b p m foot → s.first f = true → (s.deltasOf n f.launch).takes b.toNat →
    ∃ t : State, exec .exitPacketArrival s = .next t ∧ Buffers s t n f.launch b.toNat (-1) 0 1 ∧
      (∃ w, t.flights = s.flights.filter (fun g => g.id != f.id) ++ w) ∧
      (∀ r, foot = some r → tabGet resReset (t.core' p.toNat).res r = { resReset with rel := some s.cyc })) ∧
  -- banks
  (∀ (s : State) (n : Nat) (m : BitVec 10), s.cur.pl = .core n →
    let c := s.core' n
    (c.bankLaunch ≠ some s.me.launch → exec (.cfgbank m) s = .next (s.trapped 0x8 s.word)) ∧
    (c.bankLaunch = some s.me.launch → c.cfg ≠ none → exec (.cfgbank m) s = .next s) ∧
    (c.bankLaunch = some s.me.launch → c.cfg = none → ∃ (t : State) (g : Cfg), exec (.cfgbank m) s = .next t ∧
      (t.core' n).cfg = some g ∧ g.slot = s.cur.k ∧ t.me = { s.me with hold := .held } ∧ (t.core' n).banks = c.banks ∧
      ∀ b : Fin 5, let v := (m.extractLsb' (2 * b.val) 2).toNat
        let new := if v = 0 then some BankMode.cache else if v = 1 then some .scratch else if v = 2 then some .fifo else none
        g.modes[b] = if new = some c.banks[b] then none else new)) ∧
  (∀ (s : State) (g : Cfg), (s.core' s.subj).cfg = some g → (s.core' s.subj).cfgReady g = true →
    ∃ t : State, exec .cfgbankComplete s = .next t ∧ (t.core' s.subj).cfg = none ∧
      (∀ b : Fin 5, (t.core' s.subj).banks[b] = (g.modes[b]).getD (s.core' s.subj).banks[b]) ∧
      (∀ (b : Fin 5) (o : Nat), bankLo b.val ≤ o → o < bankLo (b.val + 1) → t.byteAt (.ls s.subj o) =
        if g.modes[b].isSome then 0 else s.byteAt (.ls s.subj o)) ∧
      (∀ o, o < bankLo 0 ∨ bankLo 5 ≤ o → t.byteAt (.ls s.subj o) = s.byteAt (.ls s.subj o)) ∧
      t.slotAt ⟨.core s.subj, g.slot⟩ = (s.slotAt ⟨.core s.subj, g.slot⟩).advance) ∧
  -- contexts
  (∀ (c old : Saved) (core : Nat) (kind : Word), c.sl.nalloc ≤ 32 → (recordWords c core kind).length = 1024 ∧
    c.sl.shown.sameAs (parseRecord (fun n => (recordWords c core kind).getD n 0) old).sl ∧
    (parseRecord (fun n => (recordWords c core kind).getD n 0) old).from' = c.from' % 8) ∧
  (∀ (o : DA) (n : Nat) (s s1 s2 : State) (v : Word), s.cur.pl = .core n → s.me.mode = .supervisor →
    Ready [.dst o.d, .src o.a] s s1 → Reads o.a s1 v s2 →
    let i : Sid := ⟨.core n, (v.setWidth 3).toNat⟩
    let x := s1.slotAt i
    let va := s1.recordAddr (.core n) (s1.slotAt ⟨.core n, (v.setWidth 3).toNat⟩).launch
    (i.k = s1.cur.k → exec (.ctxsave o) s = .next (s1.trapped 0x1 s1.word)) ∧
    (i.k ≠ s1.cur.k → x.busy = false → exec (.ctxsave o) s = .next (s2.wrote 4 o.d 0).ended) ∧
    (i.k ≠ s1.cur.k → x.busy = true → s1.vacateReady i = true → ∀ s3, Reads o.a (s1.setSlot i { x with stopped := true }) v s3 →
      ∃ (t : State) (r : Saved), exec (.ctxsave o) s = .next (t.wrote 4 o.d (BitVec.ofNat 64 va)).ended ∧
        (t.slotAt i).busy = false ∧ tabFind (t.core' n).recs va = some r ∧ x.sameAs r.sl ∧ r.from' = i.k)) ∧
  (∀ (a b : Fld) (n : Nat) (s s1 s2 s3 : State) (va kw : Word), s.cur.pl = .core n → s.me.mode = .supervisor →
    Ready [.src a, .src b] s s1 → Reads a s1 va s2 → Reads b s2 kw s3 →
    let c := s3.core' n
    let w (k : Nat) : Word := s3.rootRead (n / 4) (s3.rootOf s3.cur) (va.toNat + 8 * k)
    let r := parseRecord w ((tabFind c.recs va.toNat).getD ⟨slotReset, 0, none, [], [], va.toNat⟩)
    let good : Prop := (w 0).extractLsb' 0 32 = 0x7C0AC7E8 ∧ ((w 0).extractLsb' 32 12).toNat = n
    let i : Sid := ⟨.core n, (kw.setWidth 3).toNat⟩
    let t := s3.setCore n { c with recs := tabDel c.recs va.toNat }
    let may : Prop := (s3.slotAt i).busy = false ∧ (s3.slotAt i).gen = none ∧ (∀ e ∈ r.sl.eps.toList, e.opened = false) ∧
      (Ctx.saved r).fits c i.k = true
    (¬good → exec (.ctxload a b) s = .next (s1.trapped 0x4 va)) ∧
    (good → may → exec (.ctxload a b) s = .next (t.reinstate i r).ended) ∧
    (good → ¬may → exec (.ctxload a b) s =
      .next (s3.rqPush s3.cur.pl (.saved r)).ended)) ∧
  -- a free slot
  (∀ (pl : Place) (k : Nat) (s : State) (c : Ctx),
    let i : Sid := ⟨pl, k⟩
    (s.slotAt i).busy = false → (s.slotAt i).gen = none → s.cyc % 8 = k → (s.at' pl).rq.find? (fun c => c.fits (s.at' pl) k) = some c →
    let u := s.rqTake pl c
    (∀ r, c = .saved r → exec (.runQueueTake pl k) s = .next (u.reinstate i r)) ∧
    (∀ p, c = .arrived p → ∃ t : State, exec (.runQueueTake pl k) s = .next t ∧ (t.at' pl).rq = (s.at' pl).rq.erase c ∧
      let x := t.slotAt i
      x.busy = true ∧ x.launch = p.launch ∧ x.mode = p.mode ∧ x.pc = p.pc ∧ x.pw = p.pw ∧ x.wid = p.wid ∧ x.status = p.status ∧
      x.fshadow = p.fshadow ∧ x.sshadow = p.sshadow ∧ x.utvec = p.utvec ∧ x.member = p.member ∧ x.origin = p.origin ∧
      x.placement = p.placement ∧ x.bucket = p.bucket ∧ (∀ j (h : j < 11), x.g[j] = p.g[j]) ∧ x.ix = 0 ∧ x.uivec = 0 ∧
      x.handler = .none ∧ x.wake = false ∧ x.pend = [] ∧ x.hold = .none ∧ x.asleep = none ∧ x.foot = p.foot ∧
      x.lastIssue = some s.cyc)) ∧
  (∀ (core slot k : Nat) (s : State) (l : Launch) (e : SidEnt),
    let i : Sid := ⟨.core core, slot⟩
    let c := s.core' core
    let may (e : SidEnt) : Prop := s.eligible core e = true ∧ ∃ l, s.launch? e.launch = some l ∧
      (∃ o, c.owners.toList[slot]? = some o ∧ o.extractLsb' 24 8 = BitVec.ofNat 8 l.queue ∧ l.queue < 256 ∧ o.getLsbD 32 = true) ∧
      l.abort = none
    (s.slotAt i).busy = false → (s.slotAt i).gen = none → s.cyc % 8 = slot → (∀ x ∈ c.rq, x.fits c slot = false) →
    (k, e) ∈ c.siding → may e → (∀ p ∈ c.siding, may p.2 → p = (k, e) ∨
      recBucket e.words < recBucket p.2.words ∨ (recBucket e.words = recBucket p.2.words ∧ e.order < p.2.order)) →
    s.launch? e.launch = some l → recGen e.words = false → recW e.words 6 = 0 → (recW e.words 0).getLsbD 0 = false →
    ∃ t : State, exec (.taskPop core slot) s = .next t ∧ (t.slotAt i).startsAs l core e.words (l.h 10) (l.h 11) ∧
      (t.slotAt i).lastIssue = some s.cyc ∧
      tabFind (t.core' core).siding k = none ∧ tabGet 0 (t.core' core).sgen k = tabGet 0 c.sgen k + 1 ∧
      (∀ j, j ≠ slot → t.slotAt ⟨.core core, j⟩ = s.slotAt ⟨.core core, j⟩) ∧ (∀ x, t.byteAt x = s.byteAt x)) ∧
  (∀ (n g : Nat) (s : State) (l : Launch), s.launch? n = some l → s.cyc % 8 = 0 →
    let waits (x : Slot) : Bool := x.busy && x.launch == n && x.gatherWait && l.clusterGroup x.wid == g
    let count := (s.cores.map (fun c => (c.2.slots.filter (fun e => waits e.2)).length)).sum
    0 < count → l.groupSize g ≤ count → s.groupQueued l g = false → ∃ t : State, exec (.gatherStartRelease n g) s = .next t ∧
      ∀ c k, let x := s.slotAt ⟨.core c, k⟩
        t.slotAt ⟨.core c, k⟩ = if waits x then { x with gatherWait := false } else x) ∧
  -- migration
  (∀ (pl dst : Place) (k : Nat) (past : Bool) (trap : Option CarriedTrap) (s : State),
    let i : Sid := ⟨pl, k⟩
    let x := s.slotAt i
    x.hold = .depart dst past trap → x.busy = true →
    (x.relDone = false → (s.at' pl).l1Busy = false → ∃ t : State, exec (.migrationDeparture pl k) s = .next t ∧
      t.slotAt i = { x with relDone := true }) ∧
    (x.relDone = true → s.departReady i = true → ∃ (t : State) (p : Packet) (w : List Flight),
      exec (.migrationDeparture pl k) s = .next t ∧ (t.slotAt i).busy = false ∧
      t.flights = s.flights ++ ⟨s.nextId, x.launch, pl, dst, none, .migrate p, [], s.cyc + Config.latency s.nextId⟩ :: w ∧ p.foot = x.foot ∧
      p.launch = x.launch ∧ p.g = x.g ∧ p.pw = x.pw ∧
      p.pc = (if past then x.pc + 8 else x.pc) ∧ p.wid = x.wid ∧ p.fshadow = x.fshadow ∧ p.sshadow = x.sshadow ∧
      p.status = x.status ∧ p.utvec = x.utvec ∧ p.member = x.member ∧ p.placement = x.placement ∧ p.bucket = x.bucket ∧
      p.mode = x.mode ∧ p.trap = trap ∧ (∀ n, pl = .core n → p.origin = BitVec.ofNat 12 n) ∧
      (∀ n, pl = .slice n → p.origin = x.origin))) ∧
  (∀ (s : State) (f : Flight) (p : Packet) (l : Launch), s.flight? s.subj = some f → f.body = .migrate p →
    s.first f = true → s.l2Free = true → s.launch? p.launch = some l → l.abort = none →
    ∃ t : State, exec .migrationArrival s = .next t ∧ (t.at' f.dst).rq = (s.at' f.dst).rq ++ [.arrived p] ∧
      t.flights = s.flights.filter (fun g => g.id != f.id) ∧
      ((s.at' f.dst).rq.length < 64 → ∀ x, t.byteAt x = s.byteAt x)) ∧
  (∀ (s u : State) (cl : Nat) (w : Walk),
    s.clusters.findSome? (fun e => ((e.2.walks.take 8).find? (fun w => w.id == s.subj)).map (fun w => (e.1, w))) = some (cl, w) →
    s.useLines ((walkLines s w.root (BitVec.ofNat 64 (w.page * 65536))).map (fun l => (s.frameHome (l * 128), l, false))) = some u →
    let c := (u.cluster cl).endWalk w.id
    (∀ pte sh, walk s w.root (BitVec.ofNat 64 (w.page * 65536)) = .leaf pte sh → exec .tlbWalkComplete s =
      .next (u.setCluster cl { c with tlb := tlbAdd c.tlb ⟨w.asid, w.page * 65536 / 2 ^ sh, sh, pte⟩ })) ∧
    (∀ lvl kind, walk s w.root (BitVec.ofNat 64 (w.page * 65536)) = .fail lvl kind → ∃ t : State,
      exec .tlbWalkComplete s = .next t ∧ t.cluster cl = c ∧
      (∀ i ∈ w.waiters, t.slotAt i = if (s.slotAt i).walkWait = some ⟨w.asid, w.page, none⟩
        then { s.slotAt i with walkWait := some ⟨w.asid, w.page, some (lvl, kind)⟩ } else s.slotAt i))) ∧
  -- waiting
  (∀ (pl : Place) (slot : Nat) (s : State),
    let i : Sid := ⟨pl, slot⟩
    let x := s.slotAt i
    (∀ z, x.asleep = some z → x.busy = true → z.since + 1024 ≤ s.cyc → (s.at' pl).rq ≠ [] → s.vacateReady i = true →
      (∀ l, s.launch? x.launch = some l → s.waitOver pl (some i) x l = false) →
      ∃ (t : State) (r : Saved), exec (.sleeperSwapOut pl slot) s = .next t ∧ (t.slotAt i).busy = false ∧
        (t.at' pl).rq = (s.at' pl).rq ++ [.saved r] ∧ x.sameAs r.sl ∧ r.from' = slot)) ∧
  (∀ (core slot : Nat) (s : State),
    let i : Sid := ⟨.core core, slot⟩
    let x := s.slotAt i
    (∀ o, (s.core' core).owners.toList[slot]? = some o → s.cyc % 8 = 0 → o.extractLsb' 24 8 ≠ o.extractLsb' 0 8 →
      let takes (t : State) : Prop := exec (.ownerChangeEffect core slot) s = .next t ∧
        ∃ p, (t.core' core).owners.toList[slot]? = some p ∧ p.extractLsb' 24 8 = o.extractLsb' 0 8 ∧
          p.extractLsb' 0 8 = o.extractLsb' 0 8 ∧ p.extractLsb' 32 2 = o.extractLsb' 32 2
      (x.busy = false → x.gen = none → ∃ t : State, takes t ∧ t.slotAt i = x) ∧
      (x.busy = true → o.getLsbD 33 = true → s.vacateReady i = true → ∃ (t : State) (r : Saved), takes t ∧
        (t.slotAt i).busy = false ∧ (t.core' core).rq = (s.core' core).rq ++ [.saved r] ∧ x.sameAs r.sl)) ∧
    (∀ lf, x.late = some lf → s.atTurn i = true → x.handler = .none → ∃ t : State,
      exec (.lateFaultDelivery core slot) s = .next t ∧
      let y := t.slotAt i
      y.late = none ∧ y.tval = lf.tval ∧ y.tpc = x.pc ∧ y.tcause.getLsbD 31 = true ∧ y.tcause.extractLsb' 0 16 = lf.cause ∧ y.lateRun = true) ∧
    (∀ c v d, s.atTurn i = true →
      (x.sliceTrap = some ⟨c, v, d, false⟩ → exec (.sliceCoreTrapReturn core slot) s =
        .next ((s.setSlot i { x with sliceTrap := none }).raise i ⟨c, v, 0xFF, none, some d⟩)) ∧
      (x.sliceTrap = some ⟨c, v, d, true⟩ → exec (.sliceCoreTrapReturn core slot) s =
        .next ((s.setSlot i { x with sliceTrap := none }).raiseLate i ⟨c, v, 0xFF, none, some d⟩)))) ∧
  (∀ (pl : Place) (k since till : Nat) (s : State),
    let i : Sid := ⟨pl, k⟩
    (s.slotAt i).asleep = some ⟨since, .sleep, some till⟩ → till ≤ s.cyc → s.atTurn i = true →
    exec (.sleepTimeout pl k) s = .next (s.setSlot i { (s.slotAt i).advance with timedOut := some s.cyc })) ∧
  (∀ (s : State) (f : Flight) (n k : Nat), s.flight? s.subj = some f → f.body = .wake n k → s.first f = true →
    let i : Sid := ⟨.core n, k⟩
    let x := s.slotAt i
    let u := s.dropFlight f.id
    let there : Prop := s.coreLive n = true ∧ x.busy = true ∧ x.launch = f.launch
    (¬there → exec .wakeArrival s = .next u) ∧
    (there → x.timedOut = some s.cyc → exec .wakeArrival s = .next u) ∧
    (there → x.timedOut ≠ some s.cyc →
      ((∃ z, x.asleep = some z ∧ z.kind = .sleep) → exec .wakeArrival s = .next (u.setSlot i x.advance)) ∧
      ((∀ z, x.asleep = some z → z.kind ≠ .sleep) → exec .wakeArrival s = .next (u.setSlot i { x with wake := true }))))

-- the host

/-- R83, R109, R141, R322, R386, R387, R388, R390, R391, R392, R393, R396, R398, R399, R401, R402, R461, R462: what the host asks of
the module. Enabled queues are served; packets are fetched below the tail, wait, signal, copy, open phases and launches, or stop
their queue with an error, and their end raises the completion counter; slots go to queues by their shares; a launch opens
with its first record and completes with its record; events go to the ring in order, are kept while it is not configured, and
are summed up when some were lost; the host reads and writes memory, and gives lines up. What reads or writes device memory for the host
waits while every way of a set is pinned (R75).
The model's own choices here: DESIGN CHOICE, log 4, 16, 35, 44, 63, 75; DEDUCED, log 15, 21, 24, 25, 50, 51, 52, 54, 60. -/
def Obligations.HostResults : Prop :=
  -- queues
  (∀ (n : Nat) (ws : List Word) (s : State), s.booted = true → n < 256 →
    let q := s.queueOf n
    let e := (List.range 6).map (recW ws) ++ [((recW ws 6).extractLsb' 32 32 ++ q.lastPhase : BitVec 64), recW ws 7]
    exec (.queueEnableWrite n ws) s = .next (s.setQueue n { q with
      ent := e, stopErr := q.stopErr && ((recW q.ent 1).getLsbD 40 || !((recW ws 1).getLsbD 40)) })) ∧
  (∀ s : State, s.booted = true → s.cyc % 1024 = 0 → (s.queues.map (fun e => e.1)).Nodup → ∃ t : State,
    exec .queueTableRead s = .next t ∧ ∀ n, (t.queueOf n) = { s.queueOf n with served := (recW (s.queueOf n).ent 1).getLsbD 40 } ∧
      ∀ k c, tabFind s.cores k = some c → (recW (s.queueOf n).ent 1).getLsbD 40 = true →
        tabFind (t.core' k).roots n = some (recW (s.queueOf n).ent 4 &&& 0x000FFFFFFFFF00FF)) ∧
  (∀ s : State, s.booted = true → s.cyc % 1024 = 0 → s.coreLive s.subj = true → (s.core' s.subj).shareAt ≠ s.cyc →
    let c := s.core' s.subj
    let of (n : Nat) (o : Word) : Bool := o.getLsbD 32 && (o.extractLsb' 0 8).toNat == n
    ∃ t : State, exec .shareRecompute s = .next t ∧
      (∀ n, n < 256 → ((t.core' s.subj).owners.toList.filter (of n)).length =
        (((s.shares s.subj).find? (fun e => e.1 == n)).map (fun e => e.2)).getD 0) ∧
      (∀ k : Fin 8, (t.core' s.subj).owners[k].extractLsb' 24 8 = c.owners[k].extractLsb' 24 8) ∧
      (s.zeroRefill = true → (t.core' s.subj).refill = 0) ∧ (t.core' s.subj).siding = c.siding ∧
      (c.shareAt = 0 → (t.core' s.subj).steal = s.stealFor s.subj)) ∧
  (∀ s : State, s.subj < 256 → s.tripped = false → s.l2Free = true →
    let q := s.queueOf s.subj
    let head := q.loc (recW q.ent 3).toNat
    let at' := q.loc ((recW q.ent 0).toNat + 64 * (q.ringHead % ((recW q.ent 1).extractLsb' 0 32).toNat))
    q.fetches = true → q.ringHead < s.locNat (q.loc (recW q.ent 2).toNat) 8 → (∀ p ∈ q.pkts, packetBad p.words = 0) →
    (s.hostHeld [head] ≠ [] → exec .tailMonitorWake s = .next (s.snoop (s.hostHeld [head]))) ∧
    (s.hostHeld [head] = [] → s.locPoison at' = false → ∃ t : State, exec .tailMonitorWake s = .next t ∧
      t.queueOf s.subj = { q with
        ringHead := q.ringHead + 1, pkts := q.pkts ++ [⟨q.ringHead, s.words64 at', false, false, none, []⟩] } ∧
      t.locNat head 8 = (q.ringHead + 1) % 2 ^ 64)) ∧
  -- packets
  (∀ (s u : State) (p : Pkt),
    let n := s.subj
    let q := s.queueOf n
    let started (k : Nat) : Prop := q.inProgress k = some p
    let at' (k : Nat) : Nat := (recW p.words k).toNat
    let reach (l : List (Nat × Nat)) : Prop := s.warmQueue n (l ++ counterRange p) = some u
    let held := u.counterHeld n p
    (s.l2Free = true → started 2 → reach [(at' 2, 8)] → ∀ b, u.queueWord n (at' 2) false = some b →
      (u.locNat b.loc 8 < at' 3 → exec .wait s = .next (u.setPkt n { p with started := true })) ∧
      (at' 3 ≤ u.locNat b.loc 8 → held ≠ [] → exec .wait s = .next (u.snoop held)) ∧
      (at' 3 ≤ u.locNat b.loc 8 → held = [] →
        exec .wait s = .next (((u.agentUse b 8).dropL1 (.core q.core) (fun _ => true)).finishPacket n p))) ∧
    (s.l2Free = true → started 5 → reach [(at' 2, 8)] → ∀ b, u.queueWord n (at' 2) true = some b → u.hostHeld [b.loc] ++ held = [] →
      exec .signal s = .next ((u.agentNat b 8 ((if recW p.words 4 = 1 then u.locNat b.loc 8 else 0) + at' 3)).finishPacket n p)) ∧
    (started 4 → reach [(at' 3, at' 4), (at' 2, at' 4)] → u.l2Free = true → ∀ (l : List (PByte × PByte)) (w : State),
      let t := { u with cur := ⟨.core q.core, 0⟩ }
      l.length = at' 4 →
      (∀ i x, l[i]? = some x → t.srcOf q.root (recW p.words 3 + BitVec.ofNat 64 i) = .ok x.1 ∧
        t.dstOf q.root (recW p.words 2 + BitVec.ofNat 64 i) = .ok x.2) →
      u.hostHeld (l.map (fun x => x.2.loc)) ++ held = [] →
      (u.useBytes (l.map (fun x => x.1))).bind (fun w => w.writeGroups (u.copyBytes l)) = some w →
      exec .copy s = .next ({ w with fresh := w.fresh + l.length }.finishPacket n p)) ∧
    (s.l2Free = true → started 3 →
      (pPhase p.words ≠ q.lastPhase → ∃ t : State, exec .phase s = .next t ∧ (t.queueOf s.subj).lastPhase = pPhase p.words ∧
        (∀ n ∈ q.cores, (t.core' n).l1 = []) ∧ (∀ c ∈ t.clusters, (∃ n ∈ q.cores, n / 4 = c.1) → c.2.icache = []) ∧
        t.sliceIcache = []) ∧
      (pPhase p.words = q.lastPhase → s.backsDone q.cores = true → reach [] → held = [] →
        exec .phase s = .next (u.finishPacket n p))) ∧
    (q.toStart.or (q.inProgress 2) = some p → s.warmQueue n [(at' 2, if pKind p.words = 1 then 128 else 8)] = some u →
      u.startError n p ≠ 0 → ∃ t : State, exec .packetError s = .next t ∧
      (t.queueOf n).stopErr = true ∧ (∀ a, t.byteAt a = s.byteAt a) ∧ t.ring.due = s.ring.due ++
        [([(s.queueLoc n ++ 0#16 ++ 0x0101#16 : BitVec 64), BitVec.ofNat 64 (u.startError n p + p.n % 2 ^ 56 * 256), 0, s.ns], some n)])) ∧
  -- which packet may start, and when its word cannot be reached
  (∀ (a b : Pkt) (l : List Pkt),
    (a.started = false → nextPkt (a :: l) = some a) ∧
    (a.started = true → b.started = false →
      (a.complete = true ∨ (pKind b.words = 1 ∧ pOverlap b.words = true) → nextPkt (a :: b :: l) = some b) ∧
      (a.complete = false → ¬(pKind b.words = 1 ∧ pOverlap b.words = true) → nextPkt (a :: b :: l) = none))) ∧
  (∀ (s : State) (n va : Nat) (b : PByte) (wr : Bool), s.queueByte n va = some b →
    (s.queueWord n va wr = none ↔ (wr = true ∧ pteRo b.pte = true) ∨ s.homeOf b = none ∨ s.locPoison b.loc = true)) ∧
  (∀ (s : State) (n : Nat) (p : Pkt),
    let d := s.setPkt n { p with started := true, complete := true }
    let msi := if (recW p.words 0).getLsbD 17 then s.msix ++ [((recW p.words 0).extractLsb' 24 8).toNat] else s.msix
    (recW p.words 1 = 0 → s.finishPacket n p = { d with msix := msi }) ∧
    (recW p.words 1 ≠ 0 → s.queueWord n (recW p.words 1).toNat true = none → s.finishPacket n p = s.packetError n p 5) ∧
    (recW p.words 1 ≠ 0 → ∀ b, s.queueWord n (recW p.words 1).toNat true = some b →
      (s.finishPacket n p).locNat b.loc 8 = (s.locNat b.loc 8 + 1) % 2 ^ 64 ∧ (s.finishPacket n p).queues = d.queues ∧
      (s.finishPacket n p).msix = msi)) ∧
  -- launches
  (∀ (n number rootCore : Nat) (rect : BitVec 20) (s u : State) (p : Pkt),
    let q := s.queueOf n
    let h := u.headerOf n p
    let cores := q.cores ++ u.placedOn { launchOf number n h with rect := rect } rootCore
    let left := cores.filter (fun c => !(p.dropped.contains c))
    q.toStart = some p → pKind p.words = 1 →
    s.warmQueue n ([((recW p.words 2).toNat, 128), ((recW p.words 4).toNat, 64)] ++ counterRange p) = some u →
    u.startError n p = 0 → n < 256 → u.l2Free = true →
    (pPhase p.words ≠ q.lastPhase → exec (.launch n number rootCore rect) s =
      .next (((u.phaseDrop cores).setPhase n (pPhase p.words)).setPkt n { p with dropped := cores })) ∧
    (pPhase p.words = q.lastPhase → p.dropped ≠ [] → left ≠ [] → exec (.launch n number rootCore rect) s =
      .next ((u.phaseDrop left).setPkt n { p with dropped := p.dropped ++ left })) ∧
    (pPhase p.words = q.lastPhase → p.dropped = [] ∨ left = [] → u.backsDone cores = true →
      let w := ((u.queueByte n (recW p.words 2).toNat).map (fun b => u.agentUse b 128)).getD u
      let l := { launchOf number n h with
        lid := recW p.words 3, rect := rect, root := q.root &&& 0x000FFFFFFFFF00FF, recAddr := recW p.words 4, pkt := p.n,
        pairId := recW p.words 5, peer := (recW p.words 6).setWidth 8 }
      (headerOk h = false → w.reportHeld l p = [] → recW p.words 1 = 0 →
        ∀ r, w.queueByte n (recW p.words 4).toNat = some r → pteRo r.pte = false → w.homeOf r ≠ none →
        ∃ t : State, exec (.launch n number rootCore rect) s = .next t ∧ t.locNat r.loc 8 = (recW p.words 3).toNat ∧
          t.locNat (locOff r.loc 8) 4 = 2 ∧ t.launches = s.launches) ∧
      (headerOk h = true →
        let k := { l with cores := w.placedOn l rootCore }
        let core := if k.isRoot then rootCore else w.coreFor k 0
        w.choicesOk q k rootCore = true → w.mustWait k k.cores = false → (w.core' core).freeEntry ≠ none →
        (w.deltasOf core number).takes 0 → ∃ t : State, exec (.launch n number rootCore rect) s = .next t ∧
          (∀ c ∈ k.cores, tabFind (t.core' c).roots n = some k.root ∧ (t.core' c).steal = w.stealFor c ∧
            (t.core' c).ctxArea = ctxPart (recW q.ent 5) (.core c)) ∧
          t.launch? number = some k ∧ (t.deltasOf core number).atBucket 0 = (w.deltasOf core number).atBucket 0 + 1 ∧
          (∃ j e, tabFind (t.core' core).siding j = some e ∧ e.launch = number ∧
            e.words = if k.isRoot then [k.h 0, k.h 1, 0, 0, 0, 0, 0, 0] else [k.h 0, k.h 1, 0, 0, 0, 0, 0, 0x0000000400000000]) ∧
          ∀ i, i < k.winCount → (t.car (k.winBase + i)).st = .empty))) ∧
  (∀ (s : State) (l : Launch), s.launch? s.subj = some l → s.mayComplete l = true → s.l2Free = true →
    let cores := (s.queueOf l.queue).cores
    (l.abort ≠ none → s.threadsOf l.num ≠ [] → exec .launchCompletion s = .next (s.killThreads l)) ∧
    (l.abort = none ∨ s.threadsOf l.num = [] →
      ∀ u : State, s.warmQueue l.queue ((l.recAddr.toNat, 64) ::
        ((s.queueOf l.queue).pkts.filter (fun p => p.n == l.pkt)).flatMap counterRange) = some u → u.mayComplete l = true →
      (l.wb = false → ∃ t : State, exec .launchCompletion s = .next t ∧ t.launch? s.subj = some { l with wb := true } ∧
        ∀ n ∈ cores, ∀ x ∈ (t.core' n).l1, x.dirty = 0) ∧
      (l.wb = true → u.backsDone cores = true → ∀ p r, (u.queueOf l.queue).pkts.find? (fun p => p.n == l.pkt) = some p →
        u.reportHeld l p = [] → recW p.words 1 = 0 → (u.flushCounts l).queueByte l.queue l.recAddr.toNat = some r →
        pteRo r.pte = false → (u.flushCounts l).homeOf r ≠ none →
        ∃ t : State, exec .launchCompletion s = .next t ∧ t.launch? s.subj = none ∧ t.locNat r.loc 8 = l.lid.toNat ∧
          t.locNat (locOff r.loc 8) 4 = (match l.abort with
            | some v => v.toNat
            | none => if l.faults = 0 then 0 else 1) ∧
          t.locNat (locOff r.loc 12) 4 = l.faults % 2 ^ 32 ∧ t.locNat (locOff r.loc 48) 4 = l.cause.toNat ∧
          t.locNat (locOff r.loc 52) 4 = (if l.faults = 0 then 0xFFFFFFFF else l.loc.toNat) ∧
          ∀ i, i < l.winCount → (t.car (l.winBase + i)).st = .empty))) ∧
  -- events
  (∀ (code : BitVec 16) (loc : BitVec 32) (detail id : Word) (queue : Option Nat) (s : State),
    let r := s.ring
    let words : List Word := [(loc ++ 0#16 ++ code : BitVec 64), detail, id, s.ns]
    let post (t : State) : Prop := s.enterEvent (words, queue) = t
    exec (.eventPost code loc detail id) s = .next { s with ring := { r with due := r.due ++ [(words, none)] } } ∧
    (r.configured = true → (r.tail - r.head).toNat < r.size.toNat → ∃ t : State, post t ∧ t.ring = { r with tail := r.tail + 1 } ∧
      let a := r.base.toNat + 32 * (r.tail.toNat % r.size.toNat)
      (∀ k, k < 4 → t.locNat (.host (a + 8 * k)) 8 = (recW words k).toNat) ∧
      (∀ x, (∀ j, j < 32 → x ≠ .host (a + j)) → t.byteAt x = s.byteAt x)) ∧
    (r.configured = false → r.store.length < 64 → post { s with ring := { r with store := r.store ++ [(words, queue)] } }) ∧
    (((r.configured = true ∧ r.size.toNat ≤ (r.tail - r.head).toNat) ∨ (r.configured = false ∧ 64 ≤ r.store.length)) →
      ∃ t : State, post t ∧ t.ring = { r with
        overflow := r.overflow + 1, lastLost := code, firstLost := if r.overflow = 0 then code else r.firstLost,
        lossDue := true } ∧
      ∀ n, t.queueOf n = if queue = some n then { s.queueOf n with stopRing := true } else s.queueOf n)) ∧
  (∀ (a b : List Word × Option Nat) (s : State), s.ring.due = [a, b] → s.ring.configured = false → s.ring.store.length + 2 ≤ 64 →
    s.enterEvents.ring.store = s.ring.store ++ (if eventCore a.1 ≤ eventCore b.1 then [a, b] else [b, a])) ∧
  (∀ (base : Word) (size : BitVec 32) (s : State), s.booted = true →
    let r := { s.ring with base := base, size := size }
    let new : Prop := r.configured = true ∧ s.ring.configured = false
    (¬new → exec (.eventRingConfigure base size) s = .next { s with ring := r }) ∧
    (new → s.ring.lossDue = false → s.ring.store.length + (r.tail - r.head).toNat ≤ size.toNat → ∃ t : State,
      exec (.eventRingConfigure base size) s = .next t ∧
      t.ring = { r with store := [], tail := r.tail + BitVec.ofNat 64 s.ring.store.length })) ∧
  (∀ (head : Word) (s : State), s.booted = true →
    let r := s.ring
    let due : Prop := r.configured = true ∧ r.lossDue = true ∧ head = r.tail
    (¬due → exec (.eventHeadAdvance head) s = .next { s with ring := { r with head := head } }) ∧
    (due → ∃ t : State, exec (.eventHeadAdvance head) s = .next t ∧
      t.ring = { r with head := head, tail := r.tail + 1, lossDue := false } ∧
      t.locNat (.host (r.base.toNat + 32 * (r.tail.toNat % r.size.toNat))) 2 = 0x0100 ∧
      ∀ n, n < 256 → (t.queueOf n).stopRing = false) ∧
    exec .overflowCountClear s = .next { s with ring := { r with overflow := 0 } }) ∧
  -- couplings
  (∀ (dev group : BitVec 8) (bytes : List Byte) (s : State), s.booted = true → (∀ l ∈ s.launches, l.finished = true) →
    exec (.couplingTableWrite dev group bytes) s = .next { s with devId := dev, groups := tabSet s.groups group.toNat bytes }) ∧
  (∀ (s : State) (l : Launch), s.launch? s.subj = some l → l.pairId ≠ 0 → l.peer.toNat ∉ s.lostCouplings → l.yard.done = false →
    ∃ t : State, exec .couplingStart s = .next t ∧ t.launch? s.subj = some { l with yard := { l.yard with coupled := true } }) ∧
  -- memory
  (∀ (pa n : Nat) (bytes : Option (List Byte)) (s : State),
    let len := (bytes.map List.length).getD n
    (s.booted = false → exec (.hostCxlMemAccess pa n bytes) s = .next { s with cxl := .error }) ∧
    (s.booted = true → s.dramBytes < pa + len → exec (.hostCxlMemAccess pa n bytes) s = .fault .noSuchAddress) ∧
    (pa + len ≤ s.dramBytes → s.booted = true → s.l2Free = false → exec (.hostCxlMemAccess pa n bytes) s = .next s) ∧
    (pa + len ≤ s.dramBytes → s.booted = true → s.l2Free = true → ∃ t : State, exec (.hostCxlMemAccess pa n bytes) s = .next t ∧
      (bytes = none → (∀ x, t.byteAt x = s.byteAt x) ∧ t.hostLines = s.hostLines ∧
        t.cxl = .data ((List.range n).map (fun i => (Memory.read s.mem (pa + i), s.poison.contains ((pa + i) / 128)))) ∧
        ∀ x, x ∈ t.snooped ↔ x ∈ s.snooped ∧ ∀ i, i < n → (pa + i) / 128 ≠ x) ∧
      (∀ l, bytes = some l → t.cxl = .data [] ∧ (∀ i, i < l.length → t.byteAt (.dev (pa + i)) = l.getD i 0) ∧
        ∀ x, (∀ i, i < l.length → x ≠ .dev (pa + i)) → t.byteAt x = s.byteAt x))) ∧
  (∀ s : State, (s.subj ∈ s.snoops → exec .hostSnoopResponse s = .next { s with
      snoops := s.snoops.filter (fun x => x != s.subj), snooped := s.snooped ++ [s.subj] }) ∧
    (∀ (l : List Loc) (x : Nat), x ∈ s.hostHeld l ↔ (∃ a, .dev a ∈ l ∧ a / 128 = x) ∧ x ∈ s.hostLines ∧ x ∉ s.snooped) ∧
    ∃ t : State, exec .hostCxlCacheSnoop s = .next t ∧ (∀ x, t.byteAt x = s.byteAt x) ∧
      ∀ e ∈ t.l2, ∀ l ∈ e.2, l.hostMem = true → l.line = s.subj → l.pins ≠ 0)

-- errors, heat, boot

/-- R18, R21, R385, R400, R463, R464, R465, R466, R467, R468, R469, R470: what goes wrong with the module, and how it starts. Correctable errors
are counted in windows; an uncorrectable one poisons its line, or reaches the thread that reads it; a unit retires once, and a
coupling lane leaves; a lost coupling uncouples its Yards; a failed ring beat empties its carriage and ends a floor carriage's
launch; the thermal trip stops fetching and refills until it clears; boot stops at its first failure; the unit map says which clusters, slices and channels are live; firmware never goes over the
image in use; an attestation answers by the boot's state. Core numbers and numbers that the rules do not state are free.
The model's own choices here: DESIGN CHOICE, log 4, 9, 10, 55, 56; DEDUCED, log 53, 55. -/
def Obligations.ErrorAndBootResults : Prop :=
  (∀ (u : Word) (s : State),
    let e := s.errOf u
    let counted := s.setErr u { e with inWindow := e.inWindow + 1 }
    (e.inWindow ≠ 15 → exec (.correctableError u) s = .next counted) ∧
    (e.inWindow = 15 → ∃ (c : BitVec 32) (t : State), t = { counted with fresh := s.fresh + 1 }.postEvent 0x0200 c u 0 none ∧
      (s.nearClusters u ≠ [] → ∃ cl ∈ s.nearClusters u, ∃ k, k < 4 ∧ c = BitVec.ofNat 32 (4 * cl + k)) ∧
      exec (.correctableError u) s = .next (if 2 ≤ e.windows then t.retire u else t)) ∧
    ((s.cyc % 2 ^ 30 ≠ 0 ∨ e.ended = s.cyc) → exec (.errorCountWindowEnd u) s = .next s) ∧
    (s.cyc % 2 ^ 30 = 0 → e.ended ≠ s.cyc → exec (.errorCountWindowEnd u) s = .next (s.setErr u { e with
      inWindow := 0, windows := if 16 ≤ e.inWindow then e.windows + 1 else 0, ended := s.cyc }))) ∧
  (∀ (u : Word) (s : State), let t := s.retire u
    ((s.errOf u).retired = true → t = s) ∧
    ((s.errOf u).retired = false → t.retireLog = s.retireLog ++ [(u, s.cyc)] ∧ (t.errOf u).retired = true ∧
      let c := (u.extractLsb' 0 16).toNat / 16
      (u.extractLsb' 56 8 = 4 → tabGet 0 t.deadLanes c = tabGet 0 s.deadLanes c ||| (1#16 <<< (u.toNat % 16))) ∧
      (u.extractLsb' 56 8 ≠ 4 → t.deadLanes = s.deadLanes))) ∧
  (∀ (u : Word) (pa : Nat) (s : State),
    let e := s.errOf u
    (pa / 128 ∈ s.poison → exec (.uncorrectableError (.line pa) u) s = .next s) ∧
    (pa / 128 ∉ s.poison → ∃ t : State, exec (.uncorrectableError (.line pa) u) s = .next t ∧ t.poison = s.poison ++ [pa / 128] ∧
      (t.errOf u).uncorr = e.uncorr + 1 ∧ ((t.errOf u).retired = true ↔ e.retired = true ∨ 1 ≤ e.uncorr) ∧
      ∀ a, t.byteAt (.dev a) = s.byteAt (.dev a))) ∧
  (∀ (u : Word) (p : Place) (k : Nat) (s : State),
    let x := s.slotAt ⟨p, k⟩
    (x.busy = true → x.late = none → x.lateRun = false → ∃ (t : State) (v : Word),
      exec (.uncorrectableError (.thread p k) u) s = .next t ∧
      (t.slotAt ⟨p, k⟩).late = some ⟨0x20, v, 0xFF, none, none⟩ ∧ (t.slotAt ⟨p, k⟩).asleep = none ∧
      ∀ d a b, (t.slotAt ⟨p, k⟩).hold ≠ .depart d a b)) ∧
  (∀ (u : Word) (pa k : Nat) (bad : Bool) (p : Place) (s : State),
    (∃ t : State, exec (.uncorrectableError (.hostLine pa bad) u) s = .next t ∧ { t with hostBad := s.hostBad } = s ∧
      ∀ x, x ∈ t.hostBad ↔ (x ≠ pa / 128 ∧ x ∈ s.hostBad) ∨ (x = pa / 128 ∧ bad = true)) ∧
    exec (.uncorrectableError (.icache p k) u) s =
      exec (.correctableError (unitOf p)) (s.setIcache p ((s.icacheOf p).eraseIdx k)) ∧
    exec (.uncorrectableError (.microTlb p k) u) s =
      exec (.correctableError (unitOf p)) (s.setAt p { s.at' p with utlb := (s.at' p).utlb.eraseIdx k }) ∧
    exec (.uncorrectableError (.clusterTlb pa k) u) s =
      exec (.correctableError (unitOf (.core (4 * pa)))) (s.setCluster pa { s.cluster pa with tlb := (s.cluster pa).tlb.eraseIdx k })) ∧
  (∀ s : State, s.subj < 2048 → passes s.cyc 0 s.subj = true → s.l2Free = true →
    ∃ t : State, exec .ringBeatError s = .next t ∧ (t.car s.subj).st = .empty ∧ (∀ c, c ≠ s.subj → t.car c = s.car c) ∧
      (∃ c : Nat, (s.liveClusters ≠ [] → c / 4 ∈ s.liveClusters) ∧
        (t.errOf (unitOf (.core c))).uncorr = (s.errOf (unitOf (.core c))).uncorr + 1) ∧
      ∀ l, s.launches.find? (fun l => !l.finished && decide (l.winBase ≤ s.subj) && decide (s.subj < l.winBase + l.winCount)) = some l →
        s.launch? l.num = some l → ∃ l', t.launch? l.num = some l' ∧ l.faults + 1 ≤ l'.faults ∧ (l.faults = 0 → l'.cause = 0x20) ∧
          l'.abort = if l.winBase = s.subj then some (l.abort.getD 1) else l.abort) ∧
  (∀ s : State, exec .patrolScrub s = .next s) ∧
  (∀ s : State,
    let k := s.subj / 256
    let d := s.subj % 256
    (8 ≤ k ∨ tabGet 0 s.deadLanes k ≠ 0xFFFF ∨ d ∈ s.lostCouplings → exec .couplingLost s = .next s) ∧
    (k < 8 → tabGet 0 s.deadLanes k = 0xFFFF → d ∉ s.lostCouplings → ∃ t : State, exec .couplingLost s = .next t ∧
      t.lostCouplings = s.lostCouplings ++ [d] ∧
      t.ring = (if k ∈ s.downCouplings then s else s.postEvent 0x0301 0 (BitVec.ofNat 64 k) 0 none).ring ∧
      (∀ j, j ∈ t.downCouplings ↔ j = k ∨ j ∈ s.downCouplings) ∧
      ∀ l ∈ t.launches, l.finished = false → l.peer.toNat = d → l.yard.coupled = false)) ∧
  (∀ (temp : Word) (s : State),
    (temp.toNat < 1050 → exec (.thermalTrip temp) s = .next s) ∧
    (s.tripped = true → 1050 ≤ temp.toNat → exec (.thermalTrip temp) s = .next { s with temp := temp.toNat }) ∧
    (s.tripped = false → 1050 ≤ temp.toNat → ∃ t : State, exec (.thermalTrip temp) s = .next t ∧ t.tripped = true ∧ t.temp = temp.toNat ∧
      (∀ e ∈ t.queues, e.2.stopHeat = true ∧ e.2.fetches = false) ∧ t.ring = (s.postEvent 0x0400 0 temp 0 none).ring) ∧
    (s.temp < 1150 → exec .thermalZeroRefill s = .next s) ∧
    (1150 ≤ s.temp → ∃ t : State, exec .thermalZeroRefill s = .next t ∧ t.zeroRefill = true ∧
      ∀ n c, tabFind s.cores n = some c → (t.core' n).refill = 0 ∧ ∀ k, k < 8 → (t.slotAt ⟨.core n, k⟩).budget = 0) ∧
    ((s.tripped = false ∨ 950 ≤ temp.toNat) → exec (.thermalTripClear temp) s = .next s) ∧
    (s.tripped = true → temp.toNat < 950 → ∃ t : State, exec (.thermalTripClear temp) s = .next t ∧ t.tripped = false ∧ t.temp = temp.toNat ∧
      t.zeroRefill = false ∧ (∀ e ∈ t.queues, e.2.stopHeat = false) ∧ t.ring = (s.postEvent 0x0401 0 temp 0 none).ring)) ∧
  (∀ (flash : Bool) (bc bs bch bl : List Nat) (s : State),
    let run := exec (.boot flash bc bs ⟨bch, bl⟩) s
    let image := if s.imageA.1 then 1 else if s.imageB.1 then 2 else 0
    let stops (im step err : Nat) : Prop := run = .next { s with
      bootStatus := BitVec.ofNat 64 (2 + err * 256 + step * 65536 + im * 2 ^ 24), bootImage := im }
    let names (u : Word) (kind k : Nat) : Prop := (u.extractLsb' 56 8).toNat = kind ∧ (u.extractLsb' 0 16).toNat = k
    let gone (bad : List Nat) (kind n : Nat) : List Nat := (List.range n).filter (fun k => decide (k ∈ bad ∨
      (∃ e ∈ s.retireLog, names e.1 kind k) ∨ ∃ u ∈ s.confRec.off, names u kind k))
    let dc := gone bc 1 1024
    let ds := gone bs 2 1024
    let enough : Prop := 0 ∉ dc ∧ ∀ d, d < 4 → (dc.filter (fun c => dieOf c == d)).length ≤ 8 ∧
      (ds.filter (fun c => dieOf c == d)).length ≤ 6
    (s.bootStatus.extractLsb' 0 8 ≠ 0 → run = .next s) ∧
    (s.bootStatus.extractLsb' 0 8 = 0 →
      (flash = false → stops 0 0 4) ∧ (flash = true → image = 0 → stops 0 0 1) ∧
      (flash = true → image ≠ 0 → s.confRec.ok = false → stops image 1 2) ∧
      (flash = true → image ≠ 0 → s.confRec.ok = true → ¬enough → stops image 4 3) ∧
      (flash = true → image ≠ 0 → s.confRec.ok = true → enough → run = .next { s with
        bootStatus := BitVec.ofNat 64 (1 + 5 * 65536 + image * 2 ^ 24), bootImage := image, booted := true, deadClusters := dc,
        deadSlices := ds, deadChannels := gone bch 3 256, deadLanes := laneMasks (gone bl 4 128), mem := [], poison := [],
        frameTable := frameTableBase (256 - (gone bch 3 256).length) }))) ∧
  (∀ (l : List Nat) (k b : Nat), k < 8 → b < 16 → ((tabGet 0 (laneMasks l) k).getLsbD b = true ↔ 16 * k + b ∈ l)) ∧
  (∀ (s : State) (c : Nat), c < 1024 →
    ((s.unitMap (c / 8)).getLsbD (c % 8) = true ↔ c ∉ s.deadClusters) ∧
    ((s.unitMap (0x80 + c / 8)).getLsbD (c % 8) = true ↔ c ∉ s.deadSlices) ∧
    (c < 256 → ((s.unitMap (0x108 + c / 8)).getLsbD (c % 8) = true ↔ c ∉ s.deadChannels)) ∧
    (∀ o, o < 0x1000 → s.booted = true → s.bar2 (0x5000 + o) = some (s.unitMap o)) ∧
    (∀ o, s.booted = false → s.bar2 o = none)) ∧
  (∀ (target digest : Nat) (off : List Word) (s : State),
    let writes (k : Nat) (t : State) : Prop := exec (.firmwareUpdate k ⟨digest, off⟩ true) s = .next t
    exec (.firmwareUpdate target ⟨digest, off⟩ false) s = .next s ∧
    (target = s.bootImage - 1 → 1 ≤ s.bootImage → s.bootImage ≤ 2 → writes target s) ∧
    (s.bootImage ≠ 1 → writes 0 { s with imageA := (true, digest) }) ∧
    (s.bootImage ≠ 2 → writes 1 { s with imageB := (true, digest) }) ∧
    writes 2 { s with confRec := ⟨true, digest, off⟩ }) ∧
  (∀ (valid : Bool) (s : State),
    let st := (s.bootStatus.extractLsb' 0 8).toNat
    let answers (w : Nat) : Prop := exec (.attestationRequest valid) s = .next { s with attest := [w] }
    (st = 2 → answers 1) ∧ (st = 0 → answers 2) ∧ (st ≠ 0 → st ≠ 2 → valid = false → answers 3) ∧
    let report : List Nat := [0, if s.bootImage = 2 then s.imageB.2 else s.imageA.2, s.confRec.digest, Config.logDigest s.retireLog,
      1024 - s.deadClusters.length, s.divisor, 256 - s.deadChannels.length]
    (st ≠ 0 → st ≠ 2 → valid = true → exec (.attestationRequest valid) s =
      .next { s with attest := report ++ [Config.signature report] })) ∧
  (∀ (lanes gts p : Nat) (s : State),
    (1 ≤ lanes → lanes ≤ 16 → 1 ≤ gts → gts ≤ 128 → exec (.hostLinkTraining lanes gts) s =
      .next { s with linkLanes := lanes, linkGts := gts }) ∧
    (s.booted = true → p < 3 → ∃ t : State, exec (.ideKmKeySet p) s = .next t ∧ { t with ideKeys := s.ideKeys } = s ∧
      ∀ q, q ∈ t.ideKeys ↔ q = p ∨ q ∈ s.ideKeys) ∧
    ((s.booted = false ∨ 3 ≤ p) → exec (.ideKmKeySet p) s = .next s))
end

