-- ==== Sys2Proof/Laws/Encode.lean ====
section
/-! SUPPORT. The fields of a packed word, one lemma per format and field (R200-R210), and the decoding of a packed word
from the candidate its fields name. -/

namespace Sys2Proof

theorem toNat_append_mul {n m : Nat} (x : BitVec n) (y : BitVec m) : (x ++ y).toNat = x.toNat * 2 ^ m + y.toNat := by
  rw [BitVec.toNat_append, ← Nat.shiftLeft_add_eq_or_of_lt y.isLt, Nat.shiftLeft_eq]

theorem getLsbD_toNat {n : Nat} (x : BitVec n) (i : Nat) : x.getLsbD i = decide (x.toNat / 2 ^ i % 2 = 1) := by
  rw [BitVec.getLsbD, Nat.testBit_eq_decide_div_mod_eq]

theorem bool_decide_toNat (b : Bool) : decide (b.toNat = 1) = b := by cases b <;> rfl

/-- The mask of bodyOf is 0 on the guard and the early-binding bits and 1 elsewhere. -/
theorem bodyMask_bit : ∀ i < 64, (0xFF007FFFFFFFFFFF#64).getLsbD i = !(decide (47 ≤ i) && decide (i < 56)) := by decide

/-- A word whose guard and early-binding bits are zero is its own body. -/
theorem bodyOf_eq {w : Word} (h : w.extractLsb' 47 9 = 0#9) : bodyOf w = w := by
  apply BitVec.eq_of_getLsbD_eq
  intro i hi
  rw [bodyOf, BitVec.getLsbD_and, bodyMask_bit i hi]
  by_cases hb : 47 ≤ i ∧ i < 56
  · have hz := congrArg (fun v => v.getLsbD (i - 47)) h
    simp only [BitVec.getLsbD_extractLsb', show i - 47 < 9 by omega, show 47 + (i - 47) = i by omega, decide_true,
      Bool.true_and, BitVec.getLsbD_zero] at hz
    rw [hz, Bool.false_and]
  · have hm : (!(decide (47 ≤ i) && decide (i < 56))) = true := by
      simp only [Bool.not_eq_true', Bool.and_eq_false_iff, decide_eq_false_iff_not]
      omega
    rw [hm, Bool.and_true]

/-- A packed word decodes to the candidate of its fields, with guard p0 and no early-binding bit. -/
theorem decode_of_candidate {w : Word} {i : Instr} (hz : w.extractLsb' 47 9 = 0#9) (hu : unassigned (fOp w).toNat = false)
    (hw : i.wf = true) (he : encode i = some w) (hc : candidate w = i) : decode w = some ⟨0, false, 0, i⟩ := by
  have hb := bodyOf_eq hz
  have hz' : w.toNat / 2 ^ 47 % 2 ^ 9 = 0 := by
    have := congrArg BitVec.toNat hz
    rwa [BitVec.extractLsb'_toNat, Nat.shiftRight_eq_div_pow] at this
  have hG : fG w = 0 := by
    apply BitVec.eq_of_toNat_eq
    rw [fG, BitVec.extractLsb'_toNat, Nat.shiftRight_eq_div_pow]
    show _ = 0
    omega
  have hE : fEb w = 0 := by
    apply BitVec.eq_of_toNat_eq
    rw [fEb, BitVec.extractLsb'_toNat, Nat.shiftRight_eq_div_pow]
    show _ = 0
    omega
  have hN : fGn w = false := by
    rw [fGn, getLsbD_toNat]
    simp only [decide_eq_false_iff_not]
    omega
  have hl : legal w = true := by simp [legal, hb, hc, hw, he, hG, hN]
  simp [decode, hu, hl, hb, hc, hG, hN, hE]

-- the R format

theorem packR_toNat (op : BitVec 8) (d a b : Fld) (c : BitVec 6) (fn : BitVec 11) (ty : BitVec 3) (sp : BitVec 6) :
    (packR op d a b c fn ty sp).toNat =
      op.toNat * 2 ^ 56 + d.code.toNat * 2 ^ 41 + a.code.toNat * 2 ^ 35 + b.code.toNat * 2 ^ 29 + c.toNat * 2 ^ 23 + fn.toNat * 2 ^ 12 + a.rel.toNat * 2 ^ 11 + b.rel.toNat * 2 ^ 10 + d.rel.toNat * 2 ^ 9 + ty.toNat * 2 ^ 6 + sp.toNat := by
  unfold packR
  refine (toNat_append_mul _ _).trans ?_
  simp only [toNat_append_mul, BitVec.toNat_ofBool, BitVec.toNat_ofNat]
  omega

theorem body_packR (op : BitVec 8) (d a b : Fld) (c : BitVec 6) (fn : BitVec 11) (ty : BitVec 3) (sp : BitVec 6) :
    (packR op d a b c fn ty sp).extractLsb' 47 9 = 0#9 := by
  apply BitVec.eq_of_toNat_eq
  simp only [BitVec.extractLsb'_toNat, packR_toNat, Nat.shiftRight_eq_div_pow]
  show _ = 0
  have := op.isLt
  have := d.code.isLt
  have := a.code.isLt
  have := b.code.isLt
  have := c.isLt
  have := fn.isLt
  have := ty.isLt
  have := sp.isLt
  have := a.rel.toNat_lt
  have := b.rel.toNat_lt
  have := d.rel.toNat_lt
  omega

theorem fOp_packR (op : BitVec 8) (d a b : Fld) (c : BitVec 6) (fn : BitVec 11) (ty : BitVec 3) (sp : BitVec 6) :
    fOp (packR op d a b c fn ty sp) = op := by
  apply BitVec.eq_of_toNat_eq
  simp only [fOp, BitVec.extractLsb'_toNat, packR_toNat, Nat.shiftRight_eq_div_pow]
  have := op.isLt
  have := d.code.isLt
  have := a.code.isLt
  have := b.code.isLt
  have := c.isLt
  have := fn.isLt
  have := ty.isLt
  have := sp.isLt
  have := a.rel.toNat_lt
  have := b.rel.toNat_lt
  have := d.rel.toNat_lt
  omega

theorem fD_packR (op : BitVec 8) (d a b : Fld) (c : BitVec 6) (fn : BitVec 11) (ty : BitVec 3) (sp : BitVec 6) :
    fD (packR op d a b c fn ty sp) = d.code := by
  apply BitVec.eq_of_toNat_eq
  simp only [fD, BitVec.extractLsb'_toNat, packR_toNat, Nat.shiftRight_eq_div_pow]
  have := op.isLt
  have := d.code.isLt
  have := a.code.isLt
  have := b.code.isLt
  have := c.isLt
  have := fn.isLt
  have := ty.isLt
  have := sp.isLt
  have := a.rel.toNat_lt
  have := b.rel.toNat_lt
  have := d.rel.toNat_lt
  omega

theorem fA_packR (op : BitVec 8) (d a b : Fld) (c : BitVec 6) (fn : BitVec 11) (ty : BitVec 3) (sp : BitVec 6) :
    fA (packR op d a b c fn ty sp) = a.code := by
  apply BitVec.eq_of_toNat_eq
  simp only [fA, BitVec.extractLsb'_toNat, packR_toNat, Nat.shiftRight_eq_div_pow]
  have := op.isLt
  have := d.code.isLt
  have := a.code.isLt
  have := b.code.isLt
  have := c.isLt
  have := fn.isLt
  have := ty.isLt
  have := sp.isLt
  have := a.rel.toNat_lt
  have := b.rel.toNat_lt
  have := d.rel.toNat_lt
  omega

theorem fB_packR (op : BitVec 8) (d a b : Fld) (c : BitVec 6) (fn : BitVec 11) (ty : BitVec 3) (sp : BitVec 6) :
    fB (packR op d a b c fn ty sp) = b.code := by
  apply BitVec.eq_of_toNat_eq
  simp only [fB, BitVec.extractLsb'_toNat, packR_toNat, Nat.shiftRight_eq_div_pow]
  have := op.isLt
  have := d.code.isLt
  have := a.code.isLt
  have := b.code.isLt
  have := c.isLt
  have := fn.isLt
  have := ty.isLt
  have := sp.isLt
  have := a.rel.toNat_lt
  have := b.rel.toNat_lt
  have := d.rel.toNat_lt
  omega

theorem fC_packR (op : BitVec 8) (d a b : Fld) (c : BitVec 6) (fn : BitVec 11) (ty : BitVec 3) (sp : BitVec 6) :
    fC (packR op d a b c fn ty sp) = c := by
  apply BitVec.eq_of_toNat_eq
  simp only [fC, BitVec.extractLsb'_toNat, packR_toNat, Nat.shiftRight_eq_div_pow]
  have := op.isLt
  have := d.code.isLt
  have := a.code.isLt
  have := b.code.isLt
  have := c.isLt
  have := fn.isLt
  have := ty.isLt
  have := sp.isLt
  have := a.rel.toNat_lt
  have := b.rel.toNat_lt
  have := d.rel.toNat_lt
  omega

theorem fFn_packR (op : BitVec 8) (d a b : Fld) (c : BitVec 6) (fn : BitVec 11) (ty : BitVec 3) (sp : BitVec 6) :
    fFn (packR op d a b c fn ty sp) = fn := by
  apply BitVec.eq_of_toNat_eq
  simp only [fFn, BitVec.extractLsb'_toNat, packR_toNat, Nat.shiftRight_eq_div_pow]
  have := op.isLt
  have := d.code.isLt
  have := a.code.isLt
  have := b.code.isLt
  have := c.isLt
  have := fn.isLt
  have := ty.isLt
  have := sp.isLt
  have := a.rel.toNat_lt
  have := b.rel.toNat_lt
  have := d.rel.toNat_lt
  omega

theorem fTy_packR (op : BitVec 8) (d a b : Fld) (c : BitVec 6) (fn : BitVec 11) (ty : BitVec 3) (sp : BitVec 6) :
    fTy (packR op d a b c fn ty sp) = ty := by
  apply BitVec.eq_of_toNat_eq
  simp only [fTy, BitVec.extractLsb'_toNat, packR_toNat, Nat.shiftRight_eq_div_pow]
  have := op.isLt
  have := d.code.isLt
  have := a.code.isLt
  have := b.code.isLt
  have := c.isLt
  have := fn.isLt
  have := ty.isLt
  have := sp.isLt
  have := a.rel.toNat_lt
  have := b.rel.toNat_lt
  have := d.rel.toNat_lt
  omega

theorem fSpec_packR (op : BitVec 8) (d a b : Fld) (c : BitVec 6) (fn : BitVec 11) (ty : BitVec 3) (sp : BitVec 6) :
    fSpec (packR op d a b c fn ty sp) = sp := by
  apply BitVec.eq_of_toNat_eq
  simp only [fSpec, BitVec.extractLsb'_toNat, packR_toNat, Nat.shiftRight_eq_div_pow]
  have := op.isLt
  have := d.code.isLt
  have := a.code.isLt
  have := b.code.isLt
  have := c.isLt
  have := fn.isLt
  have := ty.isLt
  have := sp.isLt
  have := a.rel.toNat_lt
  have := b.rel.toNat_lt
  have := d.rel.toNat_lt
  omega

theorem rA_packR (op : BitVec 8) (d a b : Fld) (c : BitVec 6) (fn : BitVec 11) (ty : BitVec 3) (sp : BitVec 6) :
    rA (packR op d a b c fn ty sp) = a := by
  rw [rA, fA_packR, getLsbD_toNat, packR_toNat]
  have h : ∀ x : Nat, x = a.rel.toNat → decide (x = 1) = a.rel := fun x h => h ▸ bool_decide_toNat _
  rw [h]
  have := op.isLt
  have := d.code.isLt
  have := a.code.isLt
  have := b.code.isLt
  have := c.isLt
  have := fn.isLt
  have := ty.isLt
  have := sp.isLt
  have := a.rel.toNat_lt
  have := b.rel.toNat_lt
  have := d.rel.toNat_lt
  omega

theorem rB_packR (op : BitVec 8) (d a b : Fld) (c : BitVec 6) (fn : BitVec 11) (ty : BitVec 3) (sp : BitVec 6) :
    rB (packR op d a b c fn ty sp) = b := by
  rw [rB, fB_packR, getLsbD_toNat, packR_toNat]
  have h : ∀ x : Nat, x = b.rel.toNat → decide (x = 1) = b.rel := fun x h => h ▸ bool_decide_toNat _
  rw [h]
  have := op.isLt
  have := d.code.isLt
  have := a.code.isLt
  have := b.code.isLt
  have := c.isLt
  have := fn.isLt
  have := ty.isLt
  have := sp.isLt
  have := a.rel.toNat_lt
  have := b.rel.toNat_lt
  have := d.rel.toNat_lt
  omega

theorem rD_packR (op : BitVec 8) (d a b : Fld) (c : BitVec 6) (fn : BitVec 11) (ty : BitVec 3) (sp : BitVec 6) :
    rD (packR op d a b c fn ty sp) = d := by
  rw [rD, fD_packR, getLsbD_toNat, packR_toNat]
  have h : ∀ x : Nat, x = d.rel.toNat → decide (x = 1) = d.rel := fun x h => h ▸ bool_decide_toNat _
  rw [h]
  have := op.isLt
  have := d.code.isLt
  have := a.code.isLt
  have := b.code.isLt
  have := c.isLt
  have := fn.isLt
  have := ty.isLt
  have := sp.isLt
  have := a.rel.toNat_lt
  have := b.rel.toNat_lt
  have := d.rel.toNat_lt
  omega

-- the I format

theorem packI_toNat (op : BitVec 8) (d a : BitVec 6) (fn : BitVec 3) (imm : BitVec 32) :
    (packI op d a fn imm).toNat =
      op.toNat * 2 ^ 56 + d.toNat * 2 ^ 41 + a.toNat * 2 ^ 35 + fn.toNat * 2 ^ 32 + imm.toNat := by
  unfold packI
  refine (toNat_append_mul _ _).trans ?_
  simp only [toNat_append_mul, BitVec.toNat_ofNat]
  omega

theorem body_packI (op : BitVec 8) (d a : BitVec 6) (fn : BitVec 3) (imm : BitVec 32) :
    (packI op d a fn imm).extractLsb' 47 9 = 0#9 := by
  apply BitVec.eq_of_toNat_eq
  simp only [BitVec.extractLsb'_toNat, packI_toNat, Nat.shiftRight_eq_div_pow]
  show _ = 0
  have := op.isLt
  have := d.isLt
  have := a.isLt
  have := fn.isLt
  have := imm.isLt
  omega

theorem fOp_packI (op : BitVec 8) (d a : BitVec 6) (fn : BitVec 3) (imm : BitVec 32) :
    fOp (packI op d a fn imm) = op := by
  apply BitVec.eq_of_toNat_eq
  simp only [fOp, BitVec.extractLsb'_toNat, packI_toNat, Nat.shiftRight_eq_div_pow]
  have := op.isLt
  have := d.isLt
  have := a.isLt
  have := fn.isLt
  have := imm.isLt
  omega

theorem fD_packI (op : BitVec 8) (d a : BitVec 6) (fn : BitVec 3) (imm : BitVec 32) :
    fD (packI op d a fn imm) = d := by
  apply BitVec.eq_of_toNat_eq
  simp only [fD, BitVec.extractLsb'_toNat, packI_toNat, Nat.shiftRight_eq_div_pow]
  have := op.isLt
  have := d.isLt
  have := a.isLt
  have := fn.isLt
  have := imm.isLt
  omega

theorem fA_packI (op : BitVec 8) (d a : BitVec 6) (fn : BitVec 3) (imm : BitVec 32) :
    fA (packI op d a fn imm) = a := by
  apply BitVec.eq_of_toNat_eq
  simp only [fA, BitVec.extractLsb'_toNat, packI_toNat, Nat.shiftRight_eq_div_pow]
  have := op.isLt
  have := d.isLt
  have := a.isLt
  have := fn.isLt
  have := imm.isLt
  omega

theorem fFnI_packI (op : BitVec 8) (d a : BitVec 6) (fn : BitVec 3) (imm : BitVec 32) :
    fFnI (packI op d a fn imm) = fn := by
  apply BitVec.eq_of_toNat_eq
  simp only [fFnI, BitVec.extractLsb'_toNat, packI_toNat, Nat.shiftRight_eq_div_pow]
  have := op.isLt
  have := d.isLt
  have := a.isLt
  have := fn.isLt
  have := imm.isLt
  omega

theorem immI_packI (op : BitVec 8) (d a : BitVec 6) (fn : BitVec 3) (imm : BitVec 32) :
    immI (packI op d a fn imm) = imm := by
  apply BitVec.eq_of_toNat_eq
  simp only [immI, BitVec.extractLsb'_toNat, packI_toNat, Nat.shiftRight_eq_div_pow]
  have := op.isLt
  have := d.isLt
  have := a.isLt
  have := fn.isLt
  have := imm.isLt
  omega

-- the M format

theorem packM_toNat (op : BitVec 8) (d : BitVec 6) (ad : MAddr) (sz : BitVec 3) (sx : Bool) (sc : BitVec 3) :
    (packM op d ad sz sx sc).toNat =
      op.toNat * 2 ^ 56 + d.toNat * 2 ^ 41 + ad.a.toNat * 2 ^ 35 + ad.b.toNat * 2 ^ 29 + sz.toNat * 2 ^ 26 + sx.toNat * 2 ^ 25 + sc.toNat * 2 ^ 22 + ad.scl.toNat * 2 ^ 20 + ad.off.toNat := by
  unfold packM
  refine (toNat_append_mul _ _).trans ?_
  simp only [toNat_append_mul, BitVec.toNat_ofBool, BitVec.toNat_ofNat]
  omega

theorem body_packM (op : BitVec 8) (d : BitVec 6) (ad : MAddr) (sz : BitVec 3) (sx : Bool) (sc : BitVec 3) :
    (packM op d ad sz sx sc).extractLsb' 47 9 = 0#9 := by
  apply BitVec.eq_of_toNat_eq
  simp only [BitVec.extractLsb'_toNat, packM_toNat, Nat.shiftRight_eq_div_pow]
  show _ = 0
  have := op.isLt
  have := d.isLt
  have := ad.a.isLt
  have := ad.b.isLt
  have := sz.isLt
  have := sc.isLt
  have := ad.scl.isLt
  have := ad.off.isLt
  have := sx.toNat_lt
  omega

theorem fOp_packM (op : BitVec 8) (d : BitVec 6) (ad : MAddr) (sz : BitVec 3) (sx : Bool) (sc : BitVec 3) :
    fOp (packM op d ad sz sx sc) = op := by
  apply BitVec.eq_of_toNat_eq
  simp only [fOp, BitVec.extractLsb'_toNat, packM_toNat, Nat.shiftRight_eq_div_pow]
  have := op.isLt
  have := d.isLt
  have := ad.a.isLt
  have := ad.b.isLt
  have := sz.isLt
  have := sc.isLt
  have := ad.scl.isLt
  have := ad.off.isLt
  have := sx.toNat_lt
  omega

theorem fD_packM (op : BitVec 8) (d : BitVec 6) (ad : MAddr) (sz : BitVec 3) (sx : Bool) (sc : BitVec 3) :
    fD (packM op d ad sz sx sc) = d := by
  apply BitVec.eq_of_toNat_eq
  simp only [fD, BitVec.extractLsb'_toNat, packM_toNat, Nat.shiftRight_eq_div_pow]
  have := op.isLt
  have := d.isLt
  have := ad.a.isLt
  have := ad.b.isLt
  have := sz.isLt
  have := sc.isLt
  have := ad.scl.isLt
  have := ad.off.isLt
  have := sx.toNat_lt
  omega

theorem fSz_packM (op : BitVec 8) (d : BitVec 6) (ad : MAddr) (sz : BitVec 3) (sx : Bool) (sc : BitVec 3) :
    fSz (packM op d ad sz sx sc) = sz := by
  apply BitVec.eq_of_toNat_eq
  simp only [fSz, BitVec.extractLsb'_toNat, packM_toNat, Nat.shiftRight_eq_div_pow]
  have := op.isLt
  have := d.isLt
  have := ad.a.isLt
  have := ad.b.isLt
  have := sz.isLt
  have := sc.isLt
  have := ad.scl.isLt
  have := ad.off.isLt
  have := sx.toNat_lt
  omega

theorem fSc_packM (op : BitVec 8) (d : BitVec 6) (ad : MAddr) (sz : BitVec 3) (sx : Bool) (sc : BitVec 3) :
    fSc (packM op d ad sz sx sc) = sc := by
  apply BitVec.eq_of_toNat_eq
  simp only [fSc, BitVec.extractLsb'_toNat, packM_toNat, Nat.shiftRight_eq_div_pow]
  have := op.isLt
  have := d.isLt
  have := ad.a.isLt
  have := ad.b.isLt
  have := sz.isLt
  have := sc.isLt
  have := ad.scl.isLt
  have := ad.off.isLt
  have := sx.toNat_lt
  omega

theorem fSx_packM (op : BitVec 8) (d : BitVec 6) (ad : MAddr) (sz : BitVec 3) (sx : Bool) (sc : BitVec 3) :
    fSx (packM op d ad sz sx sc) = sx := by
  rw [fSx, getLsbD_toNat, packM_toNat]
  have h : ∀ x : Nat, x = sx.toNat → decide (x = 1) = sx := fun x h => h ▸ bool_decide_toNat _
  rw [h]
  have := op.isLt
  have := d.isLt
  have := ad.a.isLt
  have := ad.b.isLt
  have := sz.isLt
  have := sc.isLt
  have := ad.scl.isLt
  have := ad.off.isLt
  have := sx.toNat_lt
  omega

theorem mAddr_packM (op : BitVec 8) (d : BitVec 6) (ad : MAddr) (sz : BitVec 3) (sx : Bool) (sc : BitVec 3) :
    mAddr (packM op d ad sz sx sc) = ad := by
  have h1 : (fA (packM op d ad sz sx sc)).setWidth 4 = ad.a := by
    apply BitVec.eq_of_toNat_eq
    simp only [fA, BitVec.toNat_setWidth, BitVec.extractLsb'_toNat, packM_toNat, Nat.shiftRight_eq_div_pow]
    have := op.isLt
    have := d.isLt
    have := ad.a.isLt
    have := ad.b.isLt
    have := sz.isLt
    have := sc.isLt
    have := ad.scl.isLt
    have := ad.off.isLt
    have := sx.toNat_lt
    omega
  have h2 : (fB (packM op d ad sz sx sc)).setWidth 4 = ad.b := by
    apply BitVec.eq_of_toNat_eq
    simp only [fB, BitVec.toNat_setWidth, BitVec.extractLsb'_toNat, packM_toNat, Nat.shiftRight_eq_div_pow]
    have := op.isLt
    have := d.isLt
    have := ad.a.isLt
    have := ad.b.isLt
    have := sz.isLt
    have := sc.isLt
    have := ad.scl.isLt
    have := ad.off.isLt
    have := sx.toNat_lt
    omega
  have h3 : (packM op d ad sz sx sc).extractLsb' 20 2 = ad.scl := by
    apply BitVec.eq_of_toNat_eq
    simp only [BitVec.extractLsb'_toNat, packM_toNat, Nat.shiftRight_eq_div_pow]
    have := op.isLt
    have := d.isLt
    have := ad.a.isLt
    have := ad.b.isLt
    have := sz.isLt
    have := sc.isLt
    have := ad.scl.isLt
    have := ad.off.isLt
    have := sx.toNat_lt
    omega
  have h4 : (packM op d ad sz sx sc).extractLsb' 0 20 = ad.off := by
    apply BitVec.eq_of_toNat_eq
    simp only [BitVec.extractLsb'_toNat, packM_toNat, Nat.shiftRight_eq_div_pow]
    have := op.isLt
    have := d.isLt
    have := ad.a.isLt
    have := ad.b.isLt
    have := sz.isLt
    have := sc.isLt
    have := ad.scl.isLt
    have := ad.off.isLt
    have := sx.toNat_lt
    omega
  rw [mAddr, h1, h2, h3, h4]

-- the B format

theorem packB_toNat (op : BitVec 8) (d : BitVec 6) (off : BitVec 41) :
    (packB op d off).toNat =
      op.toNat * 2 ^ 56 + d.toNat * 2 ^ 41 + off.toNat := by
  unfold packB
  refine (toNat_append_mul _ _).trans ?_
  simp only [toNat_append_mul, BitVec.toNat_ofNat]
  omega

theorem body_packB (op : BitVec 8) (d : BitVec 6) (off : BitVec 41) :
    (packB op d off).extractLsb' 47 9 = 0#9 := by
  apply BitVec.eq_of_toNat_eq
  simp only [BitVec.extractLsb'_toNat, packB_toNat, Nat.shiftRight_eq_div_pow]
  show _ = 0
  have := op.isLt
  have := d.isLt
  have := off.isLt
  omega

theorem fOp_packB (op : BitVec 8) (d : BitVec 6) (off : BitVec 41) :
    fOp (packB op d off) = op := by
  apply BitVec.eq_of_toNat_eq
  simp only [fOp, BitVec.extractLsb'_toNat, packB_toNat, Nat.shiftRight_eq_div_pow]
  have := op.isLt
  have := d.isLt
  have := off.isLt
  omega

theorem fD_packB (op : BitVec 8) (d : BitVec 6) (off : BitVec 41) :
    fD (packB op d off) = d := by
  apply BitVec.eq_of_toNat_eq
  simp only [fD, BitVec.extractLsb'_toNat, packB_toNat, Nat.shiftRight_eq_div_pow]
  have := op.isLt
  have := d.isLt
  have := off.isLt
  omega

theorem offB_packB (op : BitVec 8) (d : BitVec 6) (off : BitVec 41) :
    offB (packB op d off) = off := by
  apply BitVec.eq_of_toNat_eq
  simp only [offB, BitVec.extractLsb'_toNat, packB_toNat, Nat.shiftRight_eq_div_pow]
  have := op.isLt
  have := d.isLt
  have := off.isLt
  omega

-- the X format

theorem packX_toNat (op : BitVec 8) (d a b : BitVec 6) (sub : BitVec 9) (imm : BitVec 20) :
    (packX op d a b sub imm).toNat =
      op.toNat * 2 ^ 56 + d.toNat * 2 ^ 41 + a.toNat * 2 ^ 35 + b.toNat * 2 ^ 29 + sub.toNat * 2 ^ 20 + imm.toNat := by
  unfold packX
  refine (toNat_append_mul _ _).trans ?_
  simp only [toNat_append_mul, BitVec.toNat_ofNat]
  omega

theorem body_packX (op : BitVec 8) (d a b : BitVec 6) (sub : BitVec 9) (imm : BitVec 20) :
    (packX op d a b sub imm).extractLsb' 47 9 = 0#9 := by
  apply BitVec.eq_of_toNat_eq
  simp only [BitVec.extractLsb'_toNat, packX_toNat, Nat.shiftRight_eq_div_pow]
  show _ = 0
  have := op.isLt
  have := d.isLt
  have := a.isLt
  have := b.isLt
  have := sub.isLt
  have := imm.isLt
  omega

theorem fOp_packX (op : BitVec 8) (d a b : BitVec 6) (sub : BitVec 9) (imm : BitVec 20) :
    fOp (packX op d a b sub imm) = op := by
  apply BitVec.eq_of_toNat_eq
  simp only [fOp, BitVec.extractLsb'_toNat, packX_toNat, Nat.shiftRight_eq_div_pow]
  have := op.isLt
  have := d.isLt
  have := a.isLt
  have := b.isLt
  have := sub.isLt
  have := imm.isLt
  omega

theorem fD_packX (op : BitVec 8) (d a b : BitVec 6) (sub : BitVec 9) (imm : BitVec 20) :
    fD (packX op d a b sub imm) = d := by
  apply BitVec.eq_of_toNat_eq
  simp only [fD, BitVec.extractLsb'_toNat, packX_toNat, Nat.shiftRight_eq_div_pow]
  have := op.isLt
  have := d.isLt
  have := a.isLt
  have := b.isLt
  have := sub.isLt
  have := imm.isLt
  omega

theorem fA_packX (op : BitVec 8) (d a b : BitVec 6) (sub : BitVec 9) (imm : BitVec 20) :
    fA (packX op d a b sub imm) = a := by
  apply BitVec.eq_of_toNat_eq
  simp only [fA, BitVec.extractLsb'_toNat, packX_toNat, Nat.shiftRight_eq_div_pow]
  have := op.isLt
  have := d.isLt
  have := a.isLt
  have := b.isLt
  have := sub.isLt
  have := imm.isLt
  omega

theorem fB_packX (op : BitVec 8) (d a b : BitVec 6) (sub : BitVec 9) (imm : BitVec 20) :
    fB (packX op d a b sub imm) = b := by
  apply BitVec.eq_of_toNat_eq
  simp only [fB, BitVec.extractLsb'_toNat, packX_toNat, Nat.shiftRight_eq_div_pow]
  have := op.isLt
  have := d.isLt
  have := a.isLt
  have := b.isLt
  have := sub.isLt
  have := imm.isLt
  omega

theorem fSub_packX (op : BitVec 8) (d a b : BitVec 6) (sub : BitVec 9) (imm : BitVec 20) :
    fSub (packX op d a b sub imm) = sub := by
  apply BitVec.eq_of_toNat_eq
  simp only [fSub, BitVec.extractLsb'_toNat, packX_toNat, Nat.shiftRight_eq_div_pow]
  have := op.isLt
  have := d.isLt
  have := a.isLt
  have := b.isLt
  have := sub.isLt
  have := imm.isLt
  omega

theorem immX_packX (op : BitVec 8) (d a b : BitVec 6) (sub : BitVec 9) (imm : BitVec 20) :
    immX (packX op d a b sub imm) = imm := by
  apply BitVec.eq_of_toNat_eq
  simp only [immX, BitVec.extractLsb'_toNat, packX_toNat, Nat.shiftRight_eq_div_pow]
  have := op.isLt
  have := d.isLt
  have := a.isLt
  have := b.isLt
  have := sub.isLt
  have := imm.isLt
  omega

-- the sub-fields of fn, sub, ty and spec

theorem setWidth_fpTy (ty : BitVec 2) : (fpTy ty).setWidth 2 = ty := by revert ty; decide

theorem bit_unsSpec (u : Bool) : (unsSpec u)[5] = u := by revert u; decide

theorem setWidth_packSub (sc : BitVec 3) (dw : Bool) (op : BitVec 4) : (packSub sc dw op).setWidth 4 = op := by
  revert sc dw op; decide

theorem setWidth3_packSub (sc : BitVec 3) (dw : Bool) (op : BitVec 3) :
    (packSub sc dw (op.setWidth 4)).setWidth 3 = op := by
  revert sc dw op; decide

theorem setWidth2_packSub (sc : BitVec 3) (dw : Bool) (op : BitVec 2) :
    (packSub sc dw (op.setWidth 4)).setWidth 2 = op := by
  revert sc dw op; decide

theorem bit_packSub (sc : BitVec 3) (dw : Bool) (op : BitVec 4) : (packSub sc dw op)[4] = dw := by
  revert sc dw op; decide

theorem extract_packSub (sc : BitVec 3) (dw : Bool) (op : BitVec 4) : (packSub sc dw op).extractLsb' 6 3 = sc := by
  revert sc dw op; decide

theorem setWidth_bool_append (b : Bool) (x : BitVec 4) : (BitVec.ofBool b ++ x).setWidth 4 = x := by
  revert b x; decide

theorem bit_bool_append (b : Bool) (x : BitVec 4) : (BitVec.ofBool b ++ x)[4] = b := by revert b x; decide

theorem setWidth_bool_append3 (b : Bool) (x : BitVec 3) : (BitVec.ofBool b ++ x).setWidth 3 = x := by
  revert b x; decide

theorem bit_bool_append3 (b : Bool) (x : BitVec 3) : (BitVec.ofBool b ++ x)[3] = b := by revert b x; decide

/-- The sub-function of a carriage instruction: .seat, .rel, .acq, operation (R214, R215). -/
theorem carSub_fields (h : BitVec 3) (r q : Bool) (x : BitVec 4) :
    ((h ++ BitVec.ofBool r ++ BitVec.ofBool q ++ x : BitVec 9)[4] = q) ∧
    ((h ++ BitVec.ofBool r ++ BitVec.ofBool q ++ x : BitVec 9)[5] = r) ∧
    ((h ++ BitVec.ofBool r ++ BitVec.ofBool q ++ x : BitVec 9)[6] = h[0]) ∧
    ((h ++ BitVec.ofBool r ++ BitVec.ofBool q ++ x : BitVec 9).setWidth 4 = x) ∧
    ((h ++ BitVec.ofBool r ++ BitVec.ofBool q ++ x : BitVec 9).setWidth 3 = x.setWidth 3) ∧
    ((h ++ BitVec.ofBool r ++ BitVec.ofBool q ++ x : BitVec 9).setWidth 2 = x.setWidth 2) := by
  revert h r q x; decide

theorem carImm_idx (w : BitVec 3) (x : BitVec 16) : (0#1 ++ w ++ x : BitVec 20).extractLsb' 0 16 = x := by
  apply BitVec.eq_of_toNat_eq
  simp only [BitVec.extractLsb'_toNat, Nat.shiftRight_eq_div_pow, toNat_append_mul]
  have := x.isLt
  omega

theorem carImm_word (w : BitVec 3) (x : BitVec 16) : (0#1 ++ w ++ x : BitVec 20).extractLsb' 16 3 = w := by
  apply BitVec.eq_of_toNat_eq
  simp only [BitVec.extractLsb'_toNat, Nat.shiftRight_eq_div_pow, toNat_append_mul, BitVec.toNat_ofNat]
  have := x.isLt
  have := w.isLt
  omega

theorem topk_fields (p : BitVec 4) (b : Bool) (k : BitVec 3) :
    ((p ++ BitVec.ofBool b ++ k).setWidth 3 = k) ∧ ((p ++ BitVec.ofBool b ++ k)[3] = b) ∧
    (((p ++ BitVec.ofBool b ++ k).setWidth 11).extractLsb' 4 4 = p) := by
  revert p b k; decide

theorem scfg_fields (b : Bool) (n : BitVec 2) :
    ((BitVec.ofBool b ++ n).setWidth 2 = n) ∧ ((BitVec.ofBool b ++ n)[2] = b) := by
  revert b n; decide

theorem palw_fields (b c : Bool) : ((BitVec.ofBool b ++ BitVec.ofBool c)[0] = c) ∧ ((BitVec.ofBool b ++ BitVec.ofBool c)[1] = b) := by
  revert b c; decide

theorem tile_fields (t : BitVec 2) (b : Bool) :
    ((t ++ BitVec.ofBool b)[0] = b) ∧ (((t ++ BitVec.ofBool b).setWidth 11).extractLsb' 1 2 = t) := by
  revert t b; decide

theorem engine_fields (t : BitVec 4) (n : BitVec 2) :
    ((t ++ n).setWidth 2 = n) ∧ (((t ++ n).setWidth 11).extractLsb' 2 4 = t) := by
  revert t n; decide

theorem xcoll_fields (k : BitVec 3) (t : BitVec 4) (n : BitVec 2) :
    ((k ++ 0#2 ++ t ++ n).setWidth 2 = n) ∧ ((k ++ 0#2 ++ t ++ n).extractLsb' 2 4 = t) ∧
    ((k ++ 0#2 ++ t ++ n).extractLsb' 8 3 = k) := by
  revert k t n; decide

theorem tender_fields (t : BitVec 4) :
    ((0#1 ++ t)[4] = false) ∧ ((1#1 ++ t)[4] = true) ∧ ((0#1 ++ t).setWidth 4 = t) ∧ ((1#1 ++ t).setWidth 4 = t) := by
  revert t; decide

theorem setWidth_channel (n : BitVec 3) : (2#3 ++ n).setWidth 3 = n := by revert n; decide

/-- The number of an MTS that is no row of its own is neither a slot owner word nor the refill level (R59, R62). -/
theorem mts_fields : ∀ n : BitVec 9, mtsPlain n = true → ((n.setWidth 32).extractLsb' 3 6 ≠ 32#6) ∧ n ≠ 272#9 := by
  decide

theorem owner_fields (n : BitVec 3) :
    ((256#32 + n.setWidth 32).extractLsb' 3 6 = 32#6) ∧ ((256#32 + n.setWidth 32).setWidth 3 = n) := by
  revert n; decide

/-- A conversion's target is not the code of the widening or the narrowing one (R214). -/
theorem vcvt_fields : ∀ (u : Bool) (t : BitVec 3), (!u || decide (t.toNat ≤ 3)) = true →
    (BitVec.ofBool u ++ t ≠ 12#4) ∧ (BitVec.ofBool u ++ t ≠ 13#4) := by
  decide

theorem extract_packX (op : BitVec 8) (d a b : BitVec 6) (sub : BitVec 9) (imm : BitVec 20) (s n : Nat)
    (h : s + n ≤ 20) : (packX op d a b sub imm).extractLsb' s n = imm.extractLsb' s n := by
  have hi : immX (packX op d a b sub imm) = imm := immX_packX ..
  apply BitVec.eq_of_getLsbD_eq
  intro i hn
  have := congrArg (fun v => v.getLsbD (s + i)) hi
  simp only [immX, BitVec.getLsbD_extractLsb', show s + i < 20 by omega, decide_true, Bool.true_and, Nat.zero_add] at this
  simp only [BitVec.getLsbD_extractLsb', this]

end Sys2Proof
end

