-- ==== Sys2Proof/Laws/Memory.lean ====
section
/-! SUPPORT. The byte memory: every operation keeps the canonical form, reading after writing, and the bytes of a number
(R4). -/

namespace Sys2Proof.Machine

theorem Memory.wf_cons (k : Nat) (b : Byte) (t : Memory) :
    Memory.wf ((k, b) :: t) = true ↔ b ≠ 0 ∧ (∀ e ∈ t, k < e.1) ∧ Memory.wf t = true := by
  simp [Memory.wf, and_assoc]

theorem Memory.wf_nil : Memory.wf [] = true := rfl

/-- The addresses a write lists are those listed before, or the address written. -/
theorem Memory.mem_write {m : Memory} {a : Nat} {b : Byte} {e : Host.Cell} (h : e ∈ Memory.write m a b) :
    e = (a, b) ∨ e ∈ m := by
  induction m with
  | nil =>
    simp only [Memory.write] at h
    split at h
    · cases h
    · exact .inl (by simpa using h)
  | cons c t ih =>
    obtain ⟨k, x⟩ := c
    simp only [Memory.write] at h
    split at h
    · split at h
      · exact .inr (List.mem_cons_of_mem _ h)
      · exact (List.mem_cons.1 h).imp_right (List.mem_cons_of_mem _)
    · split at h
      · split at h
        · exact .inr h
        · exact List.mem_cons.1 h
      · rcases List.mem_cons.1 h with h | h
        · exact .inr (h ▸ List.mem_cons_self ..)
        · exact (ih h).imp_right (List.mem_cons_of_mem _)

/-- A write keeps the canonical form. -/
theorem Memory.wf_write {m : Memory} (a : Nat) (b : Byte) (h : Memory.wf m = true) :
    Memory.wf (Memory.write m a b) = true := by
  induction m with
  | nil =>
    simp only [Memory.write]
    split
    · rfl
    · rename_i hb
      exact (Memory.wf_cons ..).2 ⟨hb, by simp, rfl⟩
  | cons c t ih =>
    obtain ⟨k, x⟩ := c
    obtain ⟨hx, hk, ht⟩ := (Memory.wf_cons ..).1 h
    simp only [Memory.write]
    split
    · rename_i e
      subst e
      split
      · exact ht
      · rename_i hb
        exact (Memory.wf_cons ..).2 ⟨hb, hk, ht⟩
    · split
      · rename_i hlt
        split
        · exact h
        · rename_i hb
          refine (Memory.wf_cons ..).2 ⟨hb, ?_, h⟩
          intro e he
          rcases List.mem_cons.1 he with he | he
          · exact he ▸ hlt
          · exact Nat.lt_trans hlt (hk e he)
      · rename_i hne hle
        refine (Memory.wf_cons ..).2 ⟨hx, ?_, ih ht⟩
        intro e he
        rcases Memory.mem_write he with he | he
        · subst he
          show k < a
          omega
        · exact hk e he

theorem Memory.wf_writeBytes {m : Memory} (a : Nat) (l : List Byte) (h : Memory.wf m = true) :
    Memory.wf (Memory.writeBytes m a l) = true := by
  induction l generalizing m a with
  | nil => exact h
  | cons b l ih => exact ih _ (Memory.wf_write a b h)

theorem Memory.wf_writeNat {m : Memory} (a n v : Nat) (h : Memory.wf m = true) :
    Memory.wf (Memory.writeNat m a n v) = true := Memory.wf_writeBytes _ _ h

/-- Below every listed address a memory reads 0. -/
theorem Memory.read_of_lt {m : Memory} {a : Nat} (h : ∀ e ∈ m, a < e.1) : Memory.read m a = 0 := by
  induction m with
  | nil => rfl
  | cons c t ih =>
    obtain ⟨k, x⟩ := c
    have hk : a < k := h (k, x) (List.mem_cons_self ..)
    rw [Memory.read, if_neg (by omega)]
    exact ih (fun e he => h e (List.mem_cons_of_mem _ he))

/-- Reading after a write: the byte written at its address, and what was there before at every other. -/
theorem Memory.read_write {m : Memory} (a a' : Nat) (b : Byte) (h : Memory.wf m = true) :
    Memory.read (Memory.write m a b) a' = if a = a' then b else Memory.read m a' := by
  induction m with
  | nil =>
    simp only [Memory.write]
    split
    · subst_vars
      simp [Memory.read]
    · simp [Memory.read]
  | cons c t ih =>
    obtain ⟨k, x⟩ := c
    obtain ⟨hx, hk, ht⟩ := (Memory.wf_cons ..).1 h
    simp only [Memory.write]
    split
    · rename_i e
      subst e
      split
      · rename_i hb
        subst hb
        by_cases e : k = a'
        · subst e
          simp [Memory.read_of_lt hk]
        · simp [Memory.read, e]
      · by_cases e : k = a' <;> simp [Memory.read, e]
    · split
      · rename_i hne hlt
        split
        · rename_i hb
          subst hb
          by_cases e : a = a'
          · subst e
            rw [if_pos rfl]
            refine Memory.read_of_lt ?_
            intro e he
            rcases List.mem_cons.1 he with he | he
            · exact he ▸ hlt
            · exact Nat.lt_trans hlt (hk e he)
          · rw [if_neg e]
        · by_cases e : a = a' <;> simp [Memory.read, e]
      · rename_i hne hle
        by_cases e : k = a'
        · subst e
          simp [Memory.read, show a ≠ k from fun h => hne h.symm]
        · simp [Memory.read, e, ih ht]

@[simp] theorem Memory.read_write_self {m : Memory} (a : Nat) (b : Byte) (h : Memory.wf m = true) :
    Memory.read (Memory.write m a b) a = b := by
  rw [Memory.read_write _ _ _ h, if_pos rfl]

theorem Memory.read_write_ne {m : Memory} {a a' : Nat} (b : Byte) (h : Memory.wf m = true) (hne : a ≠ a') :
    Memory.read (Memory.write m a b) a' = Memory.read m a' := by
  rw [Memory.read_write _ _ _ h, if_neg hne]

/-- Reading after the writing of several bytes. -/
theorem Memory.read_writeBytes {m : Memory} (a a' : Nat) (l : List Byte) (h : Memory.wf m = true) :
    Memory.read (Memory.writeBytes m a l) a' =
      if a ≤ a' ∧ a' < a + l.length then (l[a' - a]?).getD 0 else Memory.read m a' := by
  induction l generalizing m a with
  | nil =>
    rw [if_neg (by simp only [List.length_nil]; omega)]
    rfl
  | cons b l ih =>
    rw [Memory.writeBytes, ih _ (Memory.wf_write _ _ h), Memory.read_write _ _ _ h]
    simp only [List.length_cons]
    by_cases e : a = a'
    · subst e
      rw [if_neg (by omega), if_pos rfl, if_pos (by omega)]
      simp
    · rw [if_neg e]
      by_cases hin : a + 1 ≤ a' ∧ a' < a + 1 + l.length
      · rw [if_pos hin, if_pos (by omega), show a' - a = a' - (a + 1) + 1 by omega, List.getElem?_cons_succ]
      · rw [if_neg hin, if_neg (by omega)]

theorem natBytes_length (n v : Nat) : (natBytes n v).length = n := by
  induction n generalizing v with
  | zero => rfl
  | succ n ih => simp [natBytes, ih]

/-- The bytes of a number make the number again (R4). -/
theorem ofBytes_natBytes (n v : Nat) : ofBytes (natBytes n v) = v % 256 ^ n := by
  induction n generalizing v with
  | zero => simp [natBytes, ofBytes, Nat.mod_one]
  | succ n ih =>
    have ih' : List.foldr (fun (b : Byte) n => b.toNat + 256 * n) 0 (natBytes n (v / 256)) = v / 256 % 256 ^ n := ih _
    simp only [natBytes, ofBytes, List.foldr_cons, ih', BitVec.toNat_ofNat]
    rw [show 256 ^ (n + 1) = 256 * 256 ^ n from by ring, Nat.mod_mul]

end Sys2Proof.Machine
end

