-- ==== Sys2Proof/Laws/State.lean ====
section
/-! SUPPORT. The field lemmas of the state: what each update of State and of Slot leaves in each field, and the reading of
a table, a place, a slot and a register after a write. -/

namespace Sys2Proof.Machine

-- tables

theorem tabGet_tabSet {α : Type} (d : α) (t : Tab α) (n m : Nat) (v : α) :
    tabGet d (tabSet t n v) m = if n = m then v else tabGet d t m := by
  induction t with
  | nil => simp [tabSet, tabGet]
  | cons e t ih =>
    obtain ⟨k, w⟩ := e
    simp only [tabSet]
    split
    · rename_i hk
      subst hk
      by_cases h : k = m <;> simp [tabGet, h]
    · split
      · by_cases h : n = m <;> simp [tabGet, h]
      · by_cases h : k = m
        · subst h
          simp [tabGet, show n ≠ k from fun e => by omega]
        · simp [tabGet, h, ih]

@[simp] theorem tabGet_tabSet_self {α : Type} (d : α) (t : Tab α) (n : Nat) (v : α) : tabGet d (tabSet t n v) n = v := by
  rw [tabGet_tabSet, if_pos rfl]

theorem tabGet_tabSet_ne {α : Type} (d : α) (t : Tab α) {n m : Nat} (v : α) (h : n ≠ m) :
    tabGet d (tabSet t n v) m = tabGet d t m := by
  rw [tabGet_tabSet, if_neg h]

theorem tabFind_tabSet {α : Type} (t : Tab α) (n m : Nat) (v : α) :
    tabFind (tabSet t n v) m = if n = m then some v else tabFind t m := by
  induction t with
  | nil => simp [tabSet, tabFind]
  | cons e t ih =>
    obtain ⟨k, w⟩ := e
    simp only [tabSet]
    split
    · rename_i hk
      subst hk
      by_cases h : k = m <;> simp [tabFind, h]
    · split
      · by_cases h : n = m <;> simp [tabFind, h]
      · by_cases h : k = m
        · subst h
          simp [tabFind, show n ≠ k from fun e => by omega]
        · simp [tabFind, h, ih]

theorem mem_tabSet {α : Type} {t : Tab α} {n : Nat} {v : α} {e : Nat × α} (h : e ∈ tabSet t n v) :
    e = (n, v) ∨ e ∈ t := by
  induction t with
  | nil => simpa [tabSet] using h
  | cons x t ih =>
    obtain ⟨k, w⟩ := x
    simp only [tabSet] at h
    split at h
    · rcases List.mem_cons.1 h with h | h
      · exact .inl h
      · exact .inr (List.mem_cons_of_mem _ h)
    · split at h
      · rcases List.mem_cons.1 h with h | h
        · exact .inl h
        · exact .inr h
      · rcases List.mem_cons.1 h with h | h
        · exact .inr (h ▸ List.mem_cons_self ..)
        · exact (ih h).imp_right (List.mem_cons_of_mem _)

-- places and slots

@[simp] theorem State.at'_setAt_self (s : State) (p : Place) (c : CoreSt) : (s.setAt p c).at' p = c := by
  cases p <;> simp [State.at', State.setAt]

theorem State.at'_setAt_ne (s : State) {p q : Place} (c : CoreSt) (h : p ≠ q) : (s.setAt p c).at' q = s.at' q := by
  cases p <;> cases q <;> simp_all [State.at', State.setAt, tabGet_tabSet_ne]

@[simp] theorem State.slotAt_setSlot_self (s : State) (i : Sid) (x : Slot) : (s.setSlot i x).slotAt i = x := by
  simp [State.slotAt, State.setSlot]

theorem State.slotAt_setSlot_ne (s : State) {i j : Sid} (x : Slot) (h : i ≠ j) :
    (s.setSlot i x).slotAt j = s.slotAt j := by
  obtain ⟨p, k⟩ := i
  obtain ⟨q, m⟩ := j
  by_cases hp : p = q
  · subst hp
    have hk : k ≠ m := fun e => h (by rw [e])
    simp [State.slotAt, State.setSlot, tabGet_tabSet_ne _ _ _ hk]
  · simp [State.slotAt, State.setSlot, State.at'_setAt_ne _ _ hp]

@[simp] theorem State.cluster_setCluster_self (s : State) (n : Nat) (c : ClusterSt) :
    (s.setCluster n c).cluster n = c := by
  simp [State.cluster, State.setCluster]

@[simp] theorem State.car_setCar_self (s : State) (n : Nat) (c : Carriage) : (s.setCar n c).car n = c := by
  simp [State.car, State.setCar]

theorem State.car_setCar_ne (s : State) {n m : Nat} (c : Carriage) (h : n ≠ m) : (s.setCar n c).car m = s.car m := by
  simp [State.car, State.setCar, tabGet_tabSet_ne _ _ _ h]

-- registers

@[simp] theorem Slot.gr_zero (x : Slot) : x.gr 0 = 0 := rfl

theorem Slot.gr_setGr (x : Slot) (n m : BitVec 4) (v : Word) (h : n ≠ 0) :
    (x.setGr n v).gr m = if n = m then v else x.gr m := by
  unfold Slot.setGr Slot.gr
  rw [if_neg h]
  by_cases hnm : n = m
  · subst hnm
    rw [if_neg h, if_pos rfl]
    simp
  · have : n.toNat ≠ m.toNat := fun e => hnm (BitVec.eq_of_toNat_eq e)
    rw [if_neg hnm]
    simp [this]

@[simp] theorem Slot.setGr_zero (x : Slot) (v : Word) : x.setGr 0 v = x := rfl

-- State.setAt and State.setSlot change no field but the places

@[simp] theorem State.setAt_cyc (s : State) (p : Place) (c : CoreSt) : (s.setAt p c).cyc = s.cyc := by
  cases p <;> rfl

@[simp] theorem State.setSlot_cyc (s : State) (i : Sid) (x : Slot) : (s.setSlot i x).cyc = s.cyc :=
  State.setAt_cyc ..

@[simp] theorem State.setAt_cur (s : State) (p : Place) (c : CoreSt) : (s.setAt p c).cur = s.cur := by
  cases p <;> rfl

@[simp] theorem State.setSlot_cur (s : State) (i : Sid) (x : Slot) : (s.setSlot i x).cur = s.cur :=
  State.setAt_cur ..

@[simp] theorem State.setAt_word (s : State) (p : Place) (c : CoreSt) : (s.setAt p c).word = s.word := by
  cases p <;> rfl

@[simp] theorem State.setSlot_word (s : State) (i : Sid) (x : Slot) : (s.setSlot i x).word = s.word :=
  State.setAt_word ..

@[simp] theorem State.setAt_subj (s : State) (p : Place) (c : CoreSt) : (s.setAt p c).subj = s.subj := by
  cases p <;> rfl

@[simp] theorem State.setSlot_subj (s : State) (i : Sid) (x : Slot) : (s.setSlot i x).subj = s.subj :=
  State.setAt_subj ..

@[simp] theorem State.setAt_agenda (s : State) (p : Place) (c : CoreSt) : (s.setAt p c).agenda = s.agenda := by
  cases p <;> rfl

@[simp] theorem State.setSlot_agenda (s : State) (i : Sid) (x : Slot) : (s.setSlot i x).agenda = s.agenda :=
  State.setAt_agenda ..

@[simp] theorem State.setAt_tick (s : State) (p : Place) (c : CoreSt) : (s.setAt p c).tick = s.tick := by
  cases p <;> rfl

@[simp] theorem State.setSlot_tick (s : State) (i : Sid) (x : Slot) : (s.setSlot i x).tick = s.tick :=
  State.setAt_tick ..

@[simp] theorem State.setAt_fresh (s : State) (p : Place) (c : CoreSt) : (s.setAt p c).fresh = s.fresh := by
  cases p <;> rfl

@[simp] theorem State.setSlot_fresh (s : State) (i : Sid) (x : Slot) : (s.setSlot i x).fresh = s.fresh :=
  State.setAt_fresh ..

@[simp] theorem State.setAt_nextId (s : State) (p : Place) (c : CoreSt) : (s.setAt p c).nextId = s.nextId := by
  cases p <;> rfl

@[simp] theorem State.setSlot_nextId (s : State) (i : Sid) (x : Slot) : (s.setSlot i x).nextId = s.nextId :=
  State.setAt_nextId ..

@[simp] theorem State.setAt_mem (s : State) (p : Place) (c : CoreSt) : (s.setAt p c).mem = s.mem := by
  cases p <;> rfl

@[simp] theorem State.setSlot_mem (s : State) (i : Sid) (x : Slot) : (s.setSlot i x).mem = s.mem :=
  State.setAt_mem ..

@[simp] theorem State.setAt_hostMem (s : State) (p : Place) (c : CoreSt) : (s.setAt p c).hostMem = s.hostMem := by
  cases p <;> rfl

@[simp] theorem State.setSlot_hostMem (s : State) (i : Sid) (x : Slot) : (s.setSlot i x).hostMem = s.hostMem :=
  State.setAt_hostMem ..

@[simp] theorem State.setAt_l2 (s : State) (p : Place) (c : CoreSt) : (s.setAt p c).l2 = s.l2 := by
  cases p <;> rfl

@[simp] theorem State.setSlot_l2 (s : State) (i : Sid) (x : Slot) : (s.setSlot i x).l2 = s.l2 :=
  State.setAt_l2 ..

@[simp] theorem State.setAt_poison (s : State) (p : Place) (c : CoreSt) : (s.setAt p c).poison = s.poison := by
  cases p <;> rfl

@[simp] theorem State.setSlot_poison (s : State) (i : Sid) (x : Slot) : (s.setSlot i x).poison = s.poison :=
  State.setAt_poison ..

@[simp] theorem State.setAt_frameTable (s : State) (p : Place) (c : CoreSt) : (s.setAt p c).frameTable = s.frameTable := by
  cases p <;> rfl

@[simp] theorem State.setSlot_frameTable (s : State) (i : Sid) (x : Slot) : (s.setSlot i x).frameTable = s.frameTable :=
  State.setAt_frameTable ..

@[simp] theorem State.setAt_hostLines (s : State) (p : Place) (c : CoreSt) : (s.setAt p c).hostLines = s.hostLines := by
  cases p <;> rfl

@[simp] theorem State.setAt_snooped (s : State) (p : Place) (c : CoreSt) : (s.setAt p c).snooped = s.snooped := by
  cases p <;> rfl

@[simp] theorem State.setAt_hostBad (s : State) (p : Place) (c : CoreSt) : (s.setAt p c).hostBad = s.hostBad := by
  cases p <;> rfl

@[simp] theorem State.setAt_downCouplings (s : State) (p : Place) (c : CoreSt) : (s.setAt p c).downCouplings = s.downCouplings := by
  cases p <;> rfl

@[simp] theorem State.setAt_cxl (s : State) (p : Place) (c : CoreSt) : (s.setAt p c).cxl = s.cxl := by
  cases p <;> rfl

@[simp] theorem State.setAt_temp (s : State) (p : Place) (c : CoreSt) : (s.setAt p c).temp = s.temp := by
  cases p <;> rfl

@[simp] theorem State.setSlot_hostLines (s : State) (i : Sid) (x : Slot) : (s.setSlot i x).hostLines = s.hostLines :=
  State.setAt_hostLines ..

@[simp] theorem State.setSlot_snooped (s : State) (i : Sid) (x : Slot) : (s.setSlot i x).snooped = s.snooped :=
  State.setAt_snooped ..

@[simp] theorem State.setSlot_hostBad (s : State) (i : Sid) (x : Slot) : (s.setSlot i x).hostBad = s.hostBad :=
  State.setAt_hostBad ..

@[simp] theorem State.setSlot_downCouplings (s : State) (i : Sid) (x : Slot) : (s.setSlot i x).downCouplings = s.downCouplings :=
  State.setAt_downCouplings ..

@[simp] theorem State.setSlot_cxl (s : State) (i : Sid) (x : Slot) : (s.setSlot i x).cxl = s.cxl :=
  State.setAt_cxl ..

@[simp] theorem State.setSlot_temp (s : State) (i : Sid) (x : Slot) : (s.setSlot i x).temp = s.temp :=
  State.setAt_temp ..

@[simp] theorem State.setAt_snoops (s : State) (p : Place) (c : CoreSt) : (s.setAt p c).snoops = s.snoops := by
  cases p <;> rfl

@[simp] theorem State.setSlot_snoops (s : State) (i : Sid) (x : Slot) : (s.setSlot i x).snoops = s.snoops :=
  State.setAt_snoops ..

@[simp] theorem State.setAt_booted (s : State) (p : Place) (c : CoreSt) : (s.setAt p c).booted = s.booted := by
  cases p <;> rfl

@[simp] theorem State.setSlot_booted (s : State) (i : Sid) (x : Slot) : (s.setSlot i x).booted = s.booted :=
  State.setAt_booted ..

@[simp] theorem State.setAt_deadClusters (s : State) (p : Place) (c : CoreSt) : (s.setAt p c).deadClusters = s.deadClusters := by
  cases p <;> rfl

@[simp] theorem State.setSlot_deadClusters (s : State) (i : Sid) (x : Slot) : (s.setSlot i x).deadClusters = s.deadClusters :=
  State.setAt_deadClusters ..

@[simp] theorem State.setAt_deadSlices (s : State) (p : Place) (c : CoreSt) : (s.setAt p c).deadSlices = s.deadSlices := by
  cases p <;> rfl

@[simp] theorem State.setSlot_deadSlices (s : State) (i : Sid) (x : Slot) : (s.setSlot i x).deadSlices = s.deadSlices :=
  State.setAt_deadSlices ..

@[simp] theorem State.setAt_deadChannels (s : State) (p : Place) (c : CoreSt) : (s.setAt p c).deadChannels = s.deadChannels := by
  cases p <;> rfl

@[simp] theorem State.setSlot_deadChannels (s : State) (i : Sid) (x : Slot) : (s.setSlot i x).deadChannels = s.deadChannels :=
  State.setAt_deadChannels ..

@[simp] theorem State.setAt_deadLanes (s : State) (p : Place) (c : CoreSt) : (s.setAt p c).deadLanes = s.deadLanes := by
  cases p <;> rfl

@[simp] theorem State.setSlot_deadLanes (s : State) (i : Sid) (x : Slot) : (s.setSlot i x).deadLanes = s.deadLanes :=
  State.setAt_deadLanes ..

@[simp] theorem State.setAt_sliceIcache (s : State) (p : Place) (c : CoreSt) : (s.setAt p c).sliceIcache = s.sliceIcache := by
  cases p <;> rfl

@[simp] theorem State.setSlot_sliceIcache (s : State) (i : Sid) (x : Slot) : (s.setSlot i x).sliceIcache = s.sliceIcache :=
  State.setAt_sliceIcache ..

@[simp] theorem State.setAt_clusters (s : State) (p : Place) (c : CoreSt) : (s.setAt p c).clusters = s.clusters := by
  cases p <;> rfl

@[simp] theorem State.setSlot_clusters (s : State) (i : Sid) (x : Slot) : (s.setSlot i x).clusters = s.clusters :=
  State.setAt_clusters ..

@[simp] theorem State.setAt_cars (s : State) (p : Place) (c : CoreSt) : (s.setAt p c).cars = s.cars := by
  cases p <;> rfl

@[simp] theorem State.setSlot_cars (s : State) (i : Sid) (x : Slot) : (s.setSlot i x).cars = s.cars :=
  State.setAt_cars ..

@[simp] theorem State.setAt_flights (s : State) (p : Place) (c : CoreSt) : (s.setAt p c).flights = s.flights := by
  cases p <;> rfl

@[simp] theorem State.setSlot_flights (s : State) (i : Sid) (x : Slot) : (s.setSlot i x).flights = s.flights :=
  State.setAt_flights ..

@[simp] theorem State.setAt_cmds (s : State) (p : Place) (c : CoreSt) : (s.setAt p c).cmds = s.cmds := by
  cases p <;> rfl

@[simp] theorem State.setSlot_cmds (s : State) (i : Sid) (x : Slot) : (s.setSlot i x).cmds = s.cmds :=
  State.setAt_cmds ..

@[simp] theorem State.setAt_launches (s : State) (p : Place) (c : CoreSt) : (s.setAt p c).launches = s.launches := by
  cases p <;> rfl

@[simp] theorem State.setSlot_launches (s : State) (i : Sid) (x : Slot) : (s.setSlot i x).launches = s.launches :=
  State.setAt_launches ..

@[simp] theorem State.setAt_queues (s : State) (p : Place) (c : CoreSt) : (s.setAt p c).queues = s.queues := by
  cases p <;> rfl

@[simp] theorem State.setSlot_queues (s : State) (i : Sid) (x : Slot) : (s.setSlot i x).queues = s.queues :=
  State.setAt_queues ..

@[simp] theorem State.setAt_ring (s : State) (p : Place) (c : CoreSt) : (s.setAt p c).ring = s.ring := by
  cases p <;> rfl

@[simp] theorem State.setSlot_ring (s : State) (i : Sid) (x : Slot) : (s.setSlot i x).ring = s.ring :=
  State.setAt_ring ..

@[simp] theorem State.setAt_msix (s : State) (p : Place) (c : CoreSt) : (s.setAt p c).msix = s.msix := by
  cases p <;> rfl

@[simp] theorem State.setSlot_msix (s : State) (i : Sid) (x : Slot) : (s.setSlot i x).msix = s.msix :=
  State.setAt_msix ..

@[simp] theorem State.setAt_devId (s : State) (p : Place) (c : CoreSt) : (s.setAt p c).devId = s.devId := by
  cases p <;> rfl

@[simp] theorem State.setSlot_devId (s : State) (i : Sid) (x : Slot) : (s.setSlot i x).devId = s.devId :=
  State.setAt_devId ..

@[simp] theorem State.setAt_groups (s : State) (p : Place) (c : CoreSt) : (s.setAt p c).groups = s.groups := by
  cases p <;> rfl

@[simp] theorem State.setSlot_groups (s : State) (i : Sid) (x : Slot) : (s.setSlot i x).groups = s.groups :=
  State.setAt_groups ..

@[simp] theorem State.setAt_matches_ (s : State) (p : Place) (c : CoreSt) : (s.setAt p c).matches' = s.matches' := by
  cases p <;> rfl

@[simp] theorem State.setSlot_matches_ (s : State) (i : Sid) (x : Slot) : (s.setSlot i x).matches' = s.matches' :=
  State.setAt_matches_ ..

@[simp] theorem State.setAt_lostCouplings (s : State) (p : Place) (c : CoreSt) : (s.setAt p c).lostCouplings = s.lostCouplings := by
  cases p <;> rfl

@[simp] theorem State.setSlot_lostCouplings (s : State) (i : Sid) (x : Slot) : (s.setSlot i x).lostCouplings = s.lostCouplings :=
  State.setAt_lostCouplings ..

@[simp] theorem State.setAt_errs (s : State) (p : Place) (c : CoreSt) : (s.setAt p c).errs = s.errs := by
  cases p <;> rfl

@[simp] theorem State.setSlot_errs (s : State) (i : Sid) (x : Slot) : (s.setSlot i x).errs = s.errs :=
  State.setAt_errs ..

@[simp] theorem State.setAt_retireLog (s : State) (p : Place) (c : CoreSt) : (s.setAt p c).retireLog = s.retireLog := by
  cases p <;> rfl

@[simp] theorem State.setSlot_retireLog (s : State) (i : Sid) (x : Slot) : (s.setSlot i x).retireLog = s.retireLog :=
  State.setAt_retireLog ..

@[simp] theorem State.setAt_imageA (s : State) (p : Place) (c : CoreSt) : (s.setAt p c).imageA = s.imageA := by
  cases p <;> rfl

@[simp] theorem State.setSlot_imageA (s : State) (i : Sid) (x : Slot) : (s.setSlot i x).imageA = s.imageA :=
  State.setAt_imageA ..

@[simp] theorem State.setAt_imageB (s : State) (p : Place) (c : CoreSt) : (s.setAt p c).imageB = s.imageB := by
  cases p <;> rfl

@[simp] theorem State.setSlot_imageB (s : State) (i : Sid) (x : Slot) : (s.setSlot i x).imageB = s.imageB :=
  State.setAt_imageB ..

@[simp] theorem State.setAt_confRec (s : State) (p : Place) (c : CoreSt) : (s.setAt p c).confRec = s.confRec := by
  cases p <;> rfl

@[simp] theorem State.setSlot_confRec (s : State) (i : Sid) (x : Slot) : (s.setSlot i x).confRec = s.confRec :=
  State.setAt_confRec ..

@[simp] theorem State.setAt_bootImage (s : State) (p : Place) (c : CoreSt) : (s.setAt p c).bootImage = s.bootImage := by
  cases p <;> rfl

@[simp] theorem State.setSlot_bootImage (s : State) (i : Sid) (x : Slot) : (s.setSlot i x).bootImage = s.bootImage :=
  State.setAt_bootImage ..

@[simp] theorem State.setAt_bootStatus (s : State) (p : Place) (c : CoreSt) : (s.setAt p c).bootStatus = s.bootStatus := by
  cases p <;> rfl

@[simp] theorem State.setSlot_bootStatus (s : State) (i : Sid) (x : Slot) : (s.setSlot i x).bootStatus = s.bootStatus :=
  State.setAt_bootStatus ..

@[simp] theorem State.setAt_linkLanes (s : State) (p : Place) (c : CoreSt) : (s.setAt p c).linkLanes = s.linkLanes := by
  cases p <;> rfl

@[simp] theorem State.setSlot_linkLanes (s : State) (i : Sid) (x : Slot) : (s.setSlot i x).linkLanes = s.linkLanes :=
  State.setAt_linkLanes ..

@[simp] theorem State.setAt_linkGts (s : State) (p : Place) (c : CoreSt) : (s.setAt p c).linkGts = s.linkGts := by
  cases p <;> rfl

@[simp] theorem State.setSlot_linkGts (s : State) (i : Sid) (x : Slot) : (s.setSlot i x).linkGts = s.linkGts :=
  State.setAt_linkGts ..

@[simp] theorem State.setAt_ideKeys (s : State) (p : Place) (c : CoreSt) : (s.setAt p c).ideKeys = s.ideKeys := by
  cases p <;> rfl

@[simp] theorem State.setSlot_ideKeys (s : State) (i : Sid) (x : Slot) : (s.setSlot i x).ideKeys = s.ideKeys :=
  State.setAt_ideKeys ..

@[simp] theorem State.setAt_attest (s : State) (p : Place) (c : CoreSt) : (s.setAt p c).attest = s.attest := by
  cases p <;> rfl

@[simp] theorem State.setSlot_attest (s : State) (i : Sid) (x : Slot) : (s.setSlot i x).attest = s.attest :=
  State.setAt_attest ..

@[simp] theorem State.setAt_tripped (s : State) (p : Place) (c : CoreSt) : (s.setAt p c).tripped = s.tripped := by
  cases p <;> rfl

@[simp] theorem State.setSlot_tripped (s : State) (i : Sid) (x : Slot) : (s.setSlot i x).tripped = s.tripped :=
  State.setAt_tripped ..

@[simp] theorem State.setAt_zeroRefill (s : State) (p : Place) (c : CoreSt) : (s.setAt p c).zeroRefill = s.zeroRefill := by
  cases p <;> rfl

@[simp] theorem State.setSlot_zeroRefill (s : State) (i : Sid) (x : Slot) : (s.setSlot i x).zeroRefill = s.zeroRefill :=
  State.setAt_zeroRefill ..

@[simp] theorem State.setAt_paging (s : State) (p : Place) (c : CoreSt) : (s.setAt p c).paging = s.paging := by
  cases p <;> rfl

@[simp] theorem State.setSlot_paging (s : State) (i : Sid) (x : Slot) : (s.setSlot i x).paging = s.paging :=
  State.setAt_paging ..

@[simp] theorem State.setAt_umberVersion (s : State) (p : Place) (c : CoreSt) : (s.setAt p c).umberVersion = s.umberVersion := by
  cases p <;> rfl

@[simp] theorem State.setSlot_umberVersion (s : State) (i : Sid) (x : Slot) : (s.setSlot i x).umberVersion = s.umberVersion :=
  State.setAt_umberVersion ..

-- State.setCluster

@[simp] theorem State.setCluster_cyc (s : State) (n : Nat) (c : ClusterSt) : (s.setCluster n c).cyc = s.cyc := rfl

@[simp] theorem State.setCluster_cur (s : State) (n : Nat) (c : ClusterSt) : (s.setCluster n c).cur = s.cur := rfl

@[simp] theorem State.setCluster_word (s : State) (n : Nat) (c : ClusterSt) : (s.setCluster n c).word = s.word := rfl

@[simp] theorem State.setCluster_subj (s : State) (n : Nat) (c : ClusterSt) : (s.setCluster n c).subj = s.subj := rfl

@[simp] theorem State.setCluster_agenda (s : State) (n : Nat) (c : ClusterSt) : (s.setCluster n c).agenda = s.agenda := rfl

@[simp] theorem State.setCluster_tick (s : State) (n : Nat) (c : ClusterSt) : (s.setCluster n c).tick = s.tick := rfl

@[simp] theorem State.setCluster_fresh (s : State) (n : Nat) (c : ClusterSt) : (s.setCluster n c).fresh = s.fresh := rfl

@[simp] theorem State.setCluster_nextId (s : State) (n : Nat) (c : ClusterSt) : (s.setCluster n c).nextId = s.nextId := rfl

@[simp] theorem State.setCluster_mem (s : State) (n : Nat) (c : ClusterSt) : (s.setCluster n c).mem = s.mem := rfl

@[simp] theorem State.setCluster_hostMem (s : State) (n : Nat) (c : ClusterSt) : (s.setCluster n c).hostMem = s.hostMem := rfl

@[simp] theorem State.setCluster_l2 (s : State) (n : Nat) (c : ClusterSt) : (s.setCluster n c).l2 = s.l2 := rfl

@[simp] theorem State.setCluster_poison (s : State) (n : Nat) (c : ClusterSt) : (s.setCluster n c).poison = s.poison := rfl

@[simp] theorem State.setCluster_frameTable (s : State) (n : Nat) (c : ClusterSt) : (s.setCluster n c).frameTable = s.frameTable := rfl

@[simp] theorem State.setCluster_hostLines (s : State) (n : Nat) (c : ClusterSt) : (s.setCluster n c).hostLines = s.hostLines := rfl

@[simp] theorem State.setCluster_snooped (s : State) (n : Nat) (c : ClusterSt) : (s.setCluster n c).snooped = s.snooped := rfl

@[simp] theorem State.setCluster_hostBad (s : State) (n : Nat) (c : ClusterSt) : (s.setCluster n c).hostBad = s.hostBad := rfl

@[simp] theorem State.setCluster_downCouplings (s : State) (n : Nat) (c : ClusterSt) : (s.setCluster n c).downCouplings = s.downCouplings := rfl

@[simp] theorem State.setCluster_cxl (s : State) (n : Nat) (c : ClusterSt) : (s.setCluster n c).cxl = s.cxl := rfl

@[simp] theorem State.setCluster_temp (s : State) (n : Nat) (c : ClusterSt) : (s.setCluster n c).temp = s.temp := rfl

@[simp] theorem State.setCluster_snoops (s : State) (n : Nat) (c : ClusterSt) : (s.setCluster n c).snoops = s.snoops := rfl

@[simp] theorem State.setCluster_booted (s : State) (n : Nat) (c : ClusterSt) : (s.setCluster n c).booted = s.booted := rfl

@[simp] theorem State.setCluster_deadClusters (s : State) (n : Nat) (c : ClusterSt) : (s.setCluster n c).deadClusters = s.deadClusters := rfl

@[simp] theorem State.setCluster_deadSlices (s : State) (n : Nat) (c : ClusterSt) : (s.setCluster n c).deadSlices = s.deadSlices := rfl

@[simp] theorem State.setCluster_deadChannels (s : State) (n : Nat) (c : ClusterSt) : (s.setCluster n c).deadChannels = s.deadChannels := rfl

@[simp] theorem State.setCluster_deadLanes (s : State) (n : Nat) (c : ClusterSt) : (s.setCluster n c).deadLanes = s.deadLanes := rfl

@[simp] theorem State.setCluster_cores (s : State) (n : Nat) (c : ClusterSt) : (s.setCluster n c).cores = s.cores := rfl

@[simp] theorem State.setCluster_slices (s : State) (n : Nat) (c : ClusterSt) : (s.setCluster n c).slices = s.slices := rfl

@[simp] theorem State.setCluster_sliceIcache (s : State) (n : Nat) (c : ClusterSt) : (s.setCluster n c).sliceIcache = s.sliceIcache := rfl

@[simp] theorem State.setCluster_cars (s : State) (n : Nat) (c : ClusterSt) : (s.setCluster n c).cars = s.cars := rfl

@[simp] theorem State.setCluster_flights (s : State) (n : Nat) (c : ClusterSt) : (s.setCluster n c).flights = s.flights := rfl

@[simp] theorem State.setCluster_cmds (s : State) (n : Nat) (c : ClusterSt) : (s.setCluster n c).cmds = s.cmds := rfl

@[simp] theorem State.setCluster_launches (s : State) (n : Nat) (c : ClusterSt) : (s.setCluster n c).launches = s.launches := rfl

@[simp] theorem State.setCluster_queues (s : State) (n : Nat) (c : ClusterSt) : (s.setCluster n c).queues = s.queues := rfl

@[simp] theorem State.setCluster_ring (s : State) (n : Nat) (c : ClusterSt) : (s.setCluster n c).ring = s.ring := rfl

@[simp] theorem State.setCluster_msix (s : State) (n : Nat) (c : ClusterSt) : (s.setCluster n c).msix = s.msix := rfl

@[simp] theorem State.setCluster_devId (s : State) (n : Nat) (c : ClusterSt) : (s.setCluster n c).devId = s.devId := rfl

@[simp] theorem State.setCluster_groups (s : State) (n : Nat) (c : ClusterSt) : (s.setCluster n c).groups = s.groups := rfl

@[simp] theorem State.setCluster_matches_ (s : State) (n : Nat) (c : ClusterSt) : (s.setCluster n c).matches' = s.matches' := rfl

@[simp] theorem State.setCluster_lostCouplings (s : State) (n : Nat) (c : ClusterSt) : (s.setCluster n c).lostCouplings = s.lostCouplings := rfl

@[simp] theorem State.setCluster_errs (s : State) (n : Nat) (c : ClusterSt) : (s.setCluster n c).errs = s.errs := rfl

@[simp] theorem State.setCluster_retireLog (s : State) (n : Nat) (c : ClusterSt) : (s.setCluster n c).retireLog = s.retireLog := rfl

@[simp] theorem State.setCluster_imageA (s : State) (n : Nat) (c : ClusterSt) : (s.setCluster n c).imageA = s.imageA := rfl

@[simp] theorem State.setCluster_imageB (s : State) (n : Nat) (c : ClusterSt) : (s.setCluster n c).imageB = s.imageB := rfl

@[simp] theorem State.setCluster_confRec (s : State) (n : Nat) (c : ClusterSt) : (s.setCluster n c).confRec = s.confRec := rfl

@[simp] theorem State.setCluster_bootImage (s : State) (n : Nat) (c : ClusterSt) : (s.setCluster n c).bootImage = s.bootImage := rfl

@[simp] theorem State.setCluster_bootStatus (s : State) (n : Nat) (c : ClusterSt) : (s.setCluster n c).bootStatus = s.bootStatus := rfl

@[simp] theorem State.setCluster_linkLanes (s : State) (n : Nat) (c : ClusterSt) : (s.setCluster n c).linkLanes = s.linkLanes := rfl

@[simp] theorem State.setCluster_linkGts (s : State) (n : Nat) (c : ClusterSt) : (s.setCluster n c).linkGts = s.linkGts := rfl

@[simp] theorem State.setCluster_ideKeys (s : State) (n : Nat) (c : ClusterSt) : (s.setCluster n c).ideKeys = s.ideKeys := rfl

@[simp] theorem State.setCluster_attest (s : State) (n : Nat) (c : ClusterSt) : (s.setCluster n c).attest = s.attest := rfl

@[simp] theorem State.setCluster_tripped (s : State) (n : Nat) (c : ClusterSt) : (s.setCluster n c).tripped = s.tripped := rfl

@[simp] theorem State.setCluster_zeroRefill (s : State) (n : Nat) (c : ClusterSt) : (s.setCluster n c).zeroRefill = s.zeroRefill := rfl

@[simp] theorem State.setCluster_paging (s : State) (n : Nat) (c : ClusterSt) : (s.setCluster n c).paging = s.paging := rfl

@[simp] theorem State.setCluster_umberVersion (s : State) (n : Nat) (c : ClusterSt) : (s.setCluster n c).umberVersion = s.umberVersion := rfl

-- State.setCar

@[simp] theorem State.setCar_cyc (s : State) (n : Nat) (c : Carriage) : (s.setCar n c).cyc = s.cyc := rfl

@[simp] theorem State.setCar_cur (s : State) (n : Nat) (c : Carriage) : (s.setCar n c).cur = s.cur := rfl

@[simp] theorem State.setCar_word (s : State) (n : Nat) (c : Carriage) : (s.setCar n c).word = s.word := rfl

@[simp] theorem State.setCar_subj (s : State) (n : Nat) (c : Carriage) : (s.setCar n c).subj = s.subj := rfl

@[simp] theorem State.setCar_agenda (s : State) (n : Nat) (c : Carriage) : (s.setCar n c).agenda = s.agenda := rfl

@[simp] theorem State.setCar_tick (s : State) (n : Nat) (c : Carriage) : (s.setCar n c).tick = s.tick := rfl

@[simp] theorem State.setCar_fresh (s : State) (n : Nat) (c : Carriage) : (s.setCar n c).fresh = s.fresh := rfl

@[simp] theorem State.setCar_nextId (s : State) (n : Nat) (c : Carriage) : (s.setCar n c).nextId = s.nextId := rfl

@[simp] theorem State.setCar_mem (s : State) (n : Nat) (c : Carriage) : (s.setCar n c).mem = s.mem := rfl

@[simp] theorem State.setCar_hostMem (s : State) (n : Nat) (c : Carriage) : (s.setCar n c).hostMem = s.hostMem := rfl

@[simp] theorem State.setCar_l2 (s : State) (n : Nat) (c : Carriage) : (s.setCar n c).l2 = s.l2 := rfl

@[simp] theorem State.setCar_poison (s : State) (n : Nat) (c : Carriage) : (s.setCar n c).poison = s.poison := rfl

@[simp] theorem State.setCar_frameTable (s : State) (n : Nat) (c : Carriage) : (s.setCar n c).frameTable = s.frameTable := rfl

@[simp] theorem State.setCar_hostLines (s : State) (n : Nat) (c : Carriage) : (s.setCar n c).hostLines = s.hostLines := rfl

@[simp] theorem State.setCar_snooped (s : State) (n : Nat) (c : Carriage) : (s.setCar n c).snooped = s.snooped := rfl

@[simp] theorem State.setCar_hostBad (s : State) (n : Nat) (c : Carriage) : (s.setCar n c).hostBad = s.hostBad := rfl

@[simp] theorem State.setCar_downCouplings (s : State) (n : Nat) (c : Carriage) : (s.setCar n c).downCouplings = s.downCouplings := rfl

@[simp] theorem State.setCar_cxl (s : State) (n : Nat) (c : Carriage) : (s.setCar n c).cxl = s.cxl := rfl

@[simp] theorem State.setCar_temp (s : State) (n : Nat) (c : Carriage) : (s.setCar n c).temp = s.temp := rfl

@[simp] theorem State.setCar_snoops (s : State) (n : Nat) (c : Carriage) : (s.setCar n c).snoops = s.snoops := rfl

@[simp] theorem State.setCar_booted (s : State) (n : Nat) (c : Carriage) : (s.setCar n c).booted = s.booted := rfl

@[simp] theorem State.setCar_deadClusters (s : State) (n : Nat) (c : Carriage) : (s.setCar n c).deadClusters = s.deadClusters := rfl

@[simp] theorem State.setCar_deadSlices (s : State) (n : Nat) (c : Carriage) : (s.setCar n c).deadSlices = s.deadSlices := rfl

@[simp] theorem State.setCar_deadChannels (s : State) (n : Nat) (c : Carriage) : (s.setCar n c).deadChannels = s.deadChannels := rfl

@[simp] theorem State.setCar_deadLanes (s : State) (n : Nat) (c : Carriage) : (s.setCar n c).deadLanes = s.deadLanes := rfl

@[simp] theorem State.setCar_cores (s : State) (n : Nat) (c : Carriage) : (s.setCar n c).cores = s.cores := rfl

@[simp] theorem State.setCar_slices (s : State) (n : Nat) (c : Carriage) : (s.setCar n c).slices = s.slices := rfl

@[simp] theorem State.setCar_sliceIcache (s : State) (n : Nat) (c : Carriage) : (s.setCar n c).sliceIcache = s.sliceIcache := rfl

@[simp] theorem State.setCar_clusters (s : State) (n : Nat) (c : Carriage) : (s.setCar n c).clusters = s.clusters := rfl

@[simp] theorem State.setCar_flights (s : State) (n : Nat) (c : Carriage) : (s.setCar n c).flights = s.flights := rfl

@[simp] theorem State.setCar_cmds (s : State) (n : Nat) (c : Carriage) : (s.setCar n c).cmds = s.cmds := rfl

@[simp] theorem State.setCar_launches (s : State) (n : Nat) (c : Carriage) : (s.setCar n c).launches = s.launches := rfl

@[simp] theorem State.setCar_queues (s : State) (n : Nat) (c : Carriage) : (s.setCar n c).queues = s.queues := rfl

@[simp] theorem State.setCar_ring (s : State) (n : Nat) (c : Carriage) : (s.setCar n c).ring = s.ring := rfl

@[simp] theorem State.setCar_msix (s : State) (n : Nat) (c : Carriage) : (s.setCar n c).msix = s.msix := rfl

@[simp] theorem State.setCar_devId (s : State) (n : Nat) (c : Carriage) : (s.setCar n c).devId = s.devId := rfl

@[simp] theorem State.setCar_groups (s : State) (n : Nat) (c : Carriage) : (s.setCar n c).groups = s.groups := rfl

@[simp] theorem State.setCar_matches_ (s : State) (n : Nat) (c : Carriage) : (s.setCar n c).matches' = s.matches' := rfl

@[simp] theorem State.setCar_lostCouplings (s : State) (n : Nat) (c : Carriage) : (s.setCar n c).lostCouplings = s.lostCouplings := rfl

@[simp] theorem State.setCar_errs (s : State) (n : Nat) (c : Carriage) : (s.setCar n c).errs = s.errs := rfl

@[simp] theorem State.setCar_retireLog (s : State) (n : Nat) (c : Carriage) : (s.setCar n c).retireLog = s.retireLog := rfl

@[simp] theorem State.setCar_imageA (s : State) (n : Nat) (c : Carriage) : (s.setCar n c).imageA = s.imageA := rfl

@[simp] theorem State.setCar_imageB (s : State) (n : Nat) (c : Carriage) : (s.setCar n c).imageB = s.imageB := rfl

@[simp] theorem State.setCar_confRec (s : State) (n : Nat) (c : Carriage) : (s.setCar n c).confRec = s.confRec := rfl

@[simp] theorem State.setCar_bootImage (s : State) (n : Nat) (c : Carriage) : (s.setCar n c).bootImage = s.bootImage := rfl

@[simp] theorem State.setCar_bootStatus (s : State) (n : Nat) (c : Carriage) : (s.setCar n c).bootStatus = s.bootStatus := rfl

@[simp] theorem State.setCar_linkLanes (s : State) (n : Nat) (c : Carriage) : (s.setCar n c).linkLanes = s.linkLanes := rfl

@[simp] theorem State.setCar_linkGts (s : State) (n : Nat) (c : Carriage) : (s.setCar n c).linkGts = s.linkGts := rfl

@[simp] theorem State.setCar_ideKeys (s : State) (n : Nat) (c : Carriage) : (s.setCar n c).ideKeys = s.ideKeys := rfl

@[simp] theorem State.setCar_attest (s : State) (n : Nat) (c : Carriage) : (s.setCar n c).attest = s.attest := rfl

@[simp] theorem State.setCar_tripped (s : State) (n : Nat) (c : Carriage) : (s.setCar n c).tripped = s.tripped := rfl

@[simp] theorem State.setCar_zeroRefill (s : State) (n : Nat) (c : Carriage) : (s.setCar n c).zeroRefill = s.zeroRefill := rfl

@[simp] theorem State.setCar_paging (s : State) (n : Nat) (c : Carriage) : (s.setCar n c).paging = s.paging := rfl

@[simp] theorem State.setCar_umberVersion (s : State) (n : Nat) (c : Carriage) : (s.setCar n c).umberVersion = s.umberVersion := rfl

-- State.setLaunch

@[simp] theorem State.setLaunch_cyc (s : State) (l : Launch) : (s.setLaunch l).cyc = s.cyc := rfl

@[simp] theorem State.setLaunch_cur (s : State) (l : Launch) : (s.setLaunch l).cur = s.cur := rfl

@[simp] theorem State.setLaunch_word (s : State) (l : Launch) : (s.setLaunch l).word = s.word := rfl

@[simp] theorem State.setLaunch_subj (s : State) (l : Launch) : (s.setLaunch l).subj = s.subj := rfl

@[simp] theorem State.setLaunch_agenda (s : State) (l : Launch) : (s.setLaunch l).agenda = s.agenda := rfl

@[simp] theorem State.setLaunch_tick (s : State) (l : Launch) : (s.setLaunch l).tick = s.tick := rfl

@[simp] theorem State.setLaunch_fresh (s : State) (l : Launch) : (s.setLaunch l).fresh = s.fresh := rfl

@[simp] theorem State.setLaunch_nextId (s : State) (l : Launch) : (s.setLaunch l).nextId = s.nextId := rfl

@[simp] theorem State.setLaunch_mem (s : State) (l : Launch) : (s.setLaunch l).mem = s.mem := rfl

@[simp] theorem State.setLaunch_hostMem (s : State) (l : Launch) : (s.setLaunch l).hostMem = s.hostMem := rfl

@[simp] theorem State.setLaunch_l2 (s : State) (l : Launch) : (s.setLaunch l).l2 = s.l2 := rfl

@[simp] theorem State.setLaunch_poison (s : State) (l : Launch) : (s.setLaunch l).poison = s.poison := rfl

@[simp] theorem State.setLaunch_frameTable (s : State) (l : Launch) : (s.setLaunch l).frameTable = s.frameTable := rfl

@[simp] theorem State.setLaunch_hostLines (s : State) (l : Launch) : (s.setLaunch l).hostLines = s.hostLines := rfl

@[simp] theorem State.setLaunch_snooped (s : State) (l : Launch) : (s.setLaunch l).snooped = s.snooped := rfl

@[simp] theorem State.setLaunch_hostBad (s : State) (l : Launch) : (s.setLaunch l).hostBad = s.hostBad := rfl

@[simp] theorem State.setLaunch_downCouplings (s : State) (l : Launch) : (s.setLaunch l).downCouplings = s.downCouplings := rfl

@[simp] theorem State.setLaunch_cxl (s : State) (l : Launch) : (s.setLaunch l).cxl = s.cxl := rfl

@[simp] theorem State.setLaunch_temp (s : State) (l : Launch) : (s.setLaunch l).temp = s.temp := rfl

@[simp] theorem State.setLaunch_snoops (s : State) (l : Launch) : (s.setLaunch l).snoops = s.snoops := rfl

@[simp] theorem State.setLaunch_booted (s : State) (l : Launch) : (s.setLaunch l).booted = s.booted := rfl

@[simp] theorem State.setLaunch_deadClusters (s : State) (l : Launch) : (s.setLaunch l).deadClusters = s.deadClusters := rfl

@[simp] theorem State.setLaunch_deadSlices (s : State) (l : Launch) : (s.setLaunch l).deadSlices = s.deadSlices := rfl

@[simp] theorem State.setLaunch_deadChannels (s : State) (l : Launch) : (s.setLaunch l).deadChannels = s.deadChannels := rfl

@[simp] theorem State.setLaunch_deadLanes (s : State) (l : Launch) : (s.setLaunch l).deadLanes = s.deadLanes := rfl

@[simp] theorem State.setLaunch_cores (s : State) (l : Launch) : (s.setLaunch l).cores = s.cores := rfl

@[simp] theorem State.setLaunch_slices (s : State) (l : Launch) : (s.setLaunch l).slices = s.slices := rfl

@[simp] theorem State.setLaunch_sliceIcache (s : State) (l : Launch) : (s.setLaunch l).sliceIcache = s.sliceIcache := rfl

@[simp] theorem State.setLaunch_clusters (s : State) (l : Launch) : (s.setLaunch l).clusters = s.clusters := rfl

@[simp] theorem State.setLaunch_cars (s : State) (l : Launch) : (s.setLaunch l).cars = s.cars := rfl

@[simp] theorem State.setLaunch_flights (s : State) (l : Launch) : (s.setLaunch l).flights = s.flights := rfl

@[simp] theorem State.setLaunch_cmds (s : State) (l : Launch) : (s.setLaunch l).cmds = s.cmds := rfl

@[simp] theorem State.setLaunch_queues (s : State) (l : Launch) : (s.setLaunch l).queues = s.queues := rfl

@[simp] theorem State.setLaunch_ring (s : State) (l : Launch) : (s.setLaunch l).ring = s.ring := rfl

@[simp] theorem State.setLaunch_msix (s : State) (l : Launch) : (s.setLaunch l).msix = s.msix := rfl

@[simp] theorem State.setLaunch_devId (s : State) (l : Launch) : (s.setLaunch l).devId = s.devId := rfl

@[simp] theorem State.setLaunch_groups (s : State) (l : Launch) : (s.setLaunch l).groups = s.groups := rfl

@[simp] theorem State.setLaunch_matches_ (s : State) (l : Launch) : (s.setLaunch l).matches' = s.matches' := rfl

@[simp] theorem State.setLaunch_lostCouplings (s : State) (l : Launch) : (s.setLaunch l).lostCouplings = s.lostCouplings := rfl

@[simp] theorem State.setLaunch_errs (s : State) (l : Launch) : (s.setLaunch l).errs = s.errs := rfl

@[simp] theorem State.setLaunch_retireLog (s : State) (l : Launch) : (s.setLaunch l).retireLog = s.retireLog := rfl

@[simp] theorem State.setLaunch_imageA (s : State) (l : Launch) : (s.setLaunch l).imageA = s.imageA := rfl

@[simp] theorem State.setLaunch_imageB (s : State) (l : Launch) : (s.setLaunch l).imageB = s.imageB := rfl

@[simp] theorem State.setLaunch_confRec (s : State) (l : Launch) : (s.setLaunch l).confRec = s.confRec := rfl

@[simp] theorem State.setLaunch_bootImage (s : State) (l : Launch) : (s.setLaunch l).bootImage = s.bootImage := rfl

@[simp] theorem State.setLaunch_bootStatus (s : State) (l : Launch) : (s.setLaunch l).bootStatus = s.bootStatus := rfl

@[simp] theorem State.setLaunch_linkLanes (s : State) (l : Launch) : (s.setLaunch l).linkLanes = s.linkLanes := rfl

@[simp] theorem State.setLaunch_linkGts (s : State) (l : Launch) : (s.setLaunch l).linkGts = s.linkGts := rfl

@[simp] theorem State.setLaunch_ideKeys (s : State) (l : Launch) : (s.setLaunch l).ideKeys = s.ideKeys := rfl

@[simp] theorem State.setLaunch_attest (s : State) (l : Launch) : (s.setLaunch l).attest = s.attest := rfl

@[simp] theorem State.setLaunch_tripped (s : State) (l : Launch) : (s.setLaunch l).tripped = s.tripped := rfl

@[simp] theorem State.setLaunch_zeroRefill (s : State) (l : Launch) : (s.setLaunch l).zeroRefill = s.zeroRefill := rfl

@[simp] theorem State.setLaunch_paging (s : State) (l : Launch) : (s.setLaunch l).paging = s.paging := rfl

@[simp] theorem State.setLaunch_umberVersion (s : State) (l : Launch) : (s.setLaunch l).umberVersion = s.umberVersion := rfl

-- Slot.goTo and Slot.advance

@[simp] theorem Slot.goTo_busy (x : Slot) (pc' : Word) : (x.goTo pc').busy = x.busy := rfl

@[simp] theorem Slot.goTo_launch (x : Slot) (pc' : Word) : (x.goTo pc').launch = x.launch := rfl

@[simp] theorem Slot.goTo_mode (x : Slot) (pc' : Word) : (x.goTo pc').mode = x.mode := rfl

@[simp] theorem Slot.goTo_g (x : Slot) (pc' : Word) : (x.goTo pc').g = x.g := rfl

@[simp] theorem Slot.goTo_pw (x : Slot) (pc' : Word) : (x.goTo pc').pw = x.pw := rfl

@[simp] theorem Slot.goTo_pc (x : Slot) (pc' : Word) : (x.goTo pc').pc = pc' := rfl

@[simp] theorem Slot.goTo_wid (x : Slot) (pc' : Word) : (x.goTo pc').wid = x.wid := rfl

@[simp] theorem Slot.goTo_status (x : Slot) (pc' : Word) : (x.goTo pc').status = x.status := rfl

@[simp] theorem Slot.goTo_fshadow (x : Slot) (pc' : Word) : (x.goTo pc').fshadow = x.fshadow := rfl

@[simp] theorem Slot.goTo_sshadow (x : Slot) (pc' : Word) : (x.goTo pc').sshadow = x.sshadow := rfl

@[simp] theorem Slot.goTo_utvec (x : Slot) (pc' : Word) : (x.goTo pc').utvec = x.utvec := rfl

@[simp] theorem Slot.goTo_uivec (x : Slot) (pc' : Word) : (x.goTo pc').uivec = x.uivec := rfl

@[simp] theorem Slot.goTo_member (x : Slot) (pc' : Word) : (x.goTo pc').member = x.member := rfl

@[simp] theorem Slot.goTo_origin (x : Slot) (pc' : Word) : (x.goTo pc').origin = x.origin := rfl

@[simp] theorem Slot.goTo_placement (x : Slot) (pc' : Word) : (x.goTo pc').placement = x.placement := rfl

@[simp] theorem Slot.goTo_bucket (x : Slot) (pc' : Word) : (x.goTo pc').bucket = x.bucket := rfl

@[simp] theorem Slot.goTo_ix (x : Slot) (pc' : Word) : (x.goTo pc').ix = x.ix := rfl

@[simp] theorem Slot.goTo_mgeo (x : Slot) (pc' : Word) : (x.goTo pc').mgeo = x.mgeo := rfl

@[simp] theorem Slot.goTo_tcause (x : Slot) (pc' : Word) : (x.goTo pc').tcause = x.tcause := rfl

@[simp] theorem Slot.goTo_tval (x : Slot) (pc' : Word) : (x.goTo pc').tval = x.tval := rfl

@[simp] theorem Slot.goTo_tpc (x : Slot) (pc' : Word) : (x.goTo pc').tpc = x.tpc := rfl

@[simp] theorem Slot.goTo_tseq (x : Slot) (pc' : Word) : (x.goTo pc').tseq = x.tseq := rfl

@[simp] theorem Slot.goTo_handler (x : Slot) (pc' : Word) : (x.goTo pc').handler = x.handler := rfl

@[simp] theorem Slot.goTo_savedG (x : Slot) (pc' : Word) : (x.goTo pc').savedG = x.savedG := rfl

@[simp] theorem Slot.goTo_savedPw (x : Slot) (pc' : Word) : (x.goTo pc').savedPw = x.savedPw := rfl

@[simp] theorem Slot.goTo_savedPc (x : Slot) (pc' : Word) : (x.goTo pc').savedPc = x.savedPc := rfl

@[simp] theorem Slot.goTo_nalloc (x : Slot) (pc' : Word) : (x.goTo pc').nalloc = x.nalloc := rfl

@[simp] theorem Slot.goTo_f (x : Slot) (pc' : Word) : (x.goTo pc').f = x.f := rfl

@[simp] theorem Slot.goTo_streams (x : Slot) (pc' : Word) : (x.goTo pc').streams = x.streams := rfl

@[simp] theorem Slot.goTo_seqr (x : Slot) (pc' : Word) : (x.goTo pc').seqr = x.seqr := rfl

@[simp] theorem Slot.goTo_dseq (x : Slot) (pc' : Word) : (x.goTo pc').dseq = x.dseq := rfl

@[simp] theorem Slot.goTo_ring (x : Slot) (pc' : Word) : (x.goTo pc').ring = x.ring := rfl

@[simp] theorem Slot.goTo_late (x : Slot) (pc' : Word) : (x.goTo pc').late = x.late := rfl

@[simp] theorem Slot.goTo_eps (x : Slot) (pc' : Word) : (x.goTo pc').eps = x.eps := rfl

@[simp] theorem Slot.goTo_chLast (x : Slot) (pc' : Word) : (x.goTo pc').chLast = x.chLast := rfl

@[simp] theorem Slot.goTo_budget (x : Slot) (pc' : Word) : (x.goTo pc').budget = x.budget := rfl

@[simp] theorem Slot.goTo_wake (x : Slot) (pc' : Word) : (x.goTo pc').wake = x.wake := rfl

@[simp] theorem Slot.goTo_asleep (x : Slot) (pc' : Word) : (x.goTo pc').asleep = none := rfl

@[simp] theorem Slot.goTo_pend (x : Slot) (pc' : Word) : (x.goTo pc').pend = x.pend := rfl

@[simp] theorem Slot.goTo_hold (x : Slot) (pc' : Word) : (x.goTo pc').hold = .none := rfl

@[simp] theorem Slot.goTo_relDone (x : Slot) (pc' : Word) : (x.goTo pc').relDone = false := rfl

@[simp] theorem Slot.goTo_stage (x : Slot) (pc' : Word) : (x.goTo pc').stage = 0 := rfl

@[simp] theorem Slot.goTo_tags (x : Slot) (pc' : Word) : (x.goTo pc').tags = x.tags := rfl

@[simp] theorem Slot.goTo_fifo (x : Slot) (pc' : Word) : (x.goTo pc').fifo = x.fifo := rfl

@[simp] theorem Slot.goTo_ints (x : Slot) (pc' : Word) : (x.goTo pc').ints = x.ints := rfl

@[simp] theorem Slot.goTo_heldC (x : Slot) (pc' : Word) : (x.goTo pc').heldC = x.heldC := rfl

@[simp] theorem Slot.goTo_xpopWait (x : Slot) (pc' : Word) : (x.goTo pc').xpopWait = x.xpopWait := rfl

@[simp] theorem Slot.goTo_mmpopWait (x : Slot) (pc' : Word) : (x.goTo pc').mmpopWait = x.mmpopWait := rfl

@[simp] theorem Slot.goTo_reside (x : Slot) (pc' : Word) : (x.goTo pc').reside = x.reside := rfl

@[simp] theorem Slot.goTo_foot (x : Slot) (pc' : Word) : (x.goTo pc').foot = x.foot := rfl

@[simp] theorem Slot.goTo_sepc (x : Slot) (pc' : Word) : (x.goTo pc').sepc = x.sepc := rfl

@[simp] theorem Slot.goTo_timedOut (x : Slot) (pc' : Word) : (x.goTo pc').timedOut = x.timedOut := rfl

@[simp] theorem Slot.goTo_spec (x : Slot) (pc' : Word) : (x.goTo pc').spec = none := rfl

@[simp] theorem Slot.goTo_preempted (x : Slot) (pc' : Word) : (x.goTo pc').preempted = x.preempted := rfl

@[simp] theorem Slot.goTo_smode (x : Slot) (pc' : Word) : (x.goTo pc').smode = x.smode := rfl

@[simp] theorem Slot.goTo_fdetail (x : Slot) (pc' : Word) : (x.goTo pc').fdetail = x.fdetail := rfl

@[simp] theorem Slot.goTo_umber (x : Slot) (pc' : Word) : (x.goTo pc').umber = x.umber := rfl

@[simp] theorem Slot.goTo_walkWait (x : Slot) (pc' : Word) : (x.goTo pc').walkWait = none := rfl

@[simp] theorem Slot.goTo_prior (x : Slot) (pc' : Word) : (x.goTo pc').prior = x.prior := rfl

@[simp] theorem Slot.goTo_lateRun (x : Slot) (pc' : Word) : (x.goTo pc').lateRun = x.lateRun := rfl

@[simp] theorem Slot.goTo_sliceTrap (x : Slot) (pc' : Word) : (x.goTo pc').sliceTrap = x.sliceTrap := rfl

@[simp] theorem Slot.goTo_residual (x : Slot) (pc' : Word) : (x.goTo pc').residual = x.residual := rfl

@[simp] theorem Slot.goTo_gatherWait (x : Slot) (pc' : Word) : (x.goTo pc').gatherWait = x.gatherWait := rfl

@[simp] theorem Slot.goTo_lastIssue (x : Slot) (pc' : Word) : (x.goTo pc').lastIssue = x.lastIssue := rfl

@[simp] theorem Slot.goTo_lastSeq (x : Slot) (pc' : Word) : (x.goTo pc').lastSeq = x.lastSeq := rfl

@[simp] theorem Slot.goTo_stopped (x : Slot) (pc' : Word) : (x.goTo pc').stopped = x.stopped := rfl

@[simp] theorem Slot.goTo_gen (x : Slot) (pc' : Word) : (x.goTo pc').gen = x.gen := rfl

@[simp] theorem Slot.advance_busy (x : Slot) : x.advance.busy = x.busy := rfl

@[simp] theorem Slot.advance_launch (x : Slot) : x.advance.launch = x.launch := rfl

@[simp] theorem Slot.advance_mode (x : Slot) : x.advance.mode = x.mode := rfl

@[simp] theorem Slot.advance_g (x : Slot) : x.advance.g = x.g := rfl

@[simp] theorem Slot.advance_pw (x : Slot) : x.advance.pw = x.pw := rfl

@[simp] theorem Slot.advance_pc (x : Slot) : x.advance.pc = x.pc + 8 := rfl

@[simp] theorem Slot.advance_wid (x : Slot) : x.advance.wid = x.wid := rfl

@[simp] theorem Slot.advance_status (x : Slot) : x.advance.status = x.status := rfl

@[simp] theorem Slot.advance_fshadow (x : Slot) : x.advance.fshadow = x.fshadow := rfl

@[simp] theorem Slot.advance_sshadow (x : Slot) : x.advance.sshadow = x.sshadow := rfl

@[simp] theorem Slot.advance_utvec (x : Slot) : x.advance.utvec = x.utvec := rfl

@[simp] theorem Slot.advance_uivec (x : Slot) : x.advance.uivec = x.uivec := rfl

@[simp] theorem Slot.advance_member (x : Slot) : x.advance.member = x.member := rfl

@[simp] theorem Slot.advance_origin (x : Slot) : x.advance.origin = x.origin := rfl

@[simp] theorem Slot.advance_placement (x : Slot) : x.advance.placement = x.placement := rfl

@[simp] theorem Slot.advance_bucket (x : Slot) : x.advance.bucket = x.bucket := rfl

@[simp] theorem Slot.advance_ix (x : Slot) : x.advance.ix = x.ix := rfl

@[simp] theorem Slot.advance_mgeo (x : Slot) : x.advance.mgeo = x.mgeo := rfl

@[simp] theorem Slot.advance_tcause (x : Slot) : x.advance.tcause = x.tcause := rfl

@[simp] theorem Slot.advance_tval (x : Slot) : x.advance.tval = x.tval := rfl

@[simp] theorem Slot.advance_tpc (x : Slot) : x.advance.tpc = x.tpc := rfl

@[simp] theorem Slot.advance_tseq (x : Slot) : x.advance.tseq = x.tseq := rfl

@[simp] theorem Slot.advance_handler (x : Slot) : x.advance.handler = x.handler := rfl

@[simp] theorem Slot.advance_savedG (x : Slot) : x.advance.savedG = x.savedG := rfl

@[simp] theorem Slot.advance_savedPw (x : Slot) : x.advance.savedPw = x.savedPw := rfl

@[simp] theorem Slot.advance_savedPc (x : Slot) : x.advance.savedPc = x.savedPc := rfl

@[simp] theorem Slot.advance_nalloc (x : Slot) : x.advance.nalloc = x.nalloc := rfl

@[simp] theorem Slot.advance_f (x : Slot) : x.advance.f = x.f := rfl

@[simp] theorem Slot.advance_streams (x : Slot) : x.advance.streams = x.streams := rfl

@[simp] theorem Slot.advance_seqr (x : Slot) : x.advance.seqr = x.seqr := rfl

@[simp] theorem Slot.advance_dseq (x : Slot) : x.advance.dseq = x.dseq := rfl

@[simp] theorem Slot.advance_ring (x : Slot) : x.advance.ring = x.ring := rfl

@[simp] theorem Slot.advance_late (x : Slot) : x.advance.late = x.late := rfl

@[simp] theorem Slot.advance_eps (x : Slot) : x.advance.eps = x.eps := rfl

@[simp] theorem Slot.advance_chLast (x : Slot) : x.advance.chLast = x.chLast := rfl

@[simp] theorem Slot.advance_budget (x : Slot) : x.advance.budget = x.budget := rfl

@[simp] theorem Slot.advance_wake (x : Slot) : x.advance.wake = x.wake := rfl

@[simp] theorem Slot.advance_asleep (x : Slot) : x.advance.asleep = none := rfl

@[simp] theorem Slot.advance_pend (x : Slot) : x.advance.pend = x.pend := rfl

@[simp] theorem Slot.advance_hold (x : Slot) : x.advance.hold = .none := rfl

@[simp] theorem Slot.advance_relDone (x : Slot) : x.advance.relDone = false := rfl

@[simp] theorem Slot.advance_stage (x : Slot) : x.advance.stage = 0 := rfl

@[simp] theorem Slot.advance_tags (x : Slot) : x.advance.tags = x.tags := rfl

@[simp] theorem Slot.advance_fifo (x : Slot) : x.advance.fifo = x.fifo := rfl

@[simp] theorem Slot.advance_ints (x : Slot) : x.advance.ints = x.ints := rfl

@[simp] theorem Slot.advance_heldC (x : Slot) : x.advance.heldC = x.heldC := rfl

@[simp] theorem Slot.advance_xpopWait (x : Slot) : x.advance.xpopWait = x.xpopWait := rfl

@[simp] theorem Slot.advance_mmpopWait (x : Slot) : x.advance.mmpopWait = x.mmpopWait := rfl

@[simp] theorem Slot.advance_reside (x : Slot) : x.advance.reside = x.reside := rfl

@[simp] theorem Slot.advance_foot (x : Slot) : x.advance.foot = x.foot := rfl

@[simp] theorem Slot.advance_sepc (x : Slot) : x.advance.sepc = x.sepc := rfl

@[simp] theorem Slot.advance_timedOut (x : Slot) : x.advance.timedOut = x.timedOut := rfl

@[simp] theorem Slot.advance_spec (x : Slot) : x.advance.spec = none := rfl

@[simp] theorem Slot.advance_preempted (x : Slot) : x.advance.preempted = x.preempted := rfl

@[simp] theorem Slot.advance_smode (x : Slot) : x.advance.smode = x.smode := rfl

@[simp] theorem Slot.advance_fdetail (x : Slot) : x.advance.fdetail = x.fdetail := rfl

@[simp] theorem Slot.advance_umber (x : Slot) : x.advance.umber = x.umber := rfl

@[simp] theorem Slot.advance_walkWait (x : Slot) : x.advance.walkWait = none := rfl

@[simp] theorem Slot.advance_prior (x : Slot) : x.advance.prior = x.prior := rfl

@[simp] theorem Slot.advance_lateRun (x : Slot) : x.advance.lateRun = x.lateRun := rfl

@[simp] theorem Slot.advance_sliceTrap (x : Slot) : x.advance.sliceTrap = x.sliceTrap := rfl

@[simp] theorem Slot.advance_residual (x : Slot) : x.advance.residual = x.residual := rfl

@[simp] theorem Slot.advance_gatherWait (x : Slot) : x.advance.gatherWait = x.gatherWait := rfl

@[simp] theorem Slot.advance_lastIssue (x : Slot) : x.advance.lastIssue = x.lastIssue := rfl

@[simp] theorem Slot.advance_lastSeq (x : Slot) : x.advance.lastSeq = x.lastSeq := rfl

@[simp] theorem Slot.advance_stopped (x : Slot) : x.advance.stopped = x.stopped := rfl

@[simp] theorem Slot.advance_gen (x : Slot) : x.advance.gen = x.gen := rfl

-- Slot.setGr

@[simp] theorem Slot.setGr_busy (x : Slot) (n : BitVec 4) (v : Word) : (x.setGr n v).busy = x.busy := by
  unfold Slot.setGr; split <;> rfl

@[simp] theorem Slot.setGr_launch (x : Slot) (n : BitVec 4) (v : Word) : (x.setGr n v).launch = x.launch := by
  unfold Slot.setGr; split <;> rfl

@[simp] theorem Slot.setGr_mode (x : Slot) (n : BitVec 4) (v : Word) : (x.setGr n v).mode = x.mode := by
  unfold Slot.setGr; split <;> rfl

@[simp] theorem Slot.setGr_pw (x : Slot) (n : BitVec 4) (v : Word) : (x.setGr n v).pw = x.pw := by
  unfold Slot.setGr; split <;> rfl

@[simp] theorem Slot.setGr_pc (x : Slot) (n : BitVec 4) (v : Word) : (x.setGr n v).pc = x.pc := by
  unfold Slot.setGr; split <;> rfl

@[simp] theorem Slot.setGr_wid (x : Slot) (n : BitVec 4) (v : Word) : (x.setGr n v).wid = x.wid := by
  unfold Slot.setGr; split <;> rfl

@[simp] theorem Slot.setGr_status (x : Slot) (n : BitVec 4) (v : Word) : (x.setGr n v).status = x.status := by
  unfold Slot.setGr; split <;> rfl

@[simp] theorem Slot.setGr_fshadow (x : Slot) (n : BitVec 4) (v : Word) : (x.setGr n v).fshadow = x.fshadow := by
  unfold Slot.setGr; split <;> rfl

@[simp] theorem Slot.setGr_sshadow (x : Slot) (n : BitVec 4) (v : Word) : (x.setGr n v).sshadow = x.sshadow := by
  unfold Slot.setGr; split <;> rfl

@[simp] theorem Slot.setGr_utvec (x : Slot) (n : BitVec 4) (v : Word) : (x.setGr n v).utvec = x.utvec := by
  unfold Slot.setGr; split <;> rfl

@[simp] theorem Slot.setGr_uivec (x : Slot) (n : BitVec 4) (v : Word) : (x.setGr n v).uivec = x.uivec := by
  unfold Slot.setGr; split <;> rfl

@[simp] theorem Slot.setGr_member (x : Slot) (n : BitVec 4) (v : Word) : (x.setGr n v).member = x.member := by
  unfold Slot.setGr; split <;> rfl

@[simp] theorem Slot.setGr_origin (x : Slot) (n : BitVec 4) (v : Word) : (x.setGr n v).origin = x.origin := by
  unfold Slot.setGr; split <;> rfl

@[simp] theorem Slot.setGr_placement (x : Slot) (n : BitVec 4) (v : Word) : (x.setGr n v).placement = x.placement := by
  unfold Slot.setGr; split <;> rfl

@[simp] theorem Slot.setGr_bucket (x : Slot) (n : BitVec 4) (v : Word) : (x.setGr n v).bucket = x.bucket := by
  unfold Slot.setGr; split <;> rfl

@[simp] theorem Slot.setGr_ix (x : Slot) (n : BitVec 4) (v : Word) : (x.setGr n v).ix = x.ix := by
  unfold Slot.setGr; split <;> rfl

@[simp] theorem Slot.setGr_mgeo (x : Slot) (n : BitVec 4) (v : Word) : (x.setGr n v).mgeo = x.mgeo := by
  unfold Slot.setGr; split <;> rfl

@[simp] theorem Slot.setGr_tcause (x : Slot) (n : BitVec 4) (v : Word) : (x.setGr n v).tcause = x.tcause := by
  unfold Slot.setGr; split <;> rfl

@[simp] theorem Slot.setGr_tval (x : Slot) (n : BitVec 4) (v : Word) : (x.setGr n v).tval = x.tval := by
  unfold Slot.setGr; split <;> rfl

@[simp] theorem Slot.setGr_tpc (x : Slot) (n : BitVec 4) (v : Word) : (x.setGr n v).tpc = x.tpc := by
  unfold Slot.setGr; split <;> rfl

@[simp] theorem Slot.setGr_tseq (x : Slot) (n : BitVec 4) (v : Word) : (x.setGr n v).tseq = x.tseq := by
  unfold Slot.setGr; split <;> rfl

@[simp] theorem Slot.setGr_handler (x : Slot) (n : BitVec 4) (v : Word) : (x.setGr n v).handler = x.handler := by
  unfold Slot.setGr; split <;> rfl

@[simp] theorem Slot.setGr_savedG (x : Slot) (n : BitVec 4) (v : Word) : (x.setGr n v).savedG = x.savedG := by
  unfold Slot.setGr; split <;> rfl

@[simp] theorem Slot.setGr_savedPw (x : Slot) (n : BitVec 4) (v : Word) : (x.setGr n v).savedPw = x.savedPw := by
  unfold Slot.setGr; split <;> rfl

@[simp] theorem Slot.setGr_savedPc (x : Slot) (n : BitVec 4) (v : Word) : (x.setGr n v).savedPc = x.savedPc := by
  unfold Slot.setGr; split <;> rfl

@[simp] theorem Slot.setGr_nalloc (x : Slot) (n : BitVec 4) (v : Word) : (x.setGr n v).nalloc = x.nalloc := by
  unfold Slot.setGr; split <;> rfl

@[simp] theorem Slot.setGr_f (x : Slot) (n : BitVec 4) (v : Word) : (x.setGr n v).f = x.f := by
  unfold Slot.setGr; split <;> rfl

@[simp] theorem Slot.setGr_streams (x : Slot) (n : BitVec 4) (v : Word) : (x.setGr n v).streams = x.streams := by
  unfold Slot.setGr; split <;> rfl

@[simp] theorem Slot.setGr_seqr (x : Slot) (n : BitVec 4) (v : Word) : (x.setGr n v).seqr = x.seqr := by
  unfold Slot.setGr; split <;> rfl

@[simp] theorem Slot.setGr_dseq (x : Slot) (n : BitVec 4) (v : Word) : (x.setGr n v).dseq = x.dseq := by
  unfold Slot.setGr; split <;> rfl

@[simp] theorem Slot.setGr_ring (x : Slot) (n : BitVec 4) (v : Word) : (x.setGr n v).ring = x.ring := by
  unfold Slot.setGr; split <;> rfl

@[simp] theorem Slot.setGr_late (x : Slot) (n : BitVec 4) (v : Word) : (x.setGr n v).late = x.late := by
  unfold Slot.setGr; split <;> rfl

@[simp] theorem Slot.setGr_eps (x : Slot) (n : BitVec 4) (v : Word) : (x.setGr n v).eps = x.eps := by
  unfold Slot.setGr; split <;> rfl

@[simp] theorem Slot.setGr_chLast (x : Slot) (n : BitVec 4) (v : Word) : (x.setGr n v).chLast = x.chLast := by
  unfold Slot.setGr; split <;> rfl

@[simp] theorem Slot.setGr_budget (x : Slot) (n : BitVec 4) (v : Word) : (x.setGr n v).budget = x.budget := by
  unfold Slot.setGr; split <;> rfl

@[simp] theorem Slot.setGr_wake (x : Slot) (n : BitVec 4) (v : Word) : (x.setGr n v).wake = x.wake := by
  unfold Slot.setGr; split <;> rfl

@[simp] theorem Slot.setGr_asleep (x : Slot) (n : BitVec 4) (v : Word) : (x.setGr n v).asleep = x.asleep := by
  unfold Slot.setGr; split <;> rfl

@[simp] theorem Slot.setGr_pend (x : Slot) (n : BitVec 4) (v : Word) : (x.setGr n v).pend = x.pend := by
  unfold Slot.setGr; split <;> rfl

@[simp] theorem Slot.setGr_hold (x : Slot) (n : BitVec 4) (v : Word) : (x.setGr n v).hold = x.hold := by
  unfold Slot.setGr; split <;> rfl

@[simp] theorem Slot.setGr_relDone (x : Slot) (n : BitVec 4) (v : Word) : (x.setGr n v).relDone = x.relDone := by
  unfold Slot.setGr; split <;> rfl

@[simp] theorem Slot.setGr_stage (x : Slot) (n : BitVec 4) (v : Word) : (x.setGr n v).stage = x.stage := by
  unfold Slot.setGr; split <;> rfl

@[simp] theorem Slot.setGr_tags (x : Slot) (n : BitVec 4) (v : Word) : (x.setGr n v).tags = x.tags := by
  unfold Slot.setGr; split <;> rfl

@[simp] theorem Slot.setGr_fifo (x : Slot) (n : BitVec 4) (v : Word) : (x.setGr n v).fifo = x.fifo := by
  unfold Slot.setGr; split <;> rfl

@[simp] theorem Slot.setGr_ints (x : Slot) (n : BitVec 4) (v : Word) : (x.setGr n v).ints = x.ints := by
  unfold Slot.setGr; split <;> rfl

@[simp] theorem Slot.setGr_heldC (x : Slot) (n : BitVec 4) (v : Word) : (x.setGr n v).heldC = x.heldC := by
  unfold Slot.setGr; split <;> rfl

@[simp] theorem Slot.setGr_xpopWait (x : Slot) (n : BitVec 4) (v : Word) : (x.setGr n v).xpopWait = x.xpopWait := by
  unfold Slot.setGr; split <;> rfl

@[simp] theorem Slot.setGr_mmpopWait (x : Slot) (n : BitVec 4) (v : Word) : (x.setGr n v).mmpopWait = x.mmpopWait := by
  unfold Slot.setGr; split <;> rfl

@[simp] theorem Slot.setGr_reside (x : Slot) (n : BitVec 4) (v : Word) : (x.setGr n v).reside = x.reside := by
  unfold Slot.setGr; split <;> rfl

@[simp] theorem Slot.setGr_foot (x : Slot) (n : BitVec 4) (v : Word) : (x.setGr n v).foot = x.foot := by
  unfold Slot.setGr; split <;> rfl

@[simp] theorem Slot.setGr_sepc (x : Slot) (n : BitVec 4) (v : Word) : (x.setGr n v).sepc = x.sepc := by
  unfold Slot.setGr; split <;> rfl

@[simp] theorem Slot.setGr_timedOut (x : Slot) (n : BitVec 4) (v : Word) : (x.setGr n v).timedOut = x.timedOut := by
  unfold Slot.setGr; split <;> rfl

@[simp] theorem Slot.setGr_spec (x : Slot) (n : BitVec 4) (v : Word) : (x.setGr n v).spec = x.spec := by
  unfold Slot.setGr; split <;> rfl

@[simp] theorem Slot.setGr_preempted (x : Slot) (n : BitVec 4) (v : Word) : (x.setGr n v).preempted = x.preempted := by
  unfold Slot.setGr; split <;> rfl

@[simp] theorem Slot.setGr_smode (x : Slot) (n : BitVec 4) (v : Word) : (x.setGr n v).smode = x.smode := by
  unfold Slot.setGr; split <;> rfl

@[simp] theorem Slot.setGr_fdetail (x : Slot) (n : BitVec 4) (v : Word) : (x.setGr n v).fdetail = x.fdetail := by
  unfold Slot.setGr; split <;> rfl

@[simp] theorem Slot.setGr_umber (x : Slot) (n : BitVec 4) (v : Word) : (x.setGr n v).umber = x.umber := by
  unfold Slot.setGr; split <;> rfl

@[simp] theorem Slot.setGr_walkWait (x : Slot) (n : BitVec 4) (v : Word) : (x.setGr n v).walkWait = x.walkWait := by
  unfold Slot.setGr; split <;> rfl

@[simp] theorem Slot.setGr_prior (x : Slot) (n : BitVec 4) (v : Word) : (x.setGr n v).prior = x.prior := by
  unfold Slot.setGr; split <;> rfl

@[simp] theorem Slot.setGr_lateRun (x : Slot) (n : BitVec 4) (v : Word) : (x.setGr n v).lateRun = x.lateRun := by
  unfold Slot.setGr; split <;> rfl

@[simp] theorem Slot.setGr_sliceTrap (x : Slot) (n : BitVec 4) (v : Word) : (x.setGr n v).sliceTrap = x.sliceTrap := by
  unfold Slot.setGr; split <;> rfl

@[simp] theorem Slot.setGr_residual (x : Slot) (n : BitVec 4) (v : Word) : (x.setGr n v).residual = x.residual := by
  unfold Slot.setGr; split <;> rfl

@[simp] theorem Slot.setGr_gatherWait (x : Slot) (n : BitVec 4) (v : Word) : (x.setGr n v).gatherWait = x.gatherWait := by
  unfold Slot.setGr; split <;> rfl

@[simp] theorem Slot.setGr_lastIssue (x : Slot) (n : BitVec 4) (v : Word) : (x.setGr n v).lastIssue = x.lastIssue := by
  unfold Slot.setGr; split <;> rfl

@[simp] theorem Slot.setGr_lastSeq (x : Slot) (n : BitVec 4) (v : Word) : (x.setGr n v).lastSeq = x.lastSeq := by
  unfold Slot.setGr; split <;> rfl

@[simp] theorem Slot.setGr_stopped (x : Slot) (n : BitVec 4) (v : Word) : (x.setGr n v).stopped = x.stopped := by
  unfold Slot.setGr; split <;> rfl

@[simp] theorem Slot.setGr_gen (x : Slot) (n : BitVec 4) (v : Word) : (x.setGr n v).gen = x.gen := by
  unfold Slot.setGr; split <;> rfl

-- Slot.setPred

@[simp] theorem Slot.setPred_busy (x : Slot) (n : BitVec 4) (v : Bool) : (x.setPred n v).busy = x.busy := by
  unfold Slot.setPred; split <;> rfl

@[simp] theorem Slot.setPred_launch (x : Slot) (n : BitVec 4) (v : Bool) : (x.setPred n v).launch = x.launch := by
  unfold Slot.setPred; split <;> rfl

@[simp] theorem Slot.setPred_mode (x : Slot) (n : BitVec 4) (v : Bool) : (x.setPred n v).mode = x.mode := by
  unfold Slot.setPred; split <;> rfl

@[simp] theorem Slot.setPred_g (x : Slot) (n : BitVec 4) (v : Bool) : (x.setPred n v).g = x.g := by
  unfold Slot.setPred; split <;> rfl

@[simp] theorem Slot.setPred_pc (x : Slot) (n : BitVec 4) (v : Bool) : (x.setPred n v).pc = x.pc := by
  unfold Slot.setPred; split <;> rfl

@[simp] theorem Slot.setPred_wid (x : Slot) (n : BitVec 4) (v : Bool) : (x.setPred n v).wid = x.wid := by
  unfold Slot.setPred; split <;> rfl

@[simp] theorem Slot.setPred_status (x : Slot) (n : BitVec 4) (v : Bool) : (x.setPred n v).status = x.status := by
  unfold Slot.setPred; split <;> rfl

@[simp] theorem Slot.setPred_fshadow (x : Slot) (n : BitVec 4) (v : Bool) : (x.setPred n v).fshadow = x.fshadow := by
  unfold Slot.setPred; split <;> rfl

@[simp] theorem Slot.setPred_sshadow (x : Slot) (n : BitVec 4) (v : Bool) : (x.setPred n v).sshadow = x.sshadow := by
  unfold Slot.setPred; split <;> rfl

@[simp] theorem Slot.setPred_utvec (x : Slot) (n : BitVec 4) (v : Bool) : (x.setPred n v).utvec = x.utvec := by
  unfold Slot.setPred; split <;> rfl

@[simp] theorem Slot.setPred_uivec (x : Slot) (n : BitVec 4) (v : Bool) : (x.setPred n v).uivec = x.uivec := by
  unfold Slot.setPred; split <;> rfl

@[simp] theorem Slot.setPred_member (x : Slot) (n : BitVec 4) (v : Bool) : (x.setPred n v).member = x.member := by
  unfold Slot.setPred; split <;> rfl

@[simp] theorem Slot.setPred_origin (x : Slot) (n : BitVec 4) (v : Bool) : (x.setPred n v).origin = x.origin := by
  unfold Slot.setPred; split <;> rfl

@[simp] theorem Slot.setPred_placement (x : Slot) (n : BitVec 4) (v : Bool) : (x.setPred n v).placement = x.placement := by
  unfold Slot.setPred; split <;> rfl

@[simp] theorem Slot.setPred_bucket (x : Slot) (n : BitVec 4) (v : Bool) : (x.setPred n v).bucket = x.bucket := by
  unfold Slot.setPred; split <;> rfl

@[simp] theorem Slot.setPred_ix (x : Slot) (n : BitVec 4) (v : Bool) : (x.setPred n v).ix = x.ix := by
  unfold Slot.setPred; split <;> rfl

@[simp] theorem Slot.setPred_mgeo (x : Slot) (n : BitVec 4) (v : Bool) : (x.setPred n v).mgeo = x.mgeo := by
  unfold Slot.setPred; split <;> rfl

@[simp] theorem Slot.setPred_tcause (x : Slot) (n : BitVec 4) (v : Bool) : (x.setPred n v).tcause = x.tcause := by
  unfold Slot.setPred; split <;> rfl

@[simp] theorem Slot.setPred_tval (x : Slot) (n : BitVec 4) (v : Bool) : (x.setPred n v).tval = x.tval := by
  unfold Slot.setPred; split <;> rfl

@[simp] theorem Slot.setPred_tpc (x : Slot) (n : BitVec 4) (v : Bool) : (x.setPred n v).tpc = x.tpc := by
  unfold Slot.setPred; split <;> rfl

@[simp] theorem Slot.setPred_tseq (x : Slot) (n : BitVec 4) (v : Bool) : (x.setPred n v).tseq = x.tseq := by
  unfold Slot.setPred; split <;> rfl

@[simp] theorem Slot.setPred_handler (x : Slot) (n : BitVec 4) (v : Bool) : (x.setPred n v).handler = x.handler := by
  unfold Slot.setPred; split <;> rfl

@[simp] theorem Slot.setPred_savedG (x : Slot) (n : BitVec 4) (v : Bool) : (x.setPred n v).savedG = x.savedG := by
  unfold Slot.setPred; split <;> rfl

@[simp] theorem Slot.setPred_savedPw (x : Slot) (n : BitVec 4) (v : Bool) : (x.setPred n v).savedPw = x.savedPw := by
  unfold Slot.setPred; split <;> rfl

@[simp] theorem Slot.setPred_savedPc (x : Slot) (n : BitVec 4) (v : Bool) : (x.setPred n v).savedPc = x.savedPc := by
  unfold Slot.setPred; split <;> rfl

@[simp] theorem Slot.setPred_nalloc (x : Slot) (n : BitVec 4) (v : Bool) : (x.setPred n v).nalloc = x.nalloc := by
  unfold Slot.setPred; split <;> rfl

@[simp] theorem Slot.setPred_f (x : Slot) (n : BitVec 4) (v : Bool) : (x.setPred n v).f = x.f := by
  unfold Slot.setPred; split <;> rfl

@[simp] theorem Slot.setPred_streams (x : Slot) (n : BitVec 4) (v : Bool) : (x.setPred n v).streams = x.streams := by
  unfold Slot.setPred; split <;> rfl

@[simp] theorem Slot.setPred_seqr (x : Slot) (n : BitVec 4) (v : Bool) : (x.setPred n v).seqr = x.seqr := by
  unfold Slot.setPred; split <;> rfl

@[simp] theorem Slot.setPred_dseq (x : Slot) (n : BitVec 4) (v : Bool) : (x.setPred n v).dseq = x.dseq := by
  unfold Slot.setPred; split <;> rfl

@[simp] theorem Slot.setPred_ring (x : Slot) (n : BitVec 4) (v : Bool) : (x.setPred n v).ring = x.ring := by
  unfold Slot.setPred; split <;> rfl

@[simp] theorem Slot.setPred_late (x : Slot) (n : BitVec 4) (v : Bool) : (x.setPred n v).late = x.late := by
  unfold Slot.setPred; split <;> rfl

@[simp] theorem Slot.setPred_eps (x : Slot) (n : BitVec 4) (v : Bool) : (x.setPred n v).eps = x.eps := by
  unfold Slot.setPred; split <;> rfl

@[simp] theorem Slot.setPred_chLast (x : Slot) (n : BitVec 4) (v : Bool) : (x.setPred n v).chLast = x.chLast := by
  unfold Slot.setPred; split <;> rfl

@[simp] theorem Slot.setPred_budget (x : Slot) (n : BitVec 4) (v : Bool) : (x.setPred n v).budget = x.budget := by
  unfold Slot.setPred; split <;> rfl

@[simp] theorem Slot.setPred_wake (x : Slot) (n : BitVec 4) (v : Bool) : (x.setPred n v).wake = x.wake := by
  unfold Slot.setPred; split <;> rfl

@[simp] theorem Slot.setPred_asleep (x : Slot) (n : BitVec 4) (v : Bool) : (x.setPred n v).asleep = x.asleep := by
  unfold Slot.setPred; split <;> rfl

@[simp] theorem Slot.setPred_pend (x : Slot) (n : BitVec 4) (v : Bool) : (x.setPred n v).pend = x.pend := by
  unfold Slot.setPred; split <;> rfl

@[simp] theorem Slot.setPred_hold (x : Slot) (n : BitVec 4) (v : Bool) : (x.setPred n v).hold = x.hold := by
  unfold Slot.setPred; split <;> rfl

@[simp] theorem Slot.setPred_relDone (x : Slot) (n : BitVec 4) (v : Bool) : (x.setPred n v).relDone = x.relDone := by
  unfold Slot.setPred; split <;> rfl

@[simp] theorem Slot.setPred_stage (x : Slot) (n : BitVec 4) (v : Bool) : (x.setPred n v).stage = x.stage := by
  unfold Slot.setPred; split <;> rfl

@[simp] theorem Slot.setPred_tags (x : Slot) (n : BitVec 4) (v : Bool) : (x.setPred n v).tags = x.tags := by
  unfold Slot.setPred; split <;> rfl

@[simp] theorem Slot.setPred_fifo (x : Slot) (n : BitVec 4) (v : Bool) : (x.setPred n v).fifo = x.fifo := by
  unfold Slot.setPred; split <;> rfl

@[simp] theorem Slot.setPred_ints (x : Slot) (n : BitVec 4) (v : Bool) : (x.setPred n v).ints = x.ints := by
  unfold Slot.setPred; split <;> rfl

@[simp] theorem Slot.setPred_heldC (x : Slot) (n : BitVec 4) (v : Bool) : (x.setPred n v).heldC = x.heldC := by
  unfold Slot.setPred; split <;> rfl

@[simp] theorem Slot.setPred_xpopWait (x : Slot) (n : BitVec 4) (v : Bool) : (x.setPred n v).xpopWait = x.xpopWait := by
  unfold Slot.setPred; split <;> rfl

@[simp] theorem Slot.setPred_mmpopWait (x : Slot) (n : BitVec 4) (v : Bool) : (x.setPred n v).mmpopWait = x.mmpopWait := by
  unfold Slot.setPred; split <;> rfl

@[simp] theorem Slot.setPred_reside (x : Slot) (n : BitVec 4) (v : Bool) : (x.setPred n v).reside = x.reside := by
  unfold Slot.setPred; split <;> rfl

@[simp] theorem Slot.setPred_foot (x : Slot) (n : BitVec 4) (v : Bool) : (x.setPred n v).foot = x.foot := by
  unfold Slot.setPred; split <;> rfl

@[simp] theorem Slot.setPred_sepc (x : Slot) (n : BitVec 4) (v : Bool) : (x.setPred n v).sepc = x.sepc := by
  unfold Slot.setPred; split <;> rfl

@[simp] theorem Slot.setPred_timedOut (x : Slot) (n : BitVec 4) (v : Bool) : (x.setPred n v).timedOut = x.timedOut := by
  unfold Slot.setPred; split <;> rfl

@[simp] theorem Slot.setPred_spec (x : Slot) (n : BitVec 4) (v : Bool) : (x.setPred n v).spec = x.spec := by
  unfold Slot.setPred; split <;> rfl

@[simp] theorem Slot.setPred_preempted (x : Slot) (n : BitVec 4) (v : Bool) : (x.setPred n v).preempted = x.preempted := by
  unfold Slot.setPred; split <;> rfl

@[simp] theorem Slot.setPred_smode (x : Slot) (n : BitVec 4) (v : Bool) : (x.setPred n v).smode = x.smode := by
  unfold Slot.setPred; split <;> rfl

@[simp] theorem Slot.setPred_fdetail (x : Slot) (n : BitVec 4) (v : Bool) : (x.setPred n v).fdetail = x.fdetail := by
  unfold Slot.setPred; split <;> rfl

@[simp] theorem Slot.setPred_umber (x : Slot) (n : BitVec 4) (v : Bool) : (x.setPred n v).umber = x.umber := by
  unfold Slot.setPred; split <;> rfl

@[simp] theorem Slot.setPred_walkWait (x : Slot) (n : BitVec 4) (v : Bool) : (x.setPred n v).walkWait = x.walkWait := by
  unfold Slot.setPred; split <;> rfl

@[simp] theorem Slot.setPred_prior (x : Slot) (n : BitVec 4) (v : Bool) : (x.setPred n v).prior = x.prior := by
  unfold Slot.setPred; split <;> rfl

@[simp] theorem Slot.setPred_lateRun (x : Slot) (n : BitVec 4) (v : Bool) : (x.setPred n v).lateRun = x.lateRun := by
  unfold Slot.setPred; split <;> rfl

@[simp] theorem Slot.setPred_sliceTrap (x : Slot) (n : BitVec 4) (v : Bool) : (x.setPred n v).sliceTrap = x.sliceTrap := by
  unfold Slot.setPred; split <;> rfl

@[simp] theorem Slot.setPred_residual (x : Slot) (n : BitVec 4) (v : Bool) : (x.setPred n v).residual = x.residual := by
  unfold Slot.setPred; split <;> rfl

@[simp] theorem Slot.setPred_gatherWait (x : Slot) (n : BitVec 4) (v : Bool) : (x.setPred n v).gatherWait = x.gatherWait := by
  unfold Slot.setPred; split <;> rfl

@[simp] theorem Slot.setPred_lastIssue (x : Slot) (n : BitVec 4) (v : Bool) : (x.setPred n v).lastIssue = x.lastIssue := by
  unfold Slot.setPred; split <;> rfl

@[simp] theorem Slot.setPred_lastSeq (x : Slot) (n : BitVec 4) (v : Bool) : (x.setPred n v).lastSeq = x.lastSeq := by
  unfold Slot.setPred; split <;> rfl

@[simp] theorem Slot.setPred_stopped (x : Slot) (n : BitVec 4) (v : Bool) : (x.setPred n v).stopped = x.stopped := by
  unfold Slot.setPred; split <;> rfl

@[simp] theorem Slot.setPred_gen (x : Slot) (n : BitVec 4) (v : Bool) : (x.setPred n v).gen = x.gen := by
  unfold Slot.setPred; split <;> rfl

-- Slot.setEp

@[simp] theorem Slot.setEp_busy (x : Slot) (n : Nat) (e : Endpoint) : (x.setEp n e).busy = x.busy := rfl

@[simp] theorem Slot.setEp_launch (x : Slot) (n : Nat) (e : Endpoint) : (x.setEp n e).launch = x.launch := rfl

@[simp] theorem Slot.setEp_mode (x : Slot) (n : Nat) (e : Endpoint) : (x.setEp n e).mode = x.mode := rfl

@[simp] theorem Slot.setEp_g (x : Slot) (n : Nat) (e : Endpoint) : (x.setEp n e).g = x.g := rfl

@[simp] theorem Slot.setEp_pw (x : Slot) (n : Nat) (e : Endpoint) : (x.setEp n e).pw = x.pw := rfl

@[simp] theorem Slot.setEp_pc (x : Slot) (n : Nat) (e : Endpoint) : (x.setEp n e).pc = x.pc := rfl

@[simp] theorem Slot.setEp_wid (x : Slot) (n : Nat) (e : Endpoint) : (x.setEp n e).wid = x.wid := rfl

@[simp] theorem Slot.setEp_status (x : Slot) (n : Nat) (e : Endpoint) : (x.setEp n e).status = x.status := rfl

@[simp] theorem Slot.setEp_fshadow (x : Slot) (n : Nat) (e : Endpoint) : (x.setEp n e).fshadow = x.fshadow := rfl

@[simp] theorem Slot.setEp_sshadow (x : Slot) (n : Nat) (e : Endpoint) : (x.setEp n e).sshadow = x.sshadow := rfl

@[simp] theorem Slot.setEp_utvec (x : Slot) (n : Nat) (e : Endpoint) : (x.setEp n e).utvec = x.utvec := rfl

@[simp] theorem Slot.setEp_uivec (x : Slot) (n : Nat) (e : Endpoint) : (x.setEp n e).uivec = x.uivec := rfl

@[simp] theorem Slot.setEp_member (x : Slot) (n : Nat) (e : Endpoint) : (x.setEp n e).member = x.member := rfl

@[simp] theorem Slot.setEp_origin (x : Slot) (n : Nat) (e : Endpoint) : (x.setEp n e).origin = x.origin := rfl

@[simp] theorem Slot.setEp_placement (x : Slot) (n : Nat) (e : Endpoint) : (x.setEp n e).placement = x.placement := rfl

@[simp] theorem Slot.setEp_bucket (x : Slot) (n : Nat) (e : Endpoint) : (x.setEp n e).bucket = x.bucket := rfl

@[simp] theorem Slot.setEp_ix (x : Slot) (n : Nat) (e : Endpoint) : (x.setEp n e).ix = x.ix := rfl

@[simp] theorem Slot.setEp_mgeo (x : Slot) (n : Nat) (e : Endpoint) : (x.setEp n e).mgeo = x.mgeo := rfl

@[simp] theorem Slot.setEp_tcause (x : Slot) (n : Nat) (e : Endpoint) : (x.setEp n e).tcause = x.tcause := rfl

@[simp] theorem Slot.setEp_tval (x : Slot) (n : Nat) (e : Endpoint) : (x.setEp n e).tval = x.tval := rfl

@[simp] theorem Slot.setEp_tpc (x : Slot) (n : Nat) (e : Endpoint) : (x.setEp n e).tpc = x.tpc := rfl

@[simp] theorem Slot.setEp_tseq (x : Slot) (n : Nat) (e : Endpoint) : (x.setEp n e).tseq = x.tseq := rfl

@[simp] theorem Slot.setEp_handler (x : Slot) (n : Nat) (e : Endpoint) : (x.setEp n e).handler = x.handler := rfl

@[simp] theorem Slot.setEp_savedG (x : Slot) (n : Nat) (e : Endpoint) : (x.setEp n e).savedG = x.savedG := rfl

@[simp] theorem Slot.setEp_savedPw (x : Slot) (n : Nat) (e : Endpoint) : (x.setEp n e).savedPw = x.savedPw := rfl

@[simp] theorem Slot.setEp_savedPc (x : Slot) (n : Nat) (e : Endpoint) : (x.setEp n e).savedPc = x.savedPc := rfl

@[simp] theorem Slot.setEp_nalloc (x : Slot) (n : Nat) (e : Endpoint) : (x.setEp n e).nalloc = x.nalloc := rfl

@[simp] theorem Slot.setEp_f (x : Slot) (n : Nat) (e : Endpoint) : (x.setEp n e).f = x.f := rfl

@[simp] theorem Slot.setEp_streams (x : Slot) (n : Nat) (e : Endpoint) : (x.setEp n e).streams = x.streams := rfl

@[simp] theorem Slot.setEp_seqr (x : Slot) (n : Nat) (e : Endpoint) : (x.setEp n e).seqr = x.seqr := rfl

@[simp] theorem Slot.setEp_dseq (x : Slot) (n : Nat) (e : Endpoint) : (x.setEp n e).dseq = x.dseq := rfl

@[simp] theorem Slot.setEp_ring (x : Slot) (n : Nat) (e : Endpoint) : (x.setEp n e).ring = x.ring := rfl

@[simp] theorem Slot.setEp_late (x : Slot) (n : Nat) (e : Endpoint) : (x.setEp n e).late = x.late := rfl

@[simp] theorem Slot.setEp_chLast (x : Slot) (n : Nat) (e : Endpoint) : (x.setEp n e).chLast = x.chLast := rfl

@[simp] theorem Slot.setEp_budget (x : Slot) (n : Nat) (e : Endpoint) : (x.setEp n e).budget = x.budget := rfl

@[simp] theorem Slot.setEp_wake (x : Slot) (n : Nat) (e : Endpoint) : (x.setEp n e).wake = x.wake := rfl

@[simp] theorem Slot.setEp_asleep (x : Slot) (n : Nat) (e : Endpoint) : (x.setEp n e).asleep = x.asleep := rfl

@[simp] theorem Slot.setEp_pend (x : Slot) (n : Nat) (e : Endpoint) : (x.setEp n e).pend = x.pend := rfl

@[simp] theorem Slot.setEp_hold (x : Slot) (n : Nat) (e : Endpoint) : (x.setEp n e).hold = x.hold := rfl

@[simp] theorem Slot.setEp_relDone (x : Slot) (n : Nat) (e : Endpoint) : (x.setEp n e).relDone = x.relDone := rfl

@[simp] theorem Slot.setEp_stage (x : Slot) (n : Nat) (e : Endpoint) : (x.setEp n e).stage = x.stage := rfl

@[simp] theorem Slot.setEp_tags (x : Slot) (n : Nat) (e : Endpoint) : (x.setEp n e).tags = x.tags := rfl

@[simp] theorem Slot.setEp_fifo (x : Slot) (n : Nat) (e : Endpoint) : (x.setEp n e).fifo = x.fifo := rfl

@[simp] theorem Slot.setEp_ints (x : Slot) (n : Nat) (e : Endpoint) : (x.setEp n e).ints = x.ints := rfl

@[simp] theorem Slot.setEp_heldC (x : Slot) (n : Nat) (e : Endpoint) : (x.setEp n e).heldC = x.heldC := rfl

@[simp] theorem Slot.setEp_xpopWait (x : Slot) (n : Nat) (e : Endpoint) : (x.setEp n e).xpopWait = x.xpopWait := rfl

@[simp] theorem Slot.setEp_mmpopWait (x : Slot) (n : Nat) (e : Endpoint) : (x.setEp n e).mmpopWait = x.mmpopWait := rfl

@[simp] theorem Slot.setEp_reside (x : Slot) (n : Nat) (e : Endpoint) : (x.setEp n e).reside = x.reside := rfl

@[simp] theorem Slot.setEp_foot (x : Slot) (n : Nat) (e : Endpoint) : (x.setEp n e).foot = x.foot := rfl

@[simp] theorem Slot.setEp_sepc (x : Slot) (n : Nat) (e : Endpoint) : (x.setEp n e).sepc = x.sepc := rfl

@[simp] theorem Slot.setEp_timedOut (x : Slot) (n : Nat) (e : Endpoint) : (x.setEp n e).timedOut = x.timedOut := rfl

@[simp] theorem Slot.setEp_spec (x : Slot) (n : Nat) (e : Endpoint) : (x.setEp n e).spec = x.spec := rfl

@[simp] theorem Slot.setEp_preempted (x : Slot) (n : Nat) (e : Endpoint) : (x.setEp n e).preempted = x.preempted := rfl

@[simp] theorem Slot.setEp_smode (x : Slot) (n : Nat) (e : Endpoint) : (x.setEp n e).smode = x.smode := rfl

@[simp] theorem Slot.setEp_fdetail (x : Slot) (n : Nat) (e : Endpoint) : (x.setEp n e).fdetail = x.fdetail := rfl

@[simp] theorem Slot.setEp_umber (x : Slot) (n : Nat) (e : Endpoint) : (x.setEp n e).umber = x.umber := rfl

@[simp] theorem Slot.setEp_walkWait (x : Slot) (n : Nat) (e : Endpoint) : (x.setEp n e).walkWait = x.walkWait := rfl

@[simp] theorem Slot.setEp_prior (x : Slot) (n : Nat) (e : Endpoint) : (x.setEp n e).prior = x.prior := rfl

@[simp] theorem Slot.setEp_lateRun (x : Slot) (n : Nat) (e : Endpoint) : (x.setEp n e).lateRun = x.lateRun := rfl

@[simp] theorem Slot.setEp_sliceTrap (x : Slot) (n : Nat) (e : Endpoint) : (x.setEp n e).sliceTrap = x.sliceTrap := rfl

@[simp] theorem Slot.setEp_residual (x : Slot) (n : Nat) (e : Endpoint) : (x.setEp n e).residual = x.residual := rfl

@[simp] theorem Slot.setEp_gatherWait (x : Slot) (n : Nat) (e : Endpoint) : (x.setEp n e).gatherWait = x.gatherWait := rfl

@[simp] theorem Slot.setEp_lastIssue (x : Slot) (n : Nat) (e : Endpoint) : (x.setEp n e).lastIssue = x.lastIssue := rfl

@[simp] theorem Slot.setEp_lastSeq (x : Slot) (n : Nat) (e : Endpoint) : (x.setEp n e).lastSeq = x.lastSeq := rfl

@[simp] theorem Slot.setEp_stopped (x : Slot) (n : Nat) (e : Endpoint) : (x.setEp n e).stopped = x.stopped := rfl

@[simp] theorem Slot.setEp_gen (x : Slot) (n : Nat) (e : Endpoint) : (x.setEp n e).gen = x.gen := rfl

-- Slot.clearPend

@[simp] theorem Slot.clearPend_busy (x : Slot) (r : PReg) : (x.clearPend r).busy = x.busy := rfl

@[simp] theorem Slot.clearPend_launch (x : Slot) (r : PReg) : (x.clearPend r).launch = x.launch := rfl

@[simp] theorem Slot.clearPend_mode (x : Slot) (r : PReg) : (x.clearPend r).mode = x.mode := rfl

@[simp] theorem Slot.clearPend_g (x : Slot) (r : PReg) : (x.clearPend r).g = x.g := rfl

@[simp] theorem Slot.clearPend_pw (x : Slot) (r : PReg) : (x.clearPend r).pw = x.pw := rfl

@[simp] theorem Slot.clearPend_pc (x : Slot) (r : PReg) : (x.clearPend r).pc = x.pc := rfl

@[simp] theorem Slot.clearPend_wid (x : Slot) (r : PReg) : (x.clearPend r).wid = x.wid := rfl

@[simp] theorem Slot.clearPend_status (x : Slot) (r : PReg) : (x.clearPend r).status = x.status := rfl

@[simp] theorem Slot.clearPend_fshadow (x : Slot) (r : PReg) : (x.clearPend r).fshadow = x.fshadow := rfl

@[simp] theorem Slot.clearPend_sshadow (x : Slot) (r : PReg) : (x.clearPend r).sshadow = x.sshadow := rfl

@[simp] theorem Slot.clearPend_utvec (x : Slot) (r : PReg) : (x.clearPend r).utvec = x.utvec := rfl

@[simp] theorem Slot.clearPend_uivec (x : Slot) (r : PReg) : (x.clearPend r).uivec = x.uivec := rfl

@[simp] theorem Slot.clearPend_member (x : Slot) (r : PReg) : (x.clearPend r).member = x.member := rfl

@[simp] theorem Slot.clearPend_origin (x : Slot) (r : PReg) : (x.clearPend r).origin = x.origin := rfl

@[simp] theorem Slot.clearPend_placement (x : Slot) (r : PReg) : (x.clearPend r).placement = x.placement := rfl

@[simp] theorem Slot.clearPend_bucket (x : Slot) (r : PReg) : (x.clearPend r).bucket = x.bucket := rfl

@[simp] theorem Slot.clearPend_ix (x : Slot) (r : PReg) : (x.clearPend r).ix = x.ix := rfl

@[simp] theorem Slot.clearPend_mgeo (x : Slot) (r : PReg) : (x.clearPend r).mgeo = x.mgeo := rfl

@[simp] theorem Slot.clearPend_tcause (x : Slot) (r : PReg) : (x.clearPend r).tcause = x.tcause := rfl

@[simp] theorem Slot.clearPend_tval (x : Slot) (r : PReg) : (x.clearPend r).tval = x.tval := rfl

@[simp] theorem Slot.clearPend_tpc (x : Slot) (r : PReg) : (x.clearPend r).tpc = x.tpc := rfl

@[simp] theorem Slot.clearPend_tseq (x : Slot) (r : PReg) : (x.clearPend r).tseq = x.tseq := rfl

@[simp] theorem Slot.clearPend_handler (x : Slot) (r : PReg) : (x.clearPend r).handler = x.handler := rfl

@[simp] theorem Slot.clearPend_savedG (x : Slot) (r : PReg) : (x.clearPend r).savedG = x.savedG := rfl

@[simp] theorem Slot.clearPend_savedPw (x : Slot) (r : PReg) : (x.clearPend r).savedPw = x.savedPw := rfl

@[simp] theorem Slot.clearPend_savedPc (x : Slot) (r : PReg) : (x.clearPend r).savedPc = x.savedPc := rfl

@[simp] theorem Slot.clearPend_nalloc (x : Slot) (r : PReg) : (x.clearPend r).nalloc = x.nalloc := rfl

@[simp] theorem Slot.clearPend_f (x : Slot) (r : PReg) : (x.clearPend r).f = x.f := rfl

@[simp] theorem Slot.clearPend_streams (x : Slot) (r : PReg) : (x.clearPend r).streams = x.streams := rfl

@[simp] theorem Slot.clearPend_seqr (x : Slot) (r : PReg) : (x.clearPend r).seqr = x.seqr := rfl

@[simp] theorem Slot.clearPend_dseq (x : Slot) (r : PReg) : (x.clearPend r).dseq = x.dseq := rfl

@[simp] theorem Slot.clearPend_ring (x : Slot) (r : PReg) : (x.clearPend r).ring = x.ring := rfl

@[simp] theorem Slot.clearPend_late (x : Slot) (r : PReg) : (x.clearPend r).late = x.late := rfl

@[simp] theorem Slot.clearPend_eps (x : Slot) (r : PReg) : (x.clearPend r).eps = x.eps := rfl

@[simp] theorem Slot.clearPend_chLast (x : Slot) (r : PReg) : (x.clearPend r).chLast = x.chLast := rfl

@[simp] theorem Slot.clearPend_budget (x : Slot) (r : PReg) : (x.clearPend r).budget = x.budget := rfl

@[simp] theorem Slot.clearPend_wake (x : Slot) (r : PReg) : (x.clearPend r).wake = x.wake := rfl

@[simp] theorem Slot.clearPend_asleep (x : Slot) (r : PReg) : (x.clearPend r).asleep = x.asleep := rfl

@[simp] theorem Slot.clearPend_hold (x : Slot) (r : PReg) : (x.clearPend r).hold = x.hold := rfl

@[simp] theorem Slot.clearPend_relDone (x : Slot) (r : PReg) : (x.clearPend r).relDone = x.relDone := rfl

@[simp] theorem Slot.clearPend_stage (x : Slot) (r : PReg) : (x.clearPend r).stage = x.stage := rfl

@[simp] theorem Slot.clearPend_tags (x : Slot) (r : PReg) : (x.clearPend r).tags = x.tags := rfl

@[simp] theorem Slot.clearPend_fifo (x : Slot) (r : PReg) : (x.clearPend r).fifo = x.fifo := rfl

@[simp] theorem Slot.clearPend_ints (x : Slot) (r : PReg) : (x.clearPend r).ints = x.ints := rfl

@[simp] theorem Slot.clearPend_heldC (x : Slot) (r : PReg) : (x.clearPend r).heldC = x.heldC := rfl

@[simp] theorem Slot.clearPend_xpopWait (x : Slot) (r : PReg) : (x.clearPend r).xpopWait = x.xpopWait := rfl

@[simp] theorem Slot.clearPend_mmpopWait (x : Slot) (r : PReg) : (x.clearPend r).mmpopWait = x.mmpopWait := rfl

@[simp] theorem Slot.clearPend_reside (x : Slot) (r : PReg) : (x.clearPend r).reside = x.reside := rfl

@[simp] theorem Slot.clearPend_foot (x : Slot) (r : PReg) : (x.clearPend r).foot = x.foot := rfl

@[simp] theorem Slot.clearPend_sepc (x : Slot) (r : PReg) : (x.clearPend r).sepc = x.sepc := rfl

@[simp] theorem Slot.clearPend_timedOut (x : Slot) (r : PReg) : (x.clearPend r).timedOut = x.timedOut := rfl

@[simp] theorem Slot.clearPend_spec (x : Slot) (r : PReg) : (x.clearPend r).spec = x.spec := rfl

@[simp] theorem Slot.clearPend_preempted (x : Slot) (r : PReg) : (x.clearPend r).preempted = x.preempted := rfl

@[simp] theorem Slot.clearPend_smode (x : Slot) (r : PReg) : (x.clearPend r).smode = x.smode := rfl

@[simp] theorem Slot.clearPend_fdetail (x : Slot) (r : PReg) : (x.clearPend r).fdetail = x.fdetail := rfl

@[simp] theorem Slot.clearPend_umber (x : Slot) (r : PReg) : (x.clearPend r).umber = x.umber := rfl

@[simp] theorem Slot.clearPend_walkWait (x : Slot) (r : PReg) : (x.clearPend r).walkWait = x.walkWait := rfl

@[simp] theorem Slot.clearPend_prior (x : Slot) (r : PReg) : (x.clearPend r).prior = x.prior := rfl

@[simp] theorem Slot.clearPend_lateRun (x : Slot) (r : PReg) : (x.clearPend r).lateRun = x.lateRun := rfl

@[simp] theorem Slot.clearPend_sliceTrap (x : Slot) (r : PReg) : (x.clearPend r).sliceTrap = x.sliceTrap := rfl

@[simp] theorem Slot.clearPend_residual (x : Slot) (r : PReg) : (x.clearPend r).residual = x.residual := rfl

@[simp] theorem Slot.clearPend_gatherWait (x : Slot) (r : PReg) : (x.clearPend r).gatherWait = x.gatherWait := rfl

@[simp] theorem Slot.clearPend_lastIssue (x : Slot) (r : PReg) : (x.clearPend r).lastIssue = x.lastIssue := rfl

@[simp] theorem Slot.clearPend_lastSeq (x : Slot) (r : PReg) : (x.clearPend r).lastSeq = x.lastSeq := rfl

@[simp] theorem Slot.clearPend_stopped (x : Slot) (r : PReg) : (x.clearPend r).stopped = x.stopped := rfl

@[simp] theorem Slot.clearPend_gen (x : Slot) (r : PReg) : (x.clearPend r).gen = x.gen := rfl

end Sys2Proof.Machine
end

