-- ==== Sys2Proof/Laws/Ops.lean ====
section
/-! SUPPORT. How an instruction runs: each shared operation applied to a state, and the parts that the claims name. -/

namespace Sys2Proof.Machine

-- sequencing

@[simp] theorem bind_apply {α β : Type} (m : M α) (f : α → M β) (s : State) :
    (m >>= f) s = match m s with
      | .ok (a, t) => f a t
      | .error o => .error o := by
  show (Except.bind _ _) = _
  unfold Except.bind
  cases m s <;> rfl

@[simp] theorem pure_apply {α : Type} (a : α) (s : State) : (pure a : M α) s = .ok (a, s) := rfl

theorem bind_ok {α β : Type} {m : M α} {s t : State} {a : α} (f : α → M β) (h : m s = .ok (a, t)) :
    (m >>= f) s = f a t := by
  simp [h]

theorem bind_error {α β : Type} {m : M α} {s : State} {o : Out} (f : α → M β) (h : m s = .error o) :
    (m >>= f) s = .error o := by
  simp [h]

theorem run_ok {m : M Unit} {s t : State} (h : m s = .ok ((), t)) : run m s = .next t := by
  simp [run, h]

theorem run_error {m : M Unit} {s : State} {o : Out} (h : m s = .error o) : run m s = o := by
  simp [run, h]

/-- An action that goes on with a value and a state is what `after` answers. -/
theorem after_eq_some {α : Type} {m : M α} {s t : State} {a : α} : after m s = some (a, t) ↔ m s = .ok (a, t) := by
  unfold after
  split <;> simp_all

-- the operations

@[simp] theorem getS_apply (s : State) : getS s = .ok (s, s) := rfl
@[simp] theorem setS_apply (t s : State) : setS t s = .ok ((), t) := rfl
@[simp] theorem slot_apply (s : State) : slot s = .ok (s.me, s) := rfl
@[simp] theorem place_apply (s : State) : place s = .ok (s.cur.pl, s) := rfl
@[simp] theorem core_apply (s : State) : core s = .ok (s.at' s.cur.pl, s) := rfl
@[simp] theorem modSlot_apply (f : Slot → Slot) (s : State) : modSlot f s = .ok ((), s.updMe f) := rfl
@[simp] theorem modCore_apply (f : CoreSt → CoreSt) (s : State) :
    modCore f s = .ok ((), s.setAt s.cur.pl (f (s.at' s.cur.pl))) := rfl
@[simp] theorem modS_apply (f : State → State) (s : State) : modS f s = .ok ((), f s) := rfl
@[simp] theorem stop_apply {α : Type} (s : State) : (stop : M α) s = .error (.next s) := rfl
@[simp] theorem loseTurn_apply {α : Type} (s : State) : (loseTurn : M α) s = .error (.next s) := rfl
@[simp] theorem done_apply (s : State) : done s = .ok ((), s.ended) := rfl
@[simp] theorem jump_apply (pc : Word) (s : State) : jump pc s = .ok ((), s.wentTo pc) := rfl
@[simp] theorem trap_apply {α : Type} (c : BitVec 16) (v : Word) (s : State) :
    (trap c v : M α) s = .error (.next (s.trapped c v)) := rfl
@[simp] theorem trapWith_apply {α : Type} (t : Trap) (s : State) :
    (trapWith t : M α) s = .error (.next (s.raise s.cur t)) := rfl
@[simp] theorem illegal_apply {α : Type} (s : State) : (illegal : M α) s = .error (.next (s.trapped cIllegal s.word)) := rfl

/-- A thread that leaves for another place. -/
theorem depart_apply {α : Type} (dst : Place) (past : Bool) (s : State) :
    (depart dst past : M α) s = .error (.next (s.updMe (fun x =>
      { x with hold := .depart dst past none, asleep := none, relDone := false, stage := 0, walkWait := none }))) := rfl

/-- A thread held until the instruction completes. -/
theorem holdTurn_apply {α : Type} (s : State) :
    (holdTurn : M α) s = .error (.next (s.updMe (fun x => { x with hold := .held }))) := rfl

/-- A thread that goes to sleep in the instruction, since the cycle of its first try. -/
theorem sleepTurn_apply {α : Type} (k : SleepIn) (s : State) :
    (sleepTurn k : M α) s = .error (.next (s.updMe (fun x => { x with asleep := some (x.asleep.getD ⟨s.cyc, k, none⟩) }))) :=
  rfl

-- the executing slot

@[simp] theorem State.updMe_cur (s : State) (f : Slot → Slot) : (s.updMe f).cur = s.cur := State.setSlot_cur ..
@[simp] theorem State.updMe_cyc (s : State) (f : Slot → Slot) : (s.updMe f).cyc = s.cyc := State.setSlot_cyc ..
@[simp] theorem State.updMe_mem (s : State) (f : Slot → Slot) : (s.updMe f).mem = s.mem := State.setSlot_mem ..
@[simp] theorem State.updMe_hostMem (s : State) (f : Slot → Slot) : (s.updMe f).hostMem = s.hostMem := State.setSlot_hostMem ..

@[simp] theorem State.me_updMe (s : State) (f : Slot → Slot) : (s.updMe f).me = f s.me := by
  simp [State.me, State.updMe]

theorem State.slotAt_updMe_ne (s : State) (f : Slot → Slot) {j : Sid} (h : j ≠ s.cur) :
    (s.updMe f).slotAt j = s.slotAt j := State.slotAt_setSlot_ne _ _ (Ne.symm h)

@[simp] theorem State.me_ended (s : State) : s.ended.me = s.me.advance := by simp [State.ended]
@[simp] theorem State.ended_cur (s : State) : s.ended.cur = s.cur := by simp [State.ended]
@[simp] theorem State.wentTo_cur (s : State) (pc : Word) : (s.wentTo pc).cur = s.cur := by simp [State.wentTo]
@[simp] theorem State.me_wentTo (s : State) (pc : Word) : (s.wentTo pc).me = s.me.goTo pc := by simp [State.wentTo]

-- the parts

theorem Ready.eq {us : List Use} {s t : State} (h : Ready us s t) : prep us s = .ok ((), t) := after_eq_some.1 h
theorem Reads.eq {f : Fld} {s t : State} {v : Word} (h : Reads f s v t) : rg f s = .ok (v, t) := after_eq_some.1 h
theorem ReadsVec.eq {f : Fld} {s t : State} {v : Vec} (h : ReadsVec f s v t) : rv f s = .ok (v, t) := after_eq_some.1 h

/-- Reading a vector register changes nothing. -/
theorem rv_apply (f : Fld) (s : State) : ∃ v, rv f s = .ok (v, s) := by
  unfold rv
  simp only [bind_apply, getS_apply]
  split <;> exact ⟨_, rfl⟩

/-- A register write always goes on. -/
theorem wg_apply (k : Nat) (f : Fld) (v : Word) (s : State) : wg k f v s = .ok ((), s.wrote k f v) := by
  have h : ∃ t, wg k f v s = .ok ((), t) := by
    unfold wg
    simp only [bind_apply, getS_apply]
    repeat' split
    all_goals exact ⟨_, rfl⟩
  obtain ⟨t, h⟩ := h
  simp [State.wrote, after, h]

theorem wv_apply (k : Nat) (f : Fld) (v : Vec) (s : State) : wv k f v s = .ok ((), s.wroteVec k f v) := by
  have h : ∃ t, wv k f v s = .ok ((), t) := by
    unfold wv
    simp only [bind_apply, getS_apply]
    split
    · exact ⟨_, rfl⟩
    · exact ⟨_, rfl⟩
  obtain ⟨t, h⟩ := h
  simp [State.wroteVec, after, h]

/-- R240: with no CFGBANK in progress on the place, nothing is held. -/
theorem cfgGate_passes {r : Bool} {bs : List PByte} {s : State} (h : (s.at' s.cur.pl).cfg = none) : Passes (cfgGate r bs) s := by
  show after _ _ = _
  rw [after_eq_some]
  simp only [cfgGate, bind_apply, getS_apply]
  rw [if_neg]
  · rfl
  · simp only [List.any_eq_true, not_exists, not_and]
    intro b _
    unfold State.cfgHeld
    cases b.loc <;> simp [CoreSt.l1Busy, CoreSt.bankBusy, h]

/-- Lanes that name no page need no walk. -/
theorem lookLanes_passes {wr : Bool} {ty : BitVec 3} {base : Word} {b : Vec} {s : State} {l : List Nat}
    (h : ∀ i ∈ l, isVirt (laneAddr ty base b i).toNat = false) : Passes (lookLanes wr ty base b l) s := by
  show after _ _ = _
  rw [after_eq_some]
  induction l with
  | nil => rfl
  | cons i l ih =>
    have hp : lookPage (laneAddr ty base b i) s = .ok ((), s) := by
      simp [lookPage, h i (by simp), bind_apply]
    have ht := ih fun j hj => h j (List.mem_cons_of_mem i hj)
    unfold lookLanes
    dsimp only
    by_cases hm : (laneAddr ty base b i).toNat % (tyBits ty / 8) = 0
    · simp only [if_pos hm, bind_apply, hp, getS_apply]
      cases s.laneAccess wr ty (laneAddr ty base b i) <;> first | exact ht | rfl
    · simp only [if_neg hm, bind_apply, getS_apply]
      cases s.laneAccess wr ty (laneAddr ty base b i) <;> first | exact ht | rfl

/-- The same for the accesses of a gather's or scatter's lanes, once their pages are in reach. -/
theorem lanesGate_passes {wr : Bool} {ty : BitVec 3} {act : List Nat} {base : Word} {b : Vec} {s : State}
    (h : (s.at' s.cur.pl).cfg = none) (hl : Passes (lookLanes wr ty base b act) s) : Passes (lanesGate wr ty act base b) s := by
  show after _ _ = _
  rw [after_eq_some]
  simp only [lanesGate, bind_apply, after_eq_some.1 hl, getS_apply]
  exact after_eq_some.1 (cfgGate_passes h)

end Sys2Proof.Machine
end

