-- ==== Sys2Proof/Laws/MemOk.lean ====
section
/-! SUPPORT. What keeps every byte memory in canonical form: the updates of the state, one lemma each, for the proof that
every step keeps it. -/

namespace Sys2Proof.Machine

theorem Memory.wf_filter {m : Memory} (p : Host.Cell → Bool) (h : Memory.wf m = true) : Memory.wf (m.filter p) = true := by
  induction m with
  | nil => exact h
  | cons e t ih =>
    obtain ⟨k, b⟩ := e
    rw [Memory.wf_cons] at h
    obtain ⟨hb, hk, ht⟩ := h
    rw [List.filter_cons]
    split
    · rw [Memory.wf_cons]
      exact ⟨hb, fun x hx => hk x (List.mem_filter.1 hx).1, ih ht⟩
    · exact ih ht

theorem CoreSt.memOk_iff (c : CoreSt) :
    c.memOk = true ↔ Memory.wf c.ls = true ∧ ∀ e ∈ c.res, Memory.wf e.2.data = true := by
  simp [CoreSt.memOk]

theorem State.memOk_iff (s : State) :
    s.memOk = true ↔ Memory.wf s.mem = true ∧ Memory.wf s.hostMem = true ∧ (∀ e ∈ s.cores, e.2.memOk = true) ∧
      ∀ e ∈ s.slices, e.2.memOk = true := by
  simp [State.memOk, and_assoc]

theorem coreReset_memOk : coreReset.memOk = true := rfl

/-- A table whose listed entries, and whose default, have a property: what a number reads has it. -/
theorem tabGet_all {α : Type} {d : α} {t : Tab α} {p : α → Prop} (hd : p d) (h : ∀ e ∈ t, p e.2) (n : Nat) : p (tabGet d t n) := by
  induction t with
  | nil => exact hd
  | cons e t ih =>
    obtain ⟨k, w⟩ := e
    simp only [tabGet]
    split
    · exact h (k, w) (by simp)
    · exact ih (fun x hx => h x (by simp [hx]))

/-- What a set entry and the listed ones have, the entries of the changed table have. -/
theorem tabSet_all {α : Type} {t : Tab α} {p : α → Prop} {n : Nat} {v : α} (hv : p v) (h : ∀ e ∈ t, p e.2) :
    ∀ e ∈ tabSet t n v, p e.2 := by
  intro e he
  rcases mem_tabSet he with rfl | he
  · exact hv
  · exact h e he

theorem State.at'_memOk {s : State} (h : s.memOk = true) (p : Place) : (s.at' p).memOk = true := by
  obtain ⟨-, -, hc, hs⟩ := (State.memOk_iff s).1 h
  cases p with
  | core n => exact tabGet_all (p := fun c => CoreSt.memOk c = true) coreReset_memOk hc n
  | slice n => exact tabGet_all (p := fun c => CoreSt.memOk c = true) coreReset_memOk hs n

theorem State.setAt_memOk {s : State} {p : Place} {c : CoreSt} (h : s.memOk = true) (hc : c.memOk = true) :
    (s.setAt p c).memOk = true := by
  obtain ⟨hm, hh, hcs, hs⟩ := (State.memOk_iff s).1 h
  cases p with
  | core n =>
    exact (State.memOk_iff _).2 ⟨hm, hh, tabSet_all (p := fun c => CoreSt.memOk c = true) hc hcs, hs⟩
  | slice n =>
    exact (State.memOk_iff _).2 ⟨hm, hh, hcs, tabSet_all (p := fun c => CoreSt.memOk c = true) hc hs⟩

/-- A place changed in anything but its local store and its residency slots. -/
theorem State.setAt_memOk_of_eq {s : State} {p : Place} {c : CoreSt} (h : s.memOk = true) (hl : c.ls = (s.at' p).ls)
    (hr : c.res = (s.at' p).res) : (s.setAt p c).memOk = true :=
  State.setAt_memOk h (by
    have h' := State.at'_memOk h p
    rw [CoreSt.memOk_iff] at h' ⊢
    rwa [hl, hr])

theorem State.setSlot_memOk {s : State} {i : Sid} {x : Slot} (h : s.memOk = true) : (s.setSlot i x).memOk = true :=
  State.setAt_memOk_of_eq h rfl rfl

theorem State.updMe_memOk {s : State} {f : Slot → Slot} (h : s.memOk = true) : (s.updMe f).memOk = true :=
  State.setSlot_memOk h

theorem State.ended_memOk {s : State} (h : s.memOk = true) : s.ended.memOk = true := State.updMe_memOk h

theorem State.wentTo_memOk {s : State} {pc : Word} (h : s.memOk = true) : (s.wentTo pc).memOk = true := State.updMe_memOk h

/-- Taking an exception changes no byte memory. -/
theorem State.raise_memOk {s : State} {i : Sid} {t : Trap} (h : s.memOk = true) : (s.raise i t).memOk = true := by
  unfold State.raise
  dsimp only
  split
  · exact State.setSlot_memOk h
  · exact State.setSlot_memOk h

theorem State.trapped_memOk {s : State} {c : BitVec 16} {v : Word} (h : s.memOk = true) : (s.trapped c v).memOk = true :=
  State.raise_memOk h

@[simp] theorem State.setCluster_memOk (s : State) (n : Nat) (c : ClusterSt) : (s.setCluster n c).memOk = s.memOk := rfl
@[simp] theorem State.setCar_memOk (s : State) (n : Nat) (c : Carriage) : (s.setCar n c).memOk = s.memOk := rfl
@[simp] theorem State.setLaunch_memOk (s : State) (l : Launch) : (s.setLaunch l).memOk = s.memOk := rfl

/-- A byte written anywhere. -/
theorem State.setByte_memOk {s : State} {l : Loc} {b : Byte} (h : s.memOk = true) : (s.setByte l b).memOk = true := by
  obtain ⟨hm, hh, hc, hs⟩ := (State.memOk_iff s).1 h
  cases l with
  | dev p => exact (State.memOk_iff _).2 ⟨Memory.wf_write p b hm, hh, hc, hs⟩
  | host p => exact (State.memOk_iff _).2 ⟨hm, Memory.wf_write p b hh, hc, hs⟩
  | ls n o =>
    refine State.setAt_memOk h ?_
    have h' := State.at'_memOk h (.core n)
    rw [CoreSt.memOk_iff] at h' ⊢
    exact ⟨Memory.wf_write o b h'.1, h'.2⟩

/-- Masked bytes written at their places. -/
theorem State.applyBytes_memOk {s : State} (l : List (Loc × Byte × Byte)) (h : s.memOk = true) :
    (s.applyBytes l).memOk = true := by
  unfold State.applyBytes
  induction l generalizing s with
  | nil => exact h
  | cons e t ih => exact ih (State.setByte_memOk h)

/-- A write request performed at its home. -/
theorem State.l2Use_memOk {s t : State} {k line : Nat} {host w : Bool} (h : s.memOk = true)
    (e : s.l2Use k line host w = some t) : t.memOk = true := by
  unfold State.l2Use at e
  dsimp only at e
  repeat' split at e
  all_goals first | (obtain rfl := Option.some.inj e; exact h) | cases e

theorem State.writeHome_memOk {s t : State} {dst : Place} {l : List (Loc × Byte × Byte)} {cached : Bool} (h : s.memOk = true)
    (e : s.writeHome dst l cached = some t) : t.memOk = true := by
  unfold State.writeHome at e
  split at e
  · split at e
    · obtain ⟨u, hu, rfl⟩ := Option.map_eq_some_iff.1 e
      exact State.applyBytes_memOk l (State.l2Use_memOk h hu)
    · cases e
      exact State.applyBytes_memOk l h
  · cases e
    exact State.applyBytes_memOk l h

/-- Lines used by reads. -/
theorem State.useLines_memOk {lines : List (Nat × Nat × Bool)} {s t : State} (h : s.memOk = true)
    (e : s.useLines lines = some t) : t.memOk = true := by
  unfold State.useLines at e
  induction lines generalizing s with
  | nil =>
    cases e
    exact h
  | cons x lines ih =>
    rw [List.foldlM_cons] at e
    obtain ⟨u, hu, hr⟩ := Option.bind_eq_some_iff.1 e
    exact ih (State.l2Use_memOk h hu) hr

theorem State.useDev_memOk {s t : State} {pa n : Nat} (h : s.memOk = true) (e : s.useDev pa n = some t) : t.memOk = true :=
  State.useLines_memOk h e

theorem State.agentUse_memOk {s : State} {b : PByte} {n : Nat} (h : s.memOk = true) : (s.agentUse b n).memOk = true := by
  unfold State.agentUse
  cases e : s.useLines _ with
  | none => exact h
  | some t => exact State.useLines_memOk h e

@[simp] theorem State.backInvalidate_memOk (s : State) (l : List Nat) : (s.backInvalidate l).memOk = s.memOk := rfl
@[simp] theorem State.noteHost_memOk (s : State) (l : List PByte) : (s.noteHost l).memOk = s.memOk := rfl
@[simp] theorem State.snoop_memOk (s : State) (l : List Nat) : (s.snoop l).memOk = s.memOk := rfl
@[simp] theorem State.clearPoison_memOk (s : State) (l : List (Loc × Byte × Byte)) : (s.clearPoison l).memOk = s.memOk := rfl

/-- Bytes written at their homes, and the writes of an agent. -/
theorem State.homePut_memOk {s : State} (l : List (PByte × Byte × Byte)) (h : s.memOk = true) : (s.homePut l).memOk = true := by
  unfold State.homePut
  induction groupPosts s l generalizing s with
  | nil => exact h
  | cons g gs ih =>
    refine ih ?_
    rw [State.clearPoison_memOk]
    cases e : s.writeHome g.1 g.2.2 g.2.1 with
    | none => exact State.applyBytes_memOk _ h
    | some t => exact State.writeHome_memOk h e

theorem State.agentPut_memOk {s : State} (l : List (PByte × Byte × Byte)) (h : s.memOk = true) : (s.agentPut l).memOk = true :=
  State.homePut_memOk l (by rwa [State.backInvalidate_memOk, State.noteHost_memOk])

theorem State.agentNat_memOk {s : State} {b : PByte} {n v : Nat} (h : s.memOk = true) : (s.agentNat b n v).memOk = true :=
  State.agentPut_memOk _ h

/-- Pages brought in reach of an agent. -/
theorem State.warm1_memOk {s t : State} {cl : Nat} {root : Word} {va : Nat} (h : s.memOk = true) (e : s.warm1 cl root va = some t) :
    t.memOk = true := by
  unfold State.warm1 at e
  dsimp only at e
  split at e
  · cases e
    exact h
  · split at e
    · cases e
    · obtain ⟨u, hu, rfl⟩ := Option.map_eq_some_iff.1 e
      have := State.useLines_memOk h hu
      split <;> exact this

theorem State.warm_memOk {cl : Nat} {root : Word} {vas : List Nat} {s t : State} (h : s.memOk = true)
    (e : s.warm cl root vas = some t) : t.memOk = true := by
  unfold State.warm at e
  induction vas generalizing s with
  | nil =>
    cases e
    exact h
  | cons v vas ih =>
    rw [List.foldlM_cons] at e
    obtain ⟨u, hu, hr⟩ := Option.bind_eq_some_iff.1 e
    exact ih (State.warm1_memOk h hu) hr

@[simp] theorem State.sendAfter_memOk (s : State) (n : Nat) (a b : Place) (i : Option Sid) (f : FBody) (l : List Nat) :
    (s.sendAfter n a b i f l).memOk = s.memOk := rfl

@[simp] theorem State.send_memOk (s : State) (n : Nat) (a b : Place) (i : Option Sid) (f : FBody) :
    (s.send n a b i f).memOk = s.memOk := rfl

@[simp] theorem State.dropFlight_memOk (s : State) (n : Nat) : (s.dropFlight n).memOk = s.memOk := rfl

-- the parts of an instruction

/-- An action keeps the byte memories canonical, whether it goes on or ends the instruction. -/
def KeepsMem {α : Type} (m : M α) : Prop :=
  ∀ s, s.memOk = true → (∀ a t, m s = .ok (a, t) → t.memOk = true) ∧ ∀ t, m s = .error (.next t) → t.memOk = true

theorem KeepsMem.pure {α : Type} (a : α) : KeepsMem (Pure.pure a : M α) := by
  intro s h
  refine ⟨?_, ?_⟩
  · rintro b t ⟨⟩
    exact h
  · rintro t ⟨⟩

theorem KeepsMem.bind {α β : Type} {m : M α} {f : α → M β} (hm : KeepsMem m) (hf : ∀ a, KeepsMem (f a)) :
    KeepsMem (m >>= f) := by
  intro s h
  obtain ⟨h1, h2⟩ := hm s h
  rw [bind_apply]
  cases e : m s with
  | error o =>
    refine ⟨?_, ?_⟩
    · rintro a t ⟨⟩
    · intro t ht
      cases ht
      exact h2 t e
  | ok p => exact hf p.1 p.2 (h1 p.1 p.2 e)

/-- An instruction whose action keeps them, keeps them. -/
theorem KeepsMem.run {m : M Unit} (hm : KeepsMem m) {s t : State} (h : s.memOk = true) (e : run m s = .next t) :
    t.memOk = true := by
  obtain ⟨h1, h2⟩ := hm s h
  unfold Machine.run at e
  split at e
  · rename_i u hu
    cases e
    exact h1 _ _ hu
  · rename_i o ho
    subst e
    exact h2 _ ho

theorem KeepsMem.ite {α : Type} {c : Prop} [Decidable c] {m n : M α} (hm : KeepsMem m) (hn : KeepsMem n) :
    KeepsMem (if c then m else n) := by
  split
  · exact hm
  · exact hn

theorem KeepsMem.getS : KeepsMem Machine.getS := fun s h => ⟨by rintro a t ⟨⟩; exact h, by rintro t ⟨⟩⟩
theorem KeepsMem.slot : KeepsMem Machine.slot := fun s h => ⟨by rintro a t ⟨⟩; exact h, by rintro t ⟨⟩⟩
theorem KeepsMem.place : KeepsMem Machine.place := fun s h => ⟨by rintro a t ⟨⟩; exact h, by rintro t ⟨⟩⟩
theorem KeepsMem.core : KeepsMem Machine.core := fun s h => ⟨by rintro a t ⟨⟩; exact h, by rintro t ⟨⟩⟩

theorem KeepsMem.modSlot (f : Slot → Slot) : KeepsMem (Machine.modSlot f) :=
  fun s h => ⟨by rintro a t ⟨⟩; exact State.setSlot_memOk h, by rintro t ⟨⟩⟩

/-- A change of the core that leaves its local store and its residency slots. -/
theorem KeepsMem.modCore {f : CoreSt → CoreSt} (hl : ∀ c, (f c).ls = c.ls) (hr : ∀ c, (f c).res = c.res) :
    KeepsMem (Machine.modCore f) :=
  fun s h => ⟨by rintro a t ⟨⟩; exact State.setAt_memOk_of_eq h (hl _) (hr _), by rintro t ⟨⟩⟩

theorem KeepsMem.modS {f : State → State} (hf : ∀ s, s.memOk = true → (f s).memOk = true) : KeepsMem (Machine.modS f) :=
  fun s h => ⟨by rintro a t ⟨⟩; exact hf s h, by rintro t ⟨⟩⟩

theorem KeepsMem.done : KeepsMem Machine.done := fun s h => ⟨by rintro a t ⟨⟩; exact State.ended_memOk h, by rintro t ⟨⟩⟩
theorem KeepsMem.jump (pc : Word) : KeepsMem (Machine.jump pc) :=
  fun s h => ⟨by rintro a t ⟨⟩; exact State.wentTo_memOk h, by rintro t ⟨⟩⟩

theorem KeepsMem.stop {α : Type} : KeepsMem (Machine.stop : M α) := fun s h => ⟨by rintro a t ⟨⟩, by rintro t ⟨⟩; exact h⟩
theorem KeepsMem.loseTurn {α : Type} : KeepsMem (Machine.loseTurn : M α) :=
  fun s h => ⟨by rintro a t ⟨⟩, by rintro t ⟨⟩; exact h⟩
theorem KeepsMem.trap {α : Type} (c : BitVec 16) (v : Word) : KeepsMem (Machine.trap c v : M α) :=
  fun s h => ⟨by rintro a t ⟨⟩, by rintro t ⟨⟩; exact State.trapped_memOk h⟩
theorem KeepsMem.trapWith {α : Type} (x : Trap) : KeepsMem (Machine.trapWith x : M α) :=
  fun s h => ⟨by rintro a t ⟨⟩, by rintro t ⟨⟩; exact State.raise_memOk h⟩

end Sys2Proof.Machine
end

