-- ==== Sys2Proof/Laws/PerInstr.lean ====
section
/-! SUPPORT. The family Encode: an instruction's word, with guard p0, decodes to the instruction (R200-R216). One lemma
per constructor; the events have no word. -/

namespace Sys2Proof.Laws.Encode

set_option maxRecDepth 8192

/-- The word that `encode` gives a well-formed instruction decodes to it, with guard p0 and no early-binding bit. -/
def Statement (i : Instr) : Prop := i.wf = true → ∀ w, encode i = some w → decode w = some ⟨0, false, 0, i⟩

/-- The R format: the candidate decides. -/
theorem ofR {i : Instr} (op : BitVec 8) (d a b : Fld) (c : BitVec 6) (fn : BitVec 11) (ty : BitVec 3) (sp : BitVec 6) (he : encode i = some (packR op d a b c fn ty sp))
    (hu : unassigned op.toNat = false) (hc : i.wf = true → candidate (packR op d a b c fn ty sp) = i) : Statement i := by
  intro hw w h
  obtain rfl : packR op d a b c fn ty sp = w := Option.some.inj (he.symm.trans h)
  exact decode_of_candidate (body_packR ..) (by rw [fOp_packR]; exact hu) hw he (hc hw)

/-- The I format: the candidate decides. -/
theorem ofI {i : Instr} (op : BitVec 8) (d a : BitVec 6) (fn : BitVec 3) (imm : BitVec 32) (he : encode i = some (packI op d a fn imm))
    (hu : unassigned op.toNat = false) (hc : i.wf = true → candidate (packI op d a fn imm) = i) : Statement i := by
  intro hw w h
  obtain rfl : packI op d a fn imm = w := Option.some.inj (he.symm.trans h)
  exact decode_of_candidate (body_packI ..) (by rw [fOp_packI]; exact hu) hw he (hc hw)

/-- The M format: the candidate decides. -/
theorem ofM {i : Instr} (op : BitVec 8) (d : BitVec 6) (ad : MAddr) (sz : BitVec 3) (sx : Bool) (sc : BitVec 3) (he : encode i = some (packM op d ad sz sx sc))
    (hu : unassigned op.toNat = false) (hc : i.wf = true → candidate (packM op d ad sz sx sc) = i) : Statement i := by
  intro hw w h
  obtain rfl : packM op d ad sz sx sc = w := Option.some.inj (he.symm.trans h)
  exact decode_of_candidate (body_packM ..) (by rw [fOp_packM]; exact hu) hw he (hc hw)

/-- The B format: the candidate decides. -/
theorem ofB {i : Instr} (op : BitVec 8) (d : BitVec 6) (off : BitVec 41) (he : encode i = some (packB op d off))
    (hu : unassigned op.toNat = false) (hc : i.wf = true → candidate (packB op d off) = i) : Statement i := by
  intro hw w h
  obtain rfl : packB op d off = w := Option.some.inj (he.symm.trans h)
  exact decode_of_candidate (body_packB ..) (by rw [fOp_packB]; exact hu) hw he (hc hw)

/-- The X format: the candidate decides. -/
theorem ofX {i : Instr} (op : BitVec 8) (d a b : BitVec 6) (sub : BitVec 9) (imm : BitVec 20) (he : encode i = some (packX op d a b sub imm))
    (hu : unassigned op.toNat = false) (hc : i.wf = true → candidate (packX op d a b sub imm) = i) : Statement i := by
  intro hw w h
  obtain rfl : packX op d a b sub imm = w := Option.some.inj (he.symm.trans h)
  exact decode_of_candidate (body_packX ..) (by rw [fOp_packX]; exact hu) hw he (hc hw)

theorem nop : Statement .nop :=
  ofR 0x00 _ _ _ _ _ _ _ rfl rfl (by
    intro hw
    unfold candidate
    rw [fOp_packR]
    change Instr.nop = _
    simp [])

theorem exit : Statement .exit :=
  ofR 0x01 _ _ _ _ _ _ _ rfl rfl (by
    intro hw
    unfold candidate
    rw [fOp_packR]
    change Instr.exit = _
    simp [])

theorem trap (a : BitVec 6) (cause : BitVec 16) : Statement (.trap a cause) :=
  ofI 0x02 _ _ _ _ rfl rfl (by
    intro hw
    unfold candidate
    rw [fOp_packI]
    change Instr.trap (fA _) (immI _ |>.setWidth 16) = _
    simp [fA_packI, immI_packI])

theorem sysc (n : BitVec 32) : Statement (.sysc n) :=
  ofI 0x03 _ _ _ _ rfl rfl (by
    intro hw
    unfold candidate
    rw [fOp_packI]
    change Instr.sysc (immI _) = _
    simp [immI_packI])

theorem eret : Statement .eret :=
  ofR 0x04 _ _ _ _ _ _ _ rfl rfl (by
    intro hw
    unfold candidate
    rw [fOp_packR]
    change Instr.eret = _
    simp [])

theorem uret : Statement .uret :=
  ofR 0x05 _ _ _ _ _ _ _ rfl rfl (by
    intro hw
    unfold candidate
    rw [fOp_packR]
    change Instr.uret = _
    simp [])

theorem mfs (d : BitVec 6) (num : BitVec 9) : Statement (.mfs d num) :=
  ofI 0x06 _ _ _ _ rfl rfl (by
    intro hw
    unfold candidate
    rw [fOp_packI]
    change Instr.mfs (fD _) (immI _ |>.setWidth 9) = _
    simp [fD_packI, immI_packI])

theorem mts (a : BitVec 6) (num : BitVec 9) : Statement (.mts a num) :=
  ofI 0x07 _ _ _ _ rfl rfl (by
    intro hw
    have hn := mts_fields num (by simp only [Instr.wf, Bool.and_eq_true] at hw; exact hw.2)
    unfold candidate
    rw [fOp_packI]
    change candMts _ = _
    simp [candMts, fA_packI, immI_packI, hn])

theorem slotOwnerWrite (n : BitVec 3) (a : BitVec 6) : Statement (.slotOwnerWrite n a) :=
  ofI 0x07 _ _ _ _ rfl rfl (by
    intro hw
    unfold candidate
    rw [fOp_packI]
    change candMts _ = _
    simp [candMts, fA_packI, immI_packI, owner_fields])

theorem refillLevelWrite (a : BitVec 6) : Statement (.refillLevelWrite a) :=
  ofI 0x07 _ _ _ _ rfl rfl (by
    intro hw
    unfold candidate
    rw [fOp_packI]
    change candMts _ = _
    simp [candMts, fA_packI, immI_packI])

theorem sleep (n : BitVec 32) : Statement (.sleep n) :=
  ofI 0x08 _ _ _ _ rfl rfl (by
    intro hw
    unfold candidate
    rw [fOp_packI]
    change Instr.sleep (immI _) = _
    simp [immI_packI])

theorem wake (a : BitVec 6) : Statement (.wake a) :=
  ofR 0x09 _ _ _ _ _ _ _ rfl rfl (by
    intro hw
    unfold candidate
    rw [fOp_packR]
    change Instr.wake (fA _) = _
    simp [fA_packR])

theorem cfgbank (m : BitVec 10) : Statement (.cfgbank m) :=
  ofI 0x0A _ _ _ _ rfl rfl (by
    intro hw
    unfold candidate
    rw [fOp_packI]
    change Instr.cfgbank (immI _ |>.setWidth 10) = _
    simp [immI_packI])

theorem tlbinvPage (a : Fld) : Statement (.tlbinvPage a) :=
  ofR 0x0B _ _ _ _ _ _ _ rfl rfl (by
    intro hw
    unfold candidate
    rw [fOp_packR]
    change (if fFn _ = 0 then .tlbinvPage (rA _) else if fFn _ = 1 then .tlbinvAsid (rA _) else .tlbinvAll : Instr) = _
    simp [fFn_packR, rA_packR])

theorem tlbinvAsid (a : Fld) : Statement (.tlbinvAsid a) :=
  ofR 0x0B _ _ _ _ _ _ _ rfl rfl (by
    intro hw
    unfold candidate
    rw [fOp_packR]
    change (if fFn _ = 0 then .tlbinvPage (rA _) else if fFn _ = 1 then .tlbinvAsid (rA _) else .tlbinvAll : Instr) = _
    simp [fFn_packR, rA_packR])

theorem tlbinvAll : Statement .tlbinvAll :=
  ofR 0x0B _ _ _ _ _ _ _ rfl rfl (by
    intro hw
    unfold candidate
    rw [fOp_packR]
    change (if fFn _ = 0 then .tlbinvPage (rA _) else if fFn _ = 1 then .tlbinvAsid (rA _) else .tlbinvAll : Instr) = _
    simp [fFn_packR])

theorem ctxsave (o : DA) : Statement (.ctxsave o) :=
  ofR 0x0C _ _ _ _ _ _ _ rfl rfl (by
    intro hw
    unfold candidate
    rw [fOp_packR]
    change Instr.ctxsave ⟨rD _, rA _⟩ = _
    simp [rA_packR, rD_packR])

theorem ctxload (a : Fld) (b : Fld) : Statement (.ctxload a b) :=
  ofR 0x0D _ _ _ _ _ _ _ rfl rfl (by
    intro hw
    unfold candidate
    rw [fOp_packR]
    change Instr.ctxload (rA _) (rB _) = _
    simp [rA_packR, rB_packR])

theorem hevent (a : BitVec 6) (code : BitVec 16) : Statement (.hevent a code) :=
  ofI 0x0E _ _ _ _ rfl rfl (by
    intro hw
    unfold candidate
    rw [fOp_packI]
    change Instr.hevent (fA _) (immI _ |>.setWidth 16) = _
    simp [fA_packI, immI_packI])

theorem cyc (d : BitVec 6) : Statement (.cyc d) :=
  ofR 0x0F _ _ _ _ _ _ _ rfl rfl (by
    intro hw
    unfold candidate
    rw [fOp_packR]
    change Instr.cyc (fD _) = _
    simp [fD_packR])

theorem add (o : DAB) : Statement (.add o) :=
  ofR 0x10 _ _ _ _ _ _ _ rfl rfl (by
    intro hw
    unfold candidate
    rw [fOp_packR]
    change Instr.add (rDAB _) = _
    simp [rDAB, rA_packR, rB_packR, rD_packR])

theorem sub (o : DAB) : Statement (.sub o) :=
  ofR 0x11 _ _ _ _ _ _ _ rfl rfl (by
    intro hw
    unfold candidate
    rw [fOp_packR]
    change Instr.sub (rDAB _) = _
    simp [rDAB, rA_packR, rB_packR, rD_packR])

theorem mul (o : DAB) : Statement (.mul o) :=
  ofR 0x12 _ _ _ _ _ _ _ rfl rfl (by
    intro hw
    unfold candidate
    rw [fOp_packR]
    change Instr.mul (rDAB _) = _
    simp [rDAB, rA_packR, rB_packR, rD_packR])

theorem mulh (o : DAB) : Statement (.mulh o) :=
  ofR 0x13 _ _ _ _ _ _ _ rfl rfl (by
    intro hw
    unfold candidate
    rw [fOp_packR]
    change Instr.mulh (rDAB _) = _
    simp [rDAB, rA_packR, rB_packR, rD_packR])

theorem mulhu (o : DAB) : Statement (.mulhu o) :=
  ofR 0x14 _ _ _ _ _ _ _ rfl rfl (by
    intro hw
    unfold candidate
    rw [fOp_packR]
    change Instr.mulhu (rDAB _) = _
    simp [rDAB, rA_packR, rB_packR, rD_packR])

theorem div (o : DAB) : Statement (.div o) :=
  ofR 0x15 _ _ _ _ _ _ _ rfl rfl (by
    intro hw
    unfold candidate
    rw [fOp_packR]
    change Instr.div (rDAB _) = _
    simp [rDAB, rA_packR, rB_packR, rD_packR])

theorem divu (o : DAB) : Statement (.divu o) :=
  ofR 0x16 _ _ _ _ _ _ _ rfl rfl (by
    intro hw
    unfold candidate
    rw [fOp_packR]
    change Instr.divu (rDAB _) = _
    simp [rDAB, rA_packR, rB_packR, rD_packR])

theorem rem (o : DAB) : Statement (.rem o) :=
  ofR 0x17 _ _ _ _ _ _ _ rfl rfl (by
    intro hw
    unfold candidate
    rw [fOp_packR]
    change Instr.rem (rDAB _) = _
    simp [rDAB, rA_packR, rB_packR, rD_packR])

theorem remu (o : DAB) : Statement (.remu o) :=
  ofR 0x18 _ _ _ _ _ _ _ rfl rfl (by
    intro hw
    unfold candidate
    rw [fOp_packR]
    change Instr.remu (rDAB _) = _
    simp [rDAB, rA_packR, rB_packR, rD_packR])

theorem and (o : DAB) : Statement (.and o) :=
  ofR 0x19 _ _ _ _ _ _ _ rfl rfl (by
    intro hw
    unfold candidate
    rw [fOp_packR]
    change Instr.and (rDAB _) = _
    simp [rDAB, rA_packR, rB_packR, rD_packR])

theorem or (o : DAB) : Statement (.or o) :=
  ofR 0x1A _ _ _ _ _ _ _ rfl rfl (by
    intro hw
    unfold candidate
    rw [fOp_packR]
    change Instr.or (rDAB _) = _
    simp [rDAB, rA_packR, rB_packR, rD_packR])

theorem xor (o : DAB) : Statement (.xor o) :=
  ofR 0x1B _ _ _ _ _ _ _ rfl rfl (by
    intro hw
    unfold candidate
    rw [fOp_packR]
    change Instr.xor (rDAB _) = _
    simp [rDAB, rA_packR, rB_packR, rD_packR])

theorem andn (o : DAB) : Statement (.andn o) :=
  ofR 0x1C _ _ _ _ _ _ _ rfl rfl (by
    intro hw
    unfold candidate
    rw [fOp_packR]
    change Instr.andn (rDAB _) = _
    simp [rDAB, rA_packR, rB_packR, rD_packR])

theorem sll (o : DAB) : Statement (.sll o) :=
  ofR 0x1D _ _ _ _ _ _ _ rfl rfl (by
    intro hw
    unfold candidate
    rw [fOp_packR]
    change Instr.sll (rDAB _) = _
    simp [rDAB, rA_packR, rB_packR, rD_packR])

theorem srl (o : DAB) : Statement (.srl o) :=
  ofR 0x1E _ _ _ _ _ _ _ rfl rfl (by
    intro hw
    unfold candidate
    rw [fOp_packR]
    change Instr.srl (rDAB _) = _
    simp [rDAB, rA_packR, rB_packR, rD_packR])

theorem sra (o : DAB) : Statement (.sra o) :=
  ofR 0x1F _ _ _ _ _ _ _ rfl rfl (by
    intro hw
    unfold candidate
    rw [fOp_packR]
    change Instr.sra (rDAB _) = _
    simp [rDAB, rA_packR, rB_packR, rD_packR])

theorem min (o : DAB) : Statement (.min o) :=
  ofR 0x20 _ _ _ _ _ _ _ rfl rfl (by
    intro hw
    unfold candidate
    rw [fOp_packR]
    change Instr.min (rDAB _) = _
    simp [rDAB, rA_packR, rB_packR, rD_packR])

theorem max (o : DAB) : Statement (.max o) :=
  ofR 0x21 _ _ _ _ _ _ _ rfl rfl (by
    intro hw
    unfold candidate
    rw [fOp_packR]
    change Instr.max (rDAB _) = _
    simp [rDAB, rA_packR, rB_packR, rD_packR])

theorem minu (o : DAB) : Statement (.minu o) :=
  ofR 0x22 _ _ _ _ _ _ _ rfl rfl (by
    intro hw
    unfold candidate
    rw [fOp_packR]
    change Instr.minu (rDAB _) = _
    simp [rDAB, rA_packR, rB_packR, rD_packR])

theorem maxu (o : DAB) : Statement (.maxu o) :=
  ofR 0x23 _ _ _ _ _ _ _ rfl rfl (by
    intro hw
    unfold candidate
    rw [fOp_packR]
    change Instr.maxu (rDAB _) = _
    simp [rDAB, rA_packR, rB_packR, rD_packR])

theorem addw (o : DAB) : Statement (.addw o) :=
  ofR 0x2B _ _ _ _ _ _ _ rfl rfl (by
    intro hw
    unfold candidate
    rw [fOp_packR]
    change Instr.addw (rDAB _) = _
    simp [rDAB, rA_packR, rB_packR, rD_packR])

theorem subw (o : DAB) : Statement (.subw o) :=
  ofR 0x2C _ _ _ _ _ _ _ rfl rfl (by
    intro hw
    unfold candidate
    rw [fOp_packR]
    change Instr.subw (rDAB _) = _
    simp [rDAB, rA_packR, rB_packR, rD_packR])

theorem addi (o : IOp) : Statement (.addi o) :=
  ofI 0x30 _ _ _ _ rfl rfl (by
    intro hw
    unfold candidate
    rw [fOp_packI]
    change Instr.addi ⟨fD _, fA _, immI _⟩ = _
    simp [fD_packI, fA_packI, immI_packI])

theorem andi (o : IOp) : Statement (.andi o) :=
  ofI 0x31 _ _ _ _ rfl rfl (by
    intro hw
    unfold candidate
    rw [fOp_packI]
    change Instr.andi ⟨fD _, fA _, immI _⟩ = _
    simp [fD_packI, fA_packI, immI_packI])

theorem ori (o : IOp) : Statement (.ori o) :=
  ofI 0x32 _ _ _ _ rfl rfl (by
    intro hw
    unfold candidate
    rw [fOp_packI]
    change Instr.ori ⟨fD _, fA _, immI _⟩ = _
    simp [fD_packI, fA_packI, immI_packI])

theorem xori (o : IOp) : Statement (.xori o) :=
  ofI 0x33 _ _ _ _ rfl rfl (by
    intro hw
    unfold candidate
    rw [fOp_packI]
    change Instr.xori ⟨fD _, fA _, immI _⟩ = _
    simp [fD_packI, fA_packI, immI_packI])

theorem slli (o : IShift) : Statement (.slli o) :=
  ofI 0x34 _ _ _ _ rfl rfl (by
    intro hw
    unfold candidate
    rw [fOp_packI]
    change Instr.slli ⟨fD _, fA _, (immI _).setWidth 6⟩ = _
    simp [fD_packI, fA_packI, immI_packI])

theorem srli (o : IShift) : Statement (.srli o) :=
  ofI 0x35 _ _ _ _ rfl rfl (by
    intro hw
    unfold candidate
    rw [fOp_packI]
    change Instr.srli ⟨fD _, fA _, (immI _).setWidth 6⟩ = _
    simp [fD_packI, fA_packI, immI_packI])

theorem srai (o : IShift) : Statement (.srai o) :=
  ofI 0x36 _ _ _ _ rfl rfl (by
    intro hw
    unfold candidate
    rw [fOp_packI]
    change Instr.srai ⟨fD _, fA _, (immI _).setWidth 6⟩ = _
    simp [fD_packI, fA_packI, immI_packI])

theorem muli (o : IOp) : Statement (.muli o) :=
  ofI 0x37 _ _ _ _ rfl rfl (by
    intro hw
    unfold candidate
    rw [fOp_packI]
    change Instr.muli ⟨fD _, fA _, immI _⟩ = _
    simp [fD_packI, fA_packI, immI_packI])

theorem li (d : BitVec 6) (imm : BitVec 32) : Statement (.li d imm) :=
  ofI 0x38 _ _ _ _ rfl rfl (by
    intro hw
    unfold candidate
    rw [fOp_packI]
    change Instr.li (fD _) (immI _) = _
    simp [fD_packI, immI_packI])

theorem lih (d : BitVec 6) (imm : BitVec 32) : Statement (.lih d imm) :=
  ofI 0x39 _ _ _ _ rfl rfl (by
    intro hw
    unfold candidate
    rw [fOp_packI]
    change Instr.lih (fD _) (immI _) = _
    simp [fD_packI, immI_packI])

theorem mov (o : DA) : Statement (.mov o) :=
  ofR 0x3A _ _ _ _ _ _ _ rfl rfl (by
    intro hw
    unfold candidate
    rw [fOp_packR]
    change Instr.mov ⟨rD _, rA _⟩ = _
    simp [rA_packR, rD_packR])

theorem clz (o : DA) : Statement (.clz o) :=
  ofR 0x24 _ _ _ _ _ _ _ rfl rfl (by
    intro hw
    unfold candidate
    rw [fOp_packR]
    change Instr.clz ⟨rD _, rA _⟩ = _
    simp [rA_packR, rD_packR])

theorem ctz (o : DA) : Statement (.ctz o) :=
  ofR 0x25 _ _ _ _ _ _ _ rfl rfl (by
    intro hw
    unfold candidate
    rw [fOp_packR]
    change Instr.ctz ⟨rD _, rA _⟩ = _
    simp [rA_packR, rD_packR])

theorem popc (o : DA) : Statement (.popc o) :=
  ofR 0x26 _ _ _ _ _ _ _ rfl rfl (by
    intro hw
    unfold candidate
    rw [fOp_packR]
    change Instr.popc ⟨rD _, rA _⟩ = _
    simp [rA_packR, rD_packR])

theorem bfx (o : BitField) : Statement (.bfx o) :=
  ofR 0x27 _ _ _ _ _ _ _ rfl rfl (by
    intro hw
    unfold candidate
    rw [fOp_packR]
    change Instr.bfx ⟨rD _, rA _, (fFn _).setWidth 6, fSpec _⟩ = _
    simp [fFn_packR, fSpec_packR, rA_packR, rD_packR])

theorem bfi (o : BitField) : Statement (.bfi o) :=
  ofR 0x28 _ _ _ _ _ _ _ rfl rfl (by
    intro hw
    unfold candidate
    rw [fOp_packR]
    change Instr.bfi ⟨rD _, rA _, (fFn _).setWidth 6, fSpec _⟩ = _
    simp [fFn_packR, fSpec_packR, rA_packR, rD_packR])

theorem sel (o : DAB) (c : BitVec 4) : Statement (.sel o c) :=
  ofR 0x29 _ _ _ _ _ _ _ rfl rfl (by
    intro hw
    unfold candidate
    rw [fOp_packR]
    change Instr.sel (rDAB _) ((fC _).setWidth 4) = _
    simp [rDAB, fC_packR, rA_packR, rB_packR, rD_packR])

theorem madd (o : DAB) (c : BitVec 6) : Statement (.madd o c) :=
  ofR 0x2A _ _ _ _ _ _ _ rfl rfl (by
    intro hw
    unfold candidate
    rw [fOp_packR]
    change Instr.madd (rDAB _) (fC _) = _
    simp [rDAB, fC_packR, rA_packR, rB_packR, rD_packR])

theorem lea (o : DAB) (s : BitVec 2) : Statement (.lea o s) :=
  ofR 0x2D _ _ _ _ _ _ _ rfl rfl (by
    intro hw
    unfold candidate
    rw [fOp_packR]
    change Instr.lea (rDAB _) ((fSpec _).setWidth 2) = _
    simp [rDAB, fSpec_packR, rA_packR, rB_packR, rD_packR])

theorem widf (d : Fld) (k : BitVec 3) : Statement (.widf d k) :=
  ofR 0x2F _ _ _ _ _ _ _ rfl rfl (by
    intro hw
    unfold candidate
    rw [fOp_packR]
    change Instr.widf (rD _) ((fSpec _).setWidth 3) = _
    simp [fSpec_packR, rD_packR])

theorem cellh (o : DAB) (c : BitVec 6) : Statement (.cellh o c) :=
  ofR 0x2E _ _ _ _ _ _ _ rfl rfl (by
    intro hw
    unfold candidate
    rw [fOp_packR]
    change Instr.cellh (rDAB _) (fC _) = _
    simp [rDAB, fC_packR, rA_packR, rB_packR, rD_packR])

theorem geom (d : Fld) (c : BitVec 4) : Statement (.geom d c) :=
  ofR 0x3B _ _ _ _ _ _ _ rfl rfl (by
    intro hw
    unfold candidate
    rw [fOp_packR]
    change Instr.geom (rD _) ((fC _).setWidth 4) = _
    simp [fC_packR, rD_packR])

theorem cmp (p : BitVec 4) (cond : BitVec 3) (a : Fld) (b : Fld) : Statement (.cmp p cond a b) :=
  ofR 0x40 _ _ _ _ _ _ _ rfl rfl (by
    intro hw
    unfold candidate
    rw [fOp_packR]
    change Instr.cmp ((fD _).setWidth 4) ((fFn _).setWidth 3) (rA _) (rB _) = _
    simp [fD_packR, fFn_packR, rA_packR, rB_packR])

theorem cmpi (p : BitVec 4) (cond : BitVec 3) (a : BitVec 6) (imm : BitVec 32) : Statement (.cmpi p cond a imm) :=
  ofI 0x41 _ _ _ _ rfl rfl (by
    intro hw
    unfold candidate
    rw [fOp_packI]
    change Instr.cmpi ((fD _).setWidth 4) (fFnI _) (fA _) (immI _) = _
    simp [fD_packI, fA_packI, fFnI_packI, immI_packI])

theorem plog (p : BitVec 4) (pa : BitVec 4) (pb : BitVec 4) (table : BitVec 4) : Statement (.plog p pa pb table) :=
  ofR 0x42 _ _ _ _ _ _ _ rfl rfl (by
    intro hw
    unfold candidate
    rw [fOp_packR]
    change Instr.plog ((fD _).setWidth 4) ((fA _).setWidth 4) ((fB _).setWidth 4) ((fFn _).setWidth 4) = _
    simp [fD_packR, fA_packR, fB_packR, fFn_packR])

theorem pset (p : BitVec 4) (v : Bool) : Statement (.pset p v) :=
  ofI 0x43 _ _ _ _ rfl rfl (by
    intro hw
    unfold candidate
    rw [fOp_packI]
    change (if fFnI _ = 0 then .pset ((fD _).setWidth 4) ((immI _).getLsbD 0) else .psetPw ((immI _).setWidth 16) : Instr) = _
    simp [fD_packI, fFnI_packI, immI_packI])

theorem psetPw (mask : BitVec 16) : Statement (.psetPw mask) :=
  ofI 0x43 _ _ _ _ rfl rfl (by
    intro hw
    unfold candidate
    rw [fOp_packI]
    change (if fFnI _ = 0 then .pset ((fD _).setWidth 4) ((immI _).getLsbD 0) else .psetPw ((immI _).setWidth 16) : Instr) = _
    simp [fFnI_packI, immI_packI])

theorem bra (off : BitVec 41) : Statement (.bra off) :=
  ofB 0x44 _ _ rfl rfl (by
    intro hw
    unfold candidate
    rw [fOp_packB]
    change Instr.bra (offB _) = _
    simp [offB_packB])

theorem call (d : BitVec 4) (off : BitVec 41) : Statement (.call d off) :=
  ofB 0x45 _ _ rfl rfl (by
    intro hw
    unfold candidate
    rw [fOp_packB]
    change Instr.call ((fD _).setWidth 4) (offB _) = _
    simp [fD_packB, offB_packB])

theorem jmp (d : Fld) (a : Fld) : Statement (.jmp d a) :=
  ofR 0x46 _ _ _ _ _ _ _ rfl rfl (by
    intro hw
    unfold candidate
    rw [fOp_packR]
    change Instr.jmp (rD _) (rA _) = _
    simp [rA_packR, rD_packR])

theorem loop (d : BitVec 4) (off : BitVec 41) : Statement (.loop d off) :=
  ofB 0x47 _ _ rfl rfl (by
    intro hw
    unfold candidate
    rw [fOp_packB]
    change Instr.loop ((fD _).setWidth 4) (offB _) = _
    simp [fD_packB, offB_packB])

theorem fcmp (p : BitVec 4) (cond : BitVec 3) (ty : BitVec 2) (a : Fld) (b : Fld) : Statement (.fcmp p cond ty a b) :=
  ofR 0x48 _ _ _ _ _ _ _ rfl rfl (by
    intro hw
    unfold candidate
    rw [fOp_packR]
    change Instr.fcmp ((fD _).setWidth 4) ((fFn _).setWidth 3) ((fTy _).setWidth 2) (rA _) (rB _) = _
    simp [fD_packR, fFn_packR, fTy_packR, rA_packR, rB_packR, setWidth_fpTy])

theorem ld (o : MOp) : Statement (.ld o) :=
  ofM 0x50 _ _ _ _ _ rfl rfl (by
    intro hw
    unfold candidate
    rw [fOp_packM]
    change Instr.ld ⟨fD _, mAddr _, (fSz _).setWidth 2, fSx _⟩ = _
    simp [fD_packM, fSz_packM, fSx_packM, mAddr_packM])

theorem st (d : BitVec 6) (ad : MAddr) (sz : BitVec 2) : Statement (.st d ad sz) :=
  ofM 0x51 _ _ _ _ _ rfl rfl (by
    intro hw
    unfold candidate
    rw [fOp_packM]
    change Instr.st (fD _) (mAddr _) ((fSz _).setWidth 2) = _
    simp [fD_packM, fSz_packM, mAddr_packM])

theorem lda (o : MOp) (sc : BitVec 3) : Statement (.lda o sc) :=
  ofM 0x52 _ _ _ _ _ rfl rfl (by
    intro hw
    unfold candidate
    rw [fOp_packM]
    change Instr.lda ⟨fD _, mAddr _, (fSz _).setWidth 2, fSx _⟩ (fSc _) = _
    simp [fD_packM, fSz_packM, fSc_packM, fSx_packM, mAddr_packM])

theorem stl (d : BitVec 6) (ad : MAddr) (sz : BitVec 2) (sc : BitVec 3) : Statement (.stl d ad sz sc) :=
  ofM 0x53 _ _ _ _ _ rfl rfl (by
    intro hw
    unfold candidate
    rw [fOp_packM]
    change Instr.stl (fD _) (mAddr _) ((fSz _).setWidth 2) (fSc _) = _
    simp [fD_packM, fSz_packM, fSc_packM, mAddr_packM])

theorem stt (d : BitVec 6) (ad : MAddr) (sz : BitVec 2) : Statement (.stt d ad sz) :=
  ofM 0x54 _ _ _ _ _ rfl rfl (by
    intro hw
    unfold candidate
    rw [fOp_packM]
    change Instr.stt (fD _) (mAddr _) ((fSz _).setWidth 2) = _
    simp [fD_packM, fSz_packM, mAddr_packM])

theorem lsrmw (d : BitVec 6) (a : BitVec 6) (b : BitVec 6) (op : BitVec 4) (dword : Bool) (off : BitVec 20) : Statement (.lsrmw d a b op dword off) :=
  ofX 0x55 _ _ _ _ _ rfl rfl (by
    intro hw
    unfold candidate
    rw [fOp_packX]
    change Instr.lsrmw (fD _) (fA _) (fB _) ((fSub _).setWidth 4) ((fSub _).getLsbD 4) (immX _) = _
    simp [fD_packX, fA_packX, fB_packX, fSub_packX, immX_packX, setWidth_bool_append, bit_bool_append])

theorem pref (ad : MAddr) : Statement (.pref ad) :=
  ofM 0x56 _ _ _ _ _ rfl rfl (by
    intro hw
    unfold candidate
    rw [fOp_packM]
    change Instr.pref (mAddr _) = _
    simp [mAddr_packM])

theorem clean (ad : MAddr) : Statement (.clean ad) :=
  ofM 0x57 _ _ _ _ _ rfl rfl (by
    intro hw
    unfold candidate
    rw [fOp_packM]
    change Instr.clean (mAddr _) = _
    simp [mAddr_packM])

theorem inval (ad : MAddr) : Statement (.inval ad) :=
  ofM 0x58 _ _ _ _ _ rfl rfl (by
    intro hw
    unfold candidate
    rw [fOp_packM]
    change Instr.inval (mAddr _) = _
    simp [mAddr_packM])

theorem fenceAcq (sc : BitVec 3) : Statement (.fenceAcq sc) :=
  ofM 0x59 _ _ _ _ _ rfl rfl (by
    intro hw
    unfold candidate
    rw [fOp_packM]
    change (if fSz _ = 0 then .fenceAcq (fSc _) else if fSz _ = 1 then .fenceRel (fSc _) else if fSz _ = 2 then .fenceFull (fSc _) else .fenceAck : Instr) = _
    simp [fSz_packM, fSc_packM])

theorem fenceRel (sc : BitVec 3) : Statement (.fenceRel sc) :=
  ofM 0x59 _ _ _ _ _ rfl rfl (by
    intro hw
    unfold candidate
    rw [fOp_packM]
    change (if fSz _ = 0 then .fenceAcq (fSc _) else if fSz _ = 1 then .fenceRel (fSc _) else if fSz _ = 2 then .fenceFull (fSc _) else .fenceAck : Instr) = _
    simp [fSz_packM, fSc_packM])

theorem fenceFull (sc : BitVec 3) : Statement (.fenceFull sc) :=
  ofM 0x59 _ _ _ _ _ rfl rfl (by
    intro hw
    unfold candidate
    rw [fOp_packM]
    change (if fSz _ = 0 then .fenceAcq (fSc _) else if fSz _ = 1 then .fenceRel (fSc _) else if fSz _ = 2 then .fenceFull (fSc _) else .fenceAck : Instr) = _
    simp [fSz_packM, fSc_packM])

theorem fenceAck : Statement .fenceAck :=
  ofM 0x59 _ _ _ _ _ rfl rfl (by
    intro hw
    unfold candidate
    rw [fOp_packM]
    change (if fSz _ = 0 then .fenceAcq (fSc _) else if fSz _ = 1 then .fenceRel (fSc _) else if fSz _ = 2 then .fenceFull (fSc _) else .fenceAck : Instr) = _
    simp [fSz_packM])

theorem vld (d : BitVec 6) (ad : MAddr) : Statement (.vld d ad) :=
  ofM 0x5A _ _ _ _ _ rfl rfl (by
    intro hw
    unfold candidate
    rw [fOp_packM]
    change Instr.vld (fD _) (mAddr _) = _
    simp [fD_packM, mAddr_packM])

theorem vst (d : BitVec 6) (ad : MAddr) : Statement (.vst d ad) :=
  ofM 0x5B _ _ _ _ _ rfl rfl (by
    intro hw
    unfold candidate
    rw [fOp_packM]
    change Instr.vst (fD _) (mAddr _) = _
    simp [fD_packM, mAddr_packM])

theorem vgath (d : Fld) (a : Fld) (b : Fld) (c : BitVec 4) (ty : BitVec 3) : Statement (.vgath d a b c ty) :=
  ofR 0x5C _ _ _ _ _ _ _ rfl rfl (by
    intro hw
    unfold candidate
    rw [fOp_packR]
    change Instr.vgath (rD _) (rA _) (rB _) ((fC _).setWidth 4) (fTy _) = _
    simp [fC_packR, fTy_packR, rA_packR, rB_packR, rD_packR])

theorem vscat (d : Fld) (a : Fld) (b : Fld) (c : BitVec 4) (ty : BitVec 3) : Statement (.vscat d a b c ty) :=
  ofR 0x5D _ _ _ _ _ _ _ rfl rfl (by
    intro hw
    unfold candidate
    rw [fOp_packR]
    change Instr.vscat (rD _) (rA _) (rB _) ((fC _).setWidth 4) (fTy _) = _
    simp [fC_packR, fTy_packR, rA_packR, rB_packR, rD_packR])

theorem reside (ad : MAddr) : Statement (.reside ad) :=
  ofM 0x5E _ _ _ _ _ rfl rfl (by
    intro hw
    unfold candidate
    rw [fOp_packM]
    change Instr.reside (mAddr _) = _
    simp [mAddr_packM])

theorem unpin (ad : MAddr) : Statement (.unpin ad) :=
  ofM 0x5F _ _ _ _ _ rfl rfl (by
    intro hw
    unfold candidate
    rw [fOp_packM]
    change Instr.unpin (mAddr _) = _
    simp [mAddr_packM])

theorem amo (op : BitVec 4) (o : AtomicOp) : Statement (.amo op o) :=
  ofX 0x60 _ _ _ _ _ rfl rfl (by
    intro hw
    unfold candidate
    rw [fOp_packX]
    change Instr.amo ((fSub _).setWidth 4) ⟨(fD _).setWidth 4, fA _, fB _, (fSub _).getLsbD 4, (fSub _).extractLsb' 6 3, immX _⟩ = _
    simp [fD_packX, fA_packX, fB_packX, fSub_packX, immX_packX, setWidth_packSub, bit_packSub, extract_packSub])

theorem cas (o : AtomicOp) : Statement (.cas o) :=
  ofX 0x61 _ _ _ _ _ rfl rfl (by
    intro hw
    unfold candidate
    rw [fOp_packX]
    change Instr.cas ⟨(fD _).setWidth 4, fA _, fB _, (fSub _).getLsbD 4, (fSub _).extractLsb' 6 3, immX _⟩ = _
    simp [fD_packX, fA_packX, fB_packX, fSub_packX, immX_packX, bit_packSub, extract_packSub])

theorem famo (op : BitVec 2) (o : AtomicOp) : Statement (.famo op o) :=
  ofX 0x65 _ _ _ _ _ rfl rfl (by
    intro hw
    unfold candidate
    rw [fOp_packX]
    change Instr.famo ((fSub _).setWidth 2) ⟨(fD _).setWidth 4, fA _, fB _, (fSub _).getLsbD 4, (fSub _).extractLsb' 6 3, immX _⟩ = _
    simp [fD_packX, fA_packX, fB_packX, fSub_packX, immX_packX, setWidth2_packSub, bit_packSub, extract_packSub])

theorem red (op : BitVec 3) (a : BitVec 6) (b : BitVec 6) (dword : Bool) (sc : BitVec 3) (off : BitVec 20) : Statement (.red op a b dword sc off) :=
  ofX 0x62 _ _ _ _ _ rfl rfl (by
    intro hw
    unfold candidate
    rw [fOp_packX]
    change Instr.red ((fSub _).setWidth 3) (fA _) (fB _) ((fSub _).getLsbD 4) ((fSub _).extractLsb' 6 3) (immX _) = _
    simp [fA_packX, fB_packX, fSub_packX, immX_packX, setWidth3_packSub, bit_packSub, extract_packSub])

theorem goto (a : BitVec 6) : Statement (.goto a) :=
  ofX 0x63 _ _ _ _ _ rfl rfl (by
    intro hw
    unfold candidate
    rw [fOp_packX]
    change (if fSub _ = 0 then .goto (fA _) else .gotoHome (fA _) : Instr) = _
    simp [fA_packX, fSub_packX])

theorem gotoHome (a : BitVec 6) : Statement (.gotoHome a) :=
  ofX 0x63 _ _ _ _ _ rfl rfl (by
    intro hw
    unfold candidate
    rw [fOp_packX]
    change (if fSub _ = 0 then .goto (fA _) else .gotoHome (fA _) : Instr) = _
    simp [fA_packX, fSub_packX])

theorem home (d : BitVec 6) (a : BitVec 6) (off : BitVec 20) : Statement (.home d a off) :=
  ofX 0x64 _ _ _ _ _ rfl rfl (by
    intro hw
    unfold candidate
    rw [fOp_packX]
    change Instr.home (fD _) (fA _) (immX _) = _
    simp [fD_packX, fA_packX, immX_packX])

theorem fadd (o : FOp) : Statement (.fadd o) :=
  ofR 0x70 _ _ _ _ _ _ _ rfl rfl (by
    intro hw
    unfold candidate
    rw [fOp_packR]
    change Instr.fadd ⟨rD _, rA _, rB _, (fTy _).setWidth 2⟩ = _
    simp [fTy_packR, rA_packR, rB_packR, rD_packR, setWidth_fpTy])

theorem fsub (o : FOp) : Statement (.fsub o) :=
  ofR 0x71 _ _ _ _ _ _ _ rfl rfl (by
    intro hw
    unfold candidate
    rw [fOp_packR]
    change Instr.fsub ⟨rD _, rA _, rB _, (fTy _).setWidth 2⟩ = _
    simp [fTy_packR, rA_packR, rB_packR, rD_packR, setWidth_fpTy])

theorem fmul (o : FOp) : Statement (.fmul o) :=
  ofR 0x72 _ _ _ _ _ _ _ rfl rfl (by
    intro hw
    unfold candidate
    rw [fOp_packR]
    change Instr.fmul ⟨rD _, rA _, rB _, (fTy _).setWidth 2⟩ = _
    simp [fTy_packR, rA_packR, rB_packR, rD_packR, setWidth_fpTy])

theorem ffma (o : FOp) (c : BitVec 6) : Statement (.ffma o c) :=
  ofR 0x73 _ _ _ _ _ _ _ rfl rfl (by
    intro hw
    unfold candidate
    rw [fOp_packR]
    change Instr.ffma ⟨rD _, rA _, rB _, (fTy _).setWidth 2⟩ (fC _) = _
    simp [fC_packR, fTy_packR, rA_packR, rB_packR, rD_packR, setWidth_fpTy])

theorem fdiv (o : FOp) : Statement (.fdiv o) :=
  ofR 0x74 _ _ _ _ _ _ _ rfl rfl (by
    intro hw
    unfold candidate
    rw [fOp_packR]
    change Instr.fdiv ⟨rD _, rA _, rB _, (fTy _).setWidth 2⟩ = _
    simp [fTy_packR, rA_packR, rB_packR, rD_packR, setWidth_fpTy])

theorem fsqrt (o : FUn) : Statement (.fsqrt o) :=
  ofR 0x75 _ _ _ _ _ _ _ rfl rfl (by
    intro hw
    unfold candidate
    rw [fOp_packR]
    change Instr.fsqrt ⟨rD _, rA _, (fTy _).setWidth 2⟩ = _
    simp [fTy_packR, rA_packR, rD_packR, setWidth_fpTy])

theorem fmin (o : FOp) : Statement (.fmin o) :=
  ofR 0x76 _ _ _ _ _ _ _ rfl rfl (by
    intro hw
    unfold candidate
    rw [fOp_packR]
    change Instr.fmin ⟨rD _, rA _, rB _, (fTy _).setWidth 2⟩ = _
    simp [fTy_packR, rA_packR, rB_packR, rD_packR, setWidth_fpTy])

theorem fmax (o : FOp) : Statement (.fmax o) :=
  ofR 0x77 _ _ _ _ _ _ _ rfl rfl (by
    intro hw
    unfold candidate
    rw [fOp_packR]
    change Instr.fmax ⟨rD _, rA _, rB _, (fTy _).setWidth 2⟩ = _
    simp [fTy_packR, rA_packR, rB_packR, rD_packR, setWidth_fpTy])

theorem fsgn (o : FOp) (mode : BitVec 2) : Statement (.fsgn o mode) :=
  ofR 0x79 _ _ _ _ _ _ _ rfl rfl (by
    intro hw
    unfold candidate
    rw [fOp_packR]
    change Instr.fsgn ⟨rD _, rA _, rB _, (fTy _).setWidth 2⟩ ((fFn _).setWidth 2) = _
    simp [fFn_packR, fTy_packR, rA_packR, rB_packR, rD_packR, setWidth_fpTy])

theorem fclass (o : FUn) : Statement (.fclass o) :=
  ofR 0x7A _ _ _ _ _ _ _ rfl rfl (by
    intro hw
    unfold candidate
    rw [fOp_packR]
    change Instr.fclass ⟨rD _, rA _, (fTy _).setWidth 2⟩ = _
    simp [fTy_packR, rA_packR, rD_packR, setWidth_fpTy])

theorem fcvt (o : FUn) (tgt : BitVec 3) (unsT : Bool) : Statement (.fcvt o tgt unsT) :=
  ofR 0x78 _ _ _ _ _ _ _ rfl rfl (by
    intro hw
    unfold candidate
    rw [fOp_packR]
    change Instr.fcvt ⟨rD _, rA _, (fTy _).setWidth 2⟩ ((fFn _).setWidth 3) ((fFn _).getLsbD 3) = _
    simp [fFn_packR, fTy_packR, rA_packR, rD_packR, setWidth_fpTy, setWidth_bool_append3, bit_bool_append3])

theorem vadd (o : V3) : Statement (.vadd o) :=
  ofR 0x80 _ _ _ _ _ _ _ rfl rfl (by
    intro hw
    unfold candidate
    rw [fOp_packR]
    change Instr.vadd ⟨rD _, rA _, rB _, (fC _).setWidth 4, fTy _, (fSpec _).getLsbD 5⟩ = _
    simp [fC_packR, fTy_packR, fSpec_packR, rA_packR, rB_packR, rD_packR, bit_unsSpec])

theorem vsub (o : V3) : Statement (.vsub o) :=
  ofR 0x81 _ _ _ _ _ _ _ rfl rfl (by
    intro hw
    unfold candidate
    rw [fOp_packR]
    change Instr.vsub ⟨rD _, rA _, rB _, (fC _).setWidth 4, fTy _, (fSpec _).getLsbD 5⟩ = _
    simp [fC_packR, fTy_packR, fSpec_packR, rA_packR, rB_packR, rD_packR, bit_unsSpec])

theorem vmul (o : V3) : Statement (.vmul o) :=
  ofR 0x82 _ _ _ _ _ _ _ rfl rfl (by
    intro hw
    unfold candidate
    rw [fOp_packR]
    change Instr.vmul ⟨rD _, rA _, rB _, (fC _).setWidth 4, fTy _, (fSpec _).getLsbD 5⟩ = _
    simp [fC_packR, fTy_packR, fSpec_packR, rA_packR, rB_packR, rD_packR, bit_unsSpec])

theorem vfma (o : V3) : Statement (.vfma o) :=
  ofR 0x83 _ _ _ _ _ _ _ rfl rfl (by
    intro hw
    unfold candidate
    rw [fOp_packR]
    change Instr.vfma ⟨rD _, rA _, rB _, (fC _).setWidth 4, fTy _, (fSpec _).getLsbD 5⟩ = _
    simp [fC_packR, fTy_packR, fSpec_packR, rA_packR, rB_packR, rD_packR, bit_unsSpec])

theorem vmin (o : V3) : Statement (.vmin o) :=
  ofR 0x84 _ _ _ _ _ _ _ rfl rfl (by
    intro hw
    unfold candidate
    rw [fOp_packR]
    change Instr.vmin ⟨rD _, rA _, rB _, (fC _).setWidth 4, fTy _, (fSpec _).getLsbD 5⟩ = _
    simp [fC_packR, fTy_packR, fSpec_packR, rA_packR, rB_packR, rD_packR, bit_unsSpec])

theorem vmax (o : V3) : Statement (.vmax o) :=
  ofR 0x85 _ _ _ _ _ _ _ rfl rfl (by
    intro hw
    unfold candidate
    rw [fOp_packR]
    change Instr.vmax ⟨rD _, rA _, rB _, (fC _).setWidth 4, fTy _, (fSpec _).getLsbD 5⟩ = _
    simp [fC_packR, fTy_packR, fSpec_packR, rA_packR, rB_packR, rD_packR, bit_unsSpec])

theorem vabs (o : V2) : Statement (.vabs o) :=
  ofR 0x86 _ _ _ _ _ _ _ rfl rfl (by
    intro hw
    unfold candidate
    rw [fOp_packR]
    change Instr.vabs ⟨rD _, rA _, (fC _).setWidth 4, fTy _, (fSpec _).getLsbD 5⟩ = _
    simp [fC_packR, fTy_packR, fSpec_packR, rA_packR, rD_packR, bit_unsSpec])

theorem vneg (o : V2) : Statement (.vneg o) :=
  ofR 0x87 _ _ _ _ _ _ _ rfl rfl (by
    intro hw
    unfold candidate
    rw [fOp_packR]
    change Instr.vneg ⟨rD _, rA _, (fC _).setWidth 4, fTy _, (fSpec _).getLsbD 5⟩ = _
    simp [fC_packR, fTy_packR, fSpec_packR, rA_packR, rD_packR, bit_unsSpec])

theorem vdiv (o : V3) : Statement (.vdiv o) :=
  ofR 0x8C _ _ _ _ _ _ _ rfl rfl (by
    intro hw
    unfold candidate
    rw [fOp_packR]
    change Instr.vdiv ⟨rD _, rA _, rB _, (fC _).setWidth 4, fTy _, (fSpec _).getLsbD 5⟩ = _
    simp [fC_packR, fTy_packR, fSpec_packR, rA_packR, rB_packR, rD_packR, bit_unsSpec])

theorem vsel (o : V3) : Statement (.vsel o) :=
  ofR 0x90 _ _ _ _ _ _ _ rfl rfl (by
    intro hw
    unfold candidate
    rw [fOp_packR]
    change Instr.vsel ⟨rD _, rA _, rB _, (fC _).setWidth 4, fTy _, (fSpec _).getLsbD 5⟩ = _
    simp [fC_packR, fTy_packR, fSpec_packR, rA_packR, rB_packR, rD_packR, bit_unsSpec])

theorem vand (o : V3) : Statement (.vand o) :=
  ofR 0x91 _ _ _ _ _ _ _ rfl rfl (by
    intro hw
    unfold candidate
    rw [fOp_packR]
    change Instr.vand ⟨rD _, rA _, rB _, (fC _).setWidth 4, fTy _, (fSpec _).getLsbD 5⟩ = _
    simp [fC_packR, fTy_packR, fSpec_packR, rA_packR, rB_packR, rD_packR, bit_unsSpec])

theorem vor (o : V3) : Statement (.vor o) :=
  ofR 0x92 _ _ _ _ _ _ _ rfl rfl (by
    intro hw
    unfold candidate
    rw [fOp_packR]
    change Instr.vor ⟨rD _, rA _, rB _, (fC _).setWidth 4, fTy _, (fSpec _).getLsbD 5⟩ = _
    simp [fC_packR, fTy_packR, fSpec_packR, rA_packR, rB_packR, rD_packR, bit_unsSpec])

theorem vxor (o : V3) : Statement (.vxor o) :=
  ofR 0x93 _ _ _ _ _ _ _ rfl rfl (by
    intro hw
    unfold candidate
    rw [fOp_packR]
    change Instr.vxor ⟨rD _, rA _, rB _, (fC _).setWidth 4, fTy _, (fSpec _).getLsbD 5⟩ = _
    simp [fC_packR, fTy_packR, fSpec_packR, rA_packR, rB_packR, rD_packR, bit_unsSpec])

theorem vshl (o : V3) : Statement (.vshl o) :=
  ofR 0x94 _ _ _ _ _ _ _ rfl rfl (by
    intro hw
    unfold candidate
    rw [fOp_packR]
    change Instr.vshl ⟨rD _, rA _, rB _, (fC _).setWidth 4, fTy _, (fSpec _).getLsbD 5⟩ = _
    simp [fC_packR, fTy_packR, fSpec_packR, rA_packR, rB_packR, rD_packR, bit_unsSpec])

theorem vshr (o : V3) : Statement (.vshr o) :=
  ofR 0x95 _ _ _ _ _ _ _ rfl rfl (by
    intro hw
    unfold candidate
    rw [fOp_packR]
    change Instr.vshr ⟨rD _, rA _, rB _, (fC _).setWidth 4, fTy _, (fSpec _).getLsbD 5⟩ = _
    simp [fC_packR, fTy_packR, fSpec_packR, rA_packR, rB_packR, rD_packR, bit_unsSpec])

theorem vrcp (o : V2) : Statement (.vrcp o) :=
  ofR 0x88 _ _ _ _ _ _ _ rfl rfl (by
    intro hw
    unfold candidate
    rw [fOp_packR]
    change Instr.vrcp ⟨rD _, rA _, (fC _).setWidth 4, fTy _, (fSpec _).getLsbD 5⟩ = _
    simp [fC_packR, fTy_packR, fSpec_packR, rA_packR, rD_packR, bit_unsSpec])

theorem vrsq (o : V2) : Statement (.vrsq o) :=
  ofR 0x89 _ _ _ _ _ _ _ rfl rfl (by
    intro hw
    unfold candidate
    rw [fOp_packR]
    change Instr.vrsq ⟨rD _, rA _, (fC _).setWidth 4, fTy _, (fSpec _).getLsbD 5⟩ = _
    simp [fC_packR, fTy_packR, fSpec_packR, rA_packR, rD_packR, bit_unsSpec])

theorem vexp2 (o : V2) : Statement (.vexp2 o) :=
  ofR 0x8A _ _ _ _ _ _ _ rfl rfl (by
    intro hw
    unfold candidate
    rw [fOp_packR]
    change Instr.vexp2 ⟨rD _, rA _, (fC _).setWidth 4, fTy _, (fSpec _).getLsbD 5⟩ = _
    simp [fC_packR, fTy_packR, fSpec_packR, rA_packR, rD_packR, bit_unsSpec])

theorem vlog2 (o : V2) : Statement (.vlog2 o) :=
  ofR 0x8B _ _ _ _ _ _ _ rfl rfl (by
    intro hw
    unfold candidate
    rw [fOp_packR]
    change Instr.vlog2 ⟨rD _, rA _, (fC _).setWidth 4, fTy _, (fSpec _).getLsbD 5⟩ = _
    simp [fC_packR, fTy_packR, fSpec_packR, rA_packR, rD_packR, bit_unsSpec])

theorem vsqrt (o : V2) : Statement (.vsqrt o) :=
  ofR 0x8D _ _ _ _ _ _ _ rfl rfl (by
    intro hw
    unfold candidate
    rw [fOp_packR]
    change Instr.vsqrt ⟨rD _, rA _, (fC _).setWidth 4, fTy _, (fSpec _).getLsbD 5⟩ = _
    simp [fC_packR, fTy_packR, fSpec_packR, rA_packR, rD_packR, bit_unsSpec])

theorem vdot4 (o : V3) : Statement (.vdot4 o) :=
  ofR 0x96 _ _ _ _ _ _ _ rfl rfl (by
    intro hw
    unfold candidate
    rw [fOp_packR]
    change Instr.vdot4 ⟨rD _, rA _, rB _, (fC _).setWidth 4, fTy _, (fSpec _).getLsbD 5⟩ = _
    simp [fC_packR, fTy_packR, fSpec_packR, rA_packR, rB_packR, rD_packR, bit_unsSpec])

theorem vcvt (o : V2) (tgt : BitVec 3) (unsT : Bool) : Statement (.vcvt o tgt unsT) :=
  ofR 0x8E _ _ _ _ _ _ _ rfl rfl (by
    intro hw
    have hn := vcvt_fields unsT tgt (by simp only [Instr.wf, Bool.and_eq_true] at hw; exact hw.2)
    unfold candidate
    rw [fOp_packR]
    change (if (fFn _).setWidth 4 = 0xC#4 then .vcvtWiden ⟨rD _, rA _, (fC _).setWidth 4, fTy _, (fSpec _).getLsbD 5⟩ else if (fFn _).setWidth 4 = 0xD#4 then .vcvtNarrow ⟨rD _, rA _, (fC _).setWidth 4, fTy _, (fSpec _).getLsbD 5⟩ else .vcvt ⟨rD _, rA _, (fC _).setWidth 4, fTy _, (fSpec _).getLsbD 5⟩ ((fFn _).setWidth 3) ((fFn _).getLsbD 3) : Instr) = _
    simp [fC_packR, fFn_packR, fTy_packR, fSpec_packR, rA_packR, rD_packR, bit_unsSpec, setWidth_bool_append3, bit_bool_append3, hn])

theorem vcvtWiden (o : V2) : Statement (.vcvtWiden o) :=
  ofR 0x8E _ _ _ _ _ _ _ rfl rfl (by
    intro hw
    unfold candidate
    rw [fOp_packR]
    change (if (fFn _).setWidth 4 = 0xC#4 then .vcvtWiden ⟨rD _, rA _, (fC _).setWidth 4, fTy _, (fSpec _).getLsbD 5⟩ else if (fFn _).setWidth 4 = 0xD#4 then .vcvtNarrow ⟨rD _, rA _, (fC _).setWidth 4, fTy _, (fSpec _).getLsbD 5⟩ else .vcvt ⟨rD _, rA _, (fC _).setWidth 4, fTy _, (fSpec _).getLsbD 5⟩ ((fFn _).setWidth 3) ((fFn _).getLsbD 3) : Instr) = _
    simp [fC_packR, fFn_packR, fTy_packR, fSpec_packR, rA_packR, rD_packR, bit_unsSpec])

theorem vcvtNarrow (o : V2) : Statement (.vcvtNarrow o) :=
  ofR 0x8E _ _ _ _ _ _ _ rfl rfl (by
    intro hw
    unfold candidate
    rw [fOp_packR]
    change (if (fFn _).setWidth 4 = 0xC#4 then .vcvtWiden ⟨rD _, rA _, (fC _).setWidth 4, fTy _, (fSpec _).getLsbD 5⟩ else if (fFn _).setWidth 4 = 0xD#4 then .vcvtNarrow ⟨rD _, rA _, (fC _).setWidth 4, fTy _, (fSpec _).getLsbD 5⟩ else .vcvt ⟨rD _, rA _, (fC _).setWidth 4, fTy _, (fSpec _).getLsbD 5⟩ ((fFn _).setWidth 3) ((fFn _).getLsbD 3) : Instr) = _
    simp [fC_packR, fFn_packR, fTy_packR, fSpec_packR, rA_packR, rD_packR, bit_unsSpec])

theorem vcmp (o : V3) (cond : BitVec 3) : Statement (.vcmp o cond) :=
  ofR 0x8F _ _ _ _ _ _ _ rfl rfl (by
    intro hw
    unfold candidate
    rw [fOp_packR]
    change Instr.vcmp ⟨rD _, rA _, rB _, (fC _).setWidth 4, fTy _, (fSpec _).getLsbD 5⟩ ((fFn _).setWidth 3) = _
    simp [fC_packR, fFn_packR, fTy_packR, fSpec_packR, rA_packR, rB_packR, rD_packR, bit_unsSpec])

theorem vred (o : V2) (op : BitVec 3) : Statement (.vred o op) :=
  ofR 0x97 _ _ _ _ _ _ _ rfl rfl (by
    intro hw
    unfold candidate
    rw [fOp_packR]
    change Instr.vred ⟨rD _, rA _, (fC _).setWidth 4, fTy _, (fSpec _).getLsbD 5⟩ ((fFn _).setWidth 3) = _
    simp [fC_packR, fFn_packR, fTy_packR, fSpec_packR, rA_packR, rD_packR, bit_unsSpec])

theorem vscan (o : V2) (op : BitVec 3) : Statement (.vscan o op) :=
  ofR 0x98 _ _ _ _ _ _ _ rfl rfl (by
    intro hw
    unfold candidate
    rw [fOp_packR]
    change Instr.vscan ⟨rD _, rA _, (fC _).setWidth 4, fTy _, (fSpec _).getLsbD 5⟩ ((fFn _).setWidth 3) = _
    simp [fC_packR, fFn_packR, fTy_packR, fSpec_packR, rA_packR, rD_packR, bit_unsSpec])

theorem vbcast (o : V2) : Statement (.vbcast o) :=
  ofR 0x99 _ _ _ _ _ _ _ rfl rfl (by
    intro hw
    unfold candidate
    rw [fOp_packR]
    change Instr.vbcast ⟨rD _, rA _, (fC _).setWidth 4, fTy _, (fSpec _).getLsbD 5⟩ = _
    simp [fC_packR, fTy_packR, fSpec_packR, rA_packR, rD_packR, bit_unsSpec])

theorem vext (o : DAB) (ty : BitVec 3) : Statement (.vext o ty) :=
  ofR 0x9A _ _ _ _ _ _ _ rfl rfl (by
    intro hw
    unfold candidate
    rw [fOp_packR]
    change Instr.vext (rDAB _) (fTy _) = _
    simp [rDAB, fTy_packR, rA_packR, rB_packR, rD_packR])

theorem vperm (o : V3) : Statement (.vperm o) :=
  ofR 0x9B _ _ _ _ _ _ _ rfl rfl (by
    intro hw
    unfold candidate
    rw [fOp_packR]
    change Instr.vperm ⟨rD _, rA _, rB _, (fC _).setWidth 4, fTy _, (fSpec _).getLsbD 5⟩ = _
    simp [fC_packR, fTy_packR, fSpec_packR, rA_packR, rB_packR, rD_packR, bit_unsSpec])

theorem vcompress (o : V2) (p : BitVec 4) : Statement (.vcompress o p) :=
  ofR 0x9C _ _ _ _ _ _ _ rfl rfl (by
    intro hw
    unfold candidate
    rw [fOp_packR]
    change Instr.vcompress ⟨rD _, rA _, (fC _).setWidth 4, fTy _, (fSpec _).getLsbD 5⟩ ((fFn _).setWidth 4) = _
    simp [fC_packR, fFn_packR, fTy_packR, fSpec_packR, rA_packR, rD_packR, bit_unsSpec])

theorem vexpand (o : V2) : Statement (.vexpand o) :=
  ofR 0x9D _ _ _ _ _ _ _ rfl rfl (by
    intro hw
    unfold candidate
    rw [fOp_packR]
    change Instr.vexpand ⟨rD _, rA _, (fC _).setWidth 4, fTy _, (fSpec _).getLsbD 5⟩ = _
    simp [fC_packR, fTy_packR, fSpec_packR, rA_packR, rD_packR, bit_unsSpec])

theorem viota (o : V2) : Statement (.viota o) :=
  ofR 0x9F _ _ _ _ _ _ _ rfl rfl (by
    intro hw
    unfold candidate
    rw [fOp_packR]
    change Instr.viota ⟨rD _, rA _, (fC _).setWidth 4, fTy _, (fSpec _).getLsbD 5⟩ = _
    simp [fC_packR, fTy_packR, fSpec_packR, rA_packR, rD_packR, bit_unsSpec])

theorem vtopk (o : V2) (k1 : BitVec 3) (norm : Bool) (p : BitVec 4) : Statement (.vtopk o k1 norm p) :=
  ofR 0x9E _ _ _ _ _ _ _ rfl rfl (by
    intro hw
    unfold candidate
    rw [fOp_packR]
    change Instr.vtopk ⟨rD _, rA _, (fC _).setWidth 4, fTy _, (fSpec _).getLsbD 5⟩ ((fFn _).setWidth 3) ((fFn _).getLsbD 3) ((fFn _).extractLsb' 4 4) = _
    simp [fC_packR, fFn_packR, fTy_packR, fSpec_packR, rA_packR, rD_packR, bit_unsSpec, topk_fields])

theorem scfg (n : BitVec 2) (wr : Bool) (a : BitVec 6) (off : BitVec 20) : Statement (.scfg n wr a off) :=
  ofX 0xA0 _ _ _ _ _ rfl rfl (by
    intro hw
    unfold candidate
    rw [fOp_packX]
    change Instr.scfg ((fSub _).setWidth 2) ((fSub _).getLsbD 2) (fA _) (immX _) = _
    simp [fA_packX, fSub_packX, immX_packX, scfg_fields])

theorem sclose (n : BitVec 2) : Statement (.sclose n) :=
  ofX 0xA1 _ _ _ _ _ rfl rfl (by
    intro hw
    unfold candidate
    rw [fOp_packX]
    change Instr.sclose ((fSub _).setWidth 2) = _
    simp [fSub_packX])

theorem vseq (n : BitVec 5) : Statement (.vseq n) :=
  ofX 0xA2 _ _ _ _ _ rfl rfl (by
    intro hw
    unfold candidate
    rw [fOp_packX]
    change Instr.vseq ((immX _).setWidth 5) = _
    simp [immX_packX])

theorem vseqw : Statement .vseqw :=
  ofR 0xA3 _ _ _ _ _ _ _ rfl rfl (by
    intro hw
    unfold candidate
    rw [fOp_packR]
    change Instr.vseqw = _
    simp [])

theorem palw (pal : Bool) (nan7f : Bool) (a : BitVec 6) (off : BitVec 20) : Statement (.palw pal nan7f a off) :=
  ofX 0xA4 _ _ _ _ _ rfl rfl (by
    intro hw
    unfold candidate
    rw [fOp_packX]
    change Instr.palw ((fSub _).getLsbD 0) ((fSub _).getLsbD 1) (fA _) (immX _) = _
    simp [fA_packX, fSub_packX, immX_packX, palw_fields])

theorem enc8 (o : V2) (alt : Bool) : Statement (.enc8 o alt) :=
  ofR 0xA5 _ _ _ _ _ _ _ rfl rfl (by
    intro hw
    unfold candidate
    rw [fOp_packR]
    change Instr.enc8 ⟨rD _, rA _, (fC _).setWidth 4, fTy _, (fSpec _).getLsbD 5⟩ ((fFn _).getLsbD 0) = _
    simp [fC_packR, fFn_packR, fTy_packR, fSpec_packR, rA_packR, rD_packR, bit_unsSpec])

theorem dec8 (o : V2) (alt : Bool) : Statement (.dec8 o alt) :=
  ofR 0xA6 _ _ _ _ _ _ _ rfl rfl (by
    intro hw
    unfold candidate
    rw [fOp_packR]
    change Instr.dec8 ⟨rD _, rA _, (fC _).setWidth 4, fTy _, (fSpec _).getLsbD 5⟩ ((fFn _).getLsbD 0) = _
    simp [fC_packR, fFn_packR, fTy_packR, fSpec_packR, rA_packR, rD_packR, bit_unsSpec])

theorem fmtsetFmt (v : BitVec 20) : Statement (.fmtsetFmt v) :=
  ofI 0xA7 _ _ _ _ rfl rfl (by
    intro hw
    unfold candidate
    rw [fOp_packI]
    change (if fFnI _ = 0 then .fmtsetFmt ((immI _).setWidth 20) else .fmtsetScale (immI _) : Instr) = _
    simp [fFnI_packI, immI_packI])

theorem fmtsetScale (v : BitVec 32) : Statement (.fmtsetScale v) :=
  ofI 0xA7 _ _ _ _ rfl rfl (by
    intro hw
    unfold candidate
    rw [fOp_packI]
    change (if fFnI _ = 0 then .fmtsetFmt ((immI _).setWidth 20) else .fmtsetScale (immI _) : Instr) = _
    simp [fFnI_packI, immI_packI])

theorem mclaim (acc : BitVec 2) : Statement (.mclaim acc) :=
  ofR 0xB8 _ _ _ _ _ _ _ rfl rfl (by
    intro hw
    unfold candidate
    rw [fOp_packR]
    change (if fFn _ = 0 then .mclaim ((fD _).setWidth 2) else .mclaimRel ((fD _).setWidth 2) : Instr) = _
    simp [fD_packR, fFn_packR])

theorem mclaimRel (acc : BitVec 2) : Statement (.mclaimRel acc) :=
  ofR 0xB8 _ _ _ _ _ _ _ rfl rfl (by
    intro hw
    unfold candidate
    rw [fOp_packR]
    change (if fFn _ = 0 then .mclaim ((fD _).setWidth 2) else .mclaimRel ((fD _).setWidth 2) : Instr) = _
    simp [fD_packR, fFn_packR])

theorem mgeo (a : BitVec 6) : Statement (.mgeo a) :=
  ofR 0xB7 _ _ _ _ _ _ _ rfl rfl (by
    intro hw
    unfold candidate
    rw [fOp_packR]
    change Instr.mgeo (fA _) = _
    simp [fA_packR])

theorem mma (acc : BitVec 2) (a : BitVec 6) (b : BitVec 6) (c : BitVec 6) : Statement (.mma acc a b c) :=
  ofR 0xB0 _ _ _ _ _ _ _ rfl rfl (by
    intro hw
    unfold candidate
    rw [fOp_packR]
    change Instr.mma ((fD _).setWidth 2) (fA _) (fB _) (fC _) = _
    simp [fD_packR, fA_packR, fB_packR, fC_packR])

theorem mmq (o : TileOp) : Statement (.mmq o) :=
  ofR 0xB1 _ _ _ _ _ _ _ rfl rfl (by
    intro hw
    unfold candidate
    rw [fOp_packR]
    change Instr.mmq ⟨(fD _).setWidth 2, fA _, fB _, fC _, (fFn _).getLsbD 0, (fFn _).extractLsb' 1 2, (fSpec _).setWidth 4⟩ = _
    simp [fD_packR, fA_packR, fB_packR, fC_packR, fFn_packR, fSpec_packR, tile_fields])

theorem mmag (o : TileOp) : Statement (.mmag o) :=
  ofR 0xB2 _ _ _ _ _ _ _ rfl rfl (by
    intro hw
    unfold candidate
    rw [fOp_packR]
    change Instr.mmag ⟨(fD _).setWidth 2, fA _, fB _, fC _, (fFn _).getLsbD 0, (fFn _).extractLsb' 1 2, (fSpec _).setWidth 4⟩ = _
    simp [fD_packR, fA_packR, fB_packR, fC_packR, fFn_packR, fSpec_packR, tile_fields])

theorem mmpop (hi : Bool) (d : BitVec 6) : Statement (.mmpop hi d) :=
  ofR 0xB3 _ _ _ _ _ _ _ rfl rfl (by
    intro hw
    unfold candidate
    rw [fOp_packR]
    change Instr.mmpop ((fFn _).getLsbD 0) (fD _) = _
    simp [fD_packR, fFn_packR])

theorem mzero (acc : BitVec 2) (i32 : Bool) : Statement (.mzero acc i32) :=
  ofR 0xB4 _ _ _ _ _ _ _ rfl rfl (by
    intro hw
    unfold candidate
    rw [fOp_packR]
    change Instr.mzero ((fD _).setWidth 2) ((fFn _).getLsbD 0) = _
    simp [fD_packR, fFn_packR])

theorem mload (acc : BitVec 2) (a : BitVec 6) (c : BitVec 6) : Statement (.mload acc a c) :=
  ofR 0xB6 _ _ _ _ _ _ _ rfl rfl (by
    intro hw
    unfold candidate
    rw [fOp_packR]
    change Instr.mload ((fD _).setWidth 2) (fA _) (fC _) = _
    simp [fD_packR, fA_packR, fC_packR])

theorem mstore (acc : BitVec 2) (a : BitVec 6) (c : BitVec 6) : Statement (.mstore acc a c) :=
  ofR 0xB5 _ _ _ _ _ _ _ rfl rfl (by
    intro hw
    unfold candidate
    rw [fOp_packR]
    change Instr.mstore ((fD _).setWidth 2) (fA _) (fC _) = _
    simp [fD_packR, fA_packR, fC_packR])

theorem xcpy (o : EngineOp) : Statement (.xcpy o) :=
  ofR 0xC0 _ _ _ _ _ _ _ rfl rfl (by
    intro hw
    unfold candidate
    rw [fOp_packR]
    change Instr.xcpy ⟨fD _, fA _, fB _, fC _, (fFn _).setWidth 2, (fFn _).extractLsb' 2 4⟩ = _
    simp [fD_packR, fA_packR, fB_packR, fC_packR, fFn_packR, engine_fields])

theorem xgath (o : EngineOp) : Statement (.xgath o) :=
  ofR 0xC1 _ _ _ _ _ _ _ rfl rfl (by
    intro hw
    unfold candidate
    rw [fOp_packR]
    change Instr.xgath ⟨fD _, fA _, fB _, fC _, (fFn _).setWidth 2, (fFn _).extractLsb' 2 4⟩ = _
    simp [fD_packR, fA_packR, fB_packR, fC_packR, fFn_packR, engine_fields])

theorem xcoll (o : EngineOp) (kind : BitVec 3) : Statement (.xcoll o kind) :=
  ofR 0xC2 _ _ _ _ _ _ _ rfl rfl (by
    intro hw
    unfold candidate
    rw [fOp_packR]
    change Instr.xcoll ⟨fD _, fA _, fB _, fC _, (fFn _).setWidth 2, (fFn _).extractLsb' 2 4⟩ ((fFn _).extractLsb' 8 3) = _
    simp [fD_packR, fA_packR, fB_packR, fC_packR, fFn_packR, xcoll_fields])

theorem xpop (d : BitVec 6) : Statement (.xpop d) :=
  ofR 0xC3 _ _ _ _ _ _ _ rfl rfl (by
    intro hw
    unfold candidate
    rw [fOp_packR]
    change Instr.xpop (fD _) = _
    simp [fD_packR])

theorem tcfg (t : BitVec 4) (a : BitVec 6) : Statement (.tcfg t a) :=
  ofX 0xC4 _ _ _ _ _ rfl rfl (by
    intro hw
    unfold candidate
    rw [fOp_packX]
    change Instr.tcfg ((fSub _).setWidth 4) (fA _) = _
    simp [fA_packX, fSub_packX])

theorem tadvFill (t : BitVec 4) (n : BitVec 8) : Statement (.tadvFill t n) :=
  ofX 0xC5 _ _ _ _ _ rfl rfl (by
    intro hw
    unfold candidate
    rw [fOp_packX]
    change (if (fSub _).getLsbD 4 then .tadvFree ((fSub _).setWidth 4) ((immX _).setWidth 8) else .tadvFill ((fSub _).setWidth 4) ((immX _).setWidth 8) : Instr) = _
    simp [fSub_packX, immX_packX, tender_fields])

theorem tadvFree (t : BitVec 4) (n : BitVec 8) : Statement (.tadvFree t n) :=
  ofX 0xC5 _ _ _ _ _ rfl rfl (by
    intro hw
    unfold candidate
    rw [fOp_packX]
    change (if (fSub _).getLsbD 4 then .tadvFree ((fSub _).setWidth 4) ((immX _).setWidth 8) else .tadvFill ((fSub _).setWidth 4) ((immX _).setWidth 8) : Instr) = _
    simp [fSub_packX, immX_packX, tender_fields])

theorem twaitFill (t : BitVec 4) (n : BitVec 8) : Statement (.twaitFill t n) :=
  ofX 0xC6 _ _ _ _ _ rfl rfl (by
    intro hw
    unfold candidate
    rw [fOp_packX]
    change (if (fSub _).getLsbD 4 then .twaitFree ((fSub _).setWidth 4) ((immX _).setWidth 8) else .twaitFill ((fSub _).setWidth 4) ((immX _).setWidth 8) : Instr) = _
    simp [fSub_packX, immX_packX, tender_fields])

theorem twaitFree (t : BitVec 4) (n : BitVec 8) : Statement (.twaitFree t n) :=
  ofX 0xC6 _ _ _ _ _ rfl rfl (by
    intro hw
    unfold candidate
    rw [fOp_packX]
    change (if (fSub _).getLsbD 4 then .twaitFree ((fSub _).setWidth 4) ((immX _).setWidth 8) else .twaitFill ((fSub _).setWidth 4) ((immX _).setWidth 8) : Instr) = _
    simp [fSub_packX, immX_packX, tender_fields])

theorem chopen (n : BitVec 3) (a : BitVec 6) : Statement (.chopen n a) :=
  ofX 0xC7 _ _ _ _ _ rfl rfl (by
    intro hw
    unfold candidate
    rw [fOp_packX]
    change Instr.chopen ((fD _).setWidth 3) (fA _) = _
    simp [fD_packX, fA_packX, setWidth_channel])

theorem chgrant (n : BitVec 3) (cnt : BitVec 16) : Statement (.chgrant n cnt) :=
  ofX 0xC8 _ _ _ _ _ rfl rfl (by
    intro hw
    unfold candidate
    rw [fOp_packX]
    change Instr.chgrant ((fD _).setWidth 3) ((immX _).setWidth 16) = _
    simp [fD_packX, immX_packX, setWidth_channel])

theorem chalt (d : BitVec 6) (a : BitVec 6) : Statement (.chalt d a) :=
  ofR 0xC9 _ _ _ _ _ _ _ rfl rfl (by
    intro hw
    unfold candidate
    rw [fOp_packR]
    change Instr.chalt (fD _) (fA _) = _
    simp [fD_packR, fA_packR])

theorem chclose (n : BitVec 3) : Statement (.chclose n) :=
  ofX 0xCA _ _ _ _ _ rfl rfl (by
    intro hw
    unfold candidate
    rw [fOp_packX]
    change Instr.chclose ((fD _).setWidth 3) = _
    simp [fD_packX, setWidth_channel])

theorem cload (o : CarOp) : Statement (.cload o) :=
  ofX 0xD0 _ _ _ _ _ rfl rfl (by
    intro hw
    unfold candidate
    rw [fOp_packX]
    change Instr.cload (carOp _) = _
    simp [carOp, fD_packX, fA_packX, fB_packX, fSub_packX, extract_packX, carSub_fields, carImm_idx, carImm_word])

theorem cop (o : CarOp) (op : BitVec 4) : Statement (.cop o op) :=
  ofX 0xD1 _ _ _ _ _ rfl rfl (by
    intro hw
    unfold candidate
    rw [fOp_packX]
    change Instr.cop (carOp _) ((fSub _).setWidth 4) = _
    simp [carOp, fD_packX, fA_packX, fB_packX, fSub_packX, extract_packX, carSub_fields, carImm_idx, carImm_word])

theorem ccas (o : CarOp) : Statement (.ccas o) :=
  ofX 0xD2 _ _ _ _ _ rfl rfl (by
    intro hw
    unfold candidate
    rw [fOp_packX]
    change Instr.ccas (carOp _) = _
    simp [carOp, fD_packX, fA_packX, fB_packX, fSub_packX, extract_packX, carSub_fields, carImm_idx, carImm_word])

theorem cstore (o : CarOp) : Statement (.cstore o) :=
  ofX 0xD8 _ _ _ _ _ rfl rfl (by
    intro hw
    unfold candidate
    rw [fOp_packX]
    change (if (fSub _).getLsbD 6 then .cstoreSeat (carOp _) else .cstore (carOp _) : Instr) = _
    simp [carOp, fD_packX, fA_packX, fB_packX, fSub_packX, extract_packX, carSub_fields, carImm_idx, carImm_word])

theorem cstoreSeat (o : CarOp) : Statement (.cstoreSeat o) :=
  ofX 0xD8 _ _ _ _ _ rfl rfl (by
    intro hw
    unfold candidate
    rw [fOp_packX]
    change (if (fSub _).getLsbD 6 then .cstoreSeat (carOp _) else .cstore (carOp _) : Instr) = _
    simp [carOp, fD_packX, fA_packX, fB_packX, fSub_packX, extract_packX, carSub_fields, carImm_idx, carImm_word])

theorem cwait (o : CarOp) (cond : BitVec 3) : Statement (.cwait o cond) :=
  ofX 0xD3 _ _ _ _ _ rfl rfl (by
    intro hw
    unfold candidate
    rw [fOp_packX]
    change Instr.cwait (carOp _) ((fSub _).setWidth 3) = _
    simp [carOp, fD_packX, fA_packX, fB_packX, fSub_packX, extract_packX, carSub_fields, carImm_idx, carImm_word])

theorem board (a : BitVec 4) (b : BitVec 4) (idx : BitVec 16) : Statement (.board a b idx) :=
  ofX 0xD4 _ _ _ _ _ rfl rfl (by
    intro hw
    unfold candidate
    rw [fOp_packX]
    change Instr.board ((fA _).setWidth 4) ((fB _).setWidth 4) ((immX _).setWidth 16) = _
    simp [fA_packX, fB_packX, immX_packX])

theorem alight (a : BitVec 4) (b : BitVec 4) (idx : BitVec 16) : Statement (.alight a b idx) :=
  ofX 0xD5 _ _ _ _ _ rfl rfl (by
    intro hw
    unfold candidate
    rw [fOp_packX]
    change Instr.alight ((fA _).setWidth 4) ((fB _).setWidth 4) ((immX _).setWidth 16) = _
    simp [fA_packX, fB_packX, immX_packX])

theorem carriveJoin (o : CarOp) : Statement (.carriveJoin o) :=
  ofX 0xD6 _ _ _ _ _ rfl rfl (by
    intro hw
    unfold candidate
    rw [fOp_packX]
    change (if (fSub _).setWidth 2 = 0#2 then .carriveJoin (carOp _) else if (fSub _).setWidth 2 = 1#2 then .carriveArrive (carOp _) else .carriveDepart (carOp _) : Instr) = _
    simp [carOp, fD_packX, fA_packX, fB_packX, fSub_packX, extract_packX, carSub_fields, carImm_idx, carImm_word])

theorem carriveArrive (o : CarOp) : Statement (.carriveArrive o) :=
  ofX 0xD6 _ _ _ _ _ rfl rfl (by
    intro hw
    unfold candidate
    rw [fOp_packX]
    change (if (fSub _).setWidth 2 = 0#2 then .carriveJoin (carOp _) else if (fSub _).setWidth 2 = 1#2 then .carriveArrive (carOp _) else .carriveDepart (carOp _) : Instr) = _
    simp [carOp, fD_packX, fA_packX, fB_packX, fSub_packX, extract_packX, carSub_fields, carImm_idx, carImm_word])

theorem carriveDepart (o : CarOp) : Statement (.carriveDepart o) :=
  ofX 0xD6 _ _ _ _ _ rfl rfl (by
    intro hw
    unfold candidate
    rw [fOp_packX]
    change (if (fSub _).setWidth 2 = 0#2 then .carriveJoin (carOp _) else if (fSub _).setWidth 2 = 1#2 then .carriveArrive (carOp _) else .carriveDepart (carOp _) : Instr) = _
    simp [carOp, fD_packX, fA_packX, fB_packX, fSub_packX, extract_packX, carSub_fields, carImm_idx, carImm_word])

theorem cphase (o : CarOp) : Statement (.cphase o) :=
  ofX 0xD7 _ _ _ _ _ rfl rfl (by
    intro hw
    unfold candidate
    rw [fOp_packX]
    change Instr.cphase (carOp _) = _
    simp [carOp, fD_packX, fA_packX, fB_packX, fSub_packX, extract_packX, carSub_fields, carImm_idx, carImm_word])

theorem ypush (a : BitVec 4) : Statement (.ypush a) :=
  ofX 0xE0 _ _ _ _ _ rfl rfl (by
    intro hw
    unfold candidate
    rw [fOp_packX]
    change Instr.ypush ((fA _).setWidth 4) = _
    simp [fA_packX])

theorem ycont (d : BitVec 4) (a : BitVec 4) : Statement (.ycont d a) :=
  ofX 0xE2 _ _ _ _ _ rfl rfl (by
    intro hw
    unfold candidate
    rw [fOp_packX]
    change Instr.ycont ((fD _).setWidth 4) ((fA _).setWidth 4) = _
    simp [fD_packX, fA_packX])

theorem ydone (a : BitVec 4) : Statement (.ydone a) :=
  ofX 0xE3 _ _ _ _ _ rfl rfl (by
    intro hw
    unfold candidate
    rw [fOp_packX]
    change Instr.ydone ((fA _).setWidth 4) = _
    simp [fA_packX])

theorem ypop (d : BitVec 4) (a : BitVec 4) : Statement (.ypop d a) :=
  ofX 0xE1 _ _ _ _ _ rfl rfl (by
    intro hw
    unfold candidate
    rw [fOp_packX]
    change Instr.ypop ((fD _).setWidth 4) ((fA _).setWidth 4) = _
    simp [fD_packX, fA_packX])

theorem yfloor (d : BitVec 4) : Statement (.yfloor d) :=
  ofX 0xE4 _ _ _ _ _ rfl rfl (by
    intro hw
    unfold candidate
    rw [fOp_packX]
    change Instr.yfloor ((fD _).setWidth 4) = _
    simp [fD_packX])

theorem yreach (d : BitVec 4) (a : BitVec 4) : Statement (.yreach d a) :=
  ofX 0xE5 _ _ _ _ _ rfl rfl (by
    intro hw
    unfold candidate
    rw [fOp_packX]
    change Instr.yreach ((fD _).setWidth 4) ((fA _).setWidth 4) = _
    simp [fD_packX, fA_packX])

theorem yopen (d : BitVec 4) (a : BitVec 4) : Statement (.yopen d a) :=
  ofX 0xE6 _ _ _ _ _ rfl rfl (by
    intro hw
    unfold candidate
    rw [fOp_packX]
    change Instr.yopen ((fD _).setWidth 4) ((fA _).setWidth 4) = _
    simp [fD_packX, fA_packX])

theorem spec (d : BitVec 4) (a : BitVec 4) : Statement (.spec d a) :=
  ofR 0xF0 _ _ _ _ _ _ _ rfl rfl (by
    intro hw
    unfold candidate
    rw [fOp_packR]
    change Instr.spec ((fD _).setWidth 4) ((fA _).setWidth 4) = _
    simp [fD_packR, fA_packR])

theorem scall (a : BitVec 4) : Statement (.scall a) :=
  ofR 0xF1 _ _ _ _ _ _ _ rfl rfl (by
    intro hw
    unfold candidate
    rw [fOp_packR]
    change Instr.scall ((fA _).setWidth 4) = _
    simp [fA_packR])

theorem skeep (a : BitVec 4) : Statement (.skeep a) :=
  ofR 0xF3 _ _ _ _ _ _ _ rfl rfl (by
    intro hw
    unfold candidate
    rw [fOp_packR]
    change Instr.skeep ((fA _).setWidth 4) = _
    simp [fA_packR])

theorem sfree (a : BitVec 4) : Statement (.sfree a) :=
  ofR 0xF2 _ _ _ _ _ _ _ rfl rfl (by
    intro hw
    unfold candidate
    rw [fOp_packR]
    change Instr.sfree ((fA _).setWidth 4) = _
    simp [fA_packR])

theorem residualUnitsFreed (launch : Nat) (unit : Nat) : Statement (.residualUnitsFreed launch unit) :=
  fun _ _ h => nomatch h

theorem taskPop (core : Nat) (slot : Nat) : Statement (.taskPop core slot) :=
  fun _ _ h => nomatch h

theorem runQueueTake (pl : Place) (slot : Nat) : Statement (.runQueueTake pl slot) :=
  fun _ _ h => nomatch h

theorem gatherStartRelease (launch : Nat) (cluster : Nat) : Statement (.gatherStartRelease launch cluster) :=
  fun _ _ h => nomatch h

theorem migrationArrival : Statement .migrationArrival :=
  fun _ _ h => nomatch h

theorem migrationDeparture (pl : Place) (slot : Nat) : Statement (.migrationDeparture pl slot) :=
  fun _ _ h => nomatch h

theorem sleeperSwapOut (pl : Place) (slot : Nat) : Statement (.sleeperSwapOut pl slot) :=
  fun _ _ h => nomatch h

theorem sleepTimeout (pl : Place) (slot : Nat) : Statement (.sleepTimeout pl slot) :=
  fun _ _ h => nomatch h

theorem ownerChangeEffect (core : Nat) (slot : Nat) : Statement (.ownerChangeEffect core slot) :=
  fun _ _ h => nomatch h

theorem variableResultArrival : Statement .variableResultArrival :=
  fun _ _ h => nomatch h

theorem writePerformedAtHome : Statement .writePerformedAtHome :=
  fun _ _ h => nomatch h

theorem remoteUpdateApply : Statement .remoteUpdateApply :=
  fun _ _ h => nomatch h

theorem remoteRequest : Statement .remoteRequest :=
  fun _ _ h => nomatch h

theorem tlbWalkComplete : Statement .tlbWalkComplete :=
  fun _ _ h => nomatch h

theorem footprintFill (core : Nat) (entry : Nat) : Statement (.footprintFill core entry) :=
  fun _ _ h => nomatch h

theorem footprintFillFault (core : Nat) (entry : Nat) : Statement (.footprintFillFault core entry) :=
  fun _ _ h => nomatch h

theorem wakeArrival : Statement .wakeArrival :=
  fun _ _ h => nomatch h

theorem channelWordArrival : Statement .channelWordArrival :=
  fun _ _ h => nomatch h

theorem channelGrantArrival : Statement .channelGrantArrival :=
  fun _ _ h => nomatch h

theorem sequencerIssue (core : Nat) (slot : Nat) : Statement (.sequencerIssue core slot) :=
  fun _ _ h => nomatch h

theorem streamPrefetch (core : Nat) (slot : Nat) (n : BitVec 2) : Statement (.streamPrefetch core slot n) :=
  fun _ _ h => nomatch h

theorem cfgbankComplete : Statement .cfgbankComplete :=
  fun _ _ h => nomatch h

theorem tileOpIssue : Statement .tileOpIssue :=
  fun _ _ h => nomatch h

theorem tileOpComplete : Statement .tileOpComplete :=
  fun _ _ h => nomatch h

theorem engineCompletion : Statement .engineCompletion :=
  fun _ _ h => nomatch h

theorem userInterruptEntry (core : Nat) (slot : Nat) : Statement (.userInterruptEntry core slot) :=
  fun _ _ h => nomatch h

theorem combiningHoldExpiry : Statement .combiningHoldExpiry :=
  fun _ _ h => nomatch h

theorem revolutionStart : Statement .revolutionStart :=
  fun _ _ h => nomatch h

theorem captureApply : Statement .captureApply :=
  fun _ _ h => nomatch h

theorem captureCompletion : Statement .captureCompletion :=
  fun _ _ h => nomatch h

theorem barrierAdvance : Statement .barrierAdvance :=
  fun _ _ h => nomatch h

theorem boardDataSeat : Statement .boardDataSeat :=
  fun _ _ h => nomatch h

theorem alightLanded : Statement .alightLanded :=
  fun _ _ h => nomatch h

theorem floorCarriagePass : Statement .floorCarriagePass :=
  fun _ _ h => nomatch h

theorem depotPass : Statement .depotPass :=
  fun _ _ h => nomatch h

theorem farTaskAgent : Statement .farTaskAgent :=
  fun _ _ h => nomatch h

theorem floorRelief : Statement .floorRelief :=
  fun _ _ h => nomatch h

theorem sidingRefill (core : Nat) (launch : Nat) : Statement (.sidingRefill core launch) :=
  fun _ _ h => nomatch h

theorem stealRequest (thief : Nat) (launch : Nat) (k : Nat) : Statement (.stealRequest thief launch k) :=
  fun _ _ h => nomatch h

theorem ydoneDecrement : Statement .ydoneDecrement :=
  fun _ _ h => nomatch h

theorem exitPacketArrival : Statement .exitPacketArrival :=
  fun _ _ h => nomatch h

theorem coupledYardTransfer (launch : Nat) (words : List Word) : Statement (.coupledYardTransfer launch words) :=
  fun _ _ h => nomatch h

theorem lateFaultDelivery (core : Nat) (slot : Nat) : Statement (.lateFaultDelivery core slot) :=
  fun _ _ h => nomatch h

theorem sliceCoreTrapReturn (slice : Nat) (slot : Nat) : Statement (.sliceCoreTrapReturn slice slot) :=
  fun _ _ h => nomatch h

theorem allAsleepTrap : Statement .allAsleepTrap :=
  fun _ _ h => nomatch h

theorem tailMonitorWake : Statement .tailMonitorWake :=
  fun _ _ h => nomatch h

theorem queueTableRead : Statement .queueTableRead :=
  fun _ _ h => nomatch h

theorem shareRecompute : Statement .shareRecompute :=
  fun _ _ h => nomatch h

theorem launch (queue : Nat) (number : Nat) (rootCore : Nat) (rect : BitVec 20) : Statement (.launch queue number rootCore rect) :=
  fun _ _ h => nomatch h

theorem wait : Statement .wait :=
  fun _ _ h => nomatch h

theorem phase : Statement .phase :=
  fun _ _ h => nomatch h

theorem copy : Statement .copy :=
  fun _ _ h => nomatch h

theorem signal : Statement .signal :=
  fun _ _ h => nomatch h

theorem packetError : Statement .packetError :=
  fun _ _ h => nomatch h

theorem launchCompletion : Statement .launchCompletion :=
  fun _ _ h => nomatch h

theorem queueEnableWrite (queue : Nat) (words : List Word) : Statement (.queueEnableWrite queue words) :=
  fun _ _ h => nomatch h

theorem eventRingConfigure (base : Word) (size : BitVec 32) : Statement (.eventRingConfigure base size) :=
  fun _ _ h => nomatch h

theorem eventPost (code : BitVec 16) (location : BitVec 32) (detail : Word) (launchId : Word) : Statement (.eventPost code location detail launchId) :=
  fun _ _ h => nomatch h

theorem eventHeadAdvance (head : Word) : Statement (.eventHeadAdvance head) :=
  fun _ _ h => nomatch h

theorem overflowCountClear : Statement .overflowCountClear :=
  fun _ _ h => nomatch h

theorem couplingTableWrite (deviceId : BitVec 8) (group : BitVec 8) (bytes : List Byte) : Statement (.couplingTableWrite deviceId group bytes) :=
  fun _ _ h => nomatch h

theorem couplingStart : Statement .couplingStart :=
  fun _ _ h => nomatch h

theorem hostCxlMemAccess (pa : Nat) (n : Nat) (bytes : Option (List Byte)) : Statement (.hostCxlMemAccess pa n bytes) :=
  fun _ _ h => nomatch h

theorem correctableError (unit : Word) : Statement (.correctableError unit) :=
  fun _ _ h => nomatch h

theorem uncorrectableError (site : ErrorSite) (unit : Word) : Statement (.uncorrectableError site unit) :=
  fun _ _ h => nomatch h

theorem ringBeatError : Statement .ringBeatError :=
  fun _ _ h => nomatch h

theorem patrolScrub : Statement .patrolScrub :=
  fun _ _ h => nomatch h

theorem couplingLost : Statement .couplingLost :=
  fun _ _ h => nomatch h

theorem thermalTrip (temp : Word) : Statement (.thermalTrip temp) :=
  fun _ _ h => nomatch h

theorem thermalZeroRefill : Statement .thermalZeroRefill :=
  fun _ _ h => nomatch h

theorem thermalTripClear (temp : Word) : Statement (.thermalTripClear temp) :=
  fun _ _ h => nomatch h

theorem boot (flash : Bool) (badClusters : List Nat) (badSlices : List Nat) (badLinks : BadLinks) :
    Statement (.boot flash badClusters badSlices badLinks) :=
  fun _ _ h => nomatch h

theorem firmwareUpdate (target : Nat) (content : FlashContent) (verifies : Bool) :
    Statement (.firmwareUpdate target content verifies) :=
  fun _ _ h => nomatch h

theorem attestationRequest (valid : Bool) : Statement (.attestationRequest valid) :=
  fun _ _ h => nomatch h

theorem unassignedOpcode (w : Word) : Statement (.unassignedOpcode w) := by
  intro hw v h
  obtain rfl : w = v := Option.some.inj h
  have hu : unassigned (fOp w).toNat = true := hw
  rw [decode, if_pos hu]

theorem hostLinkTraining (lanes : Nat) (gts : Nat) : Statement (.hostLinkTraining lanes gts) :=
  fun _ _ h => nomatch h

theorem hostSnoopResponse : Statement .hostSnoopResponse :=
  fun _ _ h => nomatch h

theorem hostCxlCacheSnoop : Statement .hostCxlCacheSnoop :=
  fun _ _ h => nomatch h

theorem ideKmKeySet (protocol : Nat) : Statement (.ideKmKeySet protocol) :=
  fun _ _ h => nomatch h

theorem errorCountWindowEnd (unit : Word) : Statement (.errorCountWindowEnd unit) :=
  fun _ _ h => nomatch h

end Sys2Proof.Laws.Encode
end

