-- ==== Sys2Proof/Tests/Slice0.lean ====
section
/-! SUPPORT. Tests: ill-formed terms, words written out from the encoding tables, single steps with results taken from the
rules and their worked examples, and for every statement with hypotheses a state and operands that meet them. -/

namespace Sys2Proof.Tests

open Sys2Proof Sys2Proof.Machine

set_option Elab.async false

-- well-formedness

/-- One ill-formed term for each check of Instr.wf: each is refused. Expected: R203 with R205, R206, R208, R211, R212, R214
to R218, and the ranges that each instruction's own rule gives its fields. -/
theorem test_ill_formed_refused :
    ([ .trap 0x1B 0, .cyc 0x1A, .mfs 4 0x00A, .mfs 0x1A 0x000, .mts 4 0x103, .mts 4 0x110, .mts 4 0x1FF,
       .add ⟨⟨0x20, true⟩, plain 1, plain 2⟩, .add ⟨plain 1, ⟨0x18, true⟩, plain 2⟩, .add ⟨plain 0x1A, plain 1, plain 2⟩,
       .addi ⟨0x1F, 1, 0⟩, .bfx ⟨plain 5, plain 6, 63, 1⟩, .widf (plain 5) 6, .call 0 8, .loop 0 8,
       .jmp (plain 0x10) (plain 2), .jmp (plain 0) (plain 0x20), .fcmp 1 7 1 (plain 2) (plain 3),
       .ld ⟨5, ⟨2, 0, 0, 0⟩, 3, true⟩, .lda ⟨5, ⟨2, 0, 0, 0⟩, 3, false⟩ 6, .stl 5 ⟨2, 0, 0, 0⟩ 3 7,
       .lsrmw 5 2 3 9 true 0, .fenceAcq 6, .vgath (plain 1) (plain 2) (plain 3) 0 2,
       .amo 9 ⟨5, 2, 3, true, 0, 0⟩, .amo 0 ⟨10, 2, 3, true, 0, 0⟩, .famo 3 ⟨5, 2, 3, true, 0, 0⟩,
       .fsgn ⟨plain 1, plain 2, plain 3, 1⟩ 3, .fcvt ⟨plain 1, plain 2, 1⟩ 4 true ] : List Instr).all (fun i => !i.wf) = true ∧
    ([ .vadd ⟨plain 1, plain 2, plain 3, 0, 0, true⟩, .vmin ⟨plain 1, plain 2, plain 3, 0, 5, true⟩,
       .vadd ⟨⟨0x20, true⟩, plain 2, plain 3, 0, 0, false⟩, .vdiv ⟨plain 1, plain 2, plain 3, 0, 1, false⟩,
       .vand ⟨plain 1, plain 2, plain 3, 0, 4, false⟩, .vdot4 ⟨plain 1, plain 2, plain 3, 0, 2, false⟩,
       .vcmp ⟨plain 1, plain 2, plain 3, 0, 5, false⟩ 7, .vred ⟨plain 1, plain 2, 0, 0, false⟩ 6,
       .vscan ⟨plain 1, plain 2, 0, 5, false⟩ 3, .vtopk ⟨plain 1, plain 2, 0, 4, false⟩ 0 false 0,
       .vseq 0, .vseq 17, .mmq ⟨0, 1, 2, 3, false, 3, 0⟩, .mmq ⟨0, 1, 2, 3, false, 0, 1⟩, .xcpy ⟨1, 2, 3, 4, 3, 0⟩,
       .xcpy ⟨1, 2, 3, 4, 0, 1⟩, .xcoll ⟨1, 2, 3, 4, 0, 0⟩ 5, .tadvFill 0 0, .chgrant 0 0,
       .cload ⟨5, 0, 1, 0, 0, false, false⟩, .cload ⟨10, 0, 0, 0, 0, false, false⟩, .cop ⟨5, 0, 0, 0, 0, false, false⟩ 9,
       .cwait ⟨5, 0, 0, 0, 0, false, true⟩ 0, .cstore ⟨5, 0, 0, 0, 0, true, false⟩,
       .carriveJoin ⟨5, 0, 0, 1, 0, false, false⟩, .cphase ⟨5, 0, 0, 1, 0, false, false⟩,
       .taskPop 4096 0, .taskPop 0 8, .runQueueTake (.slice 1024) 0, .launch 0 0 0 0, .queueEnableWrite 0 [],
       .couplingTableWrite 0 0 [], .firmwareUpdate 3 ⟨0, []⟩ false, .ideKmKeySet 3, .unassignedOpcode 0x10000A1060000000 ]
       : List Instr).all (fun i => !i.wf) = true := by
  decide +kernel

-- decoding: words written out from the encoding tables (09_encoding, R204, R207-R210, R214, R215)

theorem test_decode_system :
    decode 0x0000000000000000 = some ⟨0, false, 0, .nop⟩ ∧
    decode 0x0200002800008001 = some ⟨0, false, 0, .trap 5 0x8001⟩ ∧
    decode 0x0600080000000141 = some ⟨0, false, 0, .mfs 4 0x141⟩ := by decide +kernel

theorem test_decode_integer :
    decode 0x27000C100000B014 = some ⟨0, false, 0, .bfx ⟨plain 6, plain 2, 11, 20⟩⟩ ∧
    decode 0x41000A1A0000000A = some ⟨0, false, 0, .cmpi 5 2 3 10⟩ := by decide +kernel

theorem test_decode_memory :
    decode 0x50000A100C000000 = some ⟨0, false, 0, .ld ⟨5, ⟨2, 0, 0, 0⟩, 3, false⟩⟩ ∧
    decode 0x54000C180C000008 = some ⟨0, false, 0, .stt 6 ⟨3, 0, 0, 8⟩ 3⟩ ∧
    decode 0x55000A10C1000000 = some ⟨0, false, 0, .lsrmw 5 2 6 0 true 0⟩ := by decide +kernel

theorem test_decode_atomic :
    decode 0x61000A10D1000000 = some ⟨0, false, 0, .cas ⟨5, 2, 6, true, 4, 0⟩⟩ ∧
    decode 0x6300002000100000 = some ⟨0, false, 0, .gotoHome 4⟩ := by decide +kernel

theorem test_decode_float_and_vector :
    decode 0x70000A1060000140 = some ⟨0, false, 0, .fadd ⟨plain 5, plain 2, plain 3, 1⟩⟩ ∧
    decode 0xA000001000100000 = some ⟨0, false, 0, .scfg 1 false 2 0⟩ ∧
    decode 0xA200000000000003 = some ⟨0, false, 0, .vseq 3⟩ := by decide +kernel

theorem test_decode_matrix_and_engines :
    decode 0xB1000420A3005003 = some ⟨0, false, 0, .mmq ⟨2, 4, 5, 6, true, 2, 3⟩⟩ ∧
    decode 0xC800260000000005 = some ⟨0, false, 0, .chgrant 3 5⟩ := by decide +kernel

theorem test_decode_ring :
    decode 0xD0000A0001020003 = some ⟨0, false, 0, .cload ⟨5, 0, 0, 2, 3, true, false⟩⟩ ∧
    decode 0xD2000A10C0000004 = some ⟨0, false, 0, .ccas ⟨5, 2, 6, 0, 4, false, false⟩⟩ ∧
    decode 0xD6000A0002100002 = some ⟨0, false, 0, .carriveArrive ⟨5, 0, 0, 0, 2, false, true⟩⟩ := by decide +kernel

theorem test_decode_yard_and_spec :
    decode 0xE1000A3000000000 = some ⟨0, false, 0, .ypop 5 6⟩ ∧
    decode 0xF0000A2000000000 = some ⟨0, false, 0, .spec 5 4⟩ ∧
    decode 0xF500000000000000 = some ⟨0, false, 0, .unassignedOpcode 0xF500000000000000⟩ := by decide +kernel

/-- R201, R203: the reserved guard pair and a non-zero unused field are refused. -/
theorem test_decode_refuses :
    decode 0x10080A1060000000 = none ∧ decode 0x0000000000000001 = none ∧ decode 0x0100000000001000 = none := by
  decide +kernel

-- the small machine that the tests use

/-- A thread of launch 1: g1 = 5, g2 = 3, g5 the base of its own local store, g6 = 6, g8 = 9. -/
def thread : Slot := { slotReset with
  busy := true, launch := 1, pc := 0x1000, nalloc := 32, pw := 0x0007, wid := 0x1234,
  g := #v[0, 5, 3, 0, 0, 0xE0000000000000, 6, 0, 9, 0, 0, 0, 0, 0, 0, 0] }

/-- Core 0 with that thread in slot 0, cycle 8. -/
def base : State := { State.reset with
  cyc := 8, booted := true, launches := [launchEmpty 1],
  cores := [(0, { coreReset with bankLaunch := some 1, slots := [(0, thread)] })], cur := ⟨.core 0, 0⟩ }

/-- The state that an outcome gives. -/
def got (o : Out) : State :=
  match o with
  | .next t => t
  | _ => State.reset

/-- An outcome is a next state. -/
def goes (o : Out) : Bool :=
  match o with
  | .next _ => true
  | _ => false

theorem exists_next {o : Out} (h : goes o = true) : ∃ t, o = .next t := by
  cases o <;> simp_all [goes]

/-- An optional value is there, and has a property. -/
def met {α : Type} (o : Option α) (p : α → Bool) : Bool :=
  match o with
  | some a => p a
  | none => false

/-- The thread changed. -/
def withThread (f : Slot → Slot) : State := base.updMe f

/-- What an instruction leaves in a register of the thread. -/
def reg (i : Instr) (s : State) (r : BitVec 4) : Word := (got (exec i s)).me.gr r

-- encoding, reset, turns

theorem witness_EncodingRoundTrip :
    (Instr.add ⟨plain 5, plain 2, plain 3⟩).wf = true ∧
    encode (.add ⟨plain 5, plain 2, plain 3⟩) = some 0x10000A1060000000 ∧
    unassigned (fOp 0x10000A1060000000).toNat = false ∧ ¬((2 : BitVec 4) = 0 ∧ true = true) ∧
    (Instr.unassignedOpcode 0xF500000000000001).wf = true ∧
    encode (.unassignedOpcode 0xF500000000000001) = some 0xF500000000000001 := by decide +kernel

theorem witness_DecodeAcceptsOnlyEncodings :
    decode 0x10280A1060000000 = some ⟨2, true, 0, .add ⟨plain 5, plain 2, plain 3⟩⟩ ∧
    unassigned ((0x10280A1060000000 : Word).extractLsb' 56 8).toNat = false := by decide +kernel

theorem witness_StepsKeepMemoriesCanonical :
    base.memOk = true ∧ ∃ t, Steps (base.withFetchWord 64 0x30000A0800000001) t := by
  exact ⟨by decide +kernel, exists_next (by decide +kernel)⟩

/-- A turn that meets every premise: the state, the turn and the word. -/
def fetching (w : Nat) : State := base.withFetchWord 64 w

theorem witness_StepRunsFetchedInstruction :
    (let r := (fetching 0x30000A0800000001).nextAct
     match r.1 with
     | .turn pl k =>
       let s1 := r.2
       let s2 := s1.turnStart ⟨pl, k⟩
       let x := s2.me
       s1.cyc % 8 == k && (s1.slotAt ⟨pl, k⟩).lastIssue != some s1.cyc && x.busy && x.hold == .none && !x.gatherWait &&
       !x.stopped && !x.preempted && x.sliceTrap == none && x.late == none && x.ints == [] && x.asleep == none && !x.residual &&
       met (after fetch s2) (fun p => p.1 == 0x30000A0800000001 && met (decode p.1) (fun d => d.eb == 0 &&
         d.ins == .addi ⟨5, 1, 1⟩ && !(supervisorOnly d.ins) && !(x.isPend .pw) && x.pred d.g != d.gn) &&
         (match p.2.cur.pl with
          | .slice _ => false
          | .core _ => true))
     | _ => false) = true := by decide +kernel

/-- The step at the word of `addi g5, g1, 1` writes 6 to g5 and advances the pc. -/
theorem test_step_addi :
    (let t := got (step (fetching 0x30000A0800000001))
     t.me.gr 5 == 6 && t.me.pc == 0x1008) = true := by decide +kernel

theorem witness_TurnsAndIssueChecks_turn :
    (withThread fun x => { x with lastIssue := some 8 }).cyc % 8 = (0 : Nat) ∧
    ((withThread fun x => { x with lastIssue := some 8 }).slotAt ⟨.core 0, 0⟩).lastIssue = some 8 ∧
    base.cyc % 8 ≠ (⟨.core 0, 3⟩ : Sid).k := by decide +kernel

/-- The words of the clauses: a reserved one, one with an early-binding bit, a supervisor-only one, one with a guard that
does not hold (p3 is 0), one whose pw is pending. -/
theorem witness_TurnsAndIssueChecks_checks :
    (met (after fetch (fetching 0x0000000000000001)) (fun r => decode r.1 == none) &&
     met (after fetch (fetching 0x3000800000000000)) (fun r => met (decode r.1) (fun d => d.eb != 0)) &&
     met (after fetch (fetching 0x0400000000000000)) (fun r => met (decode r.1) (fun d => d.eb == 0 && supervisorOnly d.ins)) &&
     (fetching 0).me.mode == .user &&
     met (after fetch (fetching 0x30300A0800000001)) (fun r => met (decode r.1) (fun d =>
       d.eb == 0 && !(supervisorOnly d.ins) && !((fetching 0).me.isPend .pw) && (fetching 0).me.pred d.g == d.gn)) &&
     met (after fetch ((fetching 0x30300A0800000001).updMe fun x => { x with pend := [.pw] })) (fun r =>
       met (decode r.1) (fun d => d.eb == 0 && !(supervisorOnly d.ins))) &&
     ((fetching 0).updMe fun x => { x with pend := [.pw] }).me.isPend .pw) = true := by decide +kernel

-- registers

theorem witness_FittingRegistersAreReady :
    Fits [.dst (plain 4), .src (plain 1), .src (plain 0x3F), .vec (plain 31)] base = true := by decide +kernel

theorem witness_RegisterChecks :
    (let s := withThread fun x => { x with ix := 15, nalloc := 8, pend := [.g 4] }
     s.me.nalloc ≤ 7 + s.me.ix.toNat ∧ 16 ≤ 1 + s.me.ix.toNat ∧ s.me.nalloc ≤ (8 : BitVec 6).toNat ∧
     fieldTrap [.src (plain 4)] s.me = none ∧ s.me.isPend ((Use.src (plain 4)).preg s.me) = true ∧
     fieldTrap [.src (plain 0x20)] s.me = none ∧ s.me.isPend ((Use.src (plain 0x20)).preg s.me) = false ∧
     (Use.src (plain 0x20)).shared s.me = true ∧ (Use.src (plain 0x20)).rel = false) ∧
    (let s := withThread fun x => { x with pend := [.ix] }
     (Use.src ⟨1, true⟩).rel = true ∧ s.me.isPend .ix = true) ∧
    (base.at' (.core 0)).bankLaunch ≠ some ((withThread fun x => { x with launch := 2 }).me.launch) := by decide +kernel

/-- The boundary codes of each clause: g0, g1 and g15, pw, ix, wid, s0 and s31; f0 and f31, c0 and c31. -/
theorem witness_FieldReadsAndWrites :
    ([0, 1, 15, 0x18, 0x19, 0x1A, 32, 63] : List Nat).all (fun c =>
      (plain (BitVec.ofNat 6 c)).code.toNat == c && decide (c < 64)) = true ∧
    ((⟨15, true⟩ : Fld).code.toNat + base.me.ix.toNat = 15) := by decide +kernel

theorem witness_SharedRegisterWrites :
    (∀ w ∈ ([⟨5, 3, false, 7, 1⟩] ++ [⟨4, 0, false, 7, 3⟩] : List SharedWr), w.vec = false → w.idx = 7 → w.from' ≤ 6 →
      w.from' < 5 ∨ (w.from' = 5 ∧ 1 < w.slot)) ∧ (5 : Nat) ≤ 6 ∧
    (plain 0x3F).rel = false ∧ (plain 0x3F).code.toNat = 31 + 32 ∧
    (∀ w ∈ (base.at' base.cur.pl).sharedQ, w.from' ≤ base.cyc) ∧ base.cyc ≤ 11 ∧ 11 < base.cyc + 4 ∧ base.cyc + 4 ≤ 12 := by
  decide +kernel

/-- R34: slot 1 and slot 3 write s7 for the same cycle; what slot 1 writes stays. -/
theorem test_lower_slot_last :
    (({ coreReset with sharedQ := [⟨5, 3, false, 7, 1⟩, ⟨5, 1, false, 7, 2⟩, ⟨4, 0, false, 7, 3⟩] } : CoreSt).settle 6).s[7] = 2 := by
  decide +kernel

theorem witness_RegisterWriteFrame :
    ([0, 15, 24, 63] : List Nat).all (fun c =>
      (plain (BitVec.ofNat 6 c)).code.toNat == c && decide (c < 64 ∧ (c < 16 ∨ 24 ≤ c))) = true := by decide

-- integers, predicates, branches

/-- A pair of registers, read from one state and written back to it. -/
theorem witness_RegisterIntegerResults :
    Ready [.dst (plain 4), .src (plain 1), .src (plain 2)] base base ∧ Reads (plain 1) base 5 base ∧
    Reads (plain 2) base 3 base ∧ (3 : Word) ≠ 0 := ⟨rfl, rfl, rfl, by decide⟩

/-- The two corners: a divisor of 0, and -2^63 by -1. -/
def divisors : State := withThread fun x => { x with
  g := #v[0, 0x8000000000000000, 0xFFFFFFFFFFFFFFFF, 0, 0, 0, 0, 0, 0, 0, 0, 0, 0, 0, 0, 0] }

theorem witness_DivisionByZeroTraps :
    Ready [.dst (plain 4), .src (plain 1), .src (plain 2)] divisors divisors ∧
    Reads (plain 1) divisors 0x8000000000000000 divisors ∧ Reads (plain 2) divisors 0xFFFFFFFFFFFFFFFF divisors ∧
    Ready [.dst (plain 4), .src (plain 1), .src (plain 3)] divisors divisors ∧ Reads (plain 3) divisors 0 divisors :=
  ⟨rfl, rfl, rfl, rfl, rfl⟩

theorem test_div_corners :
    reg (.div ⟨plain 4, plain 1, plain 2⟩) divisors 4 = 0x8000000000000000 ∧
    reg (.rem ⟨plain 4, plain 1, plain 2⟩) divisors 4 = 0 ∧
    (got (exec (.div ⟨plain 4, plain 1, plain 3⟩) divisors)).me.tval = 0x8000000000000000 := by decide +kernel

/-- R246: signed high product of -2^63 and -1 is 0, unsigned 2^63 - 1; SRA keeps the sign; ADDW sign-extends. -/
theorem test_integer :
    reg (.mulh ⟨plain 4, plain 1, plain 2⟩) divisors 4 = 0 ∧
    reg (.mulhu ⟨plain 4, plain 1, plain 2⟩) divisors 4 = 0x7FFFFFFFFFFFFFFF ∧
    reg (.sra ⟨plain 4, plain 1, plain 2⟩) divisors 4 = 0xFFFFFFFFFFFFFFFF ∧
    reg (.addw ⟨plain 4, plain 1, plain 2⟩) divisors 4 = 0xFFFFFFFFFFFFFFFF ∧
    reg (.minu ⟨plain 4, plain 1, plain 2⟩) divisors 4 = 0x8000000000000000 ∧
    reg (.max ⟨plain 4, plain 1, plain 2⟩) divisors 4 = 0xFFFFFFFFFFFFFFFF := by decide +kernel

theorem witness_ImmediateAndUnaryResults :
    Ready [.dst (plain 4), .src (plain 1)] base base ∧ Reads (plain 1) base 5 base ∧ Ready [.dst (plain 4)] base base ∧
    Ready [.dst (plain 4), .src (plain 4)] base base ∧ Reads (plain 4) base 0 base ∧
    (61 ≤ 64 ∧ (∀ j, j < 64 → 64 - 61 ≤ j → (5 : Word).getLsbD j = false) ∧ (5 : Word).getLsbD (63 - 61) = true) ∧
    (0 ≤ 64 ∧ (5 : Word).getLsbD 0 = true) := ⟨rfl, rfl, rfl, rfl, rfl, by decide, by decide⟩

/-- R249's worked pair, and R250's counts of 0. -/
theorem test_immediate_and_unary :
    reg (.lih 4 0x40) (got (exec (.li 4 0x1000) base)) 4 = 0x0000004000001000 ∧
    reg (.lih 4 0) (got (exec (.li 4 0xFFFFFFFF) base)) 4 = 0x00000000FFFFFFFF ∧
    reg (.andi ⟨4, 2, 0xFFFFFFC0⟩) divisors 4 = 0xFFFFFFFFFFFFFFC0 ∧
    reg (.clz ⟨plain 4, plain 3⟩) base 4 = 64 ∧ reg (.ctz ⟨plain 4, plain 3⟩) base 4 = 64 ∧
    reg (.popc ⟨plain 4, plain 1⟩) base 4 = 2 := by decide +kernel

/-- A launch whose layout word has the widths (5, 5, 6) of R254's example. -/
def laidOut (wid mgeo : Word) : State := { withThread fun x => { x with wid := wid, mgeo := mgeo } with
  launches := [{ launchEmpty 1 with hdr := [0, 0, 0, 0x6145] }] }

theorem witness_FieldSelectAndWorkIdentifierResults :
    Ready [.dst (plain 4), .src (plain 1), .src (plain 2), .pw] base base ∧
    Ready [.dst (plain 4), .src (plain 1), .src (plain 4)] base base ∧ Reads (plain 4) base 0 base ∧
    Ready [.dst (plain 4), .src (plain 1), .src (plain 2), .src (plain 3)] base base ∧ Reads (plain 3) base 0 base ∧
    Ready [.dst (plain 4)] (laidOut 0x425 0) (laidOut 0x425 0) ∧ Ready [.dst (plain 4), .pw] base base ∧
    ((⟨plain 4, plain 1, 63, 0⟩ : BitField).pos.toNat + (⟨plain 4, plain 1, 63, 0⟩ : BitField).width1.toNat + 1 ≤ 64) ∧
    (64 < (⟨plain 4, plain 1, 63, 1⟩ : BitField).pos.toNat + (⟨plain 4, plain 1, 63, 1⟩ : BitField).width1.toNat + 1) ∧
    (∃ l, (laidOut 0x425 0).launch? (laidOut 0x425 0).me.launch = some l ∧ l.hdr[3]? = some 0x6145) :=
  ⟨rfl, rfl, rfl, rfl, rfl, rfl, rfl, by decide, by decide, _, rfl, rfl⟩

/-- R254's and R256's worked examples. -/
theorem test_widf_geom :
    reg (.widf (plain 6) 1) (laidOut 0x425 0) 6 = 1 ∧
    reg (.geom (plain 7) 2) (laidOut 0x42 0x0100000400040003) 7 = 0x0004000000020002 ∧
    (got (exec (.geom (plain 7) 2) (laidOut 0x42 0x0100000400040003))).me.pred 2 = true ∧
    reg (.geom (plain 7) 2) (laidOut 0x65 0x0100000400040003) 7 = 0x0004000000030005 ∧
    (got (exec (.geom (plain 7) 2) (laidOut 0x65 0x0100000400040003))).me.pred 2 = false := by decide +kernel

/-- R255's worked example; BFI into a register of ones; MADD wraps. -/
theorem test_cellh_bfi_madd :
    (let s := withThread fun x => { x with
       g := #v[0, 0x0001C00002400035, 0x304, 0x1000, 0xFFFFFFFFFFFFFFFF, 0, 0, 0, 0, 0, 0, 0, 0, 0, 0, 0] }
     reg (.cellh ⟨plain 5, plain 1, plain 2⟩ 3) s 5 == 0x112F &&
     reg (.bfi ⟨plain 4, plain 0, 3, 60⟩) s 4 == 0x0FFFFFFFFFFFFFFF &&
     reg (.madd ⟨plain 5, plain 4, plain 4⟩ 4) s 5 == 0) = true := by decide +kernel

theorem witness_PredicateAndBranchResults :
    Ready [.pw, .src (plain 1), .src (plain 2)] base base ∧ Reads (plain 1) base 5 base ∧ Reads (plain 2) base 3 base ∧
    Ready [.pw, .src (plain 1)] base base ∧ Ready [.pw] base base ∧ Ready [.dst (gf 9)] base base ∧
    Ready [.dst (plain 0), .src (plain 1)] base base ∧ Ready [.dst (plain 0), .src (plain 3)] base base ∧
    Reads (plain 3) base 0 base ∧ (0 : Word).toNat % 8 = 0 ∧ (5 : Word).toNat % 8 ≠ 0 ∧
    Ready [.dst (gf 1), .src (gf 1)] base base ∧ Reads (gf 1) base 5 base :=
  ⟨rfl, rfl, rfl, rfl, rfl, rfl, rfl, rfl, rfl, by decide, by decide, rfl, rfl⟩

/-- R257, R258, R260, R262: an unsigned compare with a negative immediate, plog.andn, a backward branch, loops of count 1 and 0. -/
theorem test_compare_and_branch :
    (got (exec (.cmpi 5 6 1 0xFFFFFFFF) base)).me.pred 5 = true ∧
    (got (exec (.cmpi 5 2 1 0xFFFFFFFF) base)).me.pred 5 = false ∧
    (got (exec (.plog 5 1 3 4) base)).me.pred 5 = true ∧
    (got (exec (.bra 0x1FFFFFFFFFD) base)).me.pc = 0xFE8 ∧
    (let s := withThread fun x => { x with g := x.g.set 1 1 }
     (got (exec (.loop 1 4) s)).me.pc = 0x1008 ∧ (got (exec (.loop 3 4) s)).me.pc = 0x1020 ∧
     reg (.loop 3 4) s 3 = 0xFFFFFFFFFFFFFFFF) := by decide +kernel

theorem witness_RegisterInstructionsFrame :
    registerInstr (.add ⟨plain 4, plain 1, plain 2⟩) = some (some (plain 4)) ∧
    ∃ t, exec (.add ⟨plain 4, plain 1, plain 2⟩) base = .next t := ⟨rfl, exists_next (by decide +kernel)⟩

-- exceptions

theorem witness_TrapEntry :
    (let x := (withThread fun x => { x with status := 0x100, utvec := 0x2000 }).slotAt ⟨.core 0, 0⟩
     x.status.getLsbD 8 = true ∧ x.utvec ≠ 0 ∧ x.handler = .none ∧ x.mode = .user) ∧
    (base.slotAt ⟨.core 0, 0⟩).status.getLsbD 8 = false := by decide +kernel

/-- R407, R413: a divide trap goes to the program's handler when it is set up and to Umber's vector when it is not. -/
theorem test_trap_entry :
    (let s := withThread fun x => { x with status := 0x100, utvec := 0x2000 }
     let t := got (exec (.div ⟨plain 4, plain 1, plain 0⟩) s)
     t.me.pc = 0x2000 ∧ t.me.handler = .trap ∧ t.me.tpc = 0x1000 ∧ t.me.tval = 5 ∧ t.me.mode = .user) ∧
    (let t := got (exec (.div ⟨plain 4, plain 1, plain 0⟩) base)
     t.me.mode = .supervisor ∧ t.me.smode = .user ∧ t.me.sepc = 0x1000) := by decide +kernel

theorem test_sysc_returns_after :
    (let t := got (exec (.sysc 3) base)
     t.me.sepc = 0x1008 ∧ t.me.tval = 3 ∧ (got (exec .eret t)).me.pc = 0x1008 ∧ (got (exec .eret t)).me.mode = .user) := by
  decide +kernel

theorem witness_TrapsAndPlainSystemResults :
    Ready [.src (plain 1)] base base ∧ Reads (plain 1) base 5 base ∧ Ready [.dst (plain 4)] base base := ⟨rfl, rfl, rfl⟩

theorem test_trap_and_cyc :
    (got (exec (.trap 1 0x8001) base)).me.tval = 5 ∧
    (got (exec (.trap 1 0x8001) base)).me.tcause.extractLsb' 0 16 = 0x8001 ∧ reg (.cyc 4) base 4 = 8 := by decide +kernel

/-- The kernel's thread: supervisor mode. -/
def kernelState : State := withThread fun x => { x with mode := .supervisor, sepc := 0x3008 }

theorem witness_ReturnsFromExceptions :
    kernelState.me.mode = .supervisor ∧ base.me.mode = .user ∧ base.me.handler = .none ∧
    (withThread fun x => { x with handler := .trap }).me.handler = .trap ∧
    (withThread fun x => { x with handler := .interrupt }).me.handler = .interrupt := by decide +kernel

/-- Boundary numbers of each clause: 0x0FF and 0x100, a number no chapter defines, a register of either kind. -/
theorem witness_SpecialRegisterResults :
    Ready [.dst (plain 4)] base base ∧ Ready [.dst (plain 4), .src (plain 0x19)] base base ∧
    Ready [.dst (plain 4)] kernelState kernelState ∧
    Ready [.src (plain 1)] kernelState kernelState ∧ Reads (plain 1) kernelState 5 kernelState ∧
    Ready [.src (plain 1), .dst (plain 0x19)] base base ∧ Reads (plain 1) base 5 base ∧
    (0x001, 0x1234) ∈ specialValue base ∧ (0x140, 0x3008) ∈ specialValue kernelState ∧
    (∀ e ∈ specialValue base, e.1 ≠ 0x0FF) ∧ (∀ e ∈ specialValue kernelState, e.1 ≠ 0x1FF) ∧
    mtsPlain 0x010 = true ∧ mtsPlain 0x160 = true ∧ mtsPlain 0x142 = true ∧ base.me.mode = .user ∧
    kernelState.me.mode = .supervisor :=
  ⟨rfl, rfl, rfl, rfl, rfl, rfl, rfl, by decide +kernel, by decide +kernel, by decide +kernel, by decide +kernel, by decide,
    by decide, by decide, by decide +kernel, by decide +kernel⟩

theorem test_special :
    reg (.mfs 4 0x001) base 4 = 0x1234 ∧ (got (exec (.mfs 4 0x100) base)).me.tcause.extractLsb' 0 16 = 2 ∧
    (got (exec (.mts 1 0x010) base)).me.utvec = 0 ∧ (got (exec (.mts 8 0x010) base)).me.utvec = 8 ∧
    ((got (exec (.slotOwnerWrite 2 1) kernelState)).at' (.core 0)).owners[2] &&& 0xFF = 5 ∧
    ((got (exec (.refillLevelWrite 1) kernelState)).slotAt ⟨.core 0, 7⟩).budget = 5 := by decide +kernel

theorem witness_SleepWakeAndTranslationResults :
    base.me.asleep = none ∧ base.me.wake = false ∧ (withThread fun x => { x with wake := true }).me.wake = true ∧
    (withThread fun x => { x with asleep := some ⟨0, .sleep, some 8⟩ }).me.asleep = some ⟨0, .sleep, some 8⟩ ∧
    (withThread fun x => { x with asleep := some ⟨0, .sleep, none⟩ }).me.asleep = some ⟨0, .sleep, none⟩ ∧
    Ready [.src (plain 1)] kernelState kernelState ∧ Reads (plain 1) kernelState 5 kernelState :=
  ⟨rfl, rfl, rfl, rfl, rfl, rfl, rfl⟩

/-- R237: a SLEEP of 16 issued in cycle 8 sleeps until cycle 24; a set wake bit ends it at once. -/
theorem test_sleep :
    (got (exec (.sleep 16) base)).me.asleep = some ⟨8, .sleep, some 24⟩ ∧
    (got (exec (.sleep 16) (withThread fun x => { x with wake := true }))).me.pc = 0x1008 := by decide +kernel

-- scalar floating point (type code 1: f32)

/-- g1 = 1.0, g2 = 2.0, g3 = the largest finite f32, g4 = the least subnormal. -/
def floats : State := withThread fun x => { x with
  g := #v[0, 0x3F800000, 0x40000000, 0x7F7FFFFF, 1, 0x7F800000, 0x7FC00001, 0, 0, 0, 0, 0, 0, 0, 0, 0] }

theorem witness_ScalarFloatResults :
    Ready [.dst (plain 9), .src (plain 1), .src (plain 2)] floats floats ∧ Reads (plain 1) floats 0x3F800000 floats ∧
    Reads (plain 2) floats 0x40000000 floats ∧
    Ready [.dst (plain 9), .src (plain 1), .src (plain 2), .src (plain 3)] floats floats ∧
    Reads (plain 3) floats 0x7F7FFFFF floats ∧ Ready [.dst (plain 9), .src (plain 1)] floats floats ∧
    Ready [.pw, .src (plain 1), .src (plain 2)] floats floats := ⟨rfl, rfl, rfl, rfl, rfl, rfl, rfl⟩

/-- The classes of R290 at their boundaries: NaN, both infinities, zero, subnormal and normal values. -/
theorem witness_ScalarFloatResults_class :
    (fmtOf 1).val 0x7FC00001 = .nan ∧ (fmtOf 1).val 0x7F800000 = .inf false ∧ (fmtOf 1).val 0xFF800000 = .inf true ∧
    (∃ e, (fmtOf 1).val 0x80000000 = .fin true 0 e) ∧ ((fmtOf 1).expo 1 = 0 ∧ (fmtOf 1).expo 0x00800000 ≠ 0) :=
  ⟨by decide +kernel, by decide +kernel, by decide +kernel, ⟨_, rfl⟩, by decide +kernel⟩

theorem test_float_arithmetic :
    reg (.fadd ⟨plain 9, plain 1, plain 2, 1⟩) floats 9 = 0x40400000 ∧
    reg (.fadd ⟨plain 9, plain 3, plain 3, 1⟩) floats 9 = 0x7F800000 ∧
    (got (exec (.fadd ⟨plain 9, plain 3, plain 3, 1⟩) floats)).me.status &&& 0x1F = 0x14 ∧
    reg (.fdiv ⟨plain 9, plain 1, plain 0, 1⟩) floats 9 = 0x7F800000 ∧
    (got (exec (.fdiv ⟨plain 9, plain 1, plain 0, 1⟩) floats)).me.status &&& 0x1F = 2 ∧
    reg (.fsqrt ⟨plain 9, plain 2, 1⟩) floats 9 = 0x3FB504F3 ∧
    reg (.fclass ⟨plain 9, plain 4, 1⟩) floats 9 = 0x20 := by decide +kernel

/-- 2.5 to an integer, nearest even, is 2; 2 to f32 is 0x40000000. -/
theorem test_float_conversion :
    (let s := withThread fun x => { x with g := x.g.set 1 0x40200000 }
     reg (.fcvt ⟨plain 9, plain 1, 1⟩ 1 false) s 9 = 2) ∧
    reg (.fcvt ⟨plain 9, plain 2, 1⟩ 0 true) floats 9 = 2 := by decide +kernel

theorem witness_ExactSumsAndProducts :
    (Fl.fin false 3 0).number = some 3 ∧ (Fl.fin true 1 (-1)).number = some (-1 / 2) := by
  constructor <;> norm_num [Fl.number]

theorem witness_FloatSpecialCases :
    (Fl.fin true 0 0).number = some 0 ∧ (Fl.fin false 0 5).number = some (-0) ∧
    (Fl.fin true 0 0).neg ≠ (Fl.fin false 0 5).neg ∧ (1 : Nat) ≠ 0 ∧ (6 : BitVec 3) ≠ 7 := by
  refine ⟨?_, ?_, by decide, by decide, by decide⟩ <;> norm_num [Fl.number]

theorem witness_RoundingAndPacking :
    (let f := fmtOf 1
     0x7F7FFFFF < 2 ^ f.bits ∧ 0x7F7FFFFF % 2 ^ f.low = 0 ∧ ∃ s m e, f.val 0x7F7FFFFF = .fin s m e) ∧
    (2 * (6 % 2 ^ 2) = 2 ^ 2 ∧ 8 % 2 ^ 2 = 0) := ⟨⟨by decide +kernel, by decide +kernel, _, _, _, rfl⟩, by decide⟩

/-- R117: a tie goes to the even neighbour. -/
theorem test_rounding_ties :
    (roundShift 0 false 6 2).1 = 2 ∧ (roundShift 0 false 10 2).1 = 2 ∧ (roundShift 2 false 9 2).1 = 3 ∧
    (roundShift 3 true 9 2).1 = 3 := by decide +kernel

-- memory

/-- The machine with page 0 mapped to frame 0 and page 1 read_only, bank 0 and bank 4 in SCRATCH mode, g9 an address in page 0. -/
def mapped : State :=
  let s := withThread fun x => { x with g := (x.g.set 9 0x2000).set 10 0x77 }
  { s with clusters := [(0, { s.cluster 0 with tlb := [⟨0, 0, 16, 3⟩, ⟨0, 1, 16, 0x10007⟩] })] }.setAt (.core 0) { s.at' (.core 0) with
    utlb := [⟨0, 0, 16, 3⟩, ⟨0, 1, 16, 0x10007⟩], banks := ((s.at' (.core 0)).banks.set 0 .scratch).set 4 .scratch }

/-- A boundary access of each clause: the last eight bytes below 0x14000, of bank 0 and of bank 4; the same places through
the window of core 4,095; the first address past the address space; the hole; a bank not in SCRATCH mode; past the banks; an
unaligned one. No address falls under two of them. -/
theorem witness_AccessChecks_checks :
    mapped.cur = ⟨.core 0, 0⟩ ∧ mapped.coreLive 4095 = true ∧ mapped.coreLive 0 = true ∧
    ((0x00E0000000013FF8 : Word).toNat = 0x00E0000000000000 + 0x13FF8 ∧ 0x13FF8 + 8 ≤ 0x14000) ∧
    ((mapped.at' (.core 0)).banks[(0 : Fin 5)] = .scratch ∧ (mapped.at' (.core 0)).banks[(4 : Fin 5)] = .scratch ∧
      (0x00E000000006FFF8 : Word).toNat = 0x00E0000000000000 + 0x6FFF8 ∧ 0x20000 + 4 * 0x10000 ≤ 0x6FFF8 ∧
      0x6FFF8 + 8 ≤ 0x30000 + 4 * 0x10000 ∧ 0x6FFF8 % 8 = 0) ∧
    ((0x00F00000FFF13FF8 : Word).toNat = 0x00F0000000000000 + 4095 * 0x100000 + 0x13FF8) ∧
    0x0100000000000000 ≤ (0x0100000000000000 : Word).toNat ∧
    ((0x00E0000000014000 : Word).toNat = 0x00E0000000000000 + 0x14000) ∧
    ((mapped.at' (.core 0)).banks[(1 : Fin 5)] ≠ .scratch ∧
      (0x00E0000000030000 : Word).toNat = 0x00E0000000000000 + 0x20000 + 1 * 0x10000 + 0) ∧
    (0x00E0000000070000 ≤ (0x00E0000000070000 : Word).toNat ∧ (0x00E0000000070000 : Word).toNat < 0x00F0000000000000) ∧
    ({ mapped with deadClusters := [1] }.coreLive 4 = false) ∧
    ((0x00DFFFFFFFFFFFF7 : Word).toNat + 8 ≤ 0x00E0000000000000 ∧ (0x00DFFFFFFFFFFFF7 : Word).toNat % 8 ≠ 0) := by
  decide +kernel

theorem witness_AccessChecks_translation :
    (0xFFF8 % 65536 + 8 ≤ 65536 ∧ 0xFFF8 + 8 ≤ 0x00E0000000000000) ∧
    tlbFind (mapped.at' mapped.cur.pl).utlb ((mapped.rootOf mapped.cur).setWidth 8) 0xFFF8 = some ⟨0, 0, 16, 3⟩ ∧
    tlbFind (mapped.at' mapped.cur.pl).utlb ((mapped.rootOf mapped.cur).setWidth 8) 0x10000 = some ⟨0, 1, 16, 0x10007⟩ ∧
    (3 : Word).getLsbD 2 = false ∧ (0x10007 : Word).getLsbD 2 = true ∧
    (mapped.homeOf ⟨0xFFF8, .dev 0xFFF8, 3, 16⟩).isSome = true ∧
    tlbFind (mapped.at' mapped.cur.pl).utlb ((mapped.rootOf mapped.cur).setWidth 8) 0x20000 = none ∧
    tlbFind (mapped.cluster (clusterOf mapped.cur.pl)).tlb ((mapped.rootOf mapped.cur).setWidth 8) 0x20000 = none ∧
    (∀ w, mapped.me.walkWait ≠ some ⟨0, 2, some w⟩) ∧ (mapped.cluster (clusterOf mapped.cur.pl)).walks.length < 64 := by
  refine ⟨by decide, by decide +kernel, by decide +kernel, by decide, by decide, by decide +kernel, by decide +kernel, by decide +kernel,
    fun w h => ?_, by decide +kernel⟩
  exact absurd (h : (none : Option WalkWait) = _) nofun

theorem witness_AccessChecks_walk_failed :
    (let s := withThread fun x => { x with walkWait := some ⟨0, 2, some (1, 1)⟩ }
     s.me.walkWait = some ⟨0, 2, some (1, 1)⟩ ∧ (s.rootOf s.cur).setWidth 8 = (0 : BitVec 8) ∧
     (0x20000 : Word).toNat / 65536 = 2) := by decide +kernel

/-- Table words of every kind, each where a walk of the address 0 or of one beyond it reads it. -/
def tables : State := { base with
  mem := [(0, 1), (1, 0x10), (0x1000, 1), (0x1001, 0x20), (0x1008, 3), (0x2000, 1), (0x2001, 0x30), (0x2008, 3), (0x3000, 3),
    (0x3008, 1)] }

theorem witness_WalksAndHomes_walk :
    tables.poison = [] ∧ Memory.readNat tables.mem 0 8 = 0x1001 ∧ Memory.readNat tables.mem 0x1000 8 = 0x2001 ∧
    Memory.readNat tables.mem 0x2000 8 = 0x3001 ∧ Memory.readNat tables.mem 0x3000 8 = 3 ∧
    Memory.readNat tables.mem 0x1008 8 = 3 ∧ Memory.readNat tables.mem 8 8 = 0 := by decide +kernel

/-- R83: a walk of page 0 finds the fourth-level leaf, of 2^30 the second-level one, of 2^43 an invalid entry at level 0. -/
theorem test_walk :
    walk tables 0 0 = .leaf 3 16 ∧ walk tables 0 0x40000000 = .leaf 3 30 ∧ walk tables 0 0x200000 = .leaf 3 21 ∧
    walk tables 0 0x80000000000 = .fail 0 1 ∧ walk tables 0 0x10000 = .fail 3 3 := by decide +kernel

/-- Homes with slices 5 and 1023 dead: a live place, a dead one whose neighbour is live, the last one. -/
theorem witness_WalksAndHomes_homes :
    [5, 1023].Pairwise (· < ·) ∧ (∀ d ∈ [5, 1023], d < 1024) ∧ rectOk 0 = true ∧
    (List.range 1024).filter (fun n => !([5, 1023].contains n)) ≠ [] ∧
    (32 * 0 + 5 : Nat) ∉ (List.range 1024).filter (fun n => !([5, 1023].contains n)) ∧
    (32 * 31 + 31 : Nat) ∉ (List.range 1024).filter (fun n => !([5, 1023].contains n)) ∧
    1022 ∈ (List.range 1024).filter (fun n => !([5, 1023].contains n)) := by decide +kernel

theorem test_homes :
    { base with deadSlices := [5, 1023] }.homeBy 0 0 (128 * 5) 0 = some 6 ∧
    { base with deadSlices := [5, 1023] }.homeBy 2 5 0 0 = some 6 ∧
    { base with deadSlices := [5, 1023] }.homeBy 2 0x3FF 0 0 = some 1022 ∧
    { base with deadSlices := [5, 1023] }.homeBy 2 5 0 512 = some 6 := by decide +kernel

theorem witness_LoadResultsAndSources_ld :
    ∃ bs, Ready (.dst (plain 4) :: adUses ⟨5, 0, 0, 8⟩) mapped mapped ∧ Passes accessGate mapped ∧
      Reaches true false (mapped.address ⟨5, 0, 0, 8⟩) 8 1 mapped bs mapped := ⟨_, rfl, rfl, rfl⟩

/-- A load of the own local store, whose bytes are fixed; one of page 0, whose bytes are at their home. -/
theorem witness_LoadResultsAndSources_sources :
    met (after (reach true false 0xE0000000000008 8 1) mapped) (fun r => mapped.fixedLoad true r.1 &&
      mapped.srcs true true r.1 == (List.replicate 8 0).map .val) = true ∧
    met (after (reach true false 0x2000 8 1) mapped) (fun r => !(mapped.fixedLoad true r.1) && decide (mapped.me.pend.length < 8) &&
      (mapped.srcs true true r.1).contains (.at (.dev 0x2000) (.slice 64) true)) = true ∧
    mapped.usesL1 mapped.cur.pl = true ∧ l1Find (mapped.at' mapped.cur.pl) 64 = none := by decide +kernel

theorem witness_LoadResultsAndSources_lda :
    ∃ bs t, Ready (.dst (plain 4) :: adUses ⟨9, 0, 0, 0⟩) mapped mapped ∧
      Reaches false false (mapped.address ⟨9, 0, 0, 0⟩) 8 8 mapped bs mapped ∧ Does (acquire 4) mapped t :=
  ⟨_, _, rfl, rfl, rfl⟩

/-- Bytes of the own local store come back sign-extended; LDA of page 0 leaves its register pending. -/
theorem test_loads :
    (let s := { base with cores := [(0, { (base.at' (.core 0)) with ls := [(8, 0xFE), (9, 0xFF)] })] }
     reg (.ld ⟨4, ⟨5, 0, 0, 8⟩, 1, true⟩) s 4 = 0xFFFFFFFFFFFFFFFE ∧ reg (.ld ⟨4, ⟨5, 0, 0, 8⟩, 1, false⟩) s 4 = 0xFFFE) ∧
    (got (exec (.lda ⟨4, ⟨9, 0, 0, 0⟩, 3, false⟩ 4) mapped)).me.pend = [.g 4] ∧
    (got (exec (.lda ⟨4, ⟨9, 0, 0, 4⟩, 3, false⟩ 4) mapped)).me.tcause.extractLsb' 0 16 = 5 := by decide +kernel

/-- A load, a vector load, a fill, a result and a remote load of slot 0, each on its way to it, in a cycle of slot 1. -/
def onTheWay (b : FBody) (dst : Place) : State := { withThread fun x => { x with pend := [.g 4, .f 4] } with
  cyc := 9, flights := [⟨7, 1, .core 0, dst, some ⟨.core 0, 0⟩, b, [], 0⟩], nextId := 8, subj := 7 }

/-- The eight bytes at 0 of device memory, whose home is slice 0. -/
def eightBytes : List BSrc := (List.range 8).map fun j => .at (.dev j) (.slice 0) true

/-- A load behind an older request of its core to the same home. -/
def overtaking : State :=
  let s := onTheWay (.load 4 8 false eightBytes [] 0) (.slice 0)
  { s with flights := ⟨5, 1, .core 0, .slice 0, some ⟨.core 0, 3⟩, .write [(.dev 0, 1, 0xFF)] none none true, [], 0⟩ :: s.flights }

theorem witness_ResultArrivals :
    (let b := FBody.load 4 8 false eightBytes [] 0
     let s := onTheWay b (.slice 0)
     met (s.flight? s.subj) (fun f => f.sid == some ⟨.core 0, 0⟩ && f.body == b && s.first f && s.turnPast ⟨.core 0, 0⟩ && f.homes.all s.portFree &&
       (s.useLines (srcLines eightBytes)).isSome && !(s.srcPoison eightBytes)) = true ∧
     met (overtaking.flight? overtaking.subj) (fun f => f.body == b && !(overtaking.first f)) = true) ∧
    (let s := onTheWay (.vload 4 eightBytes 1 none []) (.slice 0)
     met (s.flight? 7) (fun f => f.body == .vload 4 eightBytes 1 none [] && !(s.srcPoison eightBytes) &&
        ((s.loadArrives f eightBytes []).bind (fun u => u.warmLoad (some ⟨.core 0, 0⟩) 4)).isSome)) = true ∧
    (let s := onTheWay (.fill 3 0 false) (.slice 0)
     met (s.flight? 7) (fun f => f.body == .fill 3 0 false && s.first f && (s.useLines [(0, 3, false)]).isSome && s.usesL1 f.src &&
       !((s.at' f.src).l1Busy) && !(s.poison.contains 3))) = true ∧
    (let s := onTheWay (.result 4 9 0 0 false) (.core 0)
     met (s.flight? 7) (fun f => f.body == .result 4 9 0 0 false && s.first f && s.turnPast ⟨.core 0, 0⟩)) = true ∧
    (let s := onTheWay (.reqLoad 4 8 false [.at (.ls 1 0) (.core 1) false] 0) (.core 1)
     met (s.flight? 7) (fun f => s.first f && s.portFree f.dst && ((s.dropFlight 7).useLines (srcLines [.at (.ls 1 0) (.core 1) false])).isSome)) = true
    := by decide +kernel

/-- R91: the load behind an older write of its core waits for it. -/
theorem test_no_overtaking : exec .variableResultArrival overtaking = .next overtaking := by rfl

theorem test_result_arrives :
    (let t := got (exec .variableResultArrival (onTheWay (.result 4 9 0 0 false) (.core 0)))
     t.me.gr 4 = 9 ∧ t.me.pend = [.f 4] ∧ t.flights = []) := by decide +kernel

theorem witness_StoreResultsAndEffects :
    (∃ bs, Ready (.src (plain 10) :: adUses ⟨9, 0, 0, 0⟩) mapped mapped ∧ Passes accessGate mapped ∧
      Reaches false true (mapped.address ⟨9, 0, 0, 0⟩) 8 1 mapped bs mapped ∧ Reads (plain 10) mapped 0x77 mapped) ∧
    (∃ bs t, Reaches false true (mapped.address ⟨9, 0, 0, 0⟩) 8 8 mapped bs mapped ∧ Does (release 4) mapped t ∧
      Reads (plain 10) t 0x77 t) ∧
    (∃ bs, Ready (.src (plain 10) :: .dst (plain 10) :: adUses ⟨9, 0, 0, 0⟩) mapped mapped ∧
      Checked 0 true (mapped.address ⟨9, 0, 0, 0⟩) 8 8 mapped bs mapped ∧ bs.any noSequence = false ∧
      Passes (cfgGate false bs) mapped ∧ mapped.me.pend.length < 8) ∧
    (∃ bs, Checked 0 true (mapped.address ⟨5, 0, 0, 0⟩) 8 8 mapped bs mapped ∧ bs.any noSequence = true) :=
  ⟨⟨_, rfl, rfl, rfl, rfl⟩, ⟨_, _, rfl, rfl, rfl⟩, ⟨_, rfl, rfl, by decide +kernel, rfl, by decide +kernel⟩,
    ⟨_, rfl, by decide +kernel⟩⟩

theorem witness_StoreResultsAndEffects_effects :
    mapped.cur.pl = .core 0 ∧ mapped.usesL1 mapped.cur.pl = true ∧ 0x2000 % 128 + 8 ≤ 128 ∧
    (∀ j, j < 8 → (mapped.homeOf ⟨0x2000 + j, .dev (0x2000 + j), 3, 16⟩).isSome = true) ∧
    mapped.homeOf ⟨0x2000, .dev 0x2000, 3, 16⟩ = some (.slice 64) := by decide +kernel

/-- R67, R268: a store to the own local store is there at once; a posted one to device memory is on its way. -/
theorem test_stores :
    ((got (exec (.st 10 ⟨5, 0, 0, 16⟩ 0) mapped)).byteAt (.ls 0 16) = 0x77) ∧
    (let t := got (exec (.stl 10 ⟨9, 0, 0, 0⟩ 0 4) mapped)
     t.byteAt (.dev 0x2000) = 0 ∧ t.flights.map (fun f => f.body) = [.write [(.dev 0x2000, 0x77, 0xFF)] none none true] ∧
     (got (exec .writePerformedAtHome { t with subj := (t.flights.map (fun f => f.id)).headD 0 })).byteAt (.dev 0x2000) =
       0x77) := by decide +kernel

/-- Two bytes of line 3 on their way to slice 3, a tagged write. -/
def writing : State := onTheWay (.write [(.dev 0x180, 1, 0xFF), (.dev 0x181, 0xFF, 0x0F)] (some 4) none true) (.slice 3)

theorem witness_WritesPerformedAtHome :
    met (writing.flight? writing.subj) (fun f => f.dst == .slice 3 && writing.writable f &&
      f.body == .write [(.dev 0x180, 1, 0xFF), (.dev 0x181, 0xFF, 0x0F)] (some 4) none true) = true ∧
    writing.hostHeld [.dev 0x180, .dev 0x181] = [] ∧ (tabGet [] writing.l2 3).length < 16 ∧
    ([.dev 0x180, .dev 0x181] : List Loc).Nodup ∧ 0x180 = 128 * 3 + 0 ∧ 0x181 = 128 * 3 + 1 ∧
    (let s := onTheWay (.write [(.host 0x180, 1, 0xFF)] none none false) (.slice 3)
     met (s.flight? s.subj) (fun f => s.writable f && f.body == .write [(.host 0x180, 1, 0xFF)] none none false) = true ∧
     s.hostHeld [.host 0x180] = []) := by decide +kernel

theorem test_write_masks :
    (let t := got (exec .writePerformedAtHome writing)
     t.byteAt (.dev 0x180) = 1 ∧ t.byteAt (.dev 0x181) = 0x0F ∧ t.seqOf 3 3 false = 1) := by decide +kernel

-- releases, atomics, migration

/-- A dirty line 64, whose home is slice 64, in core 0's L1. -/
def dirtied : State := got (exec (.st 10 ⟨9, 0, 0, 0⟩ 0) mapped)

theorem witness_ReleaseAndAcquire :
    (0 : Nat) < 2 ∧ (∃ t, Does (release 4) mapped t) ∧ mapped.me.relDone = false ∧ (mapped.at' mapped.cur.pl).l1Busy = false ∧
    (mapped.at' mapped.cur.pl).l1 = [] ∧ mapped.storesOut mapped.cur (mapped.covers mapped.cur 4) = false ∧
    (let s := got (exec (.stl 10 ⟨9, 0, 0, 0⟩ 0 4) mapped)
     s.storesOut s.cur (s.covers s.cur 4) = true ∧ (s.at' s.cur.pl).l1Busy = false ∧ s.me.relDone = false ∧
     (s.at' s.cur.pl).l1 = []) :=
  ⟨by decide, ⟨_, rfl⟩, rfl, by decide +kernel, by decide +kernel, by decide +kernel, by decide +kernel⟩

/-- R96: a release of dirty bytes sends them and holds the thread; the line's home then holds them. -/
theorem test_release :
    (dirtied.at' (.core 0)).l1.map (fun ln => (ln.line, ln.home, ln.dirty)) = [(64, 64, 1)] ∧
    (let t := got (run (release 4) dirtied)
     t.me.hold = .held ∧ t.flights.map (fun f => f.body) = [.write [(.dev 0x2000, 0x77, 0xFF)] none none true]) := by
  decide +kernel

theorem witness_LocalAtomicCacheFenceAndResidencyResults_lsrmw :
    mapped.cur.pl = .core 0 ∧ Ready [.dst (plain 4), .src (plain 5), .src (plain 2)] mapped mapped ∧
    Passes accessGate mapped ∧ Reads (plain 5) mapped 0xE0000000000000 mapped ∧ Reads (plain 2) mapped 3 mapped ∧
    (∀ j, j < 8 → apertureByte mapped (0xE0000000000000 + j) = some (.ls 0 (0 + j))) ∧
    (0xE0000000000000 : Word).toNat % 8 = 0 ∧ (0xE0000000000004 : Word).toNat % 8 ≠ 0 ∧
    Passes (cfgGate false [⟨0xE0000000000000, .ls 0 0, 0, 0⟩]) mapped :=
  ⟨rfl, rfl, rfl, rfl, rfl, by decide +kernel, by decide, by decide, rfl⟩

theorem test_lsrmw :
    (let s := { base with cores := [(0, { (base.at' (.core 0)) with ls := [(0, 0xFF), (1, 0xFF)] })] }
     let t := got (exec (.lsrmw 4 5 2 0 false 0) s)
     t.me.gr 4 = 0xFFFF ∧ t.byteAt (.ls 0 0) = 2 ∧ t.byteAt (.ls 0 2) = 1) := by decide +kernel

theorem witness_LocalAtomicCacheFenceAndResidencyResults_cache :
    Ready (adUses ⟨9, 0, 0, 0⟩) mapped mapped ∧ (mapped.at' mapped.cur.pl).l1Busy = false ∧
    met (mapped.quietByte (mapped.address ⟨9, 0, 0, 0⟩)) (fun b => b.loc == .dev 0x2000 &&
      mapped.homeOf b == some (.slice 64)) = true ∧
    (let s := withThread fun x => { x with g := x.g.set 1 0xDFFFFFFFFFFFFF }
     Ready (adUses ⟨1, 0, 0, 0⟩) s s ∧ (s.address ⟨1, 0, 0, 0⟩).toNat < 0x00E0000000000000 ∧
     s.quietByte (s.address ⟨1, 0, 0, 0⟩) = none) ∧
    (let s := withThread fun x => { x with g := x.g.set 1 0x0100000000000000 }
     Ready (adUses ⟨1, 0, 0, 0⟩) s s ∧ 0x0100000000000000 ≤ (s.address ⟨1, 0, 0, 0⟩).toNat) :=
  ⟨rfl, by decide +kernel, by decide +kernel, ⟨rfl, by decide +kernel, by decide +kernel⟩, ⟨rfl, by decide +kernel⟩⟩

theorem witness_LocalAtomicCacheFenceAndResidencyResults_fences :
    (∃ t, Does (acquire 4) mapped t) ∧ (∃ t u, Does (release 4) mapped t ∧ Does (acquire 4) t u) ∧
    mapped.storesOut mapped.cur (fun _ => true) = false ∧
    (let s := got (exec (.stl 10 ⟨9, 0, 0, 0⟩ 0 4) mapped)
     s.storesOut s.cur (fun _ => true) = true) :=
  ⟨⟨_, rfl⟩, ⟨_, _, rfl, rfl⟩, by decide +kernel, by decide +kernel⟩

/-- RESIDE with nothing resident and with the block resident already; UNPIN of the block's address. -/
theorem witness_LocalAtomicCacheFenceAndResidencyResults_residency :
    (∃ b, Ready (adUses ⟨9, 0, 0, 0⟩) mapped mapped ∧
      Checked 0 false (mapped.address ⟨9, 0, 0, 0⟩) 1 1 mapped [b] mapped ∧ b.loc = .dev 0x2000) ∧
    mapped.me.reside.length < 4 ∧ mapped.me.reside = [] ∧
    ((mapped.at' (.core 0)).freeRes mapped.cyc).isSome = true ∧ mapped.flights = [] ∧
    (let s := got (exec (.stl 10 ⟨9, 0, 0, 8⟩ 0 4) mapped)
     s.writePending (.core 0) (.dev (0x2000 + 8)) = true) ∧
    (let s := mapped.updMe fun x => { x with reside := [2] }
     let s := s.setAt (.core 0) { s.at' (.core 0) with res := [(2, ⟨true, true, 0x2000, 4096, [], none, []⟩)] }
     (s.me.reside.contains 2 && (tabGet resReset (s.at' (.core 0)).res 2).va == 0x2000) = true) ∧
    (apertureByte mapped 0xE0000000000000).isSome = true :=
  ⟨⟨_, rfl, rfl, rfl⟩, by decide +kernel, by decide +kernel, by decide +kernel, by decide +kernel, by decide +kernel⟩

theorem witness_AtomicsAtHome :
    locLine (.dev 0x180) = some (3, false) ∧ (tabGet [] base.l2 3).length < 16 ∧
    opResult (w := 64) 0 0xFFFFFFFFFFFFFFFF 1 0 ∧ opResult (w := 64) 5 0xFFFFFFFFFFFFFFFF 1 1 ∧
    opResult (w := 32) 7 0xFFFFFFFF 1 0xFFFFFFFF ∧ opResult (w := 32) 8 3 9 9 ∧
    (0x500000009 : Word).setWidth 32 = (9 : BitVec 32) ∧
    Fmt.fp64.val 0xFFF8000000000001 = .nan := by
  refine ⟨by decide, by decide +kernel, ?_, ?_, ?_, ?_, by decide, by decide +kernel⟩ <;> (unfold opResult; decide)

/-- The thread in slot 0 of slice 64's core, with page 0 translated there: g9 = 0x2000, whose home it is. -/
def onSlice : State := { base with
  slices := [(64, { coreReset with
    slots := [(0, { mapped.me with placement := 0, origin := 0 })], utlb := [⟨0, 0, 16, 3⟩] })],
  cur := ⟨.slice 64, 0⟩ }

theorem witness_AtomicResults_at_home :
    (∃ bs b t u old q fl, Ready ([.dst (gf 1), .dst (gf 2)] ++ [.src (plain 9), .src (plain 10)]) onSlice onSlice ∧
      Passes accessGate onSlice ∧ Reads (plain 9) onSlice 0x2000 onSlice ∧ Checked 0 true 0x2000 8 8 onSlice (b :: bs) onSlice ∧
      onSlice.homeFirst (b :: bs) = onSlice.cur.pl ∧ onSlice.portBusy onSlice.cur = false ∧
      Does (release 0) onSlice onSlice ∧ onSlice.atomicAt 64 b.loc (.amo 0 true 0x77) = some (t, old, q, fl) ∧
      Does (acquire 0) t u) :=
  ⟨_, _, _, _, _, _, _, rfl, rfl, rfl, rfl, rfl, rfl, rfl, rfl, rfl⟩

theorem witness_AtomicResults_elsewhere :
    (∃ bs b, Ready ([.dst (gf 1), .dst (gf 2)] ++ [.src (plain 9), .src (plain 10)]) mapped mapped ∧
      Checked 0 true 0x2000 8 8 mapped (b :: bs) mapped ∧ (b :: bs).any noSequence = false ∧
      mapped.homeFirst (b :: bs) ≠ mapped.cur.pl ∧ mapped.pinned mapped.cur = false) ∧
    (∃ bs b, Checked 0 true 0xE0000000000000 8 8 mapped (b :: bs) mapped ∧ (b :: bs).any noSequence = true) ∧
    (let s := mapped.setAt (.core 0) { mapped.at' (.core 0) with acc := (mapped.at' (.core 0)).acc.set 0 { accReset with owner := some 0 } }
     s.pinned s.cur = true ∧ s.me.pend.length + 2 ≤ 8 ∧ (s.at' s.cur.pl).l1Busy = false) := by
  refine ⟨⟨_, _, rfl, rfl, ?_, ?_, ?_⟩, ⟨_, _, rfl, ?_⟩, ?_⟩ <;> decide +kernel

/-- R277: a fetch-add at the home gives the old value and the line's number, which rose by one. -/
theorem test_amo :
    (let t := got (exec (.amo 0 ⟨1, 9, 10, true, 0, 0⟩) { onSlice with mem := [(0x2000, 0x11)] })
     t.me.gr 1 = 0x11 ∧ t.me.gr 2 = 1 ∧ t.byteAt (.dev 0x2000) = 0x88 ∧ t.me.pc = 0x1008) ∧
    (let t := got (exec (.cas ⟨1, 9, 10, true, 0, 0⟩) { onSlice with mem := [(0x2000, 0x11)] })
     t.me.gr 1 = 0x11 ∧ t.me.gr 2 = 1 ∧ t.byteAt (.dev 0x2000) = 0x11) := by decide +kernel

theorem witness_AtomicResults_requests :
    (let b := FBody.reqAtomic 1 (.dev 0x2000) (.amo 0 true 5) 0
     met ((onTheWay b (.slice 64)).flight? 7) (fun f => f.body == b && (onTheWay b (.slice 64)).writable f) = true ∧
     (onTheWay b (.slice 64)).hostHeld [.dev 0x2000] = [] ∧
     ((onTheWay b (.slice 64)).atomicAt (clusterOf (.slice 64)) (.dev 0x2000) (.amo 0 true 5)).isSome = true) ∧
    (let b := FBody.red (.dev 0x2000) 0 true 5
     met ((onTheWay b (.slice 64)).flight? 7) (fun f => f.body == b && (onTheWay b (.slice 64)).writable f) = true) := by
  decide +kernel

/-- g1 names core 3 here, and g2 an address whose home is slice 64. -/
def movers : State := mapped.updMe fun x => { x with g := ((x.g.set 1 3).set 2 0x2000).set 3 0x0100000000000000 }

theorem witness_MigrationByInstruction :
    Ready [.src (plain 1)] movers movers ∧ Reads (plain 1) movers 3 movers ∧ movers.pinned movers.cur = false ∧
    (3 / 4 ∉ movers.deadClusters) ∧ (3 / 4 ∈ { movers with deadClusters := [0] }.deadClusters) ∧
    (0x2000 : Word).toNat < 0x00E0000000000000 ∧
    met (movers.quietByte 0x2000) (fun b => movers.homeOf b == some (.slice 64)) = true ∧
    movers.quietByte 0x40000 = none ∧
    ((0x00F00000FFF13FFF : Word).toNat = 0x00F0000000000000 + 4095 * 0x100000 + 0x13FFF) ∧
    0x0100000000000000 ≤ (0x0100000000000000 : Word).toNat ∧
    (∃ b, Ready [.dst (plain 4), .src (plain 2)] movers movers ∧ Reads (plain 2) movers 0x2000 movers ∧
      Checked 0 false 0x2000 1 1 movers [b] movers ∧ clusterOf movers.cur.pl = 32 * 0 + 0 ∧ 64 = 32 * 2 + 0) :=
  ⟨rfl, rfl, by decide +kernel, by decide, by decide, by decide, by decide +kernel, by decide +kernel, by decide, by decide,
    _, rfl, rfl, rfl, by decide, by decide⟩

/-- R283: slice 64 is two links down from cluster 0, and one more to its slice core; modulo class. -/
theorem test_home_and_goto :
    reg (.home 4 2 0) movers 4 = 0x30040 ∧
    (got (exec (.goto 1) movers)).me.hold = .depart (.core 3) true none ∧
    (got (exec (.gotoHome 2) movers)).me.hold = .depart (.slice 64) true none := by decide +kernel

-- vectors

/-- A vector with the given lanes of w bits, lowest first, zero above. -/
def lanes (w : Nat) (l : List Nat) : Vec := BitVec.ofNat 512 (l.foldr (fun c r => c % 2 ^ w + 2 ^ w * r) 0)

/-- f1 holds 1 to 16 in 32-bit lanes, f2 the least integer in each, f3 the f32 values 1, 2 and -0; g3 is a mask of lanes 0 and 2,
g4 a zero mask; the budget allows the charge. -/
def vecs : State :=
  let s := withThread fun x => { x with
    budget := 1000,
    f := ((x.f.set 1 (lanes 32 [1, 2, 3, 4, 5, 6, 7, 8, 9, 10, 11, 12, 13, 14, 15, 16])).set 2
      (lanes 32 (List.replicate 16 0x80000000))).set 3 (lanes 32 [0x3F800000, 0x40000000, 0x80000000]),
    g := (x.g.set 3 5).set 7 0x2000 }
  { s with clusters := [(0, { s.cluster 0 with tlb := [⟨0, 0, 16, 3⟩] })] }.setAt (.core 0)
    { s.at' (.core 0) with refill := 1000, utlb := [⟨0, 0, 16, 3⟩] }

/-- Lane j of a vector register of the thread, in lanes of w bits. -/
def laneOf (w : Nat) (s : State) (k : Fin 32) (j : Nat) : Nat := s.me.f[k].toNat / 2 ^ (w * j) % 2 ^ w

theorem witness_IntegerLaneResults :
    ∃ vs t, Issues 0x80 [plain 1, plain 2] [plain 4] [.src (gf 3)]
        (8 + 3 * (((vecs.lanesOn 3 16).length * 32 + 31) / 32)) vecs vs t ∧ OldOf (plain 4) t 0 t := ⟨_, _, rfl, rfl⟩

theorem witness_IntegerLaneResults_three :
    ∃ vs t, Issues 0x83 [plain 1, plain 2, plain 4] [plain 4] [.src (gf 0)]
        (8 + 7 * (((vecs.lanesOn 0 16).length * 32 + 31) / 32)) vecs vs t := ⟨_, _, rfl⟩

/-- R293, R295: under the mask only lanes 0 and 2 change; |least| and -least are the least; min signed and unsigned. -/
theorem test_integer_lanes :
    (let t := got (exec (.vadd ⟨plain 4, plain 1, plain 1, 3, 1, false⟩) vecs)
     laneOf 32 t 4 0 = 2 ∧ laneOf 32 t 4 1 = 0 ∧ laneOf 32 t 4 2 = 6 ∧ laneOf 32 t 4 3 = 0) ∧
    laneOf 32 (got (exec (.vabs ⟨plain 4, plain 2, 0, 1, false⟩) vecs)) 4 15 = 0x80000000 ∧
    laneOf 32 (got (exec (.vmin ⟨plain 4, plain 1, plain 2, 0, 1, true⟩) vecs)) 4 15 = 16 ∧
    laneOf 32 (got (exec (.vmin ⟨plain 4, plain 1, plain 2, 0, 1, false⟩) vecs)) 4 15 = 0x80000000 ∧
    laneOf 32 (got (exec (.vsel ⟨plain 4, plain 1, plain 2, 3, 1, false⟩) vecs)) 4 1 = 0x80000000 := by decide +kernel

theorem witness_FloatLaneResults :
    (∃ vs t, Issues 0x80 [plain 3, plain 3] [plain 4] [.src (gf 3)]
      (8 + 5 * (((vecs.lanesOn 3 16).length * 32 + 31) / 32)) vecs vs t ∧ OldOf (plain 4) t 0 t) ∧
    (∃ vs t, Issues 0x8A [plain 3] [plain 4] [.src (gf 3)]
      (8 + 14 * (((vecs.lanesOn 3 16).length * 32 + 31) / 32)) vecs vs t ∧ OldOf (plain 4) t 0 t) ∧
    (4 : Nat) ≤ (5 : BitVec 3).toNat := ⟨⟨_, _, rfl, rfl⟩, ⟨_, _, rfl, rfl⟩, by decide⟩

/-- 1 + 1 = 2, -0 + -0 = -0; the reciprocal of 2 is 0.5, of -0 minus infinity with divide-by-zero. -/
theorem test_float_lanes :
    (let t := got (exec (.vadd ⟨plain 4, plain 3, plain 3, 3, 5, false⟩) vecs)
     laneOf 32 t 4 0 = 0x40000000 ∧ laneOf 32 t 4 2 = 0x80000000) ∧
    (let t := got (exec (.vrcp ⟨plain 4, plain 3, 0, 5, false⟩) vecs)
     laneOf 32 t 4 1 = 0x3F000000 ∧ laneOf 32 t 4 2 = 0xFF800000 ∧ t.me.status &&& 0x1F = 2) := by decide +kernel

theorem witness_LaneMovementResults :
    (∃ vs t, Issues 0x8E [plain 3] [plain 4] [.src (gf 3)]
      (8 + 5 * (((vecs.lanesOn 3 16).length * 32 + 31) / 32)) vecs vs t ∧ OldOf (plain 4) t 0 t) ∧
    (∃ vs t, Issues 0x97 [plain 1] [plain 4] [.src (gf 3)]
      (8 + 6 * (((vecs.lanesOn 3 16).length * 32 + 31) / 32)) vecs vs t ∧ OldOf (plain 4) t 0 t) ∧
    (∃ vs t, Issues 0x99 [] [plain 4] [.src (gf 3), .src (plain 1)]
      (8 + 2 * (((vecs.lanesOn 3 16).length * 32 + 31) / 32)) vecs vs t ∧ OldOf (plain 4) t 0 t ∧ Reads (plain 1) t 5 t) ∧
    (∃ vs t, Issues 0x9C [plain 1] [plain 4] [.src (gf 3), .dst (gf 3), .pw]
      (8 + 2 * (((vecs.lanesOn 3 16).length * 32 + 31) / 32)) vecs vs t) ∧
    (∃ vs t, Issues 0x9E [plain 3] [plain 4] [.src (gf 3), .pw]
      (8 + 12 * (((vecs.lanesOn 3 16).length * 32 + 31) / 32)) vecs vs t) ∧
    (∃ vs t, Issues 0x9A [plain 1] [] [.dst (plain 4), .src (plain 1)] (8 + 2 * ((16 * 32 + 31) / 32)) vecs vs t ∧
      Reads (plain 1) t 5 t) ∧
    (∃ vs t, Issues 0x8F [plain 1, plain 2] [] [.dst (plain 4), .src (gf 3)]
      (8 + 3 * (((vecs.lanesOn 3 16).length * 32 + 31) / 32)) vecs vs t) ∧
    (∃ vs t, Issues 0x9B [plain 1, plain 2] [plain 4] [.src (gf 3)]
      (8 + 2 * (((vecs.lanesOn 3 16).length * 32 + 31) / 32)) vecs vs t ∧ OldOf (plain 4) t 0 t) ∧
    (∃ vs t, Issues 0xA5 [plain 3] [plain 4] [.src (gf 3)]
      (8 + 4 * (((vecs.lanesOn 3 16).length * 32 + 31) / 32)) vecs vs t ∧ OldOf (plain 4) t 0 t) ∧
    (fmtElem vecs.me.inFmt).isSome = true ∧ (fmtElem vecs.me.outFmt).isSome = true ∧ vecs.me.palSel < 2 :=
  ⟨⟨_, _, rfl, rfl⟩, ⟨_, _, rfl, rfl⟩, ⟨_, _, rfl, rfl, rfl⟩, ⟨_, _, rfl⟩, ⟨_, _, rfl⟩, ⟨_, _, rfl, rfl⟩, ⟨_, _, rfl⟩,
    ⟨_, _, rfl, rfl⟩, ⟨_, _, rfl, rfl⟩, by decide +kernel, by decide +kernel, by decide +kernel⟩

/-- A sum of 1 to 16 is 136, of the active lanes 0 and 2 it is 4; a scan; compress moves lanes 0 and 2 to the front and counts 2. -/
theorem test_lane_movement :
    laneOf 32 (got (exec (.vred ⟨plain 4, plain 1, 0, 1, false⟩ 0) vecs)) 4 0 = 136 ∧
    laneOf 32 (got (exec (.vred ⟨plain 4, plain 1, 3, 1, false⟩ 0) vecs)) 4 0 = 4 ∧
    laneOf 32 (got (exec (.vscan ⟨plain 4, plain 1, 0, 1, false⟩ 0) vecs)) 4 15 = 136 ∧
    (let t := got (exec (.vcompress ⟨plain 4, plain 1, 3, 1, false⟩ 2) vecs)
     laneOf 32 t 4 1 = 3 ∧ laneOf 32 t 4 2 = 0 ∧ t.me.gr 3 = 2 ∧ t.me.pred 2 = false) ∧
    reg (.vcmp ⟨plain 9, plain 1, plain 2, 0, 1, false⟩ 2) vecs 9 = 0 ∧
    reg (.vcmp ⟨plain 9, plain 1, plain 2, 0, 1, true⟩ 2) vecs 9 = 0xFFFF ∧
    reg (.vext ⟨plain 9, plain 2, plain 1⟩ 1) vecs 9 = 0xFFFFFFFF80000000 := by decide +kernel

-- vector memory, streams, the sequencer

theorem witness_VectorMemoryResults_vld :
    ∃ bs vs t, MayIssue 0x5A [] [plain 4] (adUses ⟨5, 0, 0, 64⟩) vecs vecs ∧ Passes accessGate vecs ∧
      Checked 0 false (vecs.address ⟨5, 0, 0, 64⟩) 64 8 vecs bs vecs ∧ Passes (cfgGate true bs) vecs ∧ vecs.me.pend.length < 8 ∧
      Takes 0x5A [] [plain 4] 24 vecs vs t := ⟨_, _, _, rfl, rfl, rfl, rfl, by decide +kernel, rfl⟩

/-- The bytes of the own local store are fixed at issue, those of page 0 are at their home. -/
theorem witness_VectorMemoryResults_sources :
    met (after (checkAccess 0 false 0xE0000000000040 64 8) vecs) (fun r =>
      vecs.srcs true true r.1 == (List.replicate 64 0).map .val) = true ∧
    met (after (checkAccess 0 false 0x2000 64 8) vecs) (fun r =>
      (vecs.srcs true true r.1).contains (.at (.dev 0x2000) (.slice 64) true)) = true := by decide +kernel

theorem witness_VectorMemoryResults_vst :
    ∃ bs vs t, MayIssue 0x5B [plain 1] [] (adUses ⟨5, 0, 0, 64⟩) vecs vecs ∧
      Checked 0 true (vecs.address ⟨5, 0, 0, 64⟩) 64 8 vecs bs vecs ∧ Takes 0x5B [plain 1] [] 24 vecs vs t :=
  ⟨_, _, _, rfl, rfl, rfl⟩

theorem witness_VectorMemoryResults_gather :
    (∃ vs t, MayIssue 0x5C [plain 1] [plain 4] [.src (plain 5), .src (gf 3)] vecs vecs ∧
      (vecs.at' vecs.cur.pl).cfg = none ∧ vecs.me.pend.length < 8 ∧
      Takes 0x5C [plain 1] [plain 4] (8 + 6 * (((vecs.lanesOn 3 16).length * 32 + 31) / 32)) vecs vs t ∧
      OldOf (plain 4) t 0 t ∧ Reads (plain 5) t 0xE0000000000000 t) ∧
    (∃ vs t, MayIssue 0x5D [plain 2, plain 1] [] [.src (plain 5), .src (gf 3)] vecs vecs ∧
      Takes 0x5D [plain 2, plain 1] [] (8 + 6 * (((vecs.lanesOn 3 16).length * 32 + 31) / 32)) vecs vs t ∧
      Reads (plain 5) t 0xE0000000000000 t) ∧
    (vecs.lanesOn 3 16).all (fun j => (vecs.quietAccess 0 false (0xE0000000000000 + BitVec.ofNat 64 (4 * (j + 1))) 4 4).toOption.isSome)
      = true :=
  ⟨⟨_, _, rfl, by decide +kernel, by decide +kernel, rfl, rfl, rfl⟩, ⟨_, _, rfl, rfl, rfl⟩, by decide +kernel⟩

/-- R274, R275: the local store's bytes come back in their lanes, lanes that the mask leaves off keep theirs; a scatter stores
lanes 0 and 2 of f2 at the indices 1 and 3 of f1. -/
theorem test_vector_memory :
    (let s := vecs.setAt (.core 0) { vecs.at' (.core 0) with ls := [(4, 7), (12, 9)] }
     laneOf 32 (got (exec (.vld 4 ⟨5, 0, 0, 0⟩) s)) 4 1 = 7 ∧
     (let t := got (exec (.vgath (plain 4) (plain 5) (plain 1) 3 1) s)
      laneOf 32 t 4 0 = 7 ∧ laneOf 32 t 4 1 = 0 ∧ laneOf 32 t 4 2 = 9)) ∧
    (let t := got (exec (.vscat (plain 2) (plain 5) (plain 1) 3 1) vecs)
     t.byteAt (.ls 0 7) = 0x80 ∧ t.byteAt (.ls 0 11) = 0 ∧ t.byteAt (.ls 0 15) = 0x80) := by decide +kernel

/-- The stream descriptor of R305's worked example in the own local store. -/
def described : State := vecs.setAt (.core 0) { vecs.at' (.core 0) with
  ls := [(1, 0x10), (8, 64), (17, 4), (32, 4), (36, 3), (40, 1)] }

/-- Bytes at an address of the own local store are read at once; so are bytes of page 0; a write to those on its way holds the
reader. -/
theorem witness_StreamAndSequencerResults_now :
    met (after (checkAccess 4 false 0xE0000000000000 64 64) described) (fun r =>
      (after (readNow r.1) r.2).isSome && r.1.all (fun b => !(described.writePending described.cur.pl b.loc))) = true ∧
    (let s := got (exec (.stl 10 ⟨9, 0, 0, 0⟩ 0 4) mapped)
     met (after (checkAccess 4 false 0x2000 64 64) s) (fun r => r.1.any (fun b => s.writePending s.cur.pl b.loc))) = true := by
  decide +kernel

theorem witness_StreamAndSequencerResults_scfg :
    ∃ bs, described.cur.pl = .core 0 ∧ described.me.seqr = none ∧ Ready [.src (plain 5)] described described ∧
      Passes accessGate described ∧ Reads (plain 5) described 0xE0000000000000 described ∧ 32 ≤ described.me.nalloc ∧
      Checked 4 false 0xE0000000000000 64 64 described bs described ∧ Passes (cfgGate true bs) described :=
  ⟨_, rfl, rfl, rfl, rfl, rfl, by decide +kernel, rfl, rfl⟩

/-- R305: vector 5 of the example's twelve is at 0x1440. -/
theorem test_scfg :
    met ((got (exec (.scfg 1 false 5 0) described)).me.streams[1]) (fun t => t.addr 5 == 0x1440 && t.total == 12 && !t.wr) = true ∧
    (⟨0, false, 0x1000, 64, 1024, 0, 4, 3, 1, 0, []⟩ : Stream).addr (1 + 4 * (1 + 3 * 0)) = 0x1440 := by decide +kernel

theorem witness_StreamAndSequencerResults_palw :
    (vecs.at' (.core 0)).bankLaunch = some vecs.me.launch ∧ (after (checkAccess 4 false 0xE0000000000000 512 64) vecs).isSome = true ∧
    palFault (List.replicate 128 0) false = some 1 ∧
    palFault ((List.range 128).map (fun j => 0x40000000 + j * 0x2000)) false = none ∧ (vecs.at' (.core 0)).running = none :=
  ⟨by decide +kernel, by decide +kernel, by decide +kernel, by decide +kernel, by decide +kernel⟩

/-- A read stream of four vectors on f29, its first vector half fetched, and code that adds it to f1. -/
def streaming : State :=
  let s := described.updMe fun x => { x with
    streams := x.streams.set 1 (some ⟨0xE0000000000000, false, 0xE0000000000000, 64, 0, 0, 4, 1, 1, 0, [⟨0, 4, 0, none⟩]⟩) }
  { s with mem := Memory.writeNat [] 0x1008 8 ((encode (.vadd ⟨plain 4, plain 29, plain 1, 0, 1, false⟩)).getD 0).toNat }

theorem witness_StreamAndSequencerResults_close :
    streaming.me.streams[0] = none ∧ streaming.me.streams[1] ≠ none ∧ streaming.me.seqr = none ∧
    streaming.cur.pl = .core 0 := by decide +kernel

theorem witness_StreamAndSequencerResults_vseq :
    met (after (([0x1008] : List Word).mapM fetchAt) streaming) (fun p =>
      p.1 == [(encode (.vadd ⟨plain 4, plain 29, plain 1, 0, 1, false⟩)).getD 0] &&
      (p.1.all fun w => met (decode w) (fun d => d.eb == 0 && (seqOp d.ins).isSome)) &&
      Fits [.pw, .src (plain 0x19), .src (gf 0)] p.2) = true ∧
    ([plain 4, plain 29, plain 1].filterMap (fun f => streaming.me.stream? (fldEff f streaming.me))).map
      (fun k => k.2.total - k.2.next) = [4] := by decide +kernel

theorem test_vseq :
    (let t := got (exec (.vseq 1) streaming)
     t.me.pc = 0x1010 ∧ met t.me.seqr (fun b => b.n == 4 && b.words.length == 1) = true) := by decide +kernel

/-- The same with the body in the sequencer and the stream's first vector there. -/
def sequencing : State :=
  (got (exec (.vseq 1) streaming)).updMe fun x => { x with
    streams := x.streams.set 1 (some ⟨0xE0000000000000, false, 0xE0000000000000, 64, 0, 0, 4, 1, 1, 0,
      [⟨0, 8, lanes 32 [100], none⟩]⟩) }

theorem witness_StreamAndSequencerResults_sequencer :
    met (sequencing.slotAt ⟨.core 0, 0⟩).seqr (fun b => b.pos == 0 && met (b.words[0]?) (fun p =>
      met (decode p.1) (fun d => d.gn == false && d.g == 0 && met (seqOp d.ins) (fun r =>
        (after (r.1 ⟨true, b.ix, b.gs, p.2.2, p.1, p.2.1, []⟩) sequencing).isSome)))) = true ∧
    sequencing.cyc % 8 = 0 ∧ (sequencing.slotAt ⟨.core 0, 0⟩).busy = true ∧
    (sequencing.slotAt ⟨.core 0, 0⟩).lastSeq ≠ some sequencing.cyc := by decide +kernel

theorem test_sequencer_issue :
    laneOf 32 (got (exec (.sequencerIssue 0 0) sequencing)) 4 0 = 101 := by decide +kernel

theorem witness_StreamAndSequencerResults_prefetch :
    met (streaming.slotAt ⟨.core 0, 0⟩).streams[1] (fun t => t.ahead == [⟨0, 4, 0, none⟩] && !t.wr &&
      (streaming.quietAccess 2 false (t.addr 0) 64 8).toOption.isSome) = true ∧
    (streaming.slotAt ⟨.core 0, 0⟩).busy = true ∧ (1 : Nat) < 4 := by decide +kernel

-- the matrix unit

/-- The thread owns accumulator 0; accumulator 1 is slot 3's. -/
def claimed : State := vecs.setAt (.core 0) { vecs.at' (.core 0) with
  acc := ((vecs.at' (.core 0)).acc.set 0 { accReset with owner := some 0 }).set 1 { accReset with owner := some 3 } }

theorem witness_MatrixResults_claims :
    claimed.cur.pl = .core 0 ∧ ((claimed.at' (.core 0)).acc[0]).owner = some claimed.cur.k ∧
    ((claimed.at' (.core 0)).acc[1]).owner ≠ some claimed.cur.k ∧ claimed.me.ringBusy = false ∧
    (claimed.at' (.core 0)).qlo ++ (claimed.at' (.core 0)).qhi = [] ∧
    ((vecs.at' (.core 0)).acc[0]).owner = none ∧ claimed.me.stage ≠ 1 := by decide +kernel

theorem witness_MatrixResults_operands :
    Ready [.src (plain 1)] claimed claimed ∧ Ready [.src (plain 5), .src (plain 5), .src (plain 3)] claimed claimed ∧
    Passes accessGate claimed ∧ Reads (plain 5) claimed 0xE0000000000000 claimed ∧ Reads (plain 3) claimed 5 claimed ∧
    Passes (trigCheck 0 0) claimed ∧ Ready [.dst (plain 4)] claimed claimed := ⟨rfl, rfl, rfl, rfl, rfl, rfl, rfl⟩

/-- An entry that is done, the oldest of slot 0 in the low queue. -/
def popping : State := claimed.setAt (.core 0) { claimed.at' (.core 0) with
  qlo := [⟨5, 0, 0, 0x2000, 0x2000, 0, 0, 0, false, false, 3, 1, false, some 0x42⟩] }

theorem witness_MatrixResults_pop :
    (((popping.at' (.core 0)).tq false).filter (fun e => e.slot == 0 && !e.mma)).map (fun e => e.done) = [some 0x42] ∧
    popping.me.ringBusy = false ∧ popping.me.pend.length < 8 := by decide +kernel

/-- R328: MMPOP takes the completion word and removes the entry; with none outstanding it gives 0. -/
theorem test_mmpop :
    reg (.mmpop false 4) popping 4 = 0x42 ∧ ((got (exec (.mmpop false 4) popping)).at' (.core 0)).qlo = [] ∧
    reg (.mmpop true 1) popping 1 = 0 := by decide +kernel

/-- The loads and stores of a tile whose record of zeros stands at g7; a record in the own local store is none. -/
theorem witness_MatrixResults_tile :
    Ready [.src (plain 7), .src (plain 0)] claimed claimed ∧ Reads (plain 7) claimed 0x2000 claimed ∧
    Reads (plain 0) claimed 0 claimed ∧ claimed.l2Free = true ∧
    ((claimed.loadTile 0x2000 0).toOption.isSome || (match claimed.loadTile 0x2000 0 with
      | .error _ => true
      | .ok _ => false)) = true ∧
    (claimed.loadTile 0xE0000000000000 0).toOption.isNone = true ∧
    claimed.linesPending claimed.cur.pl (claimed.moveLines true (claimed.at' claimed.cur.pl).acc[0] 0x2000 0) = false ∧
    claimed.linesPending claimed.cur.pl (claimed.moveLines false (claimed.at' claimed.cur.pl).acc[0] 0x2000 0) = false :=
  ⟨rfl, rfl, rfl, by decide +kernel, by decide +kernel, by decide +kernel, by decide +kernel, by decide +kernel⟩

/-- A queue of eight, and an accumulator that is another slot's. -/
theorem witness_MatrixResults_full :
    (let s := claimed.setAt (.core 0) { claimed.at' (.core 0) with
      qlo := (List.range 8).map fun k => ⟨k, 3, 1, 0x2000, 0x2000, 0, 0, 0, false, false, 3, 1, false, none⟩ }
     8 ≤ ((s.at' (.core 0)).tq false).length ∧ s.me.ringBusy = false) ∧
    ((claimed.at' (.core 0)).tq false).length < 8 ∧ ((claimed.at' (.core 0)).acc[1]).owner ≠ some claimed.cur.k := by decide +kernel

/-- A tile operation with no K tile, at the head of the low queue. -/
def queued : State := { claimed.setAt (.core 0) { claimed.at' (.core 0) with
  qlo := [⟨5, 0, 0, 0x2000, 0x2000, 0, 0, 0, false, false, 3, 1, false, none⟩] } with subj := 0 }

theorem witness_TileOperationResults_issue :
    (let t := queued.testHeads queued.subj
     (t.core' 0).running == none && met (t.core' 0).pickHead (fun p => p.1 == false && p.2.slot == 0 &&
       (let v : State := { t with cur := ⟨.core 0, p.2.slot⟩ }
        match v.tileOp p.2 ((t.core' 0).acc' p.2.acc) with
        | .ok o => !(v.linesPending (.core 0) (v.opLines p.2 (.ok o))) && ((v.useKeys (v.recordKeys p.2 ++ o.used)).bind (fun w => w.pinLines o.pins)).isSome
        | .error _ => false))) = true := by decide +kernel

/-- It runs and its time has come. -/
def finishing : State := queued.setAt (.core 0) { queued.at' (.core 0) with
  running := some ⟨false, 5, 8, 1, 0, [7], 4, none, [], [], none⟩ }

theorem witness_TileOperationResults_complete :
    met (finishing.core' finishing.subj).running (fun r => decide (r.endAt ≤ finishing.cyc) && r.late == none &&
      met (((finishing.core' finishing.subj).tq r.hi).find? (fun e => e.id == r.id)) (fun e => !e.mma && decide (e.acc < 4) &&
        (finishing.slotAt ⟨.core 0, e.slot⟩).mmpopWait == [])) = true := by decide +kernel

theorem test_tile_complete :
    (let t := got (exec .tileOpComplete finishing)
     ((t.core' 0).acc[0]).flags = 4 ∧ (t.core' 0).running = none ∧
     (t.core' 0).qlo.map (fun e => e.done) = [some 0x21]) := by decide +kernel

/-- R130: the sum of 2^31 - 1 and 1 x 1 saturates and raises overflow. -/
theorem test_segment_saturates :
    segStep true 0x7FFFFFFF [Fl.ofInt 1] [Fl.ofInt 1] (Fl.ofInt 1) (Fl.ofInt 1) = (0x7FFFFFFF, 4) := by decide +kernel

-- engines, tenders, channels

/-- g5 the own local store, g9 = 0x2000; registers readable, device-scope release done at once. -/
theorem witness_EngineResults_push :
    ∃ t, mapped.cur.pl = .core 0 ∧
      Ready [.dst (plain 4), .src (plain 5), .src (plain 9), .src (plain 2)] mapped mapped ∧ Passes accessGate mapped ∧
      mapped.engineUse mapped.cur < 16 ∧ Does (release 4) mapped t ∧ Reads (plain 5) t 0xE0000000000000 t ∧
      Reads (plain 9) t 0x2000 t ∧ Reads (plain 2) t 3 t :=
  ⟨_, rfl, rfl, rfl, by decide +kernel, rfl, rfl, rfl, rfl⟩

theorem test_engine_push :
    (let t := got (exec (.xcpy ⟨4, 5, 9, 2, 0, 0⟩) mapped)
     t.me.gr 4 = 1 ∧ t.cmds.map (fun c => (c.op, c.dst, c.src, c.cw, c.tag)) = [(1, 0xE0000000000000, 0x2000, 3, 1)]) := by
  decide +kernel

/-- A completion word waits; none to come; one to come. -/
theorem witness_EngineResults_pop :
    (withThread fun x => { x with fifo := [⟨3, 0, 64, 0, 0, 64⟩] }).me.fifo = [⟨3, 0, 64, 0, 0, 64⟩] ∧
    mapped.me.fifo = [] ∧ mapped.cmds = [] ∧
    (let s := got (exec (.xcpy ⟨4, 5, 9, 2, 0, 0⟩) mapped)
     s.me.fifo = [] ∧ (s.cmds.any fun c => c.core == 0 && c.slot == some s.cur.k && c.ntf == 0 && !c.disc) = true ∧
     s.me.pend.length < 8) := by decide +kernel

/-- A copy of 16 bytes from page 0 to the own local store, as one row of a plain copy. -/
def copying : State := { mapped with
  cyc := 9, mem := [(0x2000, 0xAB), (0x200F, 0xCD)],
  cmds := [⟨20, 1, 0, some 0, 1, 0, 0xE0000000000100, 0x2000, 0x10, 9, 0, 0, 0, 0, [], true, false, 0, none, false⟩],
  nextId := 21, subj := 20 }

theorem witness_EngineResults_copy :
    met (copying.cmds.find? (fun c => c.id == copying.subj)) (fun k => k.started && k.merge == [] && k.op == 1 &&
      !k.malformed && !k.cutBank && k.ntf == 0 && !k.disc && k.owner == none && k.slot == some 0 &&
      (let l := copying.cmdPlan k
       l.2 == 0 && l.1.length == 16 && copying.hostHeld (l.1.map (fun p => p.2.loc)) == [] && copying.popPast k &&
       ((copying.useBytes (l.1.map (fun p => p.1))).bind (fun w => w.writeGroups (copying.copyBytes l.1))).isSome)) = true ∧
    (copying.slotAt ⟨.core 0, 0⟩).xpopWait = [] := by decide +kernel

theorem test_copy :
    (let t := got (exec .engineCompletion copying)
     t.byteAt (.ls 0 0x100) = 0xAB ∧ t.byteAt (.ls 0 0x10F) = 0xCD ∧ t.me.fifo.map (fun c => (c.tag, c.status, c.bytes)) = [(9, 0, 16)])
      := by decide +kernel

theorem witness_EngineResults_held_and_interrupt :
    (let s := got (exec (.xcpy ⟨4, 5, 9, 2, 0, 0⟩) mapped)
     (s.cmds.all fun c => !c.started && c.op == 1) = true ∧ s.cmds.length = 1) ∧
    (let s := withThread fun x => { x with ints := [⟨3, 0, 64, 1, 0, 64⟩], uivec := 0x4000 }
     s.atTurn ⟨.core 0, 0⟩ = true ∧ (s.slotAt ⟨.core 0, 0⟩).handler = .none ∧ (s.slotAt ⟨.core 0, 0⟩).isPend .pw = false ∧
     (s.slotAt ⟨.core 0, 0⟩).uivec ≠ 0) := by decide +kernel

/-- R419: the handler finds the completion word in g11, and URET goes back. -/
theorem test_interrupt :
    (let s := withThread fun x => { x with ints := [⟨3, 0, 64, 1, 0, 64⟩], uivec := 0x4000, g := x.g.set 11 0x55 }
     let t := got (exec (.userInterruptEntry 0 0) s)
     t.me.pc = 0x4000 ∧ t.me.gr 11 = 0x40000003 ∧ (got (exec .uret t)).me.pc = 0x1000 ∧ (got (exec .uret t)).me.gr 11 = 0x55) := by
  decide +kernel

/-- A tender descriptor: 0x8000, stages of 64 bytes, 4 of them, quota 1. -/
def tendering : State := mapped.setAt (.core 0) { mapped.at' (.core 0) with
  ls := [(1, 0x80), (6, 0xE0), (8, 64), (12, 4), (14, 1)],
  tenders := (mapped.at' (.core 0)).tenders.set 1 ⟨true, false, 0xE0000000008000, 64, 4, 1, 3, 3, 1, 0⟩ }

theorem witness_TenderResults :
    (∃ bs, Ready [.src (plain 5)] tendering tendering ∧ Passes accessGate tendering ∧
      Reads (plain 5) tendering 0xE0000000000000 tendering ∧ Checked 4 false 0xE0000000000000 16 16 tendering bs tendering ∧
      Passes (cfgGate true bs) tendering ∧ ∃ raw, after (readNow bs) tendering = some (raw, tendering)) ∧
    (tendering.at' (.core 0)).bankLaunch = some tendering.me.launch ∧
    (tendering.at' (.core 0)).stagesOk 0xE0000000008000 (64 * 4) = true ∧
    ((tendering.at' (.core 0)).tenders[0]).conf = false ∧
    (((tendering.at' (.core 0)).tenders[1]).conf = true ∧ ((tendering.at' (.core 0)).tenders[1]).broken = false) ∧
    tendering.tenderBusy 0 1 = false ∧ (∃ u, Does (release 4) tendering u) ∧ (∃ u, Does (acquire 4) tendering u) :=
  ⟨⟨_, rfl, rfl, rfl, rfl, rfl, _, rfl⟩, by decide +kernel, by decide +kernel, by decide +kernel, by decide +kernel, by decide +kernel,
    ⟨_, rfl⟩, ⟨_, rfl⟩⟩

/-- R340, R341: counts 3, 3 and 1 of four stages: two more may be filled, not three; two are filled. -/
theorem test_tenders :
    (((got (exec (.tcfg 0 5) tendering)).at' (.core 0)).tenders[0]).stages = 4 ∧
    (((got (exec (.tadvFill 1 2) tendering)).at' (.core 0)).tenders[1]).t = 5 ∧
    (got (exec (.tadvFill 1 3) tendering)).me.tval = 0x301 ∧
    (((got (exec (.tadvFree 1 2) tendering)).at' (.core 0)).tenders[1]).c = 3 ∧
    (got (exec (.tadvFree 1 3) tendering)).me.tval = 0x301 ∧
    (got (exec (.twaitFill 1 2) tendering)).me.pc = 0x1008 ∧ (got (exec (.twaitFill 1 3) tendering)).me.asleep.isSome = true ∧
    (got (exec (.twaitFill 0 1) tendering)).me.tval = 0x600 := by decide +kernel

/-- Channels 0 (receiving, one word), 1 (receiving, none), 2 (sending, allowance 1), 3 (sending, none), 4 closed. -/
def channels : State := withThread fun x => { x with
  eps := (((x.eps.set 0 ⟨true, 0x40001, 0, [0x99], 1, [], false⟩).set 1 ⟨true, 0x40001, 0, [], 1, [], false⟩).set 2
    ⟨true, 0x00001, 1, [], 0, [], false⟩).set 3 ⟨true, 0x00001, 0, [], 0, [], false⟩ }

theorem witness_ChannelResults_operands :
    (plain 0x10).rel = false ∧ (plain 0x17).code.toNat = 16 + 7 ∧ channels.me.isPend (.ch 0) = false ∧
    Passes accessGate channels ∧ channels.me.pend.length < 8 ∧ (channels.at' channels.cur.pl).recvBusy = false ∧
    ((channels.me.eps[0]).opened = true ∧ (channels.me.eps[0]).recv = true ∧ (channels.me.eps[0]).buf = [0x99]) ∧
    ((channels.me.eps[1]).recv = true ∧ (channels.me.eps[1]).buf = []) ∧
    ((channels.me.eps[2]).opened = true ∧ (channels.me.eps[2]).recv = false ∧ 0 < (channels.me.eps[2]).allow) ∧
    ((channels.me.eps[3]).recv = false ∧ (channels.me.eps[3]).allow = 0) ∧ (channels.me.eps[4]).opened = false ∧
    (∃ t, Does (release 4) channels t) :=
  ⟨rfl, by decide, by decide +kernel, rfl, by decide +kernel, by decide +kernel, by decide +kernel, by decide +kernel,
    by decide +kernel, by decide +kernel, by decide +kernel, ⟨_, rfl⟩⟩

/-- R343, R345: a read takes the word, a write uses the allowance and sends, a read of an empty channel sleeps. -/
theorem test_channel_operands :
    (let t := got (exec (.mov ⟨plain 4, plain 0x10⟩) channels)
     t.me.gr 4 = 0x99 ∧ (t.me.eps[0]).buf = []) ∧
    (let t := got (exec (.mov ⟨plain 0x12, plain 1⟩) channels)
     (t.me.eps[2]).allow = 0 ∧ t.flights.length = 1) ∧
    (got (exec (.mov ⟨plain 4, plain 0x11⟩) channels)).me.asleep.isSome = true ∧
    (got (exec (.mov ⟨plain 4, plain 0x14⟩) channels)).me.tval = 0x404 := by decide +kernel

theorem witness_ChannelResults_instructions :
    Ready [.src (plain 1)] channels channels ∧ Reads (plain 1) channels 5 channels ∧
    (channels.me.eps[4]).saved = false ∧ (5 : Word).extractLsb' 19 45 = 0 ∧ (5 : Nat) / 4 ∉ channels.deadClusters ∧
    (0x80000 : Word).extractLsb' 19 45 ≠ 0 ∧ 0 < (channels.at' (.core 0)).grantRoom - 1 ∧
    channels.epWordsOut channels.cur 2 = false ∧
    Ready [.dst (plain 4), .src (plain 8)] channels channels ∧ Reads (plain 8) channels 9 channels ∧
    ((9 : Word).getLsbD 0 = true ∧ (channels.me.chLast + 1 + 0) % 8 ≤ 8) :=
  ⟨rfl, rfl, by decide +kernel, by decide, by decide, by decide, by decide +kernel, by decide +kernel, rfl, rfl, by decide +kernel⟩

theorem test_channel_instructions :
    ((got (exec (.chopen 4 1) channels)).me.eps[4]).peer = 5 ∧
    (got (exec (.chopen 0 1) channels)).me.tval = 0x100 ∧
    ((got (exec (.chclose 0) channels)).me.eps[0]).opened = false ∧
    reg (.chalt 4 8) channels 4 = 0 := by decide +kernel

/-- A word and a grant for the thread's channels 1 and 2, from core 1, slot 0, channel 0. -/
theorem witness_ChannelResults_arrivals :
    (let s : State := { channels with cyc := 9, flights := [⟨7, 1, .core 1, .core 0, none, .chWord 0 1 1 0x77, [], 0⟩], subj := 7 }
     met (s.flight? s.subj) (fun f => s.first f && s.cleared f && s.turnPast ⟨.core 0, 0⟩ && f.launch == (s.slotAt ⟨.core 0, 0⟩).launch &&
       f.body == .chWord 0 (0 * 8 + 1) 1 0x77) = true ∧
     ((s.slotAt ⟨.core 0, 0⟩).eps[1]).peer.extractLsb' 0 18 = 1) ∧
    (let s : State := { channels with cyc := 9, flights := [⟨7, 1, .core 1, .core 0, none, .chGrant 0 2 1 3, [], 0⟩], subj := 7 }
     met (s.flight? s.subj) (fun f => s.first f && s.cleared f && s.turnPast ⟨.core 0, 0⟩) = true ∧
     ((got (exec .channelGrantArrival s)).me.eps[2]).allow = 4) := by decide +kernel

-- the Coach Ring

/-- A launch with window base 16 and eight carriages; in cycle 11 word 3 of carriages 16 to 31 crosses station 0. -/
def windowed : State := { mapped with
  launches := [{ launchEmpty 1 with hdr := [0, 0, 0, 0, 8, 0, 0, 0, 0, 0x00080010, 0, 0, 0, 0, 0, 0] }] }

theorem witness_CarriageInstructionResults_words :
    (∃ l, windowed.cur.pl = .core 0 ∧
      Ready ([.dst (gf 1), .dst (gf 2)] ++ [.src (gf 0)] ++ [.src (gf 3)]) windowed windowed ∧ Passes accessGate windowed ∧
      windowed.launch? windowed.me.launch = some l ∧ l.winCount = 8 ∧ l.winBase = 16) ∧
    (∃ t, Does (release 4) windowed t) ∧ (windowed.cluster 0).caps = [] ∧ (windowed.cluster 0).heldCaps = [] ∧
    windowed.me.pend.length + 2 ≤ 8 := by
  refine ⟨⟨_, rfl, rfl, rfl, rfl, by decide +kernel, by decide +kernel⟩, ⟨_, rfl⟩, by decide +kernel, by decide +kernel,
    by decide +kernel⟩

/-- R351, R352: index 8 of a window of eight traps, so does writing index 0; index 7 becomes a request for carriage 23. -/
theorem test_carriage_requests :
    (got (exec (.cload ⟨1, 0, 0, 2, 8, false, false⟩) windowed)).me.tval = 8 ∧
    (got (exec (.cop ⟨1, 0, 1, 2, 0, false, false⟩ 0) windowed)).me.tcause.extractLsb' 0 16 = 0xC ∧
    (let t := got (exec (.cload ⟨1, 0, 0, 2, 7, false, false⟩) windowed)
     (t.cluster 0).caps.map (fun k => (k.car, k.w, k.d, k.arrive)) = [(23, 2, 1, 12)] ∧ t.me.pend = [.g 1, .g 2]) ∧
    (got (exec (.cwait ⟨0, 0, 1, 2, 3, false, false⟩ 0) windowed)).me.asleep.isSome = true := by decide +kernel

theorem witness_CarriageInstructionResults_board :
    ∃ p bs, Ready [.src (gf 9), .dst (gf 9), .src (gf 0)] windowed windowed ∧
      Checked 4 false 0x2000 64 64 windowed (p :: bs) windowed ∧ (p :: bs).any noSequence = false ∧
      windowed.me.pend.length < 8 := ⟨_, _, rfl, rfl, by decide +kernel, by decide +kernel⟩

/-- Memberships: none; of index 3; of 3 and 4. -/
theorem witness_CarriageInstructionResults_carrive :
    (let m (a b : Word) := (windowed.updMe fun x => { x with member := #v[a, b] }).me.member
     (m 0 0)[0].getLsbD 16 = false ∧ ((m 0x10003 0)[0].getLsbD 16 = true ∧ ((m 0x10003 0)[0].extractLsb' 0 16).toNat = 3) ∧
     ((m 0x10003 0x10004)[0].getLsbD 16 = true ∧ (m 0x10003 0x10004)[1].getLsbD 16 = true)) ∧
    Ready ([.dst (gf 1), .dst (gf 2)] ++ [.src (gf 0)]) windowed windowed := ⟨by decide +kernel, rfl⟩

/-- Between a CARRIVE and its answer the thread's next one to the same carriage waits. -/
theorem witness_CarriageInstructionResults_busy :
    (let s := got (exec (.carriveJoin ⟨0, 0, 0, 0, 3, false, false⟩) windowed)
     s.carriveBusy s.cur false 3 = true ∧ s.carriveBusy s.cur true 4 = true ∧ s.carriveBusy s.cur false 4 = false ∧
     windowed.carriveBusy windowed.cur true 3 = false) := by decide +kernel

theorem test_carrive :
    (let s := windowed.updMe fun x => { x with member := #v[0x10003, 0] }
     (got (exec (.carriveJoin ⟨1, 0, 0, 0, 3, false, false⟩) s)).me.tval = 0x30001 ∧
     (got (exec (.carriveArrive ⟨1, 0, 0, 0, 4, false, false⟩) s)).me.tval = 0x40004 ∧
     ((got (exec (.carriveJoin ⟨1, 0, 0, 0, 4, false, false⟩) s)).cluster 0).caps.map (fun k => k.mem) = [1]) := by decide +kernel

/-- A seated carriage whose word 2 is 5, with epoch 3, two expected members and one arrival of odd phase. -/
def seatedCar : Carriage := { carReset with
  st := .seated, words := #v[0x0000000200000003, 0x0000000000010000, 5, 0, 0, 0, 0, 0] }

def capOf (op : CapOp) (w : Nat) (mword : Word) : Cap := ⟨30, 0, some ⟨.core 0, 0⟩, 1, 1, 17, w, op, 0, mword, false, 0, .queued⟩

theorem witness_CaptureEffects :
    seatedCar.st = .seated ∧ carReset.st = .empty ∧ (capOf (.cop 0 1) 2 0).w = (2 : Fin 8).val ∧
    opResult (w := 64) 0 (seatedCar.words[2]) 1 6 ∧ conditionHolds 0 (seatedCar.words[2]) 5 ∧
    ¬conditionHolds 1 (seatedCar.words[2]) 5 ∧
    (seatedCar.words[1].getLsbD 32 = false ∧ ({ seatedCar with words := seatedCar.words.set 1 0x100000000 }.words[1]).getLsbD 32 = true) ∧
    ((1 : Nat) + 2 ≤ 3 ∧ (2 : Nat) + 1 = 3 ∧ (3 : Nat) ≤ 3 ∧ (2 : Nat) < 65535) := by
  refine ⟨rfl, rfl, rfl, ?_, ?_, ?_, by decide +kernel, by decide⟩ <;> first | (unfold opResult; decide) | (unfold conditionHolds; decide)

/-- R148, R150, R152: the second arrival of phase 3 completes it; a token of epoch 2 is passed, of epoch 3 it waits; a stale one. -/
theorem test_captures :
    (applyCap seatedCar (capOf .arrive 0 0x300000000)).2 = (some (.done 3 0), true) ∧
    (applyCap seatedCar (capOf (.phase 2) 0 0)).2 = (some (.done 3 0), false) ∧
    (applyCap seatedCar (capOf (.phase 3) 0 0)).2 = (none, false) ∧
    (applyCap seatedCar (capOf (.phase 1) 0 0)).2 = (some (.done 3 3), false) ∧
    (applyCap seatedCar (capOf (.cop 0 1) 2 0)).2 = (some (.done 5 0), false) ∧
    (applyCap carReset (capOf .load 2 0)).2 = (some (.done 0 1), false) := by decide +kernel

/-- A request at station 0 in the cycle in which its carriage's word 3 crosses. -/
def ringState (op : CapOp) (st : CapSt) (car : Carriage) (cyc : Nat) : State := { windowed with
  clusters := [(0, { windowed.cluster 0 with caps := [{ capOf op 2 0 with st := st, arrive := 0 }] })],
  cars := [(17, { car with lastRev := some 8 })], cyc := cyc, subj := 30 }

theorem witness_RingEventResults_apply :
    (let s := ringState (.cop 0 1) .queued seatedCar 11
     met (s.findCap s.subj) (fun p => p.1 == 0 && p.2.st.waiting && s.capReady 0 p.2 &&
       (applyCap (s.car p.2.car) p.2).2 == (some (.done 5 0), false)) = true) ∧
    (let s := ringState (.board (.dev 0x2000) (.slice 64)) .queued carReset 11
     met (s.findCap s.subj) (fun p => s.capReady 0 p.2 && (s.car p.2.car).st == .empty) = true) ∧
    (let s := ringState (.alight (.dev 0x2000) (.slice 64)) .queued seatedCar 11
     met (s.findCap s.subj) (fun p => s.capReady 0 p.2 && (s.car p.2.car).st == .seated) = true) := by decide +kernel

theorem witness_RingEventResults_advance_and_revolution :
    (let s := { ringState .join .queued { seatedCar with adv := [(0, 3)] } 11 with subj := 17 }
     (s.car s.subj).adv.find? (fun a => passes s.cyc a.1 s.subj && decide (a.2 < s.cyc)) = some (0, 3) ∧
     (s.car s.subj).st = .seated) ∧
    (let s := { windowed with cyc := 8, subj := 16 }
     s.subj < 2048 ∧ crosses s.cyc 0 s.subj 0 = true ∧ (s.car s.subj).lastRev.all (fun c => decide (c < s.cyc)) = true) ∧
    crosses 1023 1023 0 0 = true ∧ crosses 1022 1023 2047 7 = true := by decide +kernel

theorem witness_RingEventResults_rest :
    (let s := ringState (.board (.dev 0x2000) (.slice 64)) .fetching { carReset with st := .reserved } 11
     met (s.findCap s.subj) (fun p => p.2.st == .fetching && !(s.locPoison (.dev 0x2000)) &&
       (s.useLines (useOf (.dev 0x2000) (.slice 64))).isSome) = true) ∧
    (let s := ringState (.board (.dev 0x2000) (.slice 64)) (.fetched (List.replicate 8 1) 2) { carReset with st := .reserved } 11
     passes s.cyc (stationOf 0) 17 = true ∧ 2 + 3 < s.cyc) ∧
    (let s := ringState (.alight (.dev 0x2000) (.slice 64)) (.landing (List.replicate 8 1)) { seatedCar with st := .landing } 11
     s.hostHeld [.dev 0x2000] = [] ∧ (tabGet [] s.l2 64).length < 16 ∧ 0x2000 % 64 = 0) ∧
    (let s := ringState (.cop 0 1) (.done 5 0 0 11) seatedCar 11
     s.turnPast ⟨.core 0, 0⟩ = true ∧ met (s.findCap s.subj) (fun p => p.2.st == .done 5 0 0 11 && p.2.sid == some ⟨.core 0, 0⟩ && p.2.d == 1 && !p.2.acq) = true) := by
  decide +kernel

theorem test_ring_events :
    (let t := got (exec .captureApply (ringState (.cop 0 1) .queued seatedCar 11))
     (t.car 17).words[2] = 6 ∧ (t.cluster 0).caps.map (fun k => k.st) = [.done 5 0 0 14]) ∧
    (let t := got (exec .captureCompletion ((ringState (.cop 0 1) (.done 5 0 0 11) seatedCar 11).updMe fun x =>
       { x with pend := [.g 1, .g 2] }))
     t.me.gr 1 = 5 ∧ t.me.gr 2 = 0 ∧ t.me.pend = []) ∧
    ((got (exec .barrierAdvance { ringState .join .queued { seatedCar with adv := [(0, 3)] } 11 with subj := 17 })).car 17).words[0]
      = 0x0000000200000004 ∧
    ((got (exec .revolutionStart { windowed with cyc := 8, subj := 16 })).car 16).rev = 1 := by decide +kernel

-- the Yard

/-- A launch with a spill area of 16 KiB at 0x4000 and the window of `windowed`; slot 1 of core 0 is free and owned by queue 0. -/
def yards : State :=
  let s := { windowed with
    launches := [{ launchEmpty 1 with hdr := [0, 0, 0, 0, 0x200000008, 0, 0, 0x4000, 0x4000, 0x00080010, 0, 0, 0, 0, 0, 0] }] }
  s.setAt (.core 0) { s.at' (.core 0) with
    owners := (s.at' (.core 0)).owners.set 1 0x100000000, steal := 0x0001000000000005 }

/-- A record: entry 0x1000, work identifier 0x42, word 7 as given. -/
def task (w7 : Word) : List Word := [0x1000, 0x42, 0, 0, 0, 0, 0, w7]

/-- The record stands at g5, the base of the own local store. -/
def pushing (w7 : Nat) : State := yards.setAt (.core 0) { yards.at' (.core 0) with
  ls := Memory.writeNat (Memory.writeNat [] 1 1 0x10) 56 8 w7 }

def entry (w7 : Word) (order : Nat) : SidEnt := ⟨task w7, 1, order, none, true, none, 0⟩

theorem witness_YardInstructionResults_push :
    (∃ t bs, (pushing 7).cur.pl = .core 0 ∧ Ready [.src (gf 5)] (pushing 7) (pushing 7) ∧ Passes accessGate (pushing 7) ∧
      Does (release 4) (pushing 7) t ∧ Checked 4 false (t.me.gr 5) 64 64 t bs t ∧ t.l2Free = true ∧
      ∃ u, t.useLines (srcLines (bs.map t.srcHome)) = some u) ∧
    (∃ l, (pushing 7).launch? (pushing 7).me.launch = some l ∧ l.num = 1) ∧
    (let r := task 7
     recBad r = false ∧ recFlags r = 0 ∧ recJoin r = 0 ∧ recBucket r ≤ 0 + 11) ∧
    recBad (task 0x0000000800000000) = true ∧ recBucket (task 12) = 0 + 12 ∧ recBucket (task 0x3FFFFFFE) ≤ 0 + 0x3FFFFFFE ∧
    0 + 0x3FFFFFFE < recBucket (task 0x3FFFFFFF) ∧ ((yards.core' 0).seenOf 1).w = 0 ∧
    (yards.deltasOf 0 1).bks.length < 16 ∧ (yards.core' 0).freeEntry = some 0 ∧
    met (yards.launch? 1) (fun l => (yards.pushFar 0 l (task 12)).isSome) = true := by
  refine ⟨⟨_, _, rfl, rfl, rfl, rfl, rfl, by decide +kernel, _, rfl⟩, ⟨_, rfl, rfl⟩, ?_⟩
  decide +kernel

/-- The spill area without a free block, and a siding without a free entry. -/
theorem witness_YardInstructionResults_full :
    (let s := { yards with mem := [(0x4000, 0xFF), (0x4001, 0xFF), (0x4002, 0xFF), (0x4003, 0xFF)] }
     met (s.launch? 1) (fun l => s.inst l 0 4 == 0xFFFFFFFF) = true ∧ tabFind (s.core' 0).farOpen 1 = none) ∧
    ({ yards.core' 0 with siding := (List.range 256).map fun k => (k, entry 7 k) }.freeEntry = none) := by decide +kernel

/-- R359: bucket 7 enters the siding and counts +1; bucket 12 goes far; one above the far range faults with the bucket. -/
theorem test_ypush :
    (let t := got (exec (.ypush 5) (pushing 7))
     ((t.core' 0).siding.map fun p => (p.1, recBucket p.2.words)) = [(0, 7)] ∧ (t.deltasOf 0 1).bks = [(7, 1)]) ∧
    (let t := got (exec (.ypush 5) (pushing 12))
     (t.core' 0).siding = [] ∧ (t.deltasOf 0 1).farN = 1 ∧ (t.deltasOf 0 1).farMin = 12) ∧
    (got (exec (.ypush 5) (pushing 0x3FFFFFFF))).me.tval = 0x3FFFFFFF ∧
    (got (exec (.ypush 5) (pushing 0x0001000000000000))).me.tval = 0xE0000000000000 := by decide +kernel

theorem witness_YardInstructionResults_cont :
    (∃ t bs, Ready [.dst (gf 4), .src (gf 5)] (pushing 0x0002000000000007) (pushing 0x0002000000000007) ∧
      Does (release 4) (pushing 0x0002000000000007) t ∧ Checked 4 false (t.me.gr 5) 64 64 t bs t) ∧
    (recBad (task 0x0002000000000007) = false ∧ recFlags (task 0x0002000000000007) &&& 7 = 0 ∧
      recJoin (task 0x0002000000000007) ≠ 0) := ⟨⟨_, _, rfl, rfl, rfl⟩, by decide +kernel⟩

/-- A handle of launch 1, core 0, entry 0, generation 0, and one of another launch. -/
theorem witness_YardInstructionResults_done :
    (let s := yards.updMe fun x => { x with g := (x.g.set 1 0x1000000000).set 2 0x2000000000 }
     Ready [.src (gf 1)] s s ∧ Passes accessGate s ∧
     ((s.me.gr 1).extractLsb' 52 12 = 0 ∧ ((s.me.gr 1).extractLsb' 36 16).toNat = 1 % 65536 ∧
       s.coreLive ((s.me.gr 1).extractLsb' 0 12).toNat = true) ∧
     ((s.me.gr 2).extractLsb' 36 16).toNat ≠ 1 % 65536 ∧ ∃ t, Does (release 4) s t) :=
  ⟨rfl, rfl, by decide +kernel, by decide +kernel, _, rfl⟩

theorem test_ycont_ydone :
    (let t := got (exec (.ycont 4 5) (pushing 0x0002000000000007))
     t.flights.map (fun f => f.body) = [.result 4 0x1000000000 0 0 false] ∧ t.me.pend = [.g 4] ∧
     ((t.core' 0).siding.map fun p => recHeld p.2.words) = [true] ∧ (t.deltasOf 0 1).bks = []) ∧
    (let s := yards.updMe fun x => { x with g := x.g.set 2 0x2000000000 }
     (got (exec (.ydone 2) s)).me.tcause.extractLsb' 0 16 = 0x13) := by decide +kernel

/-- Two records: bucket 1 is within the floor and reach 2, bucket 3 is not. -/
def popper : State := yards.setCore 0 { yards.core' 0 with siding := [(0, entry 3 0), (1, entry 1 1)] }

theorem witness_YardInstructionResults_pop :
    (∃ bs, Ready [.dst (gf 4), .src (gf 5)] popper popper ∧ Passes accessGate popper ∧
      Checked 0 true (popper.me.gr 5) 64 64 popper bs popper ∧ Passes (cfgGate false bs) popper) ∧
    met (popper.launch? 1) (fun l => l.reach == 2) = true ∧
    (popper.core' 0).siding.map (fun p => (p.2.launch, recHeld p.2.words, p.2.ready, recGen p.2.words, recFootLen p.2.words)) =
      [(1, false, true, false, 0), (1, false, true, false, 0)] ∧
    recBucket (entry 1 1).words ≤ 0 + Nat.min (2 + 0) 11 ∧ ¬(recBucket (entry 3 0).words ≤ 0 + Nat.min (2 + 0) 11) ∧
    (yards.core' 0).siding = [] := ⟨⟨_, rfl, rfl, rfl, rfl⟩, by decide +kernel, by decide +kernel, by decide +kernel,
      by decide +kernel, by decide +kernel⟩

theorem test_ypop :
    (let t := got (exec (.ypop 4 5) popper)
     t.flights.map (fun f => f.body) = [.result 4 1 0 0 false] ∧ t.me.bucket = 1 ∧ (t.core' 0).siding.map (fun p => p.1) = [0] ∧ t.byteAt (.ls 0 8) = 0x42 ∧
     (t.deltasOf 0 1).executed = 1) ∧
    (got (exec (.ypop 4 5) yards)).flights.map (fun f => f.body) = [.result 4 0xFFFFFFFFFFFFFFFF 0 0 false] := by decide +kernel

theorem witness_YardInstructionResults_figures :
    Ready [.dst (gf 4)] yards yards ∧ Ready [.dst (gf 4), .src (gf 2)] yards yards :=
  ⟨rfl, rfl⟩

theorem test_yfloor :
    reg (.yfloor 4) yards 4 = 0x200000000 ∧ reg (.yreach 4 2) yards 4 = 1 ∧ reg (.yopen 4 1) popper 4 = 2 := by decide +kernel

-- the Yard's own events

/-- The floor carriage 16 seated with the given contents; its word 3 crosses station 0 in cycle 11. -/
def floored (f : FloorCar) (y : YardSt → YardSt) : State := { yards with
  cyc := 11, cars := [(16, { carReset with st := .seated, words := Vector.ofFn (fun (k : Fin 8) => recW f.words k.val), lastRev := some 8 })],
  launches := yards.launches.map fun l => { l with yard := y l.yard } }

theorem witness_YardEventResults_station :
    (let s := { floored floorStart (fun y => { y with lastDepot := 12 }) with subj := 1 * 1024 + 0 }
     (s.launch? 1).isSome = true ∧ (s.car 16).st = .seated ∧ passes s.cyc (stationOf 0) 16 = true ∧
     (s.car 16).did s.cyc (floorKey (stationOf 0)) = false ∧ 0 ∉ s.deadClusters ∧
     met (s.launch? 1) (fun l => l.winBase == 16 && l.yard.lastDepot == s.cyc + 1) = true) := by decide +kernel

/-- R162: a push of two tasks to bucket 3 and one far task of bucket 20 reach the carriage. -/
theorem test_station_pass :
    (let s := { floored floorStart (fun y => { y with lastDepot := 12 }) with subj := 1024 }
     let t := got (exec .floorCarriagePass (s.setCore 0 { s.core' 0 with deltas := [(1, ⟨[(3, 2)], 1, 20, 3, 0⟩)] }))
     let g := floorOf (t.car 16).words.toList
     g.count 3 = 2 ∧ g.marks = [3] ∧ g.far = 1 ∧ g.gap = 20 ∧ g.dirty = true ∧ t.deltasOf 0 1 = deltasReset) := by decide +kernel

theorem witness_YardEventResults_depot :
    (let s := { floored floorStart (fun y => { y with copy := { floorStart with counts := floorStart.counts.set 3 1 }.words }) with subj := 1 }
     (s.launch? s.subj).isSome = true ∧ (s.car 16).st = .seated ∧ passes s.cyc 0 16 = true ∧
     met (s.launch? 1) (fun l => l.yard.lastDepot != s.cyc + 1) = true ∧
     (let f := floorOf (s.car 16).words.toList
      f.w + 12 < 2 ^ 32 ∧ f.relief < 15 ∧ f.marks = [] ∧ f.floor = 0)) := by decide +kernel

/-- R164: with nothing below bucket 3 the floor rises to 3. -/
theorem test_depot :
    (let s := { floored { floorStart with counts := floorStart.counts.set 3 1 }
        (fun y => { y with copy := { floorStart with counts := floorStart.counts.set 3 1 }.words }) with subj := 1 }
     (floorOf ((got (exec .depotPass s)).car 16).words.toList).floor = 3) := by decide +kernel

theorem witness_YardEventResults_agent_refill_steal :
    (let s := { floored { floorStart with reinject := true } (fun y => { y with lastDepot := 12, agent := 2 }) with subj := 1 }
     met (s.launch? 1) (fun l => s.agentTurn l) = true ∧ (floorOf (s.car 16).words.toList).reinject = true ∧
     (floorOf (s.car 16).words.toList).w + (floorOf (s.car 16).words.toList).gap < 2 ^ 32) ∧
    (let s := { yards with mem := [(0x4100, 0xFF), (0x4101, 0xFF), (0x4102, 0xFF), (0x4103, 0xFF), (0x4105, 0x10)] }.setCore 0
        { yards.core' 0 with chains := [(1, 0)] }
     tabGet 0xFFFFFFFF (s.core' 0).chains 1 = 0 ∧
     met (s.launch? 1) (fun l => ((s.link l 0).extractLsb' 44 5).toNat == 1) = true ∧ (s.core' 0).siding.length + 1 ≤ 256) ∧
    (let s := yards.setCore 5 { coreReset with siding := [(0, entry 1 0), (1, entry 1 1)] }
     s.popsPast 5 = false ∧ ({ s with cyc := 9 }.setSlot ⟨.core 5, 1⟩ { slotReset with lastIssue := some 9 }).popsPast 5 = true ∧
     (0 : Nat) < ((s.core' 0).steal.extractLsb' 48 3).toNat ∧ tabGet 0 (s.core' 0).stealNext 1 = 0 ∧ s.coreLive 0 = true ∧
     met (s.launch? 1) (fun l => s.wantsWork 0 l && (s.loot 5 l 256).length == 1) = true ∧ s.coreLive 5 = true) := by decide +kernel

/-- R174: half of a victim's two records of its lowest bucket move. -/
theorem test_steal :
    (let s := yards.setCore 5 { coreReset with siding := [(0, entry 1 0), (1, entry 1 1)] }
     let t := got (exec (.stealRequest 0 1 0) (s.setSlot ⟨.core 5, 0⟩ { slotReset with lastIssue := some 8 }))
     (t.core' 0).siding.length = 1 ∧ (t.core' 5).siding.map (fun p => p.1) = [1]) := by decide +kernel

theorem witness_YardEventResults_coupled_and_decrement :
    (let s : State := { yards with launches := yards.launches.map fun l => { l with yard.coupled := true } }
     met (s.launch? 1) (fun l => l.yard.coupled && (s.pushFar 0 l (task 5)).isSome) = true) ∧
    (let s := { yards.setCore 0 { yards.core' 0 with siding := [(0, entry 0x0001000300000007 0)] } with
       flights := [⟨7, 1, .core 1, .core 0, some ⟨.core 1, 0⟩, .ydone 0 0 0 1 ⟨.core 1, 0⟩, [], 0⟩], subj := 7 }
     (s.flight? s.subj).isSome = true ∧ met (s.launch? 1) (fun l => l.abort.isNone) = true ∧
     met (tabFind (s.core' 0).siding 0) (fun e => e.launch == 1 && recJoin e.words == 1 && recHeld e.words) = true ∧
     tabGet 0 (s.core' 0).sgen 0 = 0 ∧ (s.deltasOf 0 1).bks.length < 16) := by decide +kernel

/-- R177: the last decrement releases the continuation and counts it. -/
theorem test_decrement :
    (let s := { yards.setCore 0 { yards.core' 0 with siding := [(0, entry 0x0001000300000007 0)] } with
       flights := [⟨7, 1, .core 1, .core 0, some ⟨.core 1, 0⟩, .ydone 0 0 0 1 ⟨.core 1, 0⟩, [], 0⟩], subj := 7 }
     let t := got (exec .ydoneDecrement s)
     ((t.core' 0).siding.map fun p => (recHeld p.2.words, recJoin p.2.words)) = [(false, 0)] ∧
     (t.deltasOf 0 1).bks = [(7, 1)] ∧ t.flights = []) := by decide +kernel

/-- A record whose footprint of 64 bytes is page 0 at 0x2000. -/
def filling (fill : Option Nat) : State := yards.setCore 0 { yards.core' 0 with
  siding := [(0, { entry 1 0 with words := [0x1000, 0x42, 0, 0, 0, 0x0100000000002000, 0, 1], ready := false, fill := fill })],
  res := [(0, ⟨true, false, 0x2000, 64, [], none, []⟩)] }

theorem witness_YardEventResults_fill :
    ((match bestEntry ((filling none).core' 0).siding ((filling none).wantsFill 0) with
      | some (k, _) => k == 0
      | none => false) = true ∧ (((filling none).core' 0).freeRes 8).isSome = true ∧ (filling none).cyc = 8) ∧
    met (tabFind ((filling (some 0)).core' 0).siding 0) (fun e => e.fill == some 0 && !e.ready &&
      ((filling (some 0)).footBytes 0 e).toOption.isSome) = true ∧
    (let s := { filling (some 0) with deadSlices := List.range 1024 }
     met (tabFind (s.core' 0).siding 0) (fun e => (match s.footBytes 0 e with
       | .error x => x.cause != 6
       | .ok _ => false) || (s.footBytes 0 e).toOption.isSome)) = true := by decide +kernel

/-- Every thread of the launch asleep, nothing on its way; with a task above the reach relief applies, without one the trap. -/
def sleepers (f : FloorCar) : State := { (floored f id).updMe (fun x => { x with asleep := some ⟨0, .sleep, none⟩ }) with subj := 1 }

theorem witness_YardEventResults_asleep :
    met ((sleepers floorStart).launch? 1) (fun l => (sleepers floorStart).stuck l && l.yard.withhold == none &&
      !((sleepers floorStart).reliefApplies l)) = true ∧
    met ((sleepers { floorStart with far := 1 }).launch? 1) (fun l => (sleepers { floorStart with far := 1 }).stuck l &&
      (sleepers { floorStart with far := 1 }).reliefApplies l) = true := by decide +kernel

theorem test_all_asleep :
    met ((got (exec .allAsleepTrap (sleepers floorStart))).launch? 1) (fun l => l.abort == some 3 && l.cause == 0x18) = true ∧
    met ((got (exec .floorRelief (sleepers { floorStart with far := 1 }))).launch? 1) (fun l => l.yard.reliefDue) = true := by
  decide +kernel

/-- The -1 of an exit that no floor pass has taken yet keeps its launch from being all-asleep (R423; log 58). -/
theorem test_exit_not_applied :
    met ((sleepers floorStart).addDelta 0 1 9 (-1)) (fun s =>
      met (s.launch? 1) (fun l => !((s.countTasks 0 1 0 1).allAsleep l) && s.allAsleep l)) = true := by
  decide +kernel

-- the Mordant: the routine clip of 08_mordant at 0x2000 and a 64 KiB arena at 0x8000

def clip : List Word :=
  let e (i : Instr) : Word := (encode i).getD 0
  [0x000000073A5D0E11, 0x0000000900000010,
   e (.sll ⟨plain 5, plain 4, plain 1⟩) ||| (1 <<< 49), e (.max ⟨plain 5, plain 5, plain 2⟩) ||| (1 <<< 49),
   e (.cmpi 1 0 3 0) ||| (1 <<< 50), e (.bra 2) ||| (1 <<< 52), e (.mul ⟨plain 5, plain 5, plain 3⟩) ||| (1 <<< 49),
   e (.cmpi 2 2 5 0), e (.bra 2) ||| (2 <<< 52) ||| (1 <<< 51), e (.sub ⟨plain 5, plain 0, plain 5⟩), e (.jmp (plain 0) (plain 10))]

def clipping : State :=
  let s := mapped.updMe fun x => { x with g := #v[0, 0, 0xFFFFFFFFFFFFFF9C, 0xFFFFFFFFFFFFFFFF, 0, 0, 0, 0x2000, 0, 0, 0, 0, 0, 0, 0, 0] }
  { s with
    launches := [{ launchEmpty 1 with hdr := [0, 0, 0, 0, 8, 0x8000, 0x10000, 0, 0, 0, 0, 0, 0, 0, 0, 0] }],
    mem := Memory.writeNat (clip.zipIdx.foldl (fun m e => Memory.writeNat m (0x2000 + 8 * e.2) 8 e.1.toNat) []) 0x8000 8 1 }

theorem witness_MordantResults_spec :
    (∃ l, clipping.cur.pl = .core 0 ∧ Ready [.dst (gf 6), .src (gf 7)] clipping clipping ∧
      clipping.launch? clipping.me.launch = some l ∧ l.pendFree = []) ∧
    (clipping.me.gr 7).getLsbD 0 = false ∧ (0x2000 : Word).extractLsb' 0 4 = 0 ∧
    (match WEnv.read ⟨clipping, clipping.cur, ⟨7, 0, 0x10, false, 9⟩⟩ 0x2000 16 0xFFFFFFFF with
     | .ok v => parseHeader (BitVec.ofNat 128 v) == some ⟨7, 0, 0x10, false, 9⟩
     | .error _ => false) = true ∧
    (7 : BitVec 16) = 7 &&& ~~~0 ∧ Ready (boundUses 7) clipping clipping ∧
    (match WEnv.run ⟨clipping, clipping.cur, ⟨7, 0, 0x10, false, 9⟩⟩ 0x2000
        [none, some 0, some 0xFFFFFFFFFFFFFF9C, some 0xFFFFFFFFFFFFFFFF, none, none, none, none, none, none, none] with
     | .ok x => x.out.length == 9 && x.cycles == 20
     | .error _ => false) = true ∧
    (0x2008 : Word).extractLsb' 0 4 ≠ 0 := by
  refine ⟨⟨_, rfl, rfl, rfl, rfl⟩, by decide +kernel, by decide, by decide +kernel, by decide, rfl, by decide +kernel, by decide⟩

/-- R192, R193: the worked example's nine instructions in twenty cycles, the branch patched to the second return. -/
theorem test_clip :
    (match WEnv.run ⟨clipping, clipping.cur, ⟨7, 0, 0x10, false, 9⟩⟩ 0x2000
        [none, some 0, some 0xFFFFFFFFFFFFFF9C, some 0xFFFFFFFFFFFFFFFF, none, none, none, none, none, none, none] with
     | .ok x => x.cycles == 20 && ((x.residual ⟨0x2000, ⟨7, 0, 0x10, false, 9⟩, 7, []⟩).code 0x90C0).map decode ==
      [some ⟨0, false, 0, .mov ⟨plain 5, plain 4⟩⟩, some ⟨0, false, 0, .li 11 0xFFFFFF9C⟩,
       some ⟨0, false, 0, .max ⟨plain 5, plain 5, plain 11⟩⟩, some ⟨0, false, 0, .sub ⟨plain 5, plain 0, plain 5⟩⟩,
       some ⟨0, false, 0, .cmpi 2 2 5 0⟩, some ⟨2, true, 0, .bra 3⟩, some ⟨0, false, 0, .sub ⟨plain 5, plain 0, plain 5⟩⟩,
       some ⟨0, false, 0, .jmp (plain 0) (plain 10)⟩, some ⟨0, false, 0, .jmp (plain 0) (plain 10)⟩]
     | .error _ => false) = true := by decide +kernel

/-- The arena once that block stands in units 65 to 68 with one reference; g6 is its handle. -/
def specialised : State :=
  let s := clipping.updMe fun x => { x with g := x.g.set 6 0x0001000000000083 }
  { s with mem := Memory.writeNat (Memory.writeNat (Memory.writeNat (Memory.writeNat [] 0x8144 8 0x0001000000010001) 0x814C 8 0x0001000000010000)
      0x9040 8 1) 0x9052 2 4 }

/-- The handle names its block, which one reference holds; a first fit is found beyond it, for 959 units none. -/
theorem witness_MordantResults_handles :
    met (specialised.launch? 1) (fun l =>
      (let h := specialised.me.gr 6
       let u := (h.extractLsb' 1 32).toNat
       h.getLsbD 0 && h.extractLsb' 33 15 == 0 && decide ((64 + 4 * ((l.h 6).toNat / 64) + 63) / 64 ≤ u) &&
       decide (u < (l.h 6).toNat / 64) && specialised.vRead l ((l.h 5).toNat + 64 + 4 * u) 4 == 0x00010001 &&
       (h.extractLsb' 48 16) == 1) &&
      specialised.vRead l ((l.h 5).toNat + 64 * 65) 4 == 1 && specialised.firstFit l 4 20 65 0 == some 69 &&
      specialised.firstFit l 18 20 65 0 == none) = true ∧
    Ready [.src (gf 6)] specialised specialised ∧ Ready [.dst (gf 10), .src (gf 6)] specialised specialised :=
  ⟨by decide +kernel, rfl, rfl⟩

theorem test_scall_sfree :
    (got (exec (.scall 6) specialised)).me.pc = 0x90C0 ∧ (got (exec (.scall 6) specialised)).me.gr 10 = 0x1008 ∧
    (let t := got (exec (.sfree 6) specialised)
     met (t.launch? 1) (fun l => l.pendFree == [65, 66, 67, 68] &&
       (match t.xlate 0 l.root (BitVec.ofNat 64 ((l.h 5).toNat + 64 * 65)) with
        | .leaf _ _ => true
        | .fail _ _ => false)) = true) := by decide +kernel

-- the life of a thread

/-- The exit packet of a thread of core 0, with a member word and no footprint. -/
def leavingSlice : State := onTheWay (.exit 0 5 0 #v[0x8000000000000000, 0] none) (.core 0)

theorem witness_ThreadLifeResults_exit :
    base.cur.pl = .core 0 ∧ base.exitReady base.cur = true ∧ (base.deltasOf 0 base.me.launch).takes base.me.bucket.toNat ∧
    onSlice.cur.pl = .slice 64 ∧ onSlice.exitReady onSlice.cur = true ∧
    met (leavingSlice.flight? leavingSlice.subj) (fun f => f.body == .exit 0 5 0 #v[0x8000000000000000, 0] none) = true ∧
    (leavingSlice.deltasOf 0 1).takes 5 :=
  ⟨rfl, by decide +kernel, .inr (by decide +kernel), rfl, by decide +kernel, by decide +kernel, .inr (by decide +kernel)⟩

/-- R231: the task counts out of its bucket, and the slot is free. -/
theorem test_exit :
    (let t := got (exec .exit base)
     (t.slotAt ⟨.core 0, 0⟩).busy = false ∧ (t.deltasOf 0 1).bks = [(0, -1)] ∧ (t.deltasOf 0 1).executed = 1) ∧
    (let t := got (exec .exitPacketArrival leavingSlice)
     (t.deltasOf 0 1).bks = [(5, -1)] ∧ t.flights = []) := by decide +kernel

/-- Banks 0 to 3 asked for, bank 4 kept: CACHE, SCRATCH, FIFO, CACHE. -/
def reshaping : State := got (exec (.cfgbank 0x0324) mapped)

theorem witness_ThreadLifeResults_banks :
    (mapped.core' 0).bankLaunch = some mapped.me.launch ∧ (mapped.core' 0).cfg = none ∧
    (base.core' 0).bankLaunch ≠ some (withThread fun x => { x with launch := 2 }).me.launch ∧
    (reshaping.core' 0).bankLaunch = some reshaping.me.launch ∧ (reshaping.core' 0).cfg ≠ none ∧
    met ((reshaping.core' 0).cfg) (fun g => (reshaping.core' 0).cfgReady g) = true ∧ reshaping.subj = 0 ∧
    (bankLo 0 ≤ bankLo 0 ∧ bankLo 4 ≤ bankLo 5 - 1 ∧ bankLo 5 - 1 < bankLo 5) := by decide +kernel

/-- The context area of the core, another thread in slot 3, and an empty slot 2. -/
def saving : State :=
  let s := kernelState
  let s := s.setAt (.core 0) { s.at' (.core 0) with ctxArea := 0x4000 }
  s.setSlot ⟨.core 0, 3⟩ { slotReset with busy := true, launch := 1, pc := 0x2000, nalloc := 8 }

theorem witness_ThreadLifeResults_save :
    (32 : Nat) ≤ 32 ∧ saving.cur.pl = .core 0 ∧ saving.me.mode = .supervisor ∧
    Ready [.dst (plain 4), .src (plain 2)] saving saving ∧ Reads (plain 2) saving 3 saving ∧
    (⟨.core 0, ((3 : Word).setWidth 3).toNat⟩ : Sid).k ≠ saving.cur.k ∧ (saving.slotAt ⟨.core 0, 3⟩).busy = true ∧
    saving.vacateReady ⟨.core 0, 3⟩ = true ∧
    (∃ s, Reads (plain 2) (saving.setSlot ⟨.core 0, 3⟩ { saving.slotAt ⟨.core 0, 3⟩ with stopped := true }) 3 s) ∧
    (Reads (plain 0) saving 0 saving ∧ ((0 : Word).setWidth 3).toNat = saving.cur.k) ∧
    (Reads (plain 1) saving 5 saving ∧ (saving.slotAt ⟨.core 0, 5⟩).busy = false) :=
  ⟨by decide, rfl, rfl, rfl, rfl, by decide +kernel, by decide +kernel, by decide +kernel, ⟨_, rfl⟩, ⟨rfl, by decide +kernel⟩,
    ⟨rfl, by decide +kernel⟩⟩

/-- A record of core 0 at address 0x2000, of a thread that left slot 2. -/
def loading : State :=
  let s := mapped.updMe fun x => { x with mode := .supervisor }
  { s with mem := Memory.writeNat [] 0x2000 8 0x200007C0AC7E8 }

theorem witness_ThreadLifeResults_load :
    loading.cur.pl = .core 0 ∧ loading.me.mode = .supervisor ∧ Ready [.src (plain 9), .src (plain 2)] loading loading ∧
    Reads (plain 9) loading 0x2000 loading ∧ Reads (plain 2) loading 3 loading ∧
    loading.rootRead 0 (loading.rootOf loading.cur) 0x2000 = 0x200007C0AC7E8 ∧
    ((0x200007C0AC7E8 : Word).extractLsb' 0 32 = 0x7C0AC7E8 ∧ ((0x200007C0AC7E8 : Word).extractLsb' 32 12).toNat = 0) ∧
    (loading.slotAt ⟨.core 0, 3⟩).busy = false ∧ (loading.slotAt ⟨.core 0, 0⟩).busy = true ∧
    Reads (plain 10) loading 0x77 loading ∧ loading.rootRead 0 (loading.rootOf loading.cur) 0x77 = 0 :=
  ⟨rfl, rfl, rfl, rfl, rfl, by decide +kernel, by decide, by decide +kernel, by decide +kernel, rfl, by decide +kernel⟩

/-- A packet with the carry set of the thread. -/
def packet : Packet := ⟨1, .core 1, thread.g, 7, 0x3000, 0x1234, 1, 2, 0, 0, #v[0, 0], 1, 0, 5, .user, false, none, none⟩

/-- One context in the run queue of core 0 at a turn of slot 0, which is free. -/
def queueing (c : Ctx) : State :=
  let s := withThread fun _ => slotReset
  s.setAt (.core 0) { s.at' (.core 0) with rq := [c] }

def saved : Ctx := .saved ⟨{ thread with pc := 0x3000 }, 0, none, [], [], 2 ^ 64⟩

theorem witness_ThreadLifeResults_run_queue :
    ([saved, .arrived packet] : List Ctx).all (fun c =>
      (let s := queueing c
       !((s.slotAt ⟨.core 0, 0⟩).busy) && (s.slotAt ⟨.core 0, 0⟩).gen == none && s.cyc % 8 == 0 &&
       (s.at' (.core 0)).rq.find? (fun c => c.fits (s.at' (.core 0)) 0) == some c)) = true := by decide +kernel

/-- R52, R421: the packet's thread, and the saved one, go on where they were. -/
theorem test_run_queue :
    ([saved, .arrived packet] : List Ctx).map (fun c =>
      (let t := got (exec (.runQueueTake (.core 0) 0) (queueing c))
       (t.me.busy, t.me.pc, t.me.gr 1, t.me.wid, (t.at' (.core 0)).rq.length))) =
      [(true, 0x3000, 5, 0x1234, 0), (true, 0x3000, 5, 0x1234, 0)] := by decide +kernel

/-- A record of bucket 0 in the siding, at a turn of slot 1 of the launch's queue. -/
def startingTask : State :=
  let s := { yards with cyc := 9 }
  s.setAt (.core 0) { s.at' (.core 0) with siding := [(3, entry 0 0)] }

theorem witness_ThreadLifeResults_task :
    (let s := startingTask
     (s.slotAt ⟨.core 0, 1⟩).busy = false ∧ (s.slotAt ⟨.core 0, 1⟩).gen = none ∧ s.cyc % 8 = 1 ∧ (s.core' 0).rq = [] ∧
     (3, entry 0 0) ∈ (s.core' 0).siding ∧ s.eligible 0 (entry 0 0) = true ∧
     met (s.launch? 1) (fun l => l.queue == 0 && l.abort == none) = true ∧
     (s.core' 0).owners.toList[1]? = some 0x100000000 ∧ recGen (task 0) = false ∧ recW (task 0) 6 = 0 ∧
     (recW (task 0) 0).getLsbD 0 = false) := by decide +kernel

theorem test_task_pop :
    (let t := got (exec (.taskPop 0 1) startingTask)
     let x := t.slotAt ⟨.core 0, 1⟩
     x.busy = true ∧ x.pc = 0x1000 ∧ x.gr 1 = 0x42 ∧ x.pw = 1 ∧ x.placement = 0 ∧ (t.core' 0).siding = []) := by decide +kernel

/-- One task of a group of one, held until its group is there. -/
def gathering : State :=
  let s := withThread fun x => { x with gatherWait := true, wid := 0 }
  { s with launches := [{ launchEmpty 1 with hdr := [0, 0, 1, 0, 8, 0, 0, 0, 0, 0, 0, 0, 0, 0, 0, 0] }] }

theorem witness_ThreadLifeResults_gather :
    met (gathering.launch? 1) (fun l =>
      (let waits (x : Slot) : Bool := x.busy && x.launch == 1 && x.gatherWait && l.clusterGroup x.wid == 0
       let count := (gathering.cores.map (fun c => (c.2.slots.filter (fun e => waits e.2)).length)).sum
       count == 1 && l.groupSize 0 == 1 && !(gathering.groupQueued l 0))) = true ∧ gathering.cyc % 8 = 0 := by decide +kernel

/-- A thread that leaves for slice 3, before and after its release. -/
def departing (done : Bool) : State := withThread fun x => { x with hold := .depart (.slice 3) true none, relDone := done }

theorem witness_ThreadLifeResults_departure :
    ((departing false).slotAt ⟨.core 0, 0⟩).hold = .depart (.slice 3) true none ∧
    ((departing false).slotAt ⟨.core 0, 0⟩).busy = true ∧ ((departing false).slotAt ⟨.core 0, 0⟩).relDone = false ∧
    ((departing false).at' (.core 0)).l1Busy = false ∧ ((departing true).slotAt ⟨.core 0, 0⟩).relDone = true ∧
    (departing true).departReady ⟨.core 0, 0⟩ = true := by decide +kernel

/-- R50, R52: the packet of GOTO holds the pc past it, the slot is free, and the context joins the run queue. -/
theorem test_migration :
    (let t := got (exec (.migrationDeparture (.core 0) 0) (departing true))
     (t.slotAt ⟨.core 0, 0⟩).busy = false ∧ t.flights.length = 1 ∧
     (let u := got (exec .migrationArrival { t with subj := (t.flights.map (fun f => f.id)).headD 0 })
      u.flights = [] ∧ (u.at' (.slice 3)).rq.map (fun c => match c with
        | .arrived p => p.pc
        | .saved _ => 0) = [0x1008])) := by decide +kernel

theorem witness_ThreadLifeResults_arrival :
    (let s := onTheWay (.migrate packet) (.core 0)
     met (s.flight? s.subj) (fun f => f.body == .migrate packet && s.first f) = true ∧ s.l2Free = true ∧
     (s.at' (.core 0)).rq.length < 64 ∧ met (s.launch? packet.launch) (fun l => l.abort == none) = true) := by decide +kernel

/-- Walks of pages 0 and 1 with slot 0 waiting. -/
def walking (page : Nat) : State := { tables.updMe (fun x => { x with walkWait := some ⟨0, page, none⟩ }) with
  clusters := [(0, { (tables.cluster 0) with walks := [⟨4, 0, page, 0, [⟨.core 0, 0⟩], 0⟩] })], subj := 4 }

theorem witness_ThreadLifeResults_walk :
    ((walking 0).clusters.findSome? (fun e => ((e.2.walks.take 8).find? (fun w => w.id == (walking 0).subj)).map (fun w => (e.1, w))) =
      some (0, ⟨4, 0, 0, 0, [⟨.core 0, 0⟩], 0⟩)) ∧
    ((walking 0).useLines ((walkLines (walking 0) 0 (BitVec.ofNat 64 (0 * 65536))).map
      (fun l => ((walking 0).frameHome (l * 128), l, false)))).isSome = true ∧
    walk (walking 0) 0 (BitVec.ofNat 64 (0 * 65536)) = .leaf 3 16 ∧
    walk (walking 1) 0 (BitVec.ofNat 64 (1 * 65536)) = .fail 3 3 := by decide +kernel

/-- R85, R426: the leaf fills the TLB; the failure waits for the thread's next try. -/
theorem test_walk_completes :
    (((got (exec .tlbWalkComplete (walking 0))).cluster 0).tlb = [⟨0, 0, 16, 3⟩]) ∧
    ((got (exec .tlbWalkComplete (walking 1))).me.walkWait = some ⟨0, 1, some (3, 3)⟩) := by decide +kernel

/-- Asleep for 1,024 cycles exactly, with a context in the run queue. -/
def oversleeping : State :=
  let s := withThread fun x => { x with asleep := some ⟨8, .sleep, none⟩ }
  { s.setAt (.core 0) { s.at' (.core 0) with rq := [saved] } with cyc := 1032 }

/-- Slot 1 changes from queue 0 to queue 5, free; slot 0 too, with preempt. -/
def regiven : State :=
  base.setAt (.core 0) { base.at' (.core 0) with owners := ((base.at' (.core 0)).owners.set 1 0x100000005).set 0 0x200000005 }

theorem witness_ThreadLifeResults_waiting :
    (oversleeping.slotAt ⟨.core 0, 0⟩).asleep = some ⟨8, .sleep, none⟩ ∧ (oversleeping.slotAt ⟨.core 0, 0⟩).busy = true ∧
    8 + 1024 ≤ oversleeping.cyc ∧ (oversleeping.core' 0).rq ≠ [] ∧ oversleeping.vacateReady ⟨.core 0, 0⟩ = true ∧
    ((regiven.core' 0).owners.toList[1]? = some 0x100000005 ∧ regiven.cyc % 8 = 0 ∧
      (0x100000005 : Word).extractLsb' 24 8 ≠ (0x100000005 : Word).extractLsb' 0 8 ∧ (regiven.slotAt ⟨.core 0, 1⟩).busy = false ∧
      (regiven.slotAt ⟨.core 0, 1⟩).gen = none) ∧
    ((regiven.core' 0).owners.toList[0]? = some 0x200000005 ∧ (regiven.slotAt ⟨.core 0, 0⟩).busy = true ∧
      (0x200000005 : Word).getLsbD 33 = true ∧ regiven.vacateReady ⟨.core 0, 0⟩ = true) := by decide +kernel

/-- A fault that came late, a trap brought back from a slice core, a sleep that ends now. -/
theorem witness_ThreadLifeResults_deliveries :
    (let s := withThread fun x => { x with late := some ⟨5, 0x2003, 0xFF, some 7, none⟩ }
     (s.slotAt ⟨.core 0, 0⟩).late = some ⟨5, 0x2003, 0xFF, some 7, none⟩ ∧ s.atTurn ⟨.core 0, 0⟩ = true ∧
     (s.slotAt ⟨.core 0, 0⟩).handler = .none) ∧
    (let s := withThread fun x => { x with sliceTrap := some ⟨4, 0x2000, 0, false⟩ }
     (s.slotAt ⟨.core 0, 0⟩).sliceTrap = some ⟨4, 0x2000, 0, false⟩ ∧ s.atTurn ⟨.core 0, 0⟩ = true) ∧
    (let s := withThread fun x => { x with sliceTrap := some ⟨0x20, 0, 0, true⟩ }
     (s.slotAt ⟨.core 0, 0⟩).sliceTrap = some ⟨0x20, 0, 0, true⟩ ∧ s.atTurn ⟨.core 0, 0⟩ = true) ∧
    (let s := withThread fun x => { x with asleep := some ⟨0, .sleep, some 8⟩ }
     (s.slotAt ⟨.core 0, 0⟩).asleep = some ⟨0, .sleep, some 8⟩ ∧ 8 ≤ s.cyc ∧ s.atTurn ⟨.core 0, 0⟩ = true) := by decide +kernel

theorem witness_ThreadLifeResults_wake :
    (let s := onTheWay (.wake 0 0) (.core 0)
     met (s.flight? s.subj) (fun f => f.body == .wake 0 0 && f.launch == (s.slotAt ⟨.core 0, 0⟩).launch) = true ∧
     s.coreLive 0 = true ∧ (s.slotAt ⟨.core 0, 0⟩).busy = true ∧ (s.slotAt ⟨.core 0, 0⟩).asleep = none ∧
     ((s.updMe fun x => { x with asleep := some ⟨0, .sleep, none⟩ }).slotAt ⟨.core 0, 0⟩).asleep = some ⟨0, .sleep, none⟩ ∧
     (s.slotAt ⟨.core 0, 1⟩).busy = false) := by decide +kernel

theorem test_wake :
    (got (exec .wakeArrival (onTheWay (.wake 0 0) (.core 0)))).me.wake = true ∧
    (got (exec .wakeArrival ((onTheWay (.wake 0 0) (.core 0)).updMe fun x => { x with asleep := some ⟨0, .sleep, none⟩ }))).me.pc =
      0x1008 := by decide +kernel

-- the host

/-- Queue 3 with its ring in host memory at 0x1000 (size 4, weight 5, enabled), tail at 0x800, head at 0x840, root 0. The
tail is 2; the launch header at 0x4000 and a wait word at 0x5000 are in device memory, mapped by `tables` with frame 0. -/
def hosting (p : List Pkt) : State := { tables with
  cyc := 1024, mem := tables.mem ++ [(0x5000, 3), (0x5008, 1)],
  hostMem := [(0x800, 2), (0x1000, 2), (0x1011, 0x50)],
  queues := [(3, { queueReset with
    ent := [0x1000, 0x30500000004, 0x800, 0x840, 0, 0, 0, 0], served := true, pkts := p })], subj := 3 }

theorem witness_HostResults_queues :
    (hosting []).booted = true ∧ (hosting []).cyc % 1024 = 0 ∧ ((hosting []).queues.map (fun e => e.1)).Nodup ∧
    (hosting []).coreLive 3 = true ∧ (3 : Nat) < 256 ∧ (255 : Nat) < 256 ∧ (hosting []).subj < 256 ∧ (hosting []).tripped = false ∧
    (let q := (hosting []).queueOf 3
     q.fetches = true ∧ q.ringHead < (hosting []).locNat (q.loc (recW q.ent 2).toNat) 8 ∧ (∀ p ∈ q.pkts, packetBad p.words = 0) ∧
     (hosting []).hostHeld [q.loc (recW q.ent 3).toNat] = [] ∧
     (hosting []).locPoison (q.loc ((recW q.ent 0).toNat + 64 * (q.ringHead % ((recW q.ent 1).extractLsb' 0 32).toNat))) = false) := by
  decide +kernel

/-- R388: the first packet is fetched and the head word counts it. -/
theorem test_fetch :
    (let t := got (exec .tailMonitorWake (hosting []))
     (t.queueOf 3).pkts.map (fun p => (p.n, pKind p.words, recW p.words 2)) = [(0, 2, 0x5000)] ∧ t.locNat (.host 0x840) 8 = 1) := by
  decide +kernel

/-- Packets of each kind: a WAIT for 3 at 0x5000, SIGNALs that write and add 5 there, a COPY of two bytes, a PHASE. -/
def waitPkt : Pkt := ⟨0, [2, 0x5008, 0x5000, 3, 0, 0, 0, 0], false, false, none, []⟩
def addPkt : Pkt := ⟨0, [0x7020005, 0x5008, 0x5000, 5, 1, 0, 0, 0], false, false, none, []⟩
def copyPkt : Pkt := ⟨0, [4, 0, 0x5010, 0x5000, 2, 0, 0, 0], false, false, none, []⟩
def phasePkt : Pkt := ⟨0, [0x900000003, 0, 0, 0, 0, 0, 0, 0], false, false, none, []⟩

/-- A LAUNCH of the header at 0x6000, its record at 0x7000, and the same with a phase. -/
def launchPkt (ph : Word) : Pkt := ⟨0, [ph * 0x100000000 + 1, 0, 0x6000, 0x99, 0x7000, 0, 0, 0], false, false, none, []⟩

theorem witness_HostResults_packets :
    (let s := hosting [waitPkt]
     (s.queueOf 3).inProgress 2 = some waitPkt ∧ met (s.warmQueue 3 ([(0x5000, 8)] ++ counterRange waitPkt)) (fun u =>
       met (u.queueWord 3 0x5000 false) (fun b => u.locNat b.loc 8 == 3 && u.counterHeld 3 waitPkt == [])) = true) ∧
    (let s := hosting [addPkt]
     (s.queueOf 3).inProgress 5 = some addPkt ∧ met (s.warmQueue 3 ([(0x5000, 8)] ++ counterRange addPkt)) (fun u =>
       met (u.queueWord 3 0x5000 true) (fun b => u.hostHeld [b.loc] ++ u.counterHeld 3 addPkt == [])) = true) ∧
    (let s := hosting [copyPkt]
     (s.queueOf 3).inProgress 4 = some copyPkt ∧ met (s.warmQueue 3 ([(0x5000, 2), (0x5010, 2)] ++ counterRange copyPkt)) (fun u =>
       let t := { u with cur := ⟨.core (u.queueOf 3).core, 0⟩ }
       let l := (List.range 2).filterMap (fun i => match t.srcOf 0 (0x5000 + BitVec.ofNat 64 i), t.dstOf 0 (0x5010 + BitVec.ofNat 64 i) with
         | .ok a, .ok b => some (a, b)
         | _, _ => none)
       u.l2Free && l.length == 2 && u.hostHeld (l.map (fun x => x.2.loc)) == [] &&
       ((u.useBytes (l.map (fun x => x.1))).bind (fun w => w.writeGroups (u.copyBytes l))).isSome) = true) ∧
    (let s := hosting [phasePkt]
     (s.queueOf 3).inProgress 3 = some phasePkt ∧ pPhase phasePkt.words ≠ (s.queueOf 3).lastPhase ∧ s.backsDone [0] = true ∧
     (s.warmQueue 3 ([] ++ counterRange phasePkt)).isSome = true) ∧
    (hosting []).l2Free = true ∧ (hosting []).queueByte 3 0x5000 = some ⟨0x5000, .dev 0x5000, 3, 16⟩ ∧
    (let p : Pkt := ⟨0, [6, 0, 0, 0, 0, 0, 0, 0], false, false, none, []⟩
     ((hosting [p]).queueOf 3).toStart = some p ∧
     met ((hosting [p]).warmQueue 3 [(0, 8)]) (fun u => u.startError 3 p == 1) = true) := by decide +kernel

/-- R390: the packet after one in progress waits for it, a LAUNCH with overlap does not; a word whose line has an error cannot
be reached (R461). -/
theorem witness_HostResults_order :
    pKind (launchPkt 0).words = 1 ∧ pOverlap ((0x10001 : Word) :: (launchPkt 0).words.drop 1) = true ∧ pOverlap waitPkt.words = false ∧
    (hosting []).queueByte 3 0x10000 = none ∧ { hosting [] with poison := [0xA0] }.queueWord 3 0x5000 false = none := by
  decide +kernel

/-- R390: 3 is at least 3, so the WAIT ends and its counter counts; the SIGNAL adds 5 and asks for vector 7; the COPY copies. -/
theorem test_packets :
    (let t := got (exec .wait (hosting [waitPkt]))
     t.locNat (.dev 0x5008) 8 = 2 ∧ (t.queueOf 3).pkts = []) ∧
    (let t := got (exec .signal (hosting [addPkt]))
     t.locNat (.dev 0x5000) 8 = 8 ∧ t.msix = [7]) ∧
    (let t := got (exec .copy (hosting [copyPkt]))
     t.byteAt (.dev 0x5010) = 3 ∧ (t.queueOf 3).pkts = []) ∧
    (let t := got (exec .phase (hosting [phasePkt]))
     (t.queueOf 3).lastPhase = 9 ∧ t.clusters = [] ∧ (t.queueOf 3).pkts.length = 1) := by decide +kernel

/-- A header: pc 0x1000, count 1, layout 0 for a grid or a root task, 8 registers, spill area 0x8000 of 4 KiB, window 16 to 23. -/
def header (lay : Word) : List Word := [0x1000, 0x42, 1, lay, 8, 0, 0, 0x8000, 0x1000, 0x00080010, 0, 0, 0, 0, 0, 0]

def launching (lay ph : Word) : State :=
  let s := hosting [launchPkt ph]
  { s with launches := [], mem := (header lay).zipIdx.foldl (fun m e => Memory.writeNat m (0x6000 + 8 * e.2) 8 e.1.toNat) s.mem }

theorem witness_HostResults_launch :
    ([0, 0x400000000000] : List Word).all (fun lay =>
      met ((launching lay 0).warmQueue 3 [(0x6000, 128), (0x7000, 64)]) (fun s =>
       let q := s.queueOf 3
       let h := s.headerOf 3 (launchPkt 0)
       let l := { launchOf 7 3 h with
         lid := 0x99, rect := 0, root := q.root &&& 0x000FFFFFFFFF00FF, recAddr := 0x7000, pkt := 0, pairId := 0, peer := 0 }
       let least := if lay = 0 then 0 else 1
       let k := { l with cores := s.placedOn l least }
       let core := if k.isRoot then least else s.coreFor k 0
       let w := ((s.queueByte 3 0x6000).map (fun b => s.agentUse b 128)).getD s
       w.choicesOk q k least && q.toStart == some (launchPkt 0) && s.startError 3 (launchPkt 0) == 0 && s.backsDone (q.cores ++ k.cores) && s.l2Free &&
       h == header lay && headerOk h &&
       !(s.mustWait k k.cores) && (s.core' core).freeEntry.isSome && (s.deltasOf core 7).bks.length == 0)) = true := by
  decide +kernel

/-- A phase that is new; a header that is wrong (its vector registers are 9). -/
theorem witness_HostResults_launch_others :
    pPhase (launchPkt 5).words ≠ ((launching 0 5).queueOf 3).lastPhase ∧ ((launching 0 5).queueOf 3).toStart = some (launchPkt 5) ∧
    headerOk ((header 0).set 4 9) = false ∧
    (launching 0 0).reportHeld { launchOf 7 3 (header 0) with recAddr := 0x7000 } (launchPkt 0) = [] ∧
    met ((launching 0 0).queueByte 3 0x7000) (fun r => !(pteRo r.pte) && ((launching 0 0).homeOf r).isSome) = true ∧
    (let p := { launchPkt 0 with dropped := [0] }
     p.dropped ≠ [] ∧ [0, 1].filter (fun c => !(p.dropped.contains c)) ≠ [] ∧ [0].filter (fun c => !(p.dropped.contains c)) = []) := by
  decide +kernel

/-- A launch whose termination has been signalled, with its packet; before and after the write-back; one that was ended with
a thread left. -/
def completing (wb : Bool) (ab : Option (BitVec 32)) (k : Nat) : State :=
  let s := hosting [{ launchPkt 0 with started := true }]
  let l := { launchOf k 3 (header 0) with recAddr := 0x7000, lid := 0x99, start := some 0, wb := wb, abort := ab, yard := { yardStart with signalled := true } }
  { s with launches := [l], subj := k }

theorem witness_HostResults_completion :
    ([(false, none, 2), (true, none, 2), (true, some 1, 2), (true, some 1, 1)] : List (Bool × Option (BitVec 32) × Nat)).all
      (fun a => (let s := completing a.1 a.2.1 a.2.2
        met (s.launch? s.subj) (fun l => s.mayComplete l && s.l2Free && s.backsDone (s.queueOf l.queue).cores && l.wb == a.1 && l.abort == a.2.1 &&
          s.reportHeld l { launchPkt 0 with started := true } == [] &&
          (s.queueOf l.queue).pkts.find? (fun p => p.n == l.pkt) == some { launchPkt 0 with started := true } &&
          (s.flushCounts l).queuePlace l.queue l.recAddr.toNat == some (.dev 0x7000) &&
          (s.threadsOf l.num == []) == (a.2.2 == 2)))) = true := by decide +kernel

/-- R396: the record names the launch, its status and no cause. -/
theorem test_completion :
    (let t := got (exec .launchCompletion (completing true none 2))
     t.launches.length = 0 ∧ t.locNat (.dev 0x7000) 8 = 0x99 ∧ t.locNat (.dev 0x7008) 4 = 0 ∧ t.locNat (.dev 0x7034) 4 = 0xFFFFFFFF) ∧
    (got (exec .launchCompletion (completing true (some 1) 1))).me.busy = false := by decide +kernel

/-- The ring at 0x2000 of 64 places: 63 events in it; full; not configured; not configured with 64 held. -/
def ringing (size : BitVec 32) (tail : Word) (held : Nat) : State := { base with
  ring := { base.ring with base := 0x2000, size := size, tail := tail, store := List.replicate held ([1, 0, 0, 0], none) } }

theorem witness_HostResults_events :
    (let r := (ringing 64 63 0).ring
     r.configured = true ∧ (r.tail - r.head).toNat < r.size.toNat) ∧
    (let r := (ringing 64 64 0).ring
     r.configured = true ∧ r.size.toNat ≤ (r.tail - r.head).toNat) ∧
    ((ringing 0 0 63).ring.configured = false ∧ (ringing 0 0 63).ring.store.length < 64) ∧
    ((ringing 0 0 64).ring.configured = false ∧ 64 ≤ (ringing 0 0 64).ring.store.length) ∧
    (let r := { (ringing 0 0 1).ring with base := 0x2000, size := 64 }
     r.configured = true ∧ (ringing 0 0 1).ring.lossDue = false ∧ (ringing 0 0 1).ring.store.length + (r.tail - r.head).toNat ≤ 64) ∧
    (let s := (got (exec (.eventPost 0x0400 0 7 0) (ringing 64 64 0))).enterEvents
     s.ring.configured = true ∧ s.ring.lossDue = true ∧ s.ring.tail = 64 ∧ s.booted = true) := by decide +kernel

/-- R398, R399, R462: an event in its place; those held come first; a lost one leaves a summary when the head reaches the tail. -/
theorem test_events :
    (let t := (got (exec (.eventPost 0x0400 0x12 7 0) (ringing 64 63 0))).enterEvents
     t.locNat (.host 0x27E0) 8 = 0x1200000400 ∧ t.locNat (.host 0x27E8) 8 = 7 ∧ t.ring.tail = 64) ∧
    ((got (exec (.eventRingConfigure 0x2000 64) (ringing 0 0 1))).locNat (.host 0x2000) 8 = 1) ∧
    (let s := (got (exec (.eventPost 0x0400 0 7 0) (ringing 64 64 0))).enterEvents
     let t := got (exec (.eventHeadAdvance 64) s)
     s.ring.overflow = 1 ∧ t.locNat (.host 0x2000) 2 = 0x0100 ∧ t.ring.tail = 65) := by decide +kernel

/-- The last byte of CXL.mem and the first beyond it; a line that is snooped for; a pair's launch with its peer 9. -/
theorem witness_HostResults_memory_and_couplings :
    (0x2FFFFFFFFF + ([0x5A] : List Byte).length ≤ (hosting []).dramBytes ∧ (hosting []).dramBytes < 0x3000000000 + 1 ∧
      (hosting []).booted = true ∧ (hosting []).l2Free = true ∧ State.reset.booted = false) ∧
    3 ∈ ({ base with snoops := [3], subj := 3 } : State).snoops ∧
    (∀ l ∈ ({ base with launches := [] } : State).launches, l.finished = true) ∧
    (let s := { base with launches := [{ launchEmpty 1 with pairId := 4, peer := 9 }], subj := 1 }
     met (s.launch? s.subj) (fun l => l.pairId != 0 && !(s.lostCouplings.contains l.peer.toNat) && !l.yard.done) = true) := by
  decide +kernel

/-- R66, R386, R469: a byte written over CXL.mem is there; a read returns its bytes, and its line is snooped for again; before boot a
request ends with an error. -/
theorem test_cxl :
    (got (exec (.hostCxlMemAccess 0x100 1 (some [0x5A])) base)).byteAt (.dev 0x100) = 0x5A ∧
    (let t := got (exec (.hostCxlMemAccess 0x17F 2 none) { base with mem := [(0x180, 7)], snooped := [1, 2, 3] })
     t.cxl = .data [(0, false), (7, false)] ∧ t.snooped = [1]) ∧
    (got (exec (.hostCxlMemAccess 0 1 none) State.reset)).cxl = .error ∧
    (match exec (.hostCxlMemAccess 0x3000000000 1 none) base with
     | .fault f => f == .noSuchAddress
     | _ => false) = true := by decide +kernel

-- errors, heat, boot

/-- Fifteen corrected errors in this window after two full ones, one uncorrected error. -/
def erring : State := base.setErr 0x0400000000000007 ⟨15, 2, 0, 1, false⟩

theorem witness_ErrorAndBootResults_errors :
    (erring.errOf 0x0400000000000007).inWindow = 15 ∧ 2 ≤ (erring.errOf 0x0400000000000007).windows ∧
    ({ base with cyc := 2 ^ 30 }.cyc % 2 ^ 30 = 0 ∧ ({ base with cyc := 2 ^ 30 }.errOf 5).ended ≠ 2 ^ 30) ∧ base.cyc % 2 ^ 30 ≠ 0 ∧
    (base.errOf 5).inWindow ≠ 15 ∧ (erring.errOf 0x0400000000000007).retired = false ∧
    ({ erring.errOf 0x0400000000000007 with retired := true } : ErrHist).retired = true ∧
    (0x0400000000000007 : Word).extractLsb' 56 8 = 4 ∧ (5 : Word).extractLsb' 56 8 ≠ 4 ∧
    (127 / 128 ∈ { base with poison := [0] }.poison ∧ 128 / 128 ∉ { base with poison := [0] }.poison) ∧
    ((base.slotAt ⟨.core 0, 0⟩).busy = true ∧ (base.slotAt ⟨.core 0, 0⟩).late = none ∧
      (base.slotAt ⟨.core 0, 0⟩).handler = .none ∧ (base.slotAt ⟨.core 0, 0⟩).umber = none) ∧
    (onSlice.slotAt ⟨.slice 64, 0⟩).busy = true := by decide +kernel

/-- R464, R466: the second uncorrected error retires the coupling lane; the line is poisoned once. -/
theorem test_errors :
    (let t := got (exec (.uncorrectableError (.line 0x80) 0x0400000000000007) erring)
     t.poison = [1] ∧ t.retireLog = [(0x0400000000000007, 8)] ∧ tabGet 0 t.deadLanes 0 = 0x80) ∧
    (got (exec (.uncorrectableError (.line 0xFF) 5) (got (exec (.uncorrectableError (.line 0x80) 5) base)))).poison = [1] := by
  decide +kernel

/-- Carriage 16 of a launch's window comes past the depot in this cycle. -/
def failingBeat (n : Nat) : State :=
  let s := { windowed with cyc := 11, subj := n }
  s.setCar n { s.car n with st := .seated, lastRev := some 8 }

theorem witness_ErrorAndBootResults_ring :
    (failingBeat 16).subj < 2048 ∧ passes (failingBeat 16).cyc 0 16 = true ∧
    ((failingBeat 16).car 16).st ≠ .empty ∧
    met ((failingBeat 16).launches.find? (fun l => !l.finished && decide (l.winBase ≤ 16) && decide (16 < l.winBase + l.winCount)))
      (fun l => (failingBeat 16).launch? l.num == some l && l.winBase == 16) = true := by decide +kernel

theorem test_ring_beat :
    (let t := got (exec .ringBeatError (failingBeat 16))
     (t.car 16).st = .empty ∧ met (t.launch? 1) (fun l => l.abort == some 1 && l.cause == 0x20) = true) := by decide +kernel

/-- Coupling 0 without a live lane, with device 9 beyond it; couplings 8 and 0 with lanes. -/
theorem witness_ErrorAndBootResults_coupling :
    (let s := { base with deadLanes := [(0, 0xFFFF)], subj := 9 }
     s.subj / 256 < 8 ∧ tabGet 0 s.deadLanes (s.subj / 256) = 0xFFFF ∧ s.subj % 256 ∉ s.lostCouplings) ∧
    8 ≤ ({ base with subj := 2048 } : State).subj / 256 ∧ tabGet 0 base.deadLanes 0 ≠ 0xFFFF := by decide +kernel

theorem witness_ErrorAndBootResults_heat :
    base.tripped = false ∧ 1050 ≤ (1050 : Word).toNat ∧ (1049 : Word).toNat < 1050 ∧ (base.heat true).tripped = true ∧
    (949 : Word).toNat < 950 ∧ 950 ≤ (950 : Word).toNat := by decide +kernel

/-- R468: nothing is fetched while the trip lasts. -/
theorem test_thermal :
    ((got (exec (.thermalTrip 1050) (hosting []))).queueOf 3).fetches = false ∧
    ((got (exec (.thermalTrip 1049) (hosting []))).queueOf 3).fetches = true ∧
    ((got (exec (.thermalTripClear 949) (got (exec (.thermalTrip 1050) (hosting []))))).queueOf 3).fetches = true := by decide +kernel

/-- Every stop of boot, and the end without one: eight dead clusters on die 0 are allowed, nine are not. -/
def flashed (a : Bool) (c : Bool) : State := { State.reset with imageA := (a, 7), imageB := (false, 0), confRec := ⟨c, 9, []⟩ }

theorem witness_ErrorAndBootResults_boot :
    State.reset.bootStatus.extractLsb' 0 8 = 0 ∧ base.bootStatus.extractLsb' 0 8 = 0 ∧
    ((flashed true true).imageA.1 = true ∧ (flashed true true).confRec.ok = true ∧ (flashed true false).confRec.ok = false ∧
      (flashed false true).imageA.1 = false ∧ (flashed false true).imageB.1 = false) ∧
    unitsOk [1, 2, 3, 4, 5, 6, 7, 8] [] = true ∧ unitsOk [1, 2, 3, 4, 5, 6, 7, 8, 9] [] = false ∧ unitsOk [0] [] = false := by
  decide +kernel

theorem test_boot :
    (let t := got (exec (.boot true [5] [] ⟨[], []⟩) (flashed true true))
     t.booted = true ∧ t.bootStatus = 0x1050001 ∧ t.deadClusters = [5] ∧ t.bootImage = 1) ∧
    (got (exec (.boot false [] [] ⟨[], []⟩) (flashed true true))).bootStatus = 0x402 ∧
    (got (exec (.boot true [] [] ⟨[], []⟩) (flashed false true))).bootStatus = 0x102 ∧
    (got (exec (.boot true [] [] ⟨[], []⟩) (flashed true false))).bootStatus = 0x1010202 ∧
    (got (exec (.boot true [0] [] ⟨[], []⟩) (flashed true true))).bootStatus = 0x1040302 := by decide +kernel

/-- R77, R400: the unit map of a module without cluster 5 and with a channel of 256 gone; where its class table then stands. -/
theorem test_unit_map :
    (let t := got (exec (.boot true [5] [] ⟨[255], [17]⟩) (flashed true true))
     t.bar2 0x5000 = some 0xDF ∧ t.bar2 0x5104 = some 0xFC ∧ t.bar2 0x5105 = some 0x0F ∧ t.bar2 0x5127 = some 0x7F ∧
     t.bar2 0x5080 = some 0xFF ∧ t.bar2 0x512C = some 0xFD ∧ (flashed true true).bar2 0x5000 = none ∧
     t.dramBytes = 255 * 0x30000000 ∧ t.dramBytes - 65536 < t.frameTable + 4 * (t.dramBytes / 65536) ∧
     t.frameTable + 4 * (t.dramBytes / 65536) ≤ t.dramBytes) := by decide +kernel

/-- Image A in use; the states of boot that attestation knows; the bounds of the link. -/
theorem witness_ErrorAndBootResults_rest :
    (let s := { base with bootImage := 1, bootStatus := 0x1050001 }
     0 = s.bootImage - 1 ∧ 1 ≤ s.bootImage ∧ s.bootImage ≤ 2 ∧ s.bootImage ≠ 2 ∧ (s.bootStatus.extractLsb' 0 8).toNat = 1) ∧
    (({ base with bootStatus := 0x402 } : State).bootStatus.extractLsb' 0 8).toNat = 2 ∧
    (base.bootStatus.extractLsb' 0 8).toNat = 0 ∧ base.bootImage ≠ 1 ∧ (1 ≤ 1 ∧ 16 ≤ 16 ∧ 1 ≤ 1 ∧ 128 ≤ 128) ∧ base.booted = true ∧
    State.reset.booted = false ∧ 2 < 3 := by decide +kernel

-- further clauses of the statements above

/-- 64 walks of other pages pending in cluster 0. -/
def walksFull : State := { mapped with
  clusters := [(0, { mapped.cluster 0 with walks := (List.range 64).map fun k => ⟨k, 0, 100 + k, 0, [], 0⟩ })] }

theorem witness_AccessChecks_queue :
    (let cl := walksFull.cluster (clusterOf walksFull.cur.pl)
     tlbFind (walksFull.at' walksFull.cur.pl).utlb ((walksFull.rootOf walksFull.cur).setWidth 8) 0x20000 = none ∧
     tlbFind cl.tlb ((walksFull.rootOf walksFull.cur).setWidth 8) 0x20000 = none ∧ walksFull.me.walkWait = none ∧
     64 ≤ cl.walks.length ∧
     (cl.walks ++ cl.walkQ).all (fun w => !(w.asid == (walksFull.rootOf walksFull.cur).setWidth 8 && w.page == 2)) = true) := by
  decide +kernel

/-- The class entries of frames 0 and 1: tensor-map class with argument 5, region-local class beneath slice 3 alone. -/
def classed : State := { base with
  mem := [(base.frameTable, 5), (base.frameTable + 2, 0x20), (base.frameTable + 4, 3), (base.frameTable + 6, 0x10)] }

theorem witness_WalksAndHomes_table :
    (BitVec.ofNat 32 (Memory.readNat classed.mem (classed.frameTable + 4 * (0xFFFF / 65536)) 4) = (0x200005 : BitVec 32)) ∧
    (BitVec.ofNat 32 (Memory.readNat classed.mem (classed.frameTable + 4 * (0x10000 / 65536)) 4) = (0x100003 : BitVec 32)) ∧
    mapOk 2 5 false = true ∧ mapOk 1 3 false = true ∧ classed.rectSlices 3 ≠ [] ∧ Memory.readNat classed.mem 0 4 = 0 := by
  decide +kernel

/-- R77: the class of a frame is what its 4-byte entry in device memory says. -/
theorem test_frame_class : classed.frameMap 0xFFFF = (2, 5) ∧ classed.frameMap 0x10000 = (1, 3) := by decide +kernel

theorem witness_RegisterChecks_relative :
    (let s := withThread fun x => { x with pend := [.ix] }
     fieldTrap [.src ⟨1, true⟩] s.me = none ∧ (Use.src ⟨1, true⟩).rel = true ∧ s.me.isPend .ix = true ∧
     s.me.isPend ((Use.src ⟨1, true⟩).preg s.me) = false) := by decide +kernel

theorem witness_TrapsAndPlainSystemResults_pending :
    (withThread fun x => { x with pend := [.g 9] }).me.isPend (.g 9) = true ∧
    (List.range 10).all (fun r => !(base.me.isPend (.g r))) = true ∧ onSlice.cur.pl = .slice 64 := by decide +kernel

/-- R404, R415: TRAP with the system-call cause asks no service; on a slice core the thread leaves for its origin core. -/
theorem test_trap_sysc :
    (let t := got (exec (.trap 1 0x17) base)
     t.me.umber = some .kill ∧ t.me.sepc = 0x1000 ∧ t.me.tval = 5 ∧ t.me.mode = .supervisor) ∧
    (got (exec (.trap 1 0x17) onSlice)).me.hold = .depart (.core 0) false none ∧
    (let s := withThread fun x => { x with pend := [.g 9] }
     exec (.sysc 3) s = .next s) := ⟨by decide +kernel, by decide +kernel, by rfl⟩

theorem witness_ReturnsFromExceptions_pending :
    (let s := withThread fun x => { x with handler := .interrupt, pend := [.g 15] }
     s.me.handler = .interrupt ∧ s.me.isPend .pw = false ∧ s.me.isPend (.g 15) = true ∧ exec .uret s = .next s) ∧
    (withThread fun x => { x with handler := .interrupt, pend := [.pw] }).me.isPend .pw = true :=
  ⟨⟨rfl, by decide +kernel, by decide +kernel, rfl⟩, by decide +kernel⟩

/-- The thread has a load on its way. -/
def loadOut : State := onTheWay (.load 4 8 false eightBytes [] 0) (.slice 0)

theorem witness_ReleaseAndAcquire_loads :
    mapped.loadsOut mapped.cur = [] ∧ loadOut.loadsOut loadOut.cur ≠ [] ∧ (2 : Nat) ≤ (4 : BitVec 3).toNat ∧
    loadOut.me.relDone = false ∧ (loadOut.at' loadOut.cur.pl).l1 = [] := by decide +kernel

/-- R97, R100: a fence waits for the loads before it. -/
theorem test_fence_waits_for_loads :
    (got (exec (.fenceAcq 4) loadOut)).me.hold = .held ∧ (got (exec (.fenceAcq 4) loadOut)).me.pc = 0x1000 ∧
    (got (exec (.fenceRel 4) loadOut)).me.hold = .held ∧ (got (exec (.fenceAcq 4) mapped)).me.pc = 0x1008 := by decide +kernel

/-- Page 0 of coherent and of other host memory. -/
def hostPaged (pte : Word) : State :=
  { mapped with clusters := [(0, { mapped.cluster 0 with tlb := [⟨0, 0, 16, pte⟩] })] }.setAt (.core 0)
    { mapped.at' (.core 0) with utlb := [⟨0, 0, 16, pte⟩] }

theorem witness_LocalAtomicCacheFenceAndResidencyResults_host :
    ([0x33, 0x13] : List Word).all (fun pte =>
      met ((hostPaged pte).quietByte 0x2000) (fun b => b.loc == .host 0x2000 && b.pte == pte &&
        ((hostPaged pte).homeOf b).isSome)) = true := by decide +kernel

/-- R272: PREF of a coherent host page fills its home slice; HOME on a slice core does not leave it. -/
theorem test_pref_home :
    ((got (exec (.pref ⟨9, 0, 0, 0⟩) (hostPaged 0x33))).flights.map fun f => f.body) = [.fill 64 64 true] ∧
    ((got (exec (.pref ⟨9, 0, 0, 0⟩) (hostPaged 0x13))).flights.map fun f => f.body) = [] ∧
    (got (exec (.home 4 5 0) onSlice)).me.hold = .none := by decide +kernel

theorem witness_FloatLaneResults_forms :
    (∃ vs t, Issues 0x8C [plain 3, plain 3] [plain 4] [.src (gf 3)] (8 + 14 * (((vecs.lanesOn 3 16).length * 32 + 31) / 32)) vecs
      vs t ∧ OldOf (plain 4) t 0 t) ∧
    (∃ vs t, Issues 0x83 [plain 3, plain 3, plain 4] [plain 4] [.src (gf 3)]
      (8 + 7 * (((vecs.lanesOn 3 16).length * 32 + 31) / 32)) vecs vs t) ∧
    (∃ vs t, Issues 0x86 [plain 3] [plain 4] [.src (gf 3)] (8 + 2 * (((vecs.lanesOn 3 16).length * 32 + 31) / 32)) vecs vs t ∧
      OldOf (plain 4) t 0 t) ∧
    (∃ vs t, Issues 0x88 [plain 3] [plain 4] [.src (gf 3)]
      (8 + 14 * (((vecs.lanesOn 3 16).length * 32 + 31) / 32)) vecs vs t ∧ OldOf (plain 4) t 0 t) ∧
    (∃ vs t, Issues 0x89 [plain 3] [plain 4] [.src (gf 3)]
      (8 + 14 * (((vecs.lanesOn 3 16).length * 32 + 31) / 32)) vecs vs t ∧ OldOf (plain 4) t 0 t) ∧
    (∃ vs t, Issues 0x8B [plain 3] [plain 4] [.src (gf 3)]
      (8 + 14 * (((vecs.lanesOn 3 16).length * 32 + 31) / 32)) vecs vs t ∧ OldOf (plain 4) t 0 t) ∧
    (∃ vs t, Issues 0x8D [plain 3] [plain 4] [.src (gf 3)]
      (8 + 14 * (((vecs.lanesOn 3 16).length * 32 + 31) / 32)) vecs vs t ∧ OldOf (plain 4) t 0 t) :=
  ⟨⟨_, _, rfl, rfl⟩, ⟨_, _, rfl⟩, ⟨_, _, rfl, rfl⟩, ⟨_, _, rfl, rfl⟩, ⟨_, _, rfl, rfl⟩, ⟨_, _, rfl, rfl⟩, ⟨_, _, rfl, rfl⟩⟩

/-- 1 / 2 is 0.5; the root of 2 rounds to 0x3FB504F3; 1 over the root of 1 is 1; log2 2 is 1; |NaN| is the canonical NaN, and
-NaN the canonical NaN with the sign inverted. -/
theorem test_float_lane_forms :
    (let s := vecs.updMe fun x => { x with f := x.f.set 5 (lanes 32 [0x40000000, 0x3F800000, 0x7FC01234]) }
     laneOf 32 (got (exec (.vdiv ⟨plain 4, plain 3, plain 5, 0, 5, false⟩) s)) 4 0 = 0x3F000000 ∧
     laneOf 32 (got (exec (.vsqrt ⟨plain 4, plain 5, 0, 5, false⟩) s)) 4 0 = 0x3FB504F3 ∧
     laneOf 32 (got (exec (.vrsq ⟨plain 4, plain 5, 0, 5, false⟩) s)) 4 1 = 0x3F800000 ∧
     laneOf 32 (got (exec (.vlog2 ⟨plain 4, plain 5, 0, 5, false⟩) s)) 4 0 = 0x3F800000 ∧
     laneOf 32 (got (exec (.vabs ⟨plain 4, plain 5, 0, 5, false⟩) s)) 4 2 = 0x7FC00000 ∧
     laneOf 32 (got (exec (.vneg ⟨plain 4, plain 5, 0, 5, false⟩) s)) 4 2 = 0xFFC00000) := by decide +kernel

theorem witness_VectorMemoryResults_lanes :
    Passes (lanesGate false 1 (vecs.lanesOn 3 16) 0xE0000000000000 (vecs.me.f[1])) vecs ∧
    Passes (lanesGate true 1 (vecs.lanesOn 3 16) 0xE0000000000000 (vecs.me.f[1])) vecs :=
  ⟨lanesGate_passes (by decide +kernel) (lookLanes_passes (by decide +kernel)),
    lanesGate_passes (by decide +kernel) (lookLanes_passes (by decide +kernel))⟩

/-- VIOTA's field a is checked though nothing is read from it (R206, R212, R303). -/
theorem witness_LaneMovementResults_iota :
    fieldTrap [.vec (plain 31)] (vecs.updMe fun x => { x with nalloc := 8 }).me = some 31 ∧
    (∃ vs t, Issues 0x9F [] [plain 4] [.src (gf 3)] (8 + 2 * (((vecs.lanesOn 3 16).length * 32 + 31) / 32)) vecs vs t ∧
      OldOf (plain 4) t 0 t) ∧ fieldTrap [.vec (plain 31)] vecs.me = none := ⟨by decide +kernel, ⟨_, _, rfl, rfl⟩, by decide +kernel⟩

theorem test_viota :
    (let s := vecs.updMe fun x => { x with nalloc := 8 }
     (got (exec (.viota ⟨plain 4, plain 31, 3, 1, false⟩) s)).me.tval = 31) ∧
    laneOf 32 (got (exec (.viota ⟨plain 4, plain 31, 3, 1, false⟩) vecs)) 4 2 = 1 := by decide +kernel
/-- SPEC's turn at the Mordant: taken up now, not yet its turn, a fault of the walk to be raised. -/
theorem witness_MordantResults_turn :
    clipping.TakesUp ⟨8, some 8, false, none, none⟩ ∧ clipping.l2Free = true ∧
    (let s := clipping.setCluster 0 { clipping.cluster 0 with mordantFree := 9 }
     s.me.spec = none ∧ s.mordantTurn s.cur ⟨s.cyc, none, false, none, none⟩ = false) ∧
    (clipping.updMe fun x => { x with spec := some ⟨8, some 8, true, none, some (0x11, 5, 0)⟩ }).me.spec.bind (fun q => q.stop) =
      some (0x11, 5, 0) ∧ specialised.l2Free = true ∧
    (let s := specialised.updMe fun x => { x with g := x.g.set 6 0x0002000000000083 }
     met (s.launch? 1) (fun l => (s.me.gr 6).getLsbD 0 && (s.me.gr 6).extractLsb' 48 16 != BitVec.ofNat 16 (s.vRead l (l.h 5).toNat 2))) = true :=
  ⟨⟨rfl, by decide +kernel, by decide +kernel⟩, by decide +kernel, by decide +kernel, by decide +kernel, by decide +kernel,
    by decide +kernel⟩

/-- R192: a SPEC whose Mordant is busy waits for it. -/
theorem test_spec_waits :
    (let s := clipping.setCluster 0 { clipping.cluster 0 with mordantFree := 9 }
     (got (exec (.spec 6 7) s)).me.hold = .held ∧ (got (exec (.spec 6 7) s)).me.pc = 0x1000) := by decide +kernel

/-- A member of barrier 17 ends: its departs are sent first. -/
theorem witness_ThreadLifeResults_departs :
    (let s := withThread fun x => { x with member := x.member.set 0 0x10011 }
     s.exitReady s.cur = true ∧ s.me.stage ≠ 8 ∧ s.me.member.toList.any (fun w => w.getLsbD 16) = true) ∧
    (let s := withThread fun x => { x with stage := 8 }
     s.exitReady s.cur = true ∧ s.me.stage = 8 ∧ s.departsOut 0 s.cur.k = false) := by decide +kernel

/-- The spill area of the launch, mapped (its count words are in memory) and not mapped. -/
theorem witness_YardInstructionResults_open :
    ([0, 1, 2, 3, 4] : List Nat).all (fun n =>
      (let s := yards.updMe fun x => { x with g := x.g.set 2 (BitVec.ofNat 64 n) }
       ((s.me.gr 2).extractLsb' 0 4).toNat == n && decide (s.me.pend.length < 8) &&
       met (s.launch? 1) (fun l => (s.portByte 0 l.root (l.spill + 32)).isSome))) = true ∧
    met ({ yards with clusters := [] }.launch? 1) (fun l =>
      ({ yards with clusters := [] }.portByte 0 l.root (l.spill + 32)).isNone) = true := by decide +kernel

/-- A line of which L1 holds bytes 0 to 3, clean: an 8-byte access at 0 is not served by it, one of 4 bytes is. -/
def halfLine : State := mapped.setAt (.core 0) { mapped.at' (.core 0) with l1 := [⟨64, 64, 0xF, 0, 0x12345678, []⟩] }

theorem witness_LoadResultsAndSources_partly :
    halfLine.usesL1 halfLine.cur.pl = true ∧ met (l1Find (halfLine.at' (.core 0)) 64) (fun ln =>
      ln.have'.getLsbD 0 && !(ln.dirty.getLsbD 0) && !(ln.have'.getLsbD 4)) = true := by decide +kernel

/-- R89: no 8-byte value is read in two parts. -/
theorem test_partly :
    met (after (reach true false 0x2000 8 1) halfLine) (fun r => (halfLine.srcs true true r.1).all (fun x => match x with
      | .at _ _ _ => true
      | .val _ => false)) = true ∧
    met (after (reach true false 0x2000 4 1) halfLine) (fun r =>
      halfLine.srcs true true r.1 == [.val 0x78, .val 0x56, .val 0x34, .val 0x12]) = true := by decide +kernel

/-- A sleeper of a slice core, and a wake in the cycle in which the sleep of its slot timed out. -/
theorem witness_ThreadLifeResults_slice_sleeper :
    (let s := { onSlice.updMe (fun x => { x with asleep := some ⟨8, .sleep, none⟩ }) with cyc := 1032 }
     let s := s.setAt (.slice 64) { s.at' (.slice 64) with rq := [.arrived packet] }
     (s.slotAt ⟨.slice 64, 0⟩).busy = true ∧ s.vacateReady ⟨.slice 64, 0⟩ = true ∧
     met (s.slotAt ⟨.slice 64, 0⟩).asleep (fun z => decide (z.since + 1024 ≤ s.cyc)) = true ∧ (s.at' (.slice 64)).rq ≠ []) ∧
    (let s := (onTheWay (.wake 0 0) (.core 0)).updMe fun x => { x with timedOut := some 9 }
     s.me.timedOut = some s.cyc ∧ met (s.flight? s.subj) (fun f => s.first f) = true ∧
     (got (exec .wakeArrival s)).me.wake = false) := by decide +kernel

-- exact values

theorem standsFor_one_two : (Fl.fin false 2 0).StandsFor 2 ∧ (Fl.fin false 1 1).StandsFor 2 ∧ (Fl.fin false 1 0).StandsFor 1 :=
  ⟨⟨_, _, _, rfl, by norm_num, .inl (by norm_num)⟩, ⟨_, _, _, rfl, by norm_num, .inl (by norm_num)⟩,
    ⟨_, _, _, rfl, by norm_num, .inl (by norm_num)⟩⟩

/-- exp(-2^-149) lies just below 1, between two neighbouring even multiples of 2^-61. -/
theorem standsFor_exp : (Fl.fin false (2 ^ 61 - 1) (-61)).StandsFor (Real.exp (0 - (2 : ℝ) ^ (-149 : ℤ))) := by
  have h1 : Real.exp (0 - (2 : ℝ) ^ (-149 : ℤ)) < 1 := by
    rw [← Real.exp_zero]
    refine Real.exp_lt_exp.2 ?_
    norm_num
  have h2 := Real.add_one_le_exp (0 - (2 : ℝ) ^ (-149 : ℤ))
  have h0 := Real.exp_pos (0 - (2 : ℝ) ^ (-149 : ℤ))
  refine ⟨_, _, _, rfl, fun _ => ⟨nofun, fun h => absurd h (not_lt.2 h0.le)⟩, .inr ⟨by decide, by decide, ?_, ?_⟩⟩
  · rw [abs_of_pos h0]
    refine lt_of_lt_of_le ?_ h2
    norm_num
  · rw [abs_of_pos h0]
    refine lt_of_lt_of_le h1 ?_
    norm_num

theorem witness_ExponentialAndLogarithmValues :
    (Fmt.fp32.val 0x3F800000).number = some 1 ∧ (exp2Fl (Fmt.fp32.conv 0 false .ieee) (Fmt.fp32.val 0x3F800000)).isSome = true ∧
    (Fl.fin false 2 0).StandsFor ((2 : ℝ) ^ ((1 : ℚ) : ℝ)) ∧
    (Fmt.fp32.val 0x40000000).number = some 2 ∧ (log2Fl (Fmt.fp32.conv 0 false .ieee) (Fmt.fp32.val 0x40000000)).isSome = true ∧
    (Fl.fin false 1 0).StandsFor (Real.logb 2 ((2 : ℚ) : ℝ)) ∧
    (Fmt.fp32.val 1).number = some ((2 : ℚ) ^ (-149 : ℤ)) ∧ (Fmt.fp32.val 0).number = some 0 ∧
    (expNegFin (Fmt.fp32.conv 0 false .ieee) 1 (-149)).isSome = true ∧
    (Fl.fin false (2 ^ 61 - 1) (-61)).StandsFor (Real.exp (((0 : ℚ) : ℝ) - (((2 : ℚ) ^ (-149 : ℤ) : ℚ) : ℝ))) := by
  refine ⟨?_, by decide +kernel, ?_, ?_, by decide +kernel, ?_, ?_, ?_, by decide +kernel, ?_⟩
  · rw [show Fmt.fp32.val 0x3F800000 = .fin false 8388608 (-23) from by decide +kernel]
    norm_num [Fl.number]
  · norm_num [standsFor_one_two.1]
  · rw [show Fmt.fp32.val 0x40000000 = .fin false 8388608 (-22) from by decide +kernel]
    norm_num [Fl.number]
  · norm_num [Real.logb_self_eq_one, standsFor_one_two.2.2]
  · rw [show Fmt.fp32.val 1 = .fin false 1 (-149) from by decide +kernel]
    norm_num [Fl.number]
  · rw [show Fmt.fp32.val 0 = .fin false 0 (-149) from by decide +kernel]
    norm_num [Fl.number]
  · have h := standsFor_exp
    push_cast
    exact h

theorem witness_RoundingAndPacking_alike :
    (0 : Nat) < 4 ∧ (2 : ℝ) ≠ 0 ∧ (Fl.fin false 2 0).StandsFor 2 ∧ (Fl.fin false 1 1).StandsFor 2 ∧
    (-2147483648 : Int) ≤ 0 ∧ (0 : Int) < 2147483647 ∧ (Fl.fin true 5 (-1)).number = some (-5 / 2) := by
  refine ⟨by decide, by norm_num, standsFor_one_two.1, standsFor_one_two.2.1, by decide, by decide, ?_⟩
  norm_num [Fl.number]

/-- R120: a tie goes to the even integer; the others go their way. -/
theorem test_to_integer :
    (toInt 0 (-8) 7 (.fin true 5 (-1))).1 = -2 ∧ (toInt 1 (-8) 7 (.fin true 5 (-1))).1 = -2 ∧
    (toInt 2 (-8) 7 (.fin true 5 (-1))).1 = -2 ∧ (toInt 3 (-8) 7 (.fin true 5 (-1))).1 = -3 ∧
    toInt 0 (-8) 7 (.fin false 9 0) = (7, 1) := by decide +kernel

-- Umber

/-- A thread whose trap Umber has: to be killed, a page fault, a service. -/
def umbering (w : UmberWork) : State := withThread fun x => { x with umber := some w, mode := .supervisor, sepc := 0x3000, smode := .user }

theorem witness_TrapEntry_umber :
    ({ umbering .kill with agenda := [.umber (.core 0) 0] } : State).agenda = .umber (.core 0) 0 :: [] ∧
    ([.kill, .page 0x20000, .service 4] : List UmberWork).all (fun w =>
      (umbering w).l2Free && (umbering w).killReady ⟨.core 0, 0⟩ && ((umbering w).slotAt ⟨.core 0, 0⟩).umber == some w &&
      (((umbering w).slotAt ⟨.core 0, 0⟩).tcause.extractLsb' 40 8).toNat == 0 && ((umbering w).launch? 1).isSome) = true ∧
    tabFind (umbering (.page 0x20000)).paging (pageKey ((umbering (.page 0x20000)).rootOf ⟨.core 0, 0⟩) 0x20000) = none ∧
    (tabFind { umbering (.page 0x20000) with paging := [(pageKey 0 0x20000, [])] }.paging (pageKey 0 0x20000)).isSome = true := by
  decide +kernel

/-- R395, R415: a thread killed counts one fault, and its slot is free; service 4 answers the time, 26 cycles at 3.3 GHz being 7 ns. -/
theorem test_umber :
    (let t := (umbering .kill).umberAct ⟨.core 0, 0⟩
     t.me.busy = false ∧ met (t.launch? 1) (fun l => l.faults == 1) = true ∧ (t.deltasOf 0 1).executed = 1) ∧
    (let t := ({ umbering (.service 4) with cyc := 26 } : State).umberAct ⟨.core 0, 0⟩
     t.me.gr 1 = 7 ∧ t.me.pc = 0x3000 ∧ t.me.mode = .user) := by decide +kernel

/-- R53: a vector addition on slice core 64. -/
theorem witness_TurnsAndIssueChecks_slice :
    met (after fetch (onSlice.withFetchWord 64 0x80000A1060000000)) (fun r => r.2.cur.pl == .slice 64 &&
      !(sliceOpcode (fOp r.1).toNat) && met (decode r.1) (fun d => d.eb == 0 && !(supervisorOnly d.ins) &&
        !((onSlice.withFetchWord 64 0x80000A1060000000).me.isPend .pw) &&
        (onSlice.withFetchWord 64 0x80000A1060000000).me.pred d.g != d.gn)) = true := by decide +kernel

-- memory

theorem witness_LocalAtomicCacheFenceAndResidencyResults_forms :
    onSlice.cur.pl = .slice 64 ∧ Reads (plain 9) mapped 0x2000 mapped ∧ apertureByte mapped 0x2000 ≠ some (.ls 0 0x2000) ∧
    Does (lookPage (mapped.address ⟨9, 0, 0, 0⟩)) mapped mapped ∧
    (∃ b, Checked 0 false (mapped.address ⟨5, 0, 0, 0⟩) 1 1 mapped [b] mapped ∧ b.loc = .ls 0 0) ∧
    (List.range 4096).all (fun j => mapped.quietAt (.core 0) (.dev (0x2000 / 4096 * 4096 + j))) = true :=
  ⟨rfl, rfl, by decide +kernel, rfl, ⟨_, rfl, rfl⟩, by decide +kernel⟩

theorem test_lsrmw_elsewhere :
    (got (exec (.lsrmw 4 9 2 0 true 0) mapped)).me.tcause.extractLsb' 0 16 = 4 ∧
    (got (exec (.lsrmw 4 5 2 0 true 0) onSlice)).me.hold = .depart (.core 0) false none ∧
    (got (exec (.reside ⟨5, 0, 0, 0⟩) mapped)).me.tcause.extractLsb' 0 16 = 4 := by decide +kernel

/-- A line that the host may hold stands in the way of an atomic at its home; one result pends besides seven others. -/
theorem witness_AtomicResults_held :
    (onSlice.noteHost [⟨0x2000, .dev 0x2000, 0x23, 16⟩]).hostHeld [.dev 0x2000] = [64] ∧
    ([1, 2, 3, 4, 5, 6] : List Nat).length + (if (1 : BitVec 6) = 0 then 0 else 2) ≤ 8 := by decide +kernel

theorem witness_MigrationByInstruction_page :
    Does (lookPage 0x2000) movers movers ∧ Reads (plain 2) movers 0x2000 movers := ⟨rfl, rfl⟩

-- vectors

theorem witness_LaneMovementResults_formats :
    (∃ t, MayIssue 0x8E [plain 3] [plain 4] [.src (gf 3)] vecs t) ∧ (∃ t, MayIssue 0xA5 [plain 3] [plain 4] [.src (gf 3)] vecs t) ∧
    (∃ t, MayIssue 0xA6 [plain 3] [plain 4] [.src (gf 3)] vecs t) ∧ fmtElem 0x3F = none ∧
    (fmtElem 0x15 = some .pal → (2 : Nat) ≤ 2) ∧ ((4 : Nat) ≤ (5 : BitVec 3).toNat ∧ (6 : BitVec 3) ≠ 7) ∧
    ¬((4 : Nat) ≤ (1 : BitVec 3).toNat) ∧
    fieldTrap [.vec (plain 4), .name (plain 31)] (vecs.updMe fun x => { x with nalloc := 8 }).me = some 31 :=
  ⟨⟨_, rfl⟩, ⟨_, rfl⟩, ⟨_, rfl⟩, by decide +kernel, fun _ => le_rfl, by decide, by decide, by decide +kernel⟩

/-- R304: of the scores 1, 3, 2 the two best weigh 3/5 and 2/5; +infinity takes all. -/
theorem test_vtopk_norm :
    (let f := lanes 32 (List.replicate 16 0xFF800000 |>.set 0 0x3F800000 |>.set 1 0x40400000 |>.set 2 0x40000000)
     let s := vecs.updMe fun x => { x with f := x.f.set 1 f, pw := 0xFFFF }
     laneOf 32 (got (exec (.vtopk ⟨plain 4, plain 1, 0, 5, false⟩ 1 true 0) s)) 4 0 = 0x3F19999A ∧
     laneOf 32 (got (exec (.vtopk ⟨plain 4, plain 1, 0, 5, false⟩ 1 true 0) s)) 4 1 = 0x3ECCCCCD) := by decide +kernel

/-- R300: unsigned and unordered compares. -/
theorem test_vcmp_codes :
    (let s := vecs.updMe fun x => { x with f := (x.f.set 1 (lanes 32 [1, 0xFFFFFFFF, 0x7FC00000])).set 2 (lanes 32 [0xFFFFFFFF, 1, 0]) }
     (got (exec (.vcmp ⟨plain 4, plain 1, plain 2, 0, 1, false⟩ 6) s)).me.gr 4 &&& 7 = 1 ∧
     (got (exec (.vcmp ⟨plain 4, plain 1, plain 2, 0, 1, false⟩ 7) s)).me.gr 4 &&& 7 = 6) := by decide +kernel

/-- A poisoned line read at once: a data error late. -/
theorem witness_StreamAndSequencerResults_poison :
    (let s := { mapped with poison := [64] }
     let bs : List PByte := [⟨0x2000, .dev 0x2000, 3, 16⟩]
     (∀ b ∈ bs, s.quietAt s.cur.pl b.loc = true) ∧ (s.useLines (srcLines (s.srcs true true bs))).isSome = true ∧
     s.srcPoison (s.srcs true true bs) = true) := by decide +kernel

-- matrices and engines

theorem witness_MatrixResults_unclaimed :
    ((vecs.at' (.core 0)).acc[0]).owner ≠ some vecs.cur.k ∧ Ready [.src (plain 7), .src (plain 1)] vecs vecs ∧
    Passes accessGate vecs ∧ Ready [.src (plain 7), .src (plain 1), .src (plain 2)] vecs vecs ∧ vecs.me.stage ≠ 1 :=
  ⟨by decide +kernel, rfl, rfl, rfl, by decide +kernel⟩

theorem test_unclaimed :
    ([.mma 0 7 7 1, .mload 0 7 1, .mstore 0 7 1] : List Instr).all (fun i =>
      (got (exec i vecs)).me.tcause.extractLsb' 0 16 == cAcc) = true := by decide +kernel

theorem witness_MatrixResults_warm :
    (claimed.at' claimed.cur.pl).l1Busy = false ∧
    (claimed.warmMove true (claimed.at' claimed.cur.pl).acc[0] 0x2000 0).isSome = true ∧
    (claimed.warmMove false (claimed.at' claimed.cur.pl).acc[0] 0x2000 0).isSome = true := by decide +kernel

/-- The products 1 x 1 and 2 x 3 with scales 1: 7 onto 0. -/
theorem witness_TileOperationResults_float :
    (Fl.fin false 1 0).number = some 1 ∧ (Fl.fin false 7 0).number = some 7 ∧ (Fl.fin false 2 0).number = some 2 ∧
    (Fl.fin false 3 0).number = some 3 ∧
    ([((1 : ℚ), (1 : ℚ)), (2, 3)].map (fun p => p.1 * p.2)).sum * 1 * 1 = 7 ∧ (7 : ℚ) ≠ 0 ∧
    (Fmt.fp32.val (Fmt.fp32.conv 0 false .ieee (.fin false 7 0)).1).number = some 7 ∧
    (Fmt.fp32.val ((0 : BitVec 32).toNat)).number = some 0 ∧ (0 : ℚ) + 7 ≠ 0 := by
  refine ⟨?_, ?_, ?_, ?_, by norm_num, by norm_num, ?_, ?_, by norm_num⟩
  · norm_num [Fl.number]
  · norm_num [Fl.number]
  · norm_num [Fl.number]
  · norm_num [Fl.number]
  · rw [show Fmt.fp32.val (Fmt.fp32.conv 0 false .ieee (.fin false 7 0)).1 = .fin false 14680064 (-21) from by decide +kernel]
    norm_num [Fl.number]
  · rw [show Fmt.fp32.val ((0 : BitVec 32).toNat) = .fin false 0 (-149) from by decide +kernel]
    norm_num [Fl.number]

theorem test_float_segment :
    segStep false 0 [.fin false 1 0, .fin false 2 0] [.fin false 1 0, .fin false 3 0] (.fin false 1 0) (.fin false 1 0) =
      (0x40E00000, 0) := by decide +kernel

/-- The head of a queue with a record that reads, and its tile operation. -/
theorem witness_TileOperationResults_product :
    (let t := queued.testHeads queued.subj
     met (t.core' 0).pickHead (fun p =>
       let v : State := { t with cur := ⟨.core 0, p.2.slot⟩ }
       (v.warmTile p.2 ((t.core' 0).acc' p.2.acc)).isSome && (v.tensor p.2.a).toOption.isSome && (v.tensor p.2.b).toOption.isSome &&
       (v.tileOp p.2 ((t.core' 0).acc' p.2.acc)).toOption.isSome)) = true := by decide +kernel

theorem witness_EngineResults_warm :
    met (copying.cmds.find? (fun c => c.id == copying.subj)) (fun k =>
      (({ copying with cur := ⟨.core 0, 0⟩ } : State).warmCmd k).isSome) = true := by decide +kernel

-- the Yard

/-- A siding of 256 records of bucket 7, and 20 blocks of spill area free. -/
def crowded : State :=
  let s := { pushing 7 with mem := Memory.writeNat (Memory.writeNat [] 0x4008 4 20) 0x4000 4 0 }
  s.setAt (.core 0) { s.at' (.core 0) with siding := (List.range 256).map fun k => (k, entry 7 k), sorder := 256 }

theorem witness_YardInstructionResults_spill :
    (crowded.core' 0).freeEntry = none ∧ (∀ p ∈ (crowded.core' 0).siding, p.1 < 256) ∧
    met (crowded.launch? 1) (fun l => (crowded.allocBlock l).isSome) = true := by decide +kernel

theorem witness_YardInstructionResults_pending :
    (let s := yards.updMe fun x => { x with pend := (List.range 8).map fun k => PReg.g (k + 8) }
     Ready [.dst (gf 4), .src (gf 5)] s s ∧ Passes accessGate s ∧ (4 : BitVec 4) ≠ 0 ∧ 8 ≤ s.me.pend.length) :=
  ⟨rfl, rfl, by decide, by decide⟩

/-- A peer's announcement; a record taken back once uncoupled; a slot released in this cycle. -/
theorem witness_YardEventResults_more :
    (let s : State := { yards with launches := yards.launches.map fun l => { l with yard.transit := [task 5] } }
     met (s.launch? 1) (fun l => !l.yard.coupled && l.yard.transit == [task 5] && s.l2Free && (s.pushFar 0 l (task 5)).isSome) = true) ∧
    (let s := (filling none).setCore 0 { (filling none).core' 0 with
      res := (List.range 64).map fun k => (k, if k = 0 then { resReset with rel := some (filling none).cyc } else ⟨true, true, 0, 64, [], none, []⟩) }
     (s.core' 0).freeRes s.cyc = none ∧ (s.core' 0).relRes s.cyc = true ∧
     met (tabFind (s.core' 0).siding 0) (fun e => e.fill == none && decide (e.retry ≤ s.cyc) &&
       bestEntry (s.core' 0).siding (s.wantsFill 0) == some (0, e)) = true) := by decide +kernel

-- SPEC that has been walked, a trap of a slice core that came late, walks

theorem witness_MordantResults_resumed :
    (let w : Residual := ⟨0x2000, 7, List.replicate 9 0, [0], [], 20⟩
     let s := clipping.updMe fun x => { x with spec := some ⟨8, some 8, false, some w, none⟩ }
     met s.me.spec (fun r => r.walk == some w && r.stop == none) = true ∧ Ready [.dst (gf 6), .src (gf 7)] s s ∧ s.l2Free = true ∧
     (s.launch? s.me.launch).isSome = true) := ⟨by decide +kernel, rfl, by decide +kernel, by decide +kernel⟩

/-- R192, R366: the walk's nine words are placed when its cycles are over, with the handle of the first unit. -/
theorem test_spec_resumed :
    (let w : Residual := ⟨0x2000, 7, List.replicate 9 0, [0], [], 20⟩
     let t := got (exec (.spec 6 7) (clipping.updMe fun x => { x with spec := some ⟨8, some 8, false, some w, none⟩ }))
     t.me.gr 6 = 0x0001000000000083 ∧ t.me.hold = .untilCyc 28 ∧ t.me.pc = 0x1008) := by decide +kernel

theorem witness_ErrorAndBootResults_sites :
    (let s := withThread id
     (s.slotAt ⟨.core 0, 0⟩).busy = true ∧ (s.slotAt ⟨.core 0, 0⟩).late = none ∧ (s.slotAt ⟨.core 0, 0⟩).lateRun = false) ∧
    (failingBeat 16).l2Free = true ∧ (failingBeat 16).liveClusters ≠ [] ∧ base.nearClusters 0x0100000000000005 ≠ [] ∧
    (1150 ≤ ({ base with temp := 1150 } : State).temp ∧ base.temp < 1150) := by decide +kernel

/-- R463: an uncorrectable error of an instruction cache drops the line and counts as correctable. -/
theorem test_icache_error :
    (let s := base.setIcache (.core 0) [(1, 0), (2, 0)]
     let t := got (exec (.uncorrectableError (.icache (.core 0) 0) 0) s)
     (t.icacheOf (.core 0)).map (fun e => e.1) = [2] ∧ (t.errOf (unitOf (.core 0))).inWindow = 1) := by decide +kernel

end Sys2Proof.Tests
end

section
/-! PROOFS. The shared banks (R34, R227): in which order the queued writes land, what a bank shows once they have, and
what a write that issues adds to them. -/

namespace Sys2Proof.Machine

-- the order of landing

/-- R34: a takes effect no later than b, the lower-numbered slot last within one cycle: the order that `sharedDue` sorts by. -/
abbrev SharedWr.LandsBy (a b : SharedWr) : Prop := a.from' < b.from' ∨ (a.from' = b.from' ∧ b.slot ≤ a.slot)

theorem SharedWr.landsBy_total (a b : SharedWr) : a.LandsBy b ∨ b.LandsBy a := by
  simp only [SharedWr.LandsBy]; omega

theorem SharedWr.LandsBy.trans {a b c : SharedWr} (hab : a.LandsBy b) (hbc : b.LandsBy c) : a.LandsBy c := by
  simp only [SharedWr.LandsBy] at *; omega

theorem sharedDue_perm (q : List SharedWr) (now : Nat) :
    (sharedDue q now).Perm (q.filter fun w => decide (w.from' ≤ now)) :=
  List.perm_insertionSort ..

theorem sharedDue_pairwise (q : List SharedWr) (now : Nat) : (sharedDue q now).Pairwise SharedWr.LandsBy :=
  haveI : Std.Total SharedWr.LandsBy := ⟨SharedWr.landsBy_total⟩
  haveI : IsTrans SharedWr SharedWr.LandsBy := ⟨fun _ _ _ => SharedWr.LandsBy.trans⟩
  List.pairwise_insertionSort ..

/-- A due write stands in the landing order with only other due writes of the queue after it, each of which it lands by. -/
theorem sharedDue_split {l r : List SharedWr} {w : SharedWr} {now : Nat} (hw : w.from' ≤ now) :
    ∃ before later, sharedDue (l ++ w :: r) now = before ++ w :: later ∧
      ∀ x ∈ later, x ∈ l ++ r ∧ x.from' ≤ now ∧ w.LandsBy x := by
  have hperm := sharedDue_perm (l ++ w :: r) now
  have hmem : w ∈ sharedDue (l ++ w :: r) now := hperm.mem_iff.2 (by simp [hw])
  obtain ⟨before, later, hsplit⟩ := List.append_of_mem hmem
  have hpair := sharedDue_pairwise (l ++ w :: r) now
  rw [hsplit] at hperm hpair
  have hrest : (before ++ later).Perm ((l ++ r).filter fun w => decide (w.from' ≤ now)) := by
    simp only [List.filter_append, List.filter_cons, hw, decide_true, if_true] at hperm ⊢
    exact (List.perm_middle.symm.trans (hperm.trans List.perm_middle)).cons_inv
  have hlater := (List.pairwise_cons.1 (List.pairwise_append.1 hpair).2.1).1
  refine ⟨before, later, hsplit, fun x hx => ?_⟩
  obtain ⟨hqueued, hdue⟩ := List.mem_filter.1 (hrest.mem_iff.1 (List.mem_append_right before hx))
  exact ⟨hqueued, of_decide_eq_true hdue, hlater x hx⟩

-- landing

/-- The banks with one write landed, as `CoreSt.settle` lands it (`CoreSt.settle_eq_foldl`). -/
def CoreSt.land (c : CoreSt) (w : SharedWr) : CoreSt :=
  if w.vec then { c with c := c.c.setIfInBounds w.idx w.val }
  else { c with s := c.s.setIfInBounds w.idx (w.val.setWidth 64) }

theorem CoreSt.settle_eq_foldl (c : CoreSt) (now : Nat) :
    c.settle now = (sharedDue c.sharedQ now).foldl CoreSt.land
      { c with sharedQ := c.sharedQ.filter (fun w => decide (now < w.from')) } := rfl

/-- Register n of the bank that vec names (c0-c31 or s0-s31) holds v. -/
def CoreSt.Shows (c : CoreSt) (vec : Bool) (n : Nat) (h : n < 32) (v : Vec) : Prop :=
  (vec = false → c.s[n] = v.setWidth 64) ∧ (vec = true → c.c[n] = v)

theorem CoreSt.land_shows (c : CoreSt) (w : SharedWr) (h : w.idx < 32) : (c.land w).Shows w.vec w.idx h w.val := by
  constructor <;> intro hv <;> simp [CoreSt.land, hv]

theorem CoreSt.Shows.land {c : CoreSt} {vec : Bool} {n : Nat} {h : n < 32} {v : Vec} (hc : c.Shows vec n h v)
    {w : SharedWr} (hw : ¬(w.vec = vec ∧ w.idx = n)) : (c.land w).Shows vec n h v := by
  obtain ⟨hs, hvec⟩ := hc
  by_cases hsame : w.vec = vec
  · have hidx : w.idx ≠ n := fun e => hw ⟨hsame, e⟩
    subst hsame
    constructor <;> intro hv <;> simp_all [CoreSt.land]
  · constructor <;> intro hv <;> simp_all [CoreSt.land]

theorem CoreSt.Shows.foldl_land {vec : Bool} {n : Nat} {h : n < 32} {v : Vec} (l : List SharedWr)
    (hl : ∀ w ∈ l, ¬(w.vec = vec ∧ w.idx = n)) {c : CoreSt} (hc : c.Shows vec n h v) :
    (l.foldl CoreSt.land c).Shows vec n h v := by
  induction l generalizing c with
  | nil => exact hc
  | cons w l ih => exact ih (fun x hx => hl x (List.mem_cons_of_mem w hx)) (hc.land (hl w List.mem_cons_self))

@[simp] theorem CoreSt.land_sharedQ (c : CoreSt) (w : SharedWr) : (c.land w).sharedQ = c.sharedQ := by
  unfold CoreSt.land; split <;> rfl

theorem CoreSt.foldl_land_sharedQ (l : List SharedWr) (c : CoreSt) : (l.foldl CoreSt.land c).sharedQ = c.sharedQ := by
  induction l generalizing c with
  | nil => rfl
  | cons w l ih => rw [List.foldl_cons, ih, CoreSt.land_sharedQ]

-- the banks of a cycle

@[simp] theorem CoreSt.settle_sharedQ (c : CoreSt) (now : Nat) :
    (c.settle now).sharedQ = c.sharedQ.filter (fun w => decide (now < w.from')) := by
  rw [CoreSt.settle_eq_foldl, CoreSt.foldl_land_sharedQ]

/-- R34: a due write remains when every other due write to its register lands strictly before it. -/
theorem CoreSt.settle_shows_last {c : CoreSt} {w : SharedWr} {l r : List SharedWr} {now : Nat} (h : w.idx < 32)
    (hq : c.sharedQ = l ++ w :: r) (hdue : w.from' ≤ now)
    (hlast : ∀ x ∈ l ++ r, x.vec = w.vec → x.idx = w.idx → x.from' ≤ now → ¬w.LandsBy x) :
    (c.settle now).Shows w.vec w.idx h w.val := by
  obtain ⟨before, later, hsplit, hlater⟩ := sharedDue_split (l := l) (r := r) hdue
  rw [CoreSt.settle_eq_foldl, hq, hsplit, List.foldl_append, List.foldl_cons]
  refine (CoreSt.land_shows _ w h).foldl_land later fun x hx ⟨hv, hi⟩ => ?_
  obtain ⟨hmem, hxdue, hby⟩ := hlater x hx
  exact hlast x hmem hv hi hxdue hby

theorem sharedDue_eq_nil {q : List SharedWr} {now : Nat} (h : ∀ w ∈ q, now < w.from') : sharedDue q now = [] := by
  have hnone : (q.filter fun w => decide (w.from' ≤ now)) = [] := by simpa using h
  exact (hnone ▸ sharedDue_perm q now).eq_nil

/-- R227: with no write due, the banks are as they stand. -/
theorem CoreSt.settle_eq_self {c : CoreSt} {now : Nat} (h : ∀ w ∈ c.sharedQ, now < w.from') : c.settle now = c := by
  have hall : (c.sharedQ.filter fun w => decide (now < w.from')) = c.sharedQ := by simpa using h
  rw [CoreSt.settle_eq_foldl, sharedDue_eq_nil h, hall, List.foldl_nil]

/-- Once every queued write is due, later cycles find the same banks. -/
theorem CoreSt.settle_eq_settle {c : CoreSt} {now later : Nat} (h : ∀ w ∈ c.sharedQ, w.from' ≤ now)
    (hle : now ≤ later) : c.settle later = c.settle now := by
  have hdue : ∀ k, now ≤ k → (c.sharedQ.filter fun w => decide (w.from' ≤ k)) = c.sharedQ ∧
      (c.sharedQ.filter fun w => decide (k < w.from')) = [] := by
    intro k hk
    simpa using fun w hw => (h w hw).trans hk
  obtain ⟨hnow, hnow'⟩ := hdue now le_rfl
  obtain ⟨hlat, hlat'⟩ := hdue later hle
  simp only [CoreSt.settle, sharedDue, hnow, hnow', hlat, hlat']

-- a write that issues

theorem fldEff_of_not_rel {f : Fld} (h : f.rel = false) (x : Slot) : fldEff f x = f.code := by
  simp [fldEff, fldNum, h]

/-- R227, R220: what a write to a shared register by an instruction of latency k adds to the bank's queue. -/
theorem State.wrote_shared {s : State} {k : Nat} {f : Fld} {v : Word} (h : 32 ≤ (fldEff f s.me).toNat) :
    s.wrote k f v = s.setAt s.cur.pl { (s.at' s.cur.pl).settle s.cyc with
      sharedQ := ((s.at' s.cur.pl).settle s.cyc).sharedQ ++
        [⟨s.cyc + k, s.cur.k, false, (fldEff f s.me).toNat - 32, v.setWidth 512⟩] } := by
  have hwg : wg k f v s = sharedWrite k false ((fldEff f s.me).toNat - 32) (v.setWidth 512) s := by
    have h18 : fldEff f s.me ≠ 0x18 := fun e => by simp [e] at h
    have h19 : fldEff f s.me ≠ 0x19 := fun e => by simp [e] at h
    simp only [wg, bind_apply, getS_apply]
    rw [← State.me, if_neg (by omega), if_neg (by omega), if_neg h18, if_neg h19, if_pos h]
  simpa [hwg, sharedWrite] using (wg_apply k f v s).symm

/-- R34: the lowest-numbered slot's write of a cycle is the last to land. -/
theorem settle_shows_lowest_slot (c : CoreSt) (a cy now n : Nat) (vec : Bool) (v : Vec) (h : n < 32)
    (l r : List SharedWr) (hq : c.sharedQ = l ++ ⟨cy, a, vec, n, v⟩ :: r) (hdue : cy ≤ now)
    (hlow : ∀ w ∈ l ++ r, w.vec = vec → w.idx = n → w.from' ≤ now →
      w.from' < cy ∨ (w.from' = cy ∧ a < w.slot)) :
    (c.settle now).Shows vec n h v :=
  CoreSt.settle_shows_last (w := ⟨cy, a, vec, n, v⟩) h hq hdue fun x hx hv hi hxdue hby => by
    have := hlow x hx hv hi hxdue
    simp only [SharedWr.LandsBy] at hby
    omega

/-- Settles O12. R34 is the landing order, in which only writes of other registers follow the lowest-numbered slot's. R227 is the
same fact of the queue that the issuing write leaves, which holds that write alone, and before its cycle nothing of that queue
is due. -/
theorem sharedRegisterWrites : Obligations.SharedRegisterWrites := by
  unfold Obligations.SharedRegisterWrites
  refine ⟨settle_shows_lowest_slot, ?_⟩
  intro s f k v n h c' hrel hcode hlanded hc' t
  have heff : (fldEff f s.me).toNat = n + 32 := by rw [fldEff_of_not_rel hrel, hcode]
  have hplace : t.at' s.cur.pl = { (s.at' s.cur.pl).settle s.cyc with
      sharedQ := [⟨s.cyc + k, s.cur.k, false, n, v.setWidth 512⟩] } := by
    rw [show t = _ from State.wrote_shared (by omega)]
    simpa [heff] using hlanded
  constructor
  · intro hnew
    have hshows := settle_shows_lowest_slot (t.at' s.cur.pl) s.cur.k (s.cyc + k) c' n false (v.setWidth 512) h [] []
      (by rw [hplace]; rfl) hnew (by simp)
    simpa using hshows.1 rfl
  · intro hold
    rw [CoreSt.settle_eq_self (by simpa [hplace] using hold), hplace, CoreSt.settle_eq_settle hlanded hc']

end Sys2Proof.Machine
end

section
/-! PROOFS. The integer operations: the words of the tables of R246 to R250 against the model's, and the four shapes of an
integer instruction (three registers, a division, two registers, an immediate). -/

namespace Sys2Proof.Machine

-- the values (R246, R248)

theorem mul_eq_ofNat {n : Nat} (x y : BitVec n) : x * y = BitVec.ofNat n (x.toNat * y.toNat) := by
  simp [BitVec.ofNat_mul]

theorem umod_eq_ofNat {n : Nat} (x y : BitVec n) :
    x % y = BitVec.ofNat n (x.toNat - y.toNat * (x.toNat / y.toNat)) := by
  rw [BitVec.umod_def, Nat.mod_eq_sub]

theorem shiftLeft_eq_ofNat {n : Nat} (x : BitVec n) (k : Nat) : x <<< k = BitVec.ofNat n (x.toNat * 2 ^ k) :=
  BitVec.eq_of_toNat_eq (by simp [Nat.shiftLeft_eq])

theorem ushiftRight_eq_ofNat {n : Nat} (x : BitVec n) (k : Nat) : x >>> k = BitVec.ofNat n (x.toNat / 2 ^ k) := by
  rw [← Nat.shiftRight_eq_div_pow, ← BitVec.toNat_ushiftRight, BitVec.ofNat_toNat, BitVec.setWidth_eq]

theorem sshiftRight_eq_ofInt {n : Nat} (x : BitVec n) (k : Nat) :
    x.sshiftRight k = BitVec.ofInt n (x.toInt / 2 ^ k) := by
  rw [BitVec.sshiftRight_eq, Int.shiftRight_eq_div_pow]
  norm_cast

/-- The lesser of two words in the order of what f reads them as, where g turns a reading back into its word. -/
theorem ite_lt_eq_min {α β : Type} [LinearOrder β] {f : α → β} {g : β → α} (hgf : Function.LeftInverse g f) (x y : α) :
    (if f x < f y then x else y) = g (min (f x) (f y)) := by
  split
  case isTrue h => rw [min_eq_left h.le, hgf]
  case isFalse h => rw [min_eq_right (not_lt.1 h), hgf]

theorem ite_lt_eq_max {α β : Type} [LinearOrder β] {f : α → β} {g : β → α} (hgf : Function.LeftInverse g f) (x y : α) :
    (if f x < f y then y else x) = g (max (f x) (f y)) := by
  split
  case isTrue h => rw [max_eq_right h.le, hgf]
  case isFalse h => rw [max_eq_left (not_lt.1 h), hgf]

theorem leftInverse_ofInt_toInt : Function.LeftInverse (BitVec.ofInt 64) BitVec.toInt := fun _ => BitVec.ofInt_toInt

theorem leftInverse_ofNat_toNat : Function.LeftInverse (BitVec.ofNat 64) BitVec.toNat := fun x => by simp

theorem signedMin_eq_ofInt (x y : Word) : signedMin x y = BitVec.ofInt 64 (min x.toInt y.toInt) := by
  simp only [signedMin, BitVec.slt_eq_decide, decide_eq_true_eq, ite_lt_eq_min leftInverse_ofInt_toInt]

theorem signedMax_eq_ofInt (x y : Word) : signedMax x y = BitVec.ofInt 64 (max x.toInt y.toInt) := by
  simp only [signedMax, BitVec.slt_eq_decide, decide_eq_true_eq, ite_lt_eq_max leftInverse_ofInt_toInt]

theorem unsignedMin_eq_ofNat (x y : Word) : unsignedMin x y = BitVec.ofNat 64 (min x.toNat y.toNat) := by
  simp only [unsignedMin, BitVec.ult_eq_decide, decide_eq_true_eq, ite_lt_eq_min leftInverse_ofNat_toNat]

theorem unsignedMax_eq_ofNat (x y : Word) : unsignedMax x y = BitVec.ofNat 64 (max x.toNat y.toNat) := by
  simp only [unsignedMax, BitVec.ult_eq_decide, decide_eq_true_eq, ite_lt_eq_max leftInverse_ofNat_toNat]

/-- R249: LIH's upper half is the immediate, its lower half d's own. -/
theorem append_setWidth_eq_ofNat (imm : BitVec 32) (x : Word) :
    (imm ++ x.setWidth 32 : BitVec 64) = BitVec.ofNat 64 (imm.toNat * 2 ^ 32 + x.toNat % 2 ^ 32) := by
  rw [← BitVec.toNat_setWidth, ← toNat_append_mul, BitVec.ofNat_toNat, BitVec.setWidth_eq]

-- the bit counts (R250)

/-- n zero bits below bit m, and a one under them unless they are all m: leadZeros counts n. -/
theorem leadZeros_eq {x : Word} {m n : Nat} (hle : n ≤ m) (hzero : ∀ j, m - n ≤ j → j < m → x.getLsbD j = false)
    (hone : n < m → x.getLsbD (m - 1 - n) = true) : leadZeros x m = n := by
  induction m generalizing n with
  | zero => exact (Nat.le_zero.1 hle).symm
  | succ m ih =>
    cases n with
    | zero => simpa [leadZeros] using hone
    | succ n =>
      have htop : x.getLsbD m = false := hzero m (by omega) (by omega)
      have hrest : leadZeros x m = n := ih (by omega) (fun j hj hjm => hzero j (by omega) (by omega))
        fun h => by rw [← hone (by omega)]; congr 1; omega
      simp [leadZeros, htop, hrest, Nat.add_comm]

/-- n zero bits from bit i on, and a one above them unless they are all m: trailZeros counts n. -/
theorem trailZeros_eq {x : Word} {i m n : Nat} (hle : n ≤ m) (hzero : ∀ j, j < n → x.getLsbD (i + j) = false)
    (hone : n < m → x.getLsbD (i + n) = true) : trailZeros x i m = n := by
  induction m generalizing i n with
  | zero => exact (Nat.le_zero.1 hle).symm
  | succ m ih =>
    cases n with
    | zero => simpa [trailZeros] using hone
    | succ n =>
      have hlow : x.getLsbD i = false := hzero 0 (by omega)
      have hshift : ∀ j, i + 1 + j = i + (j + 1) := fun j => by omega
      have hrest : trailZeros x (i + 1) m = n := ih (by omega) (fun j hj => by rw [hshift]; exact hzero _ (by omega))
        fun h => by rw [hshift]; exact hone (by omega)
      simp [trailZeros, hlow, hrest, Nat.add_comm]

theorem onesCount_eq_countP (x : Word) : onesCount x = (List.range 64).countP fun j => x.getLsbD j :=
  List.countP_eq_length_filter.symm

-- the shapes of an integer instruction

section
variable {o : DAB} {s s1 s2 s3 : State} {x y : Word} (hready : Ready [.dst o.d, .src o.a, .src o.b] s s1)
  (hx : Reads o.a s1 x s2) (hy : Reads o.b s2 y s3)
include hready hx hy

/-- R227: a three-register instruction of value v writes it to d and ends. -/
theorem alu3_next {k : Nat} {f : Word → Word → Word} {v : Word} (hv : f x y = v) :
    alu3 k o f s = .next (s3.wrote k o.d v).ended :=
  run_ok (by simp [hready.eq, hx.eq, hy.eq, hv, wg_apply])

theorem divide_next {f : Word → Word → Word} {v : Word} (hne : y ≠ 0) (hv : f x y = v) :
    divide o f s = .next (s3.wrote 7 o.d v).ended :=
  run_ok (by simp only [bind_apply, hready.eq, getS_apply, hx.eq, hy.eq, if_neg hne, hv, wg_apply, done_apply])

/-- R247: the trap is raised from the state in which the division was tried, whatever its operands took from channels. -/
theorem divide_zero {f : Word → Word → Word} (hzero : y = 0) : divide o f s = .next (s1.trapped cDivide x) :=
  run_error (by simp [hready.eq, hx.eq, hy.eq, hzero, trapFrom])

end

theorem alu2_next {o : DA} {s s1 s2 : State} {x v : Word} {f : Word → Word} (hready : Ready [.dst o.d, .src o.a] s s1)
    (hx : Reads o.a s1 x s2) (hv : f x = v) : alu2 o f s = .next (s2.wrote 4 o.d v).ended :=
  run_ok (by simp [hready.eq, hx.eq, hv, wg_apply])

theorem aluI_next {k : Nat} {d a : BitVec 6} {s s1 s2 : State} {x v : Word} {f : Word → Word}
    (hready : Ready [.dst (plain d), .src (plain a)] s s1) (hx : Reads (plain a) s1 x s2) (hv : f x = v) :
    aluI k d a f s = .next (s2.wrote k (plain d) v).ended :=
  run_ok (by simp [hready.eq, hx.eq, hv, wg_apply])

theorem execLi_next {d : BitVec 6} {imm : BitVec 32} {s s1 : State} (hready : Ready [.dst (plain d)] s s1) :
    execLi d imm s = .next (s1.wrote 4 (plain d) (imm.signExtend 64)).ended :=
  run_ok (by simp [hready.eq, wg_apply])

/-- LIH reads d, which it writes (R249). -/
theorem execLih_next {d : BitVec 6} {imm : BitVec 32} {s s1 s2 : State} {x : Word}
    (hready : Ready [.dst (plain d), .src (plain d)] s s1) (hx : Reads (plain d) s1 x s2) :
    execLih d imm s = .next (s2.wrote 4 (plain d) (imm ++ x.setWidth 32 : BitVec 64)).ended :=
  run_ok (by simp [hready.eq, hx.eq, wg_apply])

-- the statements

/-- Settles O15: each operation is a three-register instruction or a division, and its value is the table's. -/
theorem registerIntegerResults : Obligations.RegisterIntegerResults := by
  unfold Obligations.RegisterIntegerResults
  intro o s s1 s2 s3 x y hready hx hy gives
  have three {k : Nat} {f : Word → Word → Word} {v : Word} (hv : f x y = v) :
      alu3 k o f s = .next (s3.wrote k o.d v).ended := alu3_next hready hx hy hv
  have division (hne : y ≠ 0) {f : Word → Word → Word} {v : Word} (hv : f x y = v) :
      divide o f s = .next (s3.wrote 7 o.d v).ended := divide_next hready hx hy hne hv
  refine ⟨three rfl, three rfl, three (mul_eq_ofNat x y), three rfl, three rfl, fun hne => ⟨division hne rfl,
    division hne BitVec.udiv_def, division hne (congrArg _ (Int.tmod_def ..)), division hne (umod_eq_ofNat x y)⟩,
    three rfl, three rfl, three rfl, three rfl, three (shiftLeft_eq_ofNat ..), three (ushiftRight_eq_ofNat ..),
    three (sshiftRight_eq_ofInt ..), three (signedMin_eq_ofInt x y), three (signedMax_eq_ofInt x y),
    three (unsignedMin_eq_ofNat x y), three (unsignedMax_eq_ofNat x y), three rfl, three rfl, fun sh => ?_⟩
  exact three (congrArg (x + ·) (shiftLeft_eq_ofNat ..))

/-- Settles O16: the one test of a division is for y = 0, so -2^63 by -1 goes on, with the 64-bit values of quotient and
remainder. -/
theorem divisionByZeroTraps : Obligations.DivisionByZeroTraps := by
  unfold Obligations.DivisionByZeroTraps
  intro o s s1 s2 s3 x y hready hx hy
  constructor
  · intro hzero
    have traps {f : Word → Word → Word} : divide o f s = .next (s1.trapped cDivide x) := divide_zero hready hx hy hzero
    exact ⟨traps, traps, traps, traps⟩
  · rintro rfl rfl
    exact ⟨divide_next hready hx hy (by decide) (by decide), divide_next hready hx hy (by decide) (by decide)⟩

/-- Settles O17, part by part: the immediates, the immediate shifts, LI, LIH, and MOV with the bit counts. -/
theorem immediateAndUnaryResults : Obligations.ImmediateAndUnaryResults := by
  unfold Obligations.ImmediateAndUnaryResults
  refine ⟨?immediates, ?shifts, fun d imm s s1 hready => execLi_next hready, ?lih, ?unary⟩
  case immediates =>
    intro o s s1 s2 x hready hx i gives
    exact ⟨aluI_next hready hx rfl, aluI_next hready hx rfl, aluI_next hready hx rfl, aluI_next hready hx rfl,
      aluI_next hready hx rfl⟩
  case shifts =>
    intro o s s1 s2 x hready hx gives
    exact ⟨aluI_next hready hx (shiftLeft_eq_ofNat ..), aluI_next hready hx (ushiftRight_eq_ofNat ..),
      aluI_next hready hx (sshiftRight_eq_ofInt ..)⟩
  case lih =>
    intro d imm s s1 s2 x hready hx
    rw [← append_setWidth_eq_ofNat]
    exact execLih_next hready hx
  case unary =>
    intro o s s1 s2 x hready hx gives
    refine ⟨alu2_next hready hx rfl, fun n hle hzero hone => ?_, fun n hle hzero hone => ?_,
      alu2_next hready hx (congrArg _ (onesCount_eq_countP x))⟩
    · exact alu2_next hready hx (congrArg _ (leadZeros_eq hle hzero hone))
    · exact alu2_next hready hx (congrArg _ (trailZeros_eq hle (by simpa using hzero) (by simpa using hone)))

end Sys2Proof.Machine
end
